-- ==== Sys2Proof/Word.lean ====
section
/-! DEFINITION. The widths of CORE's registers and ports, and the plainest arithmetic on them
(00_scope.md R12, R13: unsigned values, bit 0 least significant). -/

namespace Sys2Proof

/-- A 32-bit register or command word (10_state.md R22, 30_encoding.md R90). -/
abbrev Word := BitVec 32

/-- One byte of a stream or of a byte table (20_memory.md R60). -/
abbrev Byte := BitVec 8

/-- `zext_32` of a value of any width up to 32 (00_scope.md R13). -/
abbrev zext32 {w : Nat} (v : BitVec w) : Word := v.setWidth 32

/-- A Boolean as the bit 0 or 1. -/
abbrev bit (b : Bool) : Nat := if b then 1 else 0

end Sys2Proof
end

