-- ==== Sys2Proof/Syntax.lean ====
section
/-! DEFINITION. The commands of CORE as syntax: one constructor of `Instr` for each of the 38 rows of
the opcode map (30_encoding.md R93), with the fields of its format (R90, R91). -/

namespace Sys2Proof

/-- The sixteen table ids of the field TBL (10_state.md R36), in the order of their numbers. -/
inductive TableId where
  | chunk | window | freqLL | freqD | freqCL | lenLL | lenD | lenCL
  | codeLL | codeD | codeCL | packed | fname | crcTable | lenRange | distRange
deriving DecidableEq, Repr

/-- The three Huffman alphabets (44_huffman.md R220). -/
inductive Alphabet where
  | ll | d | cl
deriving DecidableEq, Repr

/-- The field SEL: 0 = LL, 1 = D, 2 = CL; 3 is illegal and raises BAD_COMMAND when the command
runs (30_encoding.md R90, 44_huffman.md R220). -/
inductive Sel where
  | ll | d | cl | illegal
deriving DecidableEq, Repr

/-- A command (30_encoding.md R93). `n` is the bit count N, `limit` the depth limit LIMIT. -/
inductive Instr where
  | nop
  | reset
  | clearErr
  | streamInit
  | tblRead (tbl : TableId)
  | tblWrite (tbl : TableId)
  | bwBits (n : Nat)
  | bwBitsR (n : Nat)
  | bwFlush
  | bwByte
  | bwShort
  | bwInt
  | brBits (n : Nat)
  | brByte
  | brShort
  | brInt
  | brAlign
  | crcInit
  | crcUpdate
  | winReset
  | winAdd
  | winFind
  | hufBuild (sel : Sel) (limit : Nat)
  | hufCanon (sel : Sel)
  | hufFixed
  | hufDecode (sel : Sel)
  | clPack
  | clUnpack
  | defEncChunk (final : Bool)
  | defEncStream
  | defDecBlock
  | defDecStream
  | gzWrHeader (fn : Bool)
  | gzRdHeader
  | gzWrTrailer
  | gzRdTrailer
  | gzCompress (fn : Bool)
  | gzDecompress
deriving DecidableEq, Repr

end Sys2Proof
end

