-- ==== Sys2Proof/WellFormed.lean ====
section
/-! DEFINITION. Which terms of `Instr` are commands: each field fits the bits its format gives it
(30_encoding.md R90). Values that fit their field but that the command rejects when it runs (N > 32,
LIMIT = 0, SEL = 3) are well formed: the block accepts them and raises BAD_COMMAND (R94). -/

namespace Sys2Proof

/-- N is a 6-bit field, LIMIT a 4-bit field (30_encoding.md R90); every other field is an
enumeration of exactly the values its bits can hold. -/
def Instr.wellFormed : Instr → Bool
  | .bwBits n => n < 64
  | .bwBitsR n => n < 64
  | .brBits n => n < 64
  | .hufBuild _ limit => limit < 16
  | .nop | .reset | .clearErr | .streamInit | .tblRead _ | .tblWrite _ => true
  | .bwFlush | .bwByte | .bwShort | .bwInt | .brByte | .brShort | .brInt | .brAlign => true
  | .crcInit | .crcUpdate | .winReset | .winAdd | .winFind => true
  | .hufCanon _ | .hufFixed | .hufDecode _ | .clPack | .clUnpack => true
  | .defEncChunk _ | .defEncStream | .defDecBlock | .defDecStream => true
  | .gzWrHeader _ | .gzRdHeader | .gzWrTrailer | .gzRdTrailer | .gzCompress _ | .gzDecompress => true

end Sys2Proof
end

