-- ==== Sys2Proof/Decode.lean ====
section
/-! DEFINITION. The decoder of command words, total and rejecting by name, and the encoder, both
written from the formats and the opcode map of 30_encoding.md R90, R91 and R93. -/

namespace Sys2Proof

/-- Why a word is no command: its opcode is not in the map (30_encoding.md R93, R94). -/
inductive DecodeError where
  | illegalOpcode (opc : Byte)
deriving DecidableEq, Repr

/-- OPC, bits 7:0 (30_encoding.md R90). -/
def opcField (w : Word) : Byte := w.extractLsb' 0 8
/-- N, bits 13:8 (30_encoding.md R90). -/
def nField (w : Word) : Nat := (w.extractLsb' 8 6).toNat
/-- LIMIT, bits 19:16 (30_encoding.md R90). -/
def limitField (w : Word) : Nat := (w.extractLsb' 16 4).toNat
/-- FINAL, bit 24 (30_encoding.md R90). -/
def finalField (w : Word) : Bool := w.getLsbD 24
/-- FN, bit 25 (30_encoding.md R90). -/
def fnField (w : Word) : Bool := w.getLsbD 25

/-- The table a 4-bit id names (10_state.md R36). -/
def tableOfId : Nat → TableId
  | 0 => .chunk
  | 1 => .window
  | 2 => .freqLL
  | 3 => .freqD
  | 4 => .freqCL
  | 5 => .lenLL
  | 6 => .lenD
  | 7 => .lenCL
  | 8 => .codeLL
  | 9 => .codeD
  | 10 => .codeCL
  | 11 => .packed
  | 12 => .fname
  | 13 => .crcTable
  | 14 => .lenRange
  | _ => .distRange

/-- The number of a table (10_state.md R36). -/
def tableIdOf : TableId → Nat
  | .chunk => 0
  | .window => 1
  | .freqLL => 2
  | .freqD => 3
  | .freqCL => 4
  | .lenLL => 5
  | .lenD => 6
  | .lenCL => 7
  | .codeLL => 8
  | .codeD => 9
  | .codeCL => 10
  | .packed => 11
  | .fname => 12
  | .crcTable => 13
  | .lenRange => 14
  | .distRange => 15

/-- SEL: 0 = LL, 1 = D, 2 = CL, 3 illegal (30_encoding.md R90). -/
def selOfBits : Nat → Sel
  | 0 => .ll
  | 1 => .d
  | 2 => .cl
  | _ => .illegal

/-- The two bits of a SEL (30_encoding.md R90). -/
def selBits : Sel → Nat
  | .ll => 0
  | .d => 1
  | .cl => 2
  | .illegal => 3

/-- TBL, bits 11:8 (30_encoding.md R90). -/
def tblField (w : Word) : TableId := tableOfId (w.extractLsb' 8 4).toNat
/-- SEL, bits 9:8 (30_encoding.md R90). -/
def selField (w : Word) : Sel := selOfBits (w.extractLsb' 8 2).toNat

/-- The command a word stands for (30_encoding.md R93). Bits its format does not use are ignored
(R90). -/
def decode (w : Word) : Except DecodeError Instr :=
  match (opcField w).toNat with
  | 0x00 => .ok .nop
  | 0x01 => .ok .reset
  | 0x02 => .ok .clearErr
  | 0x03 => .ok .streamInit
  | 0x04 => .ok (.tblRead (tblField w))
  | 0x05 => .ok (.tblWrite (tblField w))
  | 0x10 => .ok (.bwBits (nField w))
  | 0x11 => .ok (.bwBitsR (nField w))
  | 0x12 => .ok .bwFlush
  | 0x13 => .ok .bwByte
  | 0x14 => .ok .bwShort
  | 0x15 => .ok .bwInt
  | 0x18 => .ok (.brBits (nField w))
  | 0x19 => .ok .brByte
  | 0x1A => .ok .brShort
  | 0x1B => .ok .brInt
  | 0x1C => .ok .brAlign
  | 0x20 => .ok .crcInit
  | 0x21 => .ok .crcUpdate
  | 0x30 => .ok .winReset
  | 0x31 => .ok .winAdd
  | 0x32 => .ok .winFind
  | 0x40 => .ok (.hufBuild (selField w) (limitField w))
  | 0x41 => .ok (.hufCanon (selField w))
  | 0x42 => .ok .hufFixed
  | 0x43 => .ok (.hufDecode (selField w))
  | 0x44 => .ok .clPack
  | 0x45 => .ok .clUnpack
  | 0x50 => .ok (.defEncChunk (finalField w))
  | 0x51 => .ok .defEncStream
  | 0x52 => .ok .defDecBlock
  | 0x53 => .ok .defDecStream
  | 0x60 => .ok (.gzWrHeader (fnField w))
  | 0x61 => .ok .gzRdHeader
  | 0x62 => .ok .gzWrTrailer
  | 0x63 => .ok .gzRdTrailer
  | 0x64 => .ok (.gzCompress (fnField w))
  | 0x65 => .ok .gzDecompress
  | _ => .error (.illegalOpcode (opcField w))

/-- The opcode of a command (30_encoding.md R93). -/
def Instr.opcode : Instr → Nat
  | .nop => 0x00
  | .reset => 0x01
  | .clearErr => 0x02
  | .streamInit => 0x03
  | .tblRead _ => 0x04
  | .tblWrite _ => 0x05
  | .bwBits _ => 0x10
  | .bwBitsR _ => 0x11
  | .bwFlush => 0x12
  | .bwByte => 0x13
  | .bwShort => 0x14
  | .bwInt => 0x15
  | .brBits _ => 0x18
  | .brByte => 0x19
  | .brShort => 0x1A
  | .brInt => 0x1B
  | .brAlign => 0x1C
  | .crcInit => 0x20
  | .crcUpdate => 0x21
  | .winReset => 0x30
  | .winAdd => 0x31
  | .winFind => 0x32
  | .hufBuild _ _ => 0x40
  | .hufCanon _ => 0x41
  | .hufFixed => 0x42
  | .hufDecode _ => 0x43
  | .clPack => 0x44
  | .clUnpack => 0x45
  | .defEncChunk _ => 0x50
  | .defEncStream => 0x51
  | .defDecBlock => 0x52
  | .defDecStream => 0x53
  | .gzWrHeader _ => 0x60
  | .gzRdHeader => 0x61
  | .gzWrTrailer => 0x62
  | .gzRdTrailer => 0x63
  | .gzCompress _ => 0x64
  | .gzDecompress => 0x65

/-- The fields of a command at their bit positions (30_encoding.md R90); a command without fields
has none. -/
def Instr.fieldBits : Instr → Nat
  | .tblRead t | .tblWrite t => tableIdOf t * 2 ^ 8
  | .bwBits n | .bwBitsR n | .brBits n => n * 2 ^ 8
  | .hufBuild sel limit => selBits sel * 2 ^ 8 + limit * 2 ^ 16
  | .hufCanon sel | .hufDecode sel => selBits sel * 2 ^ 8
  | .defEncChunk final => bit final * 2 ^ 24
  | .gzWrHeader fn | .gzCompress fn => bit fn * 2 ^ 25
  | .nop | .reset | .clearErr | .streamInit | .bwFlush | .bwByte | .bwShort | .bwInt => 0
  | .brByte | .brShort | .brInt | .brAlign | .crcInit | .crcUpdate | .winReset | .winAdd => 0
  | .winFind | .hufFixed | .clPack | .clUnpack | .defEncStream | .defDecBlock => 0
  | .defDecStream | .gzRdHeader | .gzWrTrailer | .gzRdTrailer | .gzDecompress => 0

/-- The word of a well-formed command, with every unused bit 0 (30_encoding.md R90, R93). -/
def encode (i : Instr) : Word := BitVec.ofNat 32 (i.opcode + i.fieldBits)

/-- The opcode table's view of a word of `nbits` bits: the bits above are 0. A command word is ONE
32-bit register write, so its bits are numbered as the table numbers them and no byte order enters
(30_encoding.md R91; log 22). -/
def tableWord (nbits w : Nat) : Word := BitVec.ofNat 32 (w % 2 ^ nbits)

/-- What the decoder reads from a word of the opcode table. -/
def decodeTableWord (nbits w : Nat) : Option Instr :=
  match decode (tableWord nbits w) with
  | .ok i => some i
  | .error _ => none

end Sys2Proof
end

