-- ==== Sys2Proof/Config.lean ====
section
/-! DEFINITION. What an instance of the block fixes: the open parameters of the platform and the free
values of the spec (uninterpreted constants), the synthesis parameters and the fixed sizes of
00_scope.md R10. -/

namespace Sys2Proof.Config

/-- BASE_ADDR, where the platform places the register file (20_memory.md R68; 93 U1: OPEN). Nothing
is known of it; host accesses of the model name offsets from it (log 18). -/
opaque baseAddr : Nat

/-- IRQ_ROUTING, the host interrupt input the IRQ line is wired to (60_exceptions.md R337; 93 U2:
OPEN). Nothing is known of it (log 18). -/
opaque irqRouting : Nat

/-- A free value of `w` bits: what the spec leaves unspecified ("any value of its width"). Draw
`draw` is one occasion on which the block leaves values unspecified, `index` tells the items of
one occasion apart. It has no body: no proof can know a value of it (logs 7, 9, 16, 20). -/
opaque freeBits (w draw index : Nat) : BitVec w

/-- The synthesis parameters a model takes as an argument (00_scope.md R10; 93 U3, U4). -/
structure Params where
  chunkSize : Nat
  fnameMax : Nat
deriving DecidableEq, Repr

/-- The default parameters: CHUNK_SIZE 32768, FNAME_MAX 256 (00_scope.md R10). -/
def Params.default : Params := ⟨32768, 256⟩

/-- The range of each parameter, 1 .. 65535 (00_scope.md R10). -/
abbrev Params.wf (p : Params) : Prop :=
  (1 ≤ p.chunkSize ∧ p.chunkSize ≤ 65535) ∧ (1 ≤ p.fnameMax ∧ p.fnameMax ≤ 65535)

/-- PACKED_MAX (00_scope.md R10). -/
abbrev packedMax : Nat := 320
/-- LL_SIZE (00_scope.md R10). -/
abbrev llSize : Nat := 288
/-- D_SIZE (00_scope.md R10). -/
abbrev dSize : Nat := 32
/-- CL_SIZE (00_scope.md R10). -/
abbrev clSize : Nat := 19
/-- MAX_CODE_LEN, the depth limit of the literal/length and distance codes (00_scope.md R10). -/
abbrev maxCodeLen : Nat := 15
/-- MAX_CL_CODE_LEN, the depth limit of the code-length code (00_scope.md R10). -/
abbrev maxClCodeLen : Nat := 7
/-- MIN_MATCH (00_scope.md R10). -/
abbrev minMatch : Nat := 3
/-- MAX_MATCH (00_scope.md R10). -/
abbrev maxMatch : Nat := 258
/-- The physical size of WINDOW (10_state.md R36). -/
abbrev windowSize : Nat := 32768

end Sys2Proof.Config
end

