-- ==== Sys2Proof/Machine/Memory.lean ====
section
/-! DEFINITION. One table RAM (10_state.md R36): a sparse list of (index, value) pairs in one canonical
form, what an unlisted entry reads as, and the operations on it. For the byte tables a pair is a
`Host.Cell`. -/

namespace Sys2Proof.Machine

/-- What an entry that is not listed reads as: 0 (the RAMs that reset clears, 70_reset_and_hazards.md
R370), or the free value of a draw (CHUNK and WINDOW after reset, R370; tables a failed command
left unspecified, 60_exceptions.md R336). -/
inductive Fill where
  | zero
  | unspecified (draw : Nat)
deriving DecidableEq, Repr

/-- A table RAM of `w`-bit entries. -/
structure Memory (w : Nat) where
  fill : Fill
  cells : List (Nat × BitVec w)
deriving DecidableEq, Repr

/-- A RAM whose every entry is 0. -/
def Memory.zeros (w : Nat) : Memory w := ⟨.zero, []⟩

/-- A RAM whose every entry is unspecified, with the free values of draw `draw`. -/
def Memory.unknown (w draw : Nat) : Memory w := ⟨.unspecified draw, []⟩

/-- The canonical form: indices strictly rising, and no entry listed that equals what an unlisted
index reads as. Where unlisted entries are unspecified nothing is known to equal them, and a listed
entry is one that has been written. -/
abbrev Memory.wf {w : Nat} (m : Memory w) : Prop :=
  m.cells.Pairwise (fun x y => x.1 < y.1) ∧ (m.fill = .zero → ∀ c ∈ m.cells, c.2 ≠ 0)

/-- Every listed index is one of the first `n` (the table's size). -/
abbrev Memory.within {w : Nat} (m : Memory w) (n : Nat) : Prop := ∀ c ∈ m.cells, c.1 < n

/-- What an unlisted entry reads as. -/
def Memory.unlisted {w : Nat} (m : Memory w) (a : Nat) : BitVec w :=
  match m.fill with
  | .zero => 0
  | .unspecified d => Config.freeBits w d a

/-- The value listed for an index, if any. -/
def Memory.find {w : Nat} : List (Nat × BitVec w) → Nat → Option (BitVec w)
  | [], _ => none
  | (k, v) :: rest, a => if k = a then some v else Memory.find rest a

/-- `MemRead(T, i)` (00_scope.md R14). -/
def Memory.read {w : Nat} (m : Memory w) (a : Nat) : BitVec w :=
  match Memory.find m.cells a with
  | some v => v
  | none => m.unlisted a

/-- The cells with one entry listed at its place. -/
def Memory.put {w : Nat} : List (Nat × BitVec w) → Nat → BitVec w → List (Nat × BitVec w)
  | [], a, v => [(a, v)]
  | (k, u) :: rest, a, v =>
    if a < k then (a, v) :: (k, u) :: rest
    else if a = k then (a, v) :: rest
    else (k, u) :: Memory.put rest a v

/-- The cells without one index. -/
def Memory.erase {w : Nat} : List (Nat × BitVec w) → Nat → List (Nat × BitVec w)
  | [], _ => []
  | (k, u) :: rest, a => if k = a then Memory.erase rest a else (k, u) :: Memory.erase rest a

/-- `MemWrite(T, i, v)` (00_scope.md R14), keeping the canonical form. -/
def Memory.write {w : Nat} (m : Memory w) (a : Nat) (v : BitVec w) : Memory w :=
  if m.fill = .zero ∧ v = 0 then { m with cells := Memory.erase m.cells a }
  else { m with cells := Memory.put m.cells a v }

/-- The entries 0 .. n-1, in order. -/
def Memory.toList {w : Nat} (m : Memory w) (n : Nat) : List (BitVec w) := (List.range n).map m.read

/-- The listed cells of a whole table, from index `k` on: the nonzero entries. -/
def Memory.cellsFrom {w : Nat} : Nat → List (BitVec w) → List (Nat × BitVec w)
  | _, [] => []
  | k, v :: rest => if v = 0 then cellsFrom (k + 1) rest else (k, v) :: cellsFrom (k + 1) rest

/-- The table whose entries 0, 1, ... are the list's and whose others are 0: what a command that
writes a whole table leaves. -/
def Memory.ofList {w : Nat} (l : List (BitVec w)) : Memory w := ⟨.zero, Memory.cellsFrom 0 l⟩

/-- The list's values written to entries k, k+1, ... in order. -/
def Memory.writeList {w : Nat} (m : Memory w) (k : Nat) : List (BitVec w) → Memory w
  | [] => m
  | v :: rest => (m.write k v).writeList (k + 1) rest

end Sys2Proof.Machine
end

