-- ==== Sys2Proof/Machine/State.lean ====
section
/-! DEFINITION. The state of CORE as plain data (10_state.md R47), the host's side of the ports, the
host actions still to come, and the state after reset (70_reset_and_hazards.md R370). -/

namespace Sys2Proof.Machine

/-- The error codes a command can raise (60_exceptions.md R331). NONE (0) is raised by none. -/
inductive ErrCode where
  | badMagic | badMethod | badBtype | storedLen | crcMismatch | isizeMismatch | badSymbol
  | badDistance | badCodelengths | hufConstruct | ioEof | unsupportedFlags | badCommand | badConfig
deriving DecidableEq, Repr

/-- ENGINE_STATE (10_state.md R21). STATUS.BUSY and STATUS.ERR are views of it (log 21). -/
inductive EngineState where
  | idle | busy | error
deriving DecidableEq, Repr

/-- One entry of the encoder's TOKENS buffer (10_state.md R44, 45_deflate.md R261). -/
inductive Token where
  | literal (b : Byte)
  | copy (length distance : Nat)
deriving DecidableEq, Repr

/-- The thirteen table RAMs (10_state.md R36). The three ROMs are constants (R43). -/
structure Tables where
  chunk : Memory 8
  window : Memory 8
  freqLL : Memory 32
  freqD : Memory 32
  freqCL : Memory 32
  lenLL : Memory 4
  lenD : Memory 4
  lenCL : Memory 4
  codeLL : Memory 32
  codeD : Memory 32
  codeCL : Memory 32
  packed : Memory 16
  fname : Memory 8
deriving DecidableEq, Repr

/-- The block itself (10_state.md R47): everything reset reaches. -/
structure Engine where
  engine : EngineState
  cmd : Word
  done : Bool
  cmdDropped : Bool
  bfinalSeen : Bool
  fnameTrunc : Bool
  errinfo : Word
  cfg : Word
  arg0 : Word
  arg1 : Word
  arg2 : Word
  res0 : Word
  res1 : Word
  crcState : Word
  rawCount : Word
  bytesIn : BitVec 64
  bytesOut : BitVec 64
  outCommit : BitVec 64
  wcount : BitVec 3
  wbuf : Byte
  rcount : BitVec 3
  rbuf : Byte
  wcur : BitVec 15
  wvalid : BitVec 16
  gzFlg : Byte
  gzMtime : Word
  gzXfl : Byte
  gzOs : Byte
  gzFnameLen : Word
  gzTrlCrc : Word
  gzTrlIsize : Word
  tables : Tables
  tokens : List Token
deriving DecidableEq, Repr

/-- What the host does, one constructor for each of its actions (60_exceptions.md R341,
30_encoding.md R95). Offsets are from BASE_ADDR; `bits` is the width of the access. -/
inductive HostEvent where
  /-- Write a register. -/
  | write (bits offset : Nat) (value : Word)
  /-- Read a register; the value read goes to `hostRead`. -/
  | read (bits offset : Nat)
  /-- Append bytes to the input port (`IN`). -/
  | input (bytes : List Byte)
  /-- Close the input port (`IN.CLOSE`). -/
  | closeInput
  /-- Reopen the input port (`IN.OPEN`). -/
  | openInput
  /-- Withdraw the bytes queued at the input port and not yet given to the engine
  (70_reset_and_hazards.md R371; log 27). -/
  | emptyInput
  /-- Take accepted bytes away from the output port (`OUT.TAKE`). -/
  | takeOutput (count : Nat)
  /-- From now on accept this many more output bytes (`none`: every byte). -/
  | acceptOutput (room : Option Nat)
  /-- Assert the hardware reset input. -/
  | resetInput
  /-- Do nothing while the engine has one turn. -/
  | pass
  /-- Wait until STATUS.BUSY = 0. -/
  | wait
deriving DecidableEq, Repr

/-- A command that holds on a port (00_scope.md R15): the command, the block as it was when the
command was accepted, the input bytes the command has taken since, how many output bytes it has
given, and whether it has seen the end of the input. It resumes by running again from there, with those
bytes taken and given (log 3). -/
structure Held where
  instr : Instr
  start : Engine
  taken : List Byte
  given : Nat
  ended : Bool
deriving DecidableEq, Repr

/-- The machine: the block, the host's side of the ports, and the model's own fields (INVENTORY.md,
State). -/
structure State extends Engine where
  params : Config.Params
  inPort : List Byte
  inClosed : Bool
  outPort : List Byte
  outRoom : Option Nat
  held : Option Held
  sawEnd : Bool
  draws : Nat
  hostRead : Word
  host : List HostEvent
deriving DecidableEq, Repr

/-- Why a run of the model stops with a fault. -/
inductive Fault where
  /-- Raised by a meaning when a loop of its pseudocode has not ended within the bound the model runs
  it for. No rule of the spec stops so and no state reaches it while CHUNK_SIZE is in its range
  (log 19). Safe: the model stops where the block would go on. -/
  | loopBound
deriving DecidableEq, Repr

/-- Why the model gives something no meaning. -/
inductive Refusal where
  /-- Raised by `exec` for an instruction that has no meaning yet. Safe. -/
  | notModelled (mnemonic : String)
  /-- Raised by the host's turn for a register access that is not 32 bits wide, "outside the
  interface: a model refuses them" (20_memory.md R66, 93 U19). Safe. -/
  | accessWidth (bits : Nat)
  /-- Raised by the host's turn when the host reopens the input port while STATUS.BUSY = 1, which it
  may do "only while STATUS.BUSY = 0" (20_memory.md R61; log 6). Safe. -/
  | reopenWhileBusy
  /-- Raised by the host's turn when the host withdraws queued input bytes while STATUS.BUSY = 1: a host
  does so after a reset, with a reopening (70_reset_and_hazards.md R371; log 27). Safe. -/
  | withdrawWhileBusy
deriving DecidableEq, Repr

/-- The tables after reset (70_reset_and_hazards.md R370): 0, but for CHUNK and WINDOW, whose
contents are unspecified (draws `d` and `d + 1`). -/
def Tables.reset (d : Nat) : Tables where
  chunk := .unknown 8 d
  window := .unknown 8 (d + 1)
  freqLL := .zeros 32
  freqD := .zeros 32
  freqCL := .zeros 32
  lenLL := .zeros 4
  lenD := .zeros 4
  lenCL := .zeros 4
  codeLL := .zeros 32
  codeD := .zeros 32
  codeCL := .zeros 32
  packed := .zeros 16
  fname := .zeros 8

/-- The block after reset (70_reset_and_hazards.md R370), its unspecified contents being draws `d` and
`d + 1`. TOKENS has no reset value; it starts empty (log 12). -/
def Engine.reset (d : Nat) : Engine where
  engine := .idle
  cmd := 0
  done := false
  cmdDropped := false
  bfinalSeen := false
  fnameTrunc := false
  errinfo := 0
  cfg := 0x000000F6#32
  arg0 := 0
  arg1 := 0
  arg2 := 0
  res0 := 0
  res1 := 0
  crcState := 0xFFFFFFFF#32
  rawCount := 0
  bytesIn := 0
  bytesOut := 0
  outCommit := 0
  wcount := 0
  wbuf := 0
  rcount := 0
  rbuf := 0
  wcur := 0
  wvalid := 0
  gzFlg := 0
  gzMtime := 0
  gzXfl := 0
  gzOs := 0
  gzFnameLen := 0
  gzTrlCrc := 0
  gzTrlIsize := 0
  tables := Tables.reset d
  tokens := []

/-- The machine right after reset (70_reset_and_hazards.md R370): the block reset, both ports empty, the
input port open, the host accepting every byte (log 5), no host action queued (log 1), the default
parameters (log 17). -/
def State.reset : State where
  toEngine := Engine.reset 0
  params := Config.Params.default
  inPort := []
  inClosed := false
  outPort := []
  outRoom := none
  held := none
  sawEnd := false
  draws := 2
  hostRead := 0
  host := []

end Sys2Proof.Machine
end

