-- ==== Sys2Proof/Machine/Ops.lean ====
section
/-! DEFINITION. What every command is made of: running a command's steps and stopping one (00_scope.md
R15, R17), the ports (R15), the bit framer (41_bitio.md R160, R163, R170), acceptance, completion and
error entry of a command and the return from an error (60_exceptions.md R330, R332, R335,
40_control.md R142), holding on a port, and the values an error leaves unspecified (60_exceptions.md
R336). -/

namespace Sys2Proof.Machine

/-- Why the steps of a command stop before their end. -/
inductive Stop where
  /-- `raise E` (00_scope.md R17). -/
  | raise (e : ErrCode)
  /-- The engine holds on a port (00_scope.md R15). -/
  | hold
  /-- A loop outran its bound (log 19). -/
  | bound
deriving DecidableEq, Repr

/-- The steps of a command: they read and change the state in order, and may stop. The effects made
before a stop stay (00_scope.md R17, R18). -/
abbrev Exec (α : Type) := EStateM Stop State α

/-- The state the steps have reached. -/
def getState : Exec State := fun s => .ok s s

/-- A change of state that cannot stop. -/
def change (f : State → State) : Exec Unit := fun s => .ok () (f s)

/-- `raise E` (00_scope.md R17). -/
def raise {α : Type} (e : ErrCode) : Exec α := fun s => .error (.raise e) s

/-- `if c then raise E`. -/
def raiseIf (c : Prop) [Decidable c] (e : ErrCode) : Exec Unit := if c then raise e else pure ()

/-- The loop has not ended within its bound (log 19). -/
def outOfBound {α : Type} : Exec α := fun s => .error .bound s

/-- What a failing command leaves unspecified, put into effect if `steps` raise
(60_exceptions.md R336). -/
def leavingUnspecified {α : Type} (scramble : State → State) (steps : Exec α) : Exec α := fun s =>
  match steps s with
  | .error (.raise e) t => .error (.raise e) (scramble t)
  | r => r

/-! ### Error codes -/

/-- ERRINFO.ERRCODE of an error (60_exceptions.md R331). -/
def ErrCode.code : ErrCode → Byte
  | .badMagic => 0x01#8
  | .badMethod => 0x02#8
  | .badBtype => 0x03#8
  | .storedLen => 0x04#8
  | .crcMismatch => 0x05#8
  | .isizeMismatch => 0x06#8
  | .badSymbol => 0x07#8
  | .badDistance => 0x08#8
  | .badCodelengths => 0x09#8
  | .hufConstruct => 0x0A#8
  | .ioEof => 0x0B#8
  | .unsupportedFlags => 0x0C#8
  | .badCommand => 0x0D#8
  | .badConfig => 0x0E#8

/-! ### The ports (00_scope.md R15) -/

/-- `InRead()`: take the next byte of the input port, raise IO_EOF where the port is empty and closed,
hold where it is empty and open (00_scope.md R15, 41_bitio.md R172). -/
def inRead : Exec Byte := fun s =>
  match s.inPort with
  | b :: rest => .ok b { s with inPort := rest, bytesIn := s.bytesIn + 1 }
  | [] => if s.inClosed then .error (.raise .ioEof) s else .error .hold s

/-- `InAtEnd()`: whether the port is empty and closed; hold where it is empty and open
(00_scope.md R15). That it was so is noted in `sawEnd` (log 3). -/
def inAtEnd : Exec Bool := fun s =>
  match s.inPort with
  | _ :: _ => .ok false s
  | [] => if s.inClosed then .ok true { s with sawEnd := true } else .error .hold s

/-- `OutWrite(b)`: append a byte to the output port; hold while the host does not accept
(00_scope.md R15). -/
def outWrite (b : Byte) : Exec Unit := fun s =>
  match s.outRoom with
  | some 0 => .error .hold s
  | some (k + 1) =>
    .ok () { s with outPort := s.outPort ++ [b], bytesOut := s.bytesOut + 1, outRoom := some k }
  | none => .ok () { s with outPort := s.outPort ++ [b], bytesOut := s.bytesOut + 1 }

/-! ### The bit writer (41_bitio.md R160, R163) -/

/-- WBUF with one more pending bit, at bit WCOUNT. -/
def pushBit (buf : Byte) (count : BitVec 3) (b : Bool) : Byte :=
  buf ||| (BitVec.ofNat 8 (bit b) <<< count.toNat)

/-- `PutBit(b)` (41_bitio.md R160). WCOUNT is 8 only within it. -/
def putBit (b : Bool) : Exec Unit := do
  let s ← getState
  if s.wcount = 7 then
    outWrite (pushBit s.wbuf s.wcount b)
    change fun s => { s with wbuf := 0, wcount := 0 }
  else
    change fun s => { s with wbuf := pushBit s.wbuf s.wcount b, wcount := s.wcount + 1 }

/-- `WriteBits(v, n)`: the low n bits of v, LSB first (41_bitio.md R160). -/
def writeBits (v : Nat) : Nat → Exec Unit
  | 0 => pure ()
  | n + 1 => do
    putBit (v.testBit 0)
    writeBits (v / 2) n

/-- `WriteBitsR(v, n)`: the low n bits of v, MSB first (41_bitio.md R160). -/
def writeBitsR (v : Nat) : Nat → Exec Unit
  | 0 => pure ()
  | n + 1 => do
    putBit (v.testBit n)
    writeBitsR v n

/-- `PutBit(1)`, so many times. -/
def putOnes : Nat → Exec Unit
  | 0 => pure ()
  | n + 1 => do
    putBit true
    putOnes n

/-- `Flush()`: PutBit(1) until WCOUNT is 0, that is 8 - WCOUNT times where a byte is pending
(41_bitio.md R160). -/
def flush : Exec Unit := do
  let s ← getState
  putOnes ((8 - s.wcount.toNat) % 8)

/-- `WriteByte(v)` (41_bitio.md R163). -/
def writeByte (v : Byte) : Exec Unit := writeBits v.toNat 8

/-- `WriteShort(v)` (41_bitio.md R163). -/
def writeShort (v : BitVec 16) : Exec Unit := writeBits v.toNat 16

/-- `WriteInt(v)` (41_bitio.md R163). -/
def writeInt (v : Word) : Exec Unit := writeBits v.toNat 32

/-- `WriteByte` of each byte in order. -/
def writeBytes : List Byte → Exec Unit
  | [] => pure ()
  | b :: rest => do
    writeByte b
    writeBytes rest

/-! ### The bit reader (41_bitio.md R170) -/

/-- The byte the reader takes its next bit from: RBUF, or the next input byte where RBUF is used up. -/
def bitSource : Exec Byte := do
  let s ← getState
  if s.rcount = 0 then inRead else pure s.rbuf

/-- `GetBit()` (41_bitio.md R170). RCOUNT is 8 only within it: 8 - 1 = 7 is 0 - 1 modulo 8. -/
def getBit : Exec Bool := do
  let b ← bitSource
  change fun s => { s with rbuf := b >>> 1, rcount := s.rcount - 1 }
  pure (b.getLsbD 0)

/-- `ReadBits(n)`: LSB first (41_bitio.md R170). -/
def readBits : Nat → Exec Nat
  | 0 => pure 0
  | n + 1 => do
    let b ← getBit
    let v ← readBits n
    pure (bit b + 2 * v)

/-- `AlignIn()`: discard the unread bits of the current byte and count them (41_bitio.md R170). -/
def alignIn : Exec Nat := fun s => .ok s.rcount.toNat { s with rbuf := 0, rcount := 0 }

/-- `ReadByte()` (41_bitio.md R170). -/
def readByte : Exec Byte := do
  let v ← readBits 8
  pure (BitVec.ofNat 8 v)

/-- `ReadInt()` (41_bitio.md R170). -/
def readInt : Exec Word := do
  let v ← readBits 32
  pure (BitVec.ofNat 32 v)

/-- The bits the reader can still give before it needs a byte the port does not hold: a bound on how
often a loop that reads at least one bit a turn can turn. -/
def bitsLeft (s : State) : Nat := s.rcount.toNat + 8 * s.inPort.length

/-! ### The course of a command -/

/-- A command word is accepted: CMD holds it, DONE is cleared, the engine is busy
(60_exceptions.md R330); the command has not seen the end of the input (log 3). -/
def accept (w : Word) (s : State) : State :=
  { s with cmd := w, done := false, engine := .busy, sawEnd := false }

/-- Completion without error (60_exceptions.md R332). -/
def complete (s : State) : State :=
  { s with engine := .idle, done := true, outCommit := s.bytesOut, held := none }

/-- ERRINFO for an error of the command in CMD: (CMD[7:0] << 8) | E (60_exceptions.md R335). -/
def errorInfo (cmd : Word) (e : ErrCode) : Word :=
  (zext32 (cmd.extractLsb' 0 8) <<< 8) ||| zext32 e.code

/-- Error entry: the ONE place where a command that raises E reports it (60_exceptions.md R335). -/
def enterError (e : ErrCode) (s : State) : State :=
  { s with errinfo := errorInfo s.cmd e, engine := .error, done := false, held := none }

/-- The return from an error: CLEAR_ERR's steps (40_control.md R142), the only way out of ERROR but for
a reset (R143). -/
def leaveError (s : State) : State := { s with errinfo := 0, engine := .idle }

/-- The block is reset: every register, field and table takes its reset value, and CHUNK and WINDOW
new unspecified contents (70_reset_and_hazards.md R370); the host's side of the ports stays (R371). A
held command is gone. -/
def resetBlock (s : State) : State :=
  { s with toEngine := Engine.reset s.draws, draws := s.draws + 2, held := none, sawEnd := false }

/-- A command holds on a port: the engine stays busy, and what is needed to resume it is kept: the
command, the block as it was at acceptance (`start`), what has passed through the ports since, and
whether the end of the input was seen (log 3). STATUS, the one register that is meaningful while BUSY (R381), shows none of
the command's effects before BUSY returns to 0 (70_reset_and_hazards.md R387): BFINAL_SEEN and FNAME_TRUNC are again as at
acceptance, and the command sets them when it runs again (log 31). -/
def suspend (i : Instr) (start s : State) : State :=
  { s with
    engine := .busy
    done := false
    bfinalSeen := start.bfinalSeen
    fnameTrunc := start.fnameTrunc
    held := some
      { instr := i
        start := start.toEngine
        taken := start.inPort.take (start.inPort.length - s.inPort.length)
        given := s.outPort.length - start.outPort.length
        ended := s.sawEnd } }

/-- A command's steps, from its accepted state to its completion, its error entry or its hold
(60_exceptions.md R330, R332, R335). -/
def runCommand (i : Instr) (steps : Exec Unit) (s : State) : Host.Outcome State Fault Refusal :=
  match steps s with
  | .ok _ t => .next (complete t)
  | .error (.raise e) t => .next (enterError e t)
  | .error .hold t => .next (suspend i s t)
  | .error .bound _ => .fault .loopBound

/-- `StreamInit()` (40_control.md R144): what begins every stream. -/
def streamInit (s : State) : State :=
  { s with wcur := 0, wvalid := 0, crcState := 0xFFFFFFFF#32, rawCount := 0, bfinalSeen := false }

/-- RES0 is written. -/
def setRes0 (v : Word) (s : State) : State := { s with res0 := v }

/-- RES1 is written. -/
def setRes1 (v : Word) (s : State) : State := { s with res1 := v }

/-! ### What an error leaves unspecified (60_exceptions.md R336; logs 9, 10, 11) -/

/-- After a failed decoder command: the window, CRC_STATE, RAW_COUNT and the code tables the block
decoder writes hold free values of their widths (60_exceptions.md R336). -/
def scrambleDecoder (s : State) : State :=
  let d := s.draws
  { s with
    wcur := Config.freeBits 15 d 0
    wvalid := Config.freeBits 16 d 1
    crcState := Config.freeBits 32 d 2
    rawCount := Config.freeBits 32 d 3
    tables :=
      { s.tables with
        window := .unknown 8 (d + 1)
        lenLL := .unknown 4 (d + 2)
        lenD := .unknown 4 (d + 3)
        lenCL := .unknown 4 (d + 4)
        codeLL := .unknown 32 (d + 5)
        codeD := .unknown 32 (d + 6)
        codeCL := .unknown 32 (d + 7) }
    draws := d + 8 }

/-- After a failed header read: the FNAME table (60_exceptions.md R336). The GZ_* registers and
FNAME_TRUNC "are written only if the header is read without error" (46_container.md R301; log 10). -/
def scrambleName (s : State) : State :=
  { s with
    tables := { s.tables with fname := .unknown 8 s.draws }
    draws := s.draws + 1 }

/-- After a member fails past its header: the header's registers, which the command has written
(60_exceptions.md R336). -/
def scrambleHeader (s : State) : State :=
  let d := s.draws
  { s with
    gzFlg := Config.freeBits 8 d 0
    gzMtime := Config.freeBits 32 d 1
    gzXfl := Config.freeBits 8 d 2
    gzOs := Config.freeBits 8 d 3
    gzFnameLen := Config.freeBits 32 d 4
    draws := d + 1 }

/-- After a failed trailer read: GZ_TRL_CRC and GZ_TRL_ISIZE (60_exceptions.md R336; 95 P6; log 10). -/
def scrambleTrailer (s : State) : State :=
  let d := s.draws
  { s with
    gzTrlCrc := Config.freeBits 32 d 0
    gzTrlIsize := Config.freeBits 32 d 1
    draws := d + 1 }

end Sys2Proof.Machine
end

