-- ==== Sys2Proof/Machine/Rom.lean ====
section
/-! DEFINITION. The contents of the three ROMs (10_state.md R43) and the fixed tables of the stream
format: CRC_TABLE (42_crc.md R190), LEN_RANGE and DIST_RANGE (30_encoding.md R108, R109), the maps
from lengths and distances to symbols (R110, R111), and CL_ORDER (R105). -/

namespace Sys2Proof.Machine

/-- One of the 8 rounds of a CRC_TABLE entry (42_crc.md R190). -/
def crcRound (c : Word) : Word :=
  if c.getLsbD 0 then (c >>> 1) ^^^ 0xEDB88320#32 else c >>> 1

/-- CRC_TABLE[n]: eight rounds on n (42_crc.md R190). -/
def crcTable (n : Nat) : Word :=
  crcRound (crcRound (crcRound (crcRound (crcRound (crcRound (crcRound (crcRound
    (BitVec.ofNat 32 n))))))))

/-- An entry of a range table: the first value of the range and its extra-bit count (10_state.md
R36). -/
structure Range where
  base : Nat
  extra : Nat
deriving DecidableEq, Repr

/-- The stored form of an entry, (extra << 16) | base (30_encoding.md R108). -/
def Range.word (r : Range) : Word := BitVec.ofNat 32 (r.extra * 2 ^ 16 + r.base)

/-- LEN_RANGE, entry i for symbol 257 + i (30_encoding.md R108). -/
def lenRanges : List Range :=
  [⟨3, 0⟩, ⟨4, 0⟩, ⟨5, 0⟩, ⟨6, 0⟩, ⟨7, 0⟩, ⟨8, 0⟩, ⟨9, 0⟩, ⟨10, 0⟩,
   ⟨11, 1⟩, ⟨13, 1⟩, ⟨15, 1⟩, ⟨17, 1⟩, ⟨19, 2⟩, ⟨23, 2⟩, ⟨27, 2⟩, ⟨31, 2⟩,
   ⟨35, 3⟩, ⟨43, 3⟩, ⟨51, 3⟩, ⟨59, 3⟩, ⟨67, 4⟩, ⟨83, 4⟩, ⟨99, 4⟩, ⟨115, 4⟩,
   ⟨131, 5⟩, ⟨163, 5⟩, ⟨195, 5⟩, ⟨227, 5⟩, ⟨258, 0⟩]

/-- DIST_RANGE, entry i for distance symbol i (30_encoding.md R109). -/
def distRanges : List Range :=
  [⟨1, 0⟩, ⟨2, 0⟩, ⟨3, 0⟩, ⟨4, 0⟩, ⟨5, 1⟩, ⟨7, 1⟩, ⟨9, 2⟩, ⟨13, 2⟩,
   ⟨17, 3⟩, ⟨25, 3⟩, ⟨33, 4⟩, ⟨49, 4⟩, ⟨65, 5⟩, ⟨97, 5⟩, ⟨129, 6⟩, ⟨193, 6⟩,
   ⟨257, 7⟩, ⟨385, 7⟩, ⟨513, 8⟩, ⟨769, 8⟩, ⟨1025, 9⟩, ⟨1537, 9⟩, ⟨2049, 10⟩, ⟨3073, 10⟩,
   ⟨4097, 11⟩, ⟨6145, 11⟩, ⟨8193, 12⟩, ⟨12289, 12⟩, ⟨16385, 13⟩, ⟨24577, 13⟩]

/-- LEN_RANGE[i]; read only for i < 29. -/
def lenRange (i : Nat) : Range := lenRanges.getD i ⟨0, 0⟩

/-- DIST_RANGE[i]; read only for i < 30. -/
def distRange (i : Nat) : Range := distRanges.getD i ⟨0, 0⟩

/-- The largest index whose base is at most `x`, in a table of rising bases. -/
def lastRange (ranges : List Range) (x : Nat) : Nat :=
  (ranges.takeWhile (fun r => r.base ≤ x)).length - 1

/-- `LenSym(L)`: 285 for L = 258, otherwise 257 + i for the largest i in 0..27 with
LEN_RANGE[i].base ≤ L (30_encoding.md R110). -/
def lenSym (l : Nat) : Nat :=
  if l = 258 then 285 else 257 + lastRange (lenRanges.take 28) l

/-- `DistSym(D)`: the largest i in 0..29 with DIST_RANGE[i].base ≤ D (30_encoding.md R111). -/
def distSym (d : Nat) : Nat := lastRange distRanges d

/-- CL_ORDER, the transmission order of the meta lengths (30_encoding.md R105). -/
def clOrder : List Nat := [16, 17, 18, 0, 8, 7, 9, 6, 10, 5, 11, 4, 12, 3, 13, 2, 14, 1, 15]

end Sys2Proof.Machine
end

