-- ==== Sys2Proof/Machine/Operands.lean ====
section
/-! DEFINITION. Where commands take their operands from: the fields of ARG0..ARG2 (30_encoding.md R92),
the entries of the tables (10_state.md R36) and the tables of an alphabet (44_huffman.md R220). -/

namespace Sys2Proof.Machine

/-! ### ARG operands (30_encoding.md R92) -/

/-- An 8-bit operand, ARGk[7:0]. -/
def byteOperand (arg : Word) : Byte := arg.extractLsb' 0 8

/-- A 16-bit operand, ARGk[15:0]. -/
def shortOperand (arg : Word) : BitVec 16 := arg.extractLsb' 0 16

/-- An index or count operand, ARGk[31:0] as a natural. -/
def natOperand (arg : Word) : Nat := arg.toNat

/-! ### Table entries (10_state.md R36) -/

/-- ENTRIES(TBL): how many entries a table has (10_state.md R36). -/
def entries (p : Config.Params) : TableId → Nat
  | .chunk => p.chunkSize
  | .window => Config.windowSize
  | .freqLL | .lenLL | .codeLL => Config.llSize
  | .freqD | .lenD | .codeD => Config.dSize
  | .freqCL | .lenCL | .codeCL => Config.clSize
  | .packed => Config.packedMax
  | .fname => p.fnameMax
  | .crcTable => 256
  | .lenRange => 29
  | .distRange => 30

/-- The tables TBL_WRITE refuses (40_control.md R146). -/
def readOnlyTable : TableId → Bool
  | .window | .crcTable | .lenRange | .distRange => true
  | .chunk | .freqLL | .freqD | .freqCL | .lenLL | .lenD | .lenCL => false
  | .codeLL | .codeD | .codeCL | .packed | .fname => false

/-- `zext_32(T[i])` (40_control.md R145). -/
def readEntry (t : Tables) (i : Nat) : TableId → Word
  | .chunk => zext32 (t.chunk.read i)
  | .window => zext32 (t.window.read i)
  | .freqLL => t.freqLL.read i
  | .freqD => t.freqD.read i
  | .freqCL => t.freqCL.read i
  | .lenLL => zext32 (t.lenLL.read i)
  | .lenD => zext32 (t.lenD.read i)
  | .lenCL => zext32 (t.lenCL.read i)
  | .codeLL => t.codeLL.read i
  | .codeD => t.codeD.read i
  | .codeCL => t.codeCL.read i
  | .packed => zext32 (t.packed.read i)
  | .fname => zext32 (t.fname.read i)
  | .crcTable => crcTable i
  | .lenRange => (lenRange i).word
  | .distRange => (distRange i).word

/-- The bits of a PACKED entry: symbol 4:0, extra value 14:8 (10_state.md R41, 40_control.md R146). -/
def packedMask : BitVec 16 := 0x7F1F#16

/-- `T[i] <- v[w-1:0]`, for PACKED `v & 0x7F1F` (40_control.md R146). The read-only tables have no
write. -/
def writeEntry (t : Tables) (i : Nat) (v : Word) : TableId → Tables
  | .chunk => { t with chunk := t.chunk.write i (v.setWidth 8) }
  | .freqLL => { t with freqLL := t.freqLL.write i v }
  | .freqD => { t with freqD := t.freqD.write i v }
  | .freqCL => { t with freqCL := t.freqCL.write i v }
  | .lenLL => { t with lenLL := t.lenLL.write i (v.setWidth 4) }
  | .lenD => { t with lenD := t.lenD.write i (v.setWidth 4) }
  | .lenCL => { t with lenCL := t.lenCL.write i (v.setWidth 4) }
  | .codeLL => { t with codeLL := t.codeLL.write i v }
  | .codeD => { t with codeD := t.codeD.write i v }
  | .codeCL => { t with codeCL := t.codeCL.write i v }
  | .packed => { t with packed := t.packed.write i (v.setWidth 16 &&& packedMask) }
  | .fname => { t with fname := t.fname.write i (v.setWidth 8) }
  | .window | .crcTable | .lenRange | .distRange => t

/-! ### Alphabets (44_huffman.md R220) -/

/-- The alphabet SEL names; none for the illegal SEL = 3. -/
def selAlphabet : Sel → Option Alphabet
  | .ll => some .ll
  | .d => some .d
  | .cl => some .cl
  | .illegal => none

/-- S, the number of symbols (44_huffman.md R220). -/
def alphabetSize : Alphabet → Nat
  | .ll => Config.llSize
  | .d => Config.dSize
  | .cl => Config.clSize

/-- The frequency table of an alphabet, as a list of naturals. -/
def freqsOf (t : Tables) (a : Alphabet) : List Nat :=
  match a with
  | .ll => (t.freqLL.toList (alphabetSize a)).map BitVec.toNat
  | .d => (t.freqD.toList (alphabetSize a)).map BitVec.toNat
  | .cl => (t.freqCL.toList (alphabetSize a)).map BitVec.toNat

/-- The length table of an alphabet, as a list of naturals. -/
def lensOf (t : Tables) (a : Alphabet) : List Nat :=
  match a with
  | .ll => (t.lenLL.toList (alphabetSize a)).map BitVec.toNat
  | .d => (t.lenD.toList (alphabetSize a)).map BitVec.toNat
  | .cl => (t.lenCL.toList (alphabetSize a)).map BitVec.toNat

/-- The code table of an alphabet, as a list of naturals. -/
def codesOf (t : Tables) (a : Alphabet) : List Nat :=
  match a with
  | .ll => (t.codeLL.toList (alphabetSize a)).map BitVec.toNat
  | .d => (t.codeD.toList (alphabetSize a)).map BitVec.toNat
  | .cl => (t.codeCL.toList (alphabetSize a)).map BitVec.toNat

/-- LEN[s] of an alphabet. -/
def lenAt (t : Tables) (a : Alphabet) (s : Nat) : Nat :=
  match a with
  | .ll => (t.lenLL.read s).toNat
  | .d => (t.lenD.read s).toNat
  | .cl => (t.lenCL.read s).toNat

/-- CODE[s] of an alphabet. -/
def codeAt (t : Tables) (a : Alphabet) (s : Nat) : Nat :=
  match a with
  | .ll => (t.codeLL.read s).toNat
  | .d => (t.codeD.read s).toNat
  | .cl => (t.codeCL.read s).toNat

/-- The whole length table of an alphabet is written. -/
def setLens (t : Tables) (a : Alphabet) (lens : List Nat) : Tables :=
  match a with
  | .ll => { t with lenLL := .ofList (lens.map (BitVec.ofNat 4)) }
  | .d => { t with lenD := .ofList (lens.map (BitVec.ofNat 4)) }
  | .cl => { t with lenCL := .ofList (lens.map (BitVec.ofNat 4)) }

/-- The whole code table of an alphabet is written. -/
def setCodes (t : Tables) (a : Alphabet) (codes : List Nat) : Tables :=
  match a with
  | .ll => { t with codeLL := .ofList (codes.map (BitVec.ofNat 32)) }
  | .d => { t with codeD := .ofList (codes.map (BitVec.ofNat 32)) }
  | .cl => { t with codeCL := .ofList (codes.map (BitVec.ofNat 32)) }

end Sys2Proof.Machine
end

