-- ==== Sys2Proof/Machine/Flags.lean ====
section
/-! DEFINITION. The fields of CFG (10_state.md R24), the flags of STATUS (R25), every register as the
host reads it (R22 to R35), the interrupt line (60_exceptions.md R337) and the configuration checks
(60_exceptions.md R333). -/

namespace Sys2Proof.Machine

/-! ### CFG (10_state.md R24) -/

/-- CFG.BTYPE_SEL, bits 1:0. -/
def btypeSel (s : State) : Nat := (s.cfg.extractLsb' 0 2).toNat
/-- CFG.LZ77_EN, bit 2. -/
def lz77En (s : State) : Bool := s.cfg.getLsbD 2
/-- CFG.WIN_LOG2, bits 7:4. -/
def winLog2 (s : State) : Nat := (s.cfg.extractLsb' 4 4).toNat
/-- CFG.IE_DONE, bit 8. -/
def ieDone (s : State) : Bool := s.cfg.getLsbD 8
/-- CFG.IE_ERR, bit 9. -/
def ieErr (s : State) : Bool := s.cfg.getLsbD 9

/-- The writable bits of CFG: 9:4 and 2:0 (10_state.md R24). -/
def cfgMask : Word := 0x000003F7#32

/-- N, the window capacity: 2^WIN_LOG2 (10_state.md R33). -/
def winCap (s : State) : Nat := 2 ^ winLog2 s

/-- The WIN_LOG2 check of a command that uses the window (60_exceptions.md R333). -/
def checkWindowConfig : Exec Unit := do
  let s ← getState
  raiseIf (winLog2 s = 0) .badConfig

/-- The checks of an encoder command (45_deflate.md R268, 60_exceptions.md R333). -/
def checkEncoderConfig : Exec Unit := do
  let s ← getState
  raiseIf (btypeSel s = 3 ∨ winLog2 s = 0) .badConfig

/-! ### STATUS (10_state.md R25) -/

/-- STATUS.BUSY (log 21). -/
def busy (s : State) : Bool := s.engine == .busy
/-- STATUS.ERR (log 21). -/
def err (s : State) : Bool := s.engine == .error

/-- STATUS as the host reads it (10_state.md R25). -/
def statusWord (s : State) : Word :=
  BitVec.ofNat 32 (bit (busy s) + 2 * bit s.done + 4 * bit (err s) + 8 * bit s.cmdDropped
    + 16 * bit s.bfinalSeen + 32 * bit s.fnameTrunc)

/-! ### The interrupt line (60_exceptions.md R337) -/

/-- IRQ = (DONE & IE_DONE) | (ERR & IE_ERR) (60_exceptions.md R337). -/
def irq (s : State) : Bool := (s.done && ieDone s) || (err s && ieErr s)

/-- The level of one interrupt input of the host: IRQ where the platform routes it there
(60_exceptions.md R337; log 18). -/
def irqAt (input : Nat) (s : State) : Bool := input == Config.irqRouting && irq s

/-! ### The register file (10_state.md R22) -/

/-- The 28 registers (10_state.md R22). -/
inductive Reg where
  | cmd | status | errinfo | cfg | arg0 | arg1 | arg2 | res0 | res1 | crcState | crcValue | rawCount
  | bytesInLo | bytesInHi | bytesOutLo | bytesOutHi | outCommitLo | outCommitHi | bwState | brState
  | winState | gzFlg | gzMtime | gzXflOs | gzFnameLen | gzTrlCrc | gzTrlIsize | params
deriving DecidableEq, Repr

/-- The register at a byte offset; the two low offset bits are ignored, other offsets are unmapped
(10_state.md R22, 20_memory.md R66). -/
def regAt (offset : Nat) : Option Reg :=
  match offset / 4 with
  | 0x00 => some .cmd
  | 0x01 => some .status
  | 0x02 => some .errinfo
  | 0x03 => some .cfg
  | 0x04 => some .arg0
  | 0x05 => some .arg1
  | 0x06 => some .arg2
  | 0x07 => some .res0
  | 0x08 => some .res1
  | 0x09 => some .crcState
  | 0x0A => some .crcValue
  | 0x0B => some .rawCount
  | 0x0C => some .bytesInLo
  | 0x0D => some .bytesInHi
  | 0x0E => some .bytesOutLo
  | 0x0F => some .bytesOutHi
  | 0x10 => some .outCommitLo
  | 0x11 => some .outCommitHi
  | 0x12 => some .bwState
  | 0x13 => some .brState
  | 0x14 => some .winState
  | 0x15 => some .gzFlg
  | 0x16 => some .gzMtime
  | 0x17 => some .gzXflOs
  | 0x18 => some .gzFnameLen
  | 0x19 => some .gzTrlCrc
  | 0x1A => some .gzTrlIsize
  | 0x1B => some .params
  | _ => none

/-- The host address of a register offset (20_memory.md R68; log 18). -/
def hostAddress (offset : Nat) : Nat := Config.baseAddr + offset

/-- CRC_VALUE, the complement of CRC_STATE (10_state.md R29). -/
def crcValue (s : State) : Word := ~~~s.crcState

/-- The low word of a 64-bit counter (10_state.md R30). -/
def loWord (v : BitVec 64) : Word := v.extractLsb' 0 32
/-- The high word of a 64-bit counter (10_state.md R30). -/
def hiWord (v : BitVec 64) : Word := v.extractLsb' 32 32

/-- BW_STATE and BR_STATE: the count in bits 3:0, the buffer in bits 15:8 (10_state.md R32). -/
def cursorWord (count : BitVec 3) (buf : Byte) : Word := zext32 count ||| (zext32 buf <<< 8)

/-- WIN_STATE: WCUR in bits 15:0, WVALID in bits 31:16 (10_state.md R33). -/
def winStateWord (s : State) : Word := zext32 s.wcur ||| (zext32 s.wvalid <<< 16)

/-- PARAMS: CHUNK_SIZE in bits 15:0, FNAME_MAX in bits 31:16 (10_state.md R34). -/
def paramsWord (p : Config.Params) : Word :=
  BitVec.ofNat 32 (p.fnameMax % 2 ^ 16 * 2 ^ 16 + p.chunkSize % 2 ^ 16)

/-- What a register holds (10_state.md R22 to R35). -/
def regValue (s : State) : Reg → Word
  | .cmd => s.cmd
  | .status => statusWord s
  | .errinfo => s.errinfo
  | .cfg => s.cfg
  | .arg0 => s.arg0
  | .arg1 => s.arg1
  | .arg2 => s.arg2
  | .res0 => s.res0
  | .res1 => s.res1
  | .crcState => s.crcState
  | .crcValue => crcValue s
  | .rawCount => s.rawCount
  | .bytesInLo => loWord s.bytesIn
  | .bytesInHi => hiWord s.bytesIn
  | .bytesOutLo => loWord s.bytesOut
  | .bytesOutHi => hiWord s.bytesOut
  | .outCommitLo => loWord s.outCommit
  | .outCommitHi => hiWord s.outCommit
  | .bwState => cursorWord s.wcount s.wbuf
  | .brState => cursorWord s.rcount s.rbuf
  | .winState => winStateWord s
  | .gzFlg => zext32 s.gzFlg
  | .gzMtime => s.gzMtime
  | .gzXflOs => zext32 s.gzXfl ||| (zext32 s.gzOs <<< 8)
  | .gzFnameLen => s.gzFnameLen
  | .gzTrlCrc => s.gzTrlCrc
  | .gzTrlIsize => s.gzTrlIsize
  | .params => paramsWord s.params

end Sys2Proof.Machine
end

