-- ==== Sys2Proof/Machine/BitIO.lean ====
section
/-! DEFINITION. The bit framer's commands (41_bitio.md). Their primitives are in Ops.lean. -/

namespace Sys2Proof.Machine

/-- BW_BITS (41_bitio.md R161). -/
def bwBitsSteps (n : Nat) : Exec Unit := do
  raiseIf (n > 32) .badCommand
  let s ← getState
  writeBits s.arg0.toNat n

/-- BW_BITS (41_bitio.md R161). -/
def execBwBits (n : Nat) (s : State) : Host.Outcome State Fault Refusal :=
  runCommand (.bwBits n) (bwBitsSteps n) s

/-- BW_BITS_R (41_bitio.md R162). -/
def bwBitsRSteps (n : Nat) : Exec Unit := do
  raiseIf (n > 32) .badCommand
  let s ← getState
  writeBitsR s.arg0.toNat n

/-- BW_BITS_R (41_bitio.md R162). -/
def execBwBitsR (n : Nat) (s : State) : Host.Outcome State Fault Refusal :=
  runCommand (.bwBitsR n) (bwBitsRSteps n) s

/-- BW_FLUSH (41_bitio.md R164). -/
def execBwFlush (s : State) : Host.Outcome State Fault Refusal :=
  runCommand .bwFlush flush s

/-- BW_BYTE (41_bitio.md R165). -/
def bwByteSteps : Exec Unit := do
  let s ← getState
  writeByte (byteOperand s.arg0)

/-- BW_BYTE (41_bitio.md R165). -/
def execBwByte (s : State) : Host.Outcome State Fault Refusal :=
  runCommand .bwByte bwByteSteps s

/-- BW_SHORT (41_bitio.md R166). -/
def bwShortSteps : Exec Unit := do
  let s ← getState
  writeShort (shortOperand s.arg0)

/-- BW_SHORT (41_bitio.md R166). -/
def execBwShort (s : State) : Host.Outcome State Fault Refusal :=
  runCommand .bwShort bwShortSteps s

/-- BW_INT (41_bitio.md R167). -/
def bwIntSteps : Exec Unit := do
  let s ← getState
  writeInt s.arg0

/-- BW_INT (41_bitio.md R167). -/
def execBwInt (s : State) : Host.Outcome State Fault Refusal :=
  runCommand .bwInt bwIntSteps s

/-- `RES0 <- ReadBits(n)`. On IO_EOF RES0 is unchanged (41_bitio.md R171). -/
def readBitsToRes0 (n : Nat) : Exec Unit := do
  let v ← readBits n
  change (setRes0 (BitVec.ofNat 32 v))

/-- BR_BITS (41_bitio.md R171). -/
def brBitsSteps (n : Nat) : Exec Unit := do
  raiseIf (n > 32) .badCommand
  readBitsToRes0 n

/-- BR_BITS (41_bitio.md R171). -/
def execBrBits (n : Nat) (s : State) : Host.Outcome State Fault Refusal :=
  runCommand (.brBits n) (brBitsSteps n) s

/-- BR_BYTE (41_bitio.md R173). -/
def execBrByte (s : State) : Host.Outcome State Fault Refusal :=
  runCommand .brByte (readBitsToRes0 8) s

/-- BR_SHORT (41_bitio.md R174). -/
def execBrShort (s : State) : Host.Outcome State Fault Refusal :=
  runCommand .brShort (readBitsToRes0 16) s

/-- BR_INT (41_bitio.md R175). -/
def execBrInt (s : State) : Host.Outcome State Fault Refusal :=
  runCommand .brInt (readBitsToRes0 32) s

/-- BR_ALIGN (41_bitio.md R176). -/
def brAlignSteps : Exec Unit := do
  let k ← alignIn
  change (setRes0 (BitVec.ofNat 32 k))

/-- BR_ALIGN (41_bitio.md R176). -/
def execBrAlign (s : State) : Host.Outcome State Fault Refusal :=
  runCommand .brAlign brAlignSteps s

end Sys2Proof.Machine
end

