-- ==== Sys2Proof/Machine/Crc.lean ====
section
/-! DEFINITION. The CRC-32 engine (42_crc.md). -/

namespace Sys2Proof.Machine

/-- The state after one more byte: `table[(state ^ byte) & 0xFF] ^ (state >> 8)` (42_crc.md R191). -/
def crcStep (c : Word) (b : Byte) : Word :=
  crcTable ((c ^^^ zext32 b) &&& 0xFF#32).toNat ^^^ (c >>> 8)

/-- `CrcUpdate(b)` (42_crc.md R191). -/
def crcUpdate (b : Byte) (s : State) : State := { s with crcState := crcStep s.crcState b }

/-- CRC_INIT (42_crc.md R192). -/
def execCrcInit (s : State) : Host.Outcome State Fault Refusal :=
  runCommand .crcInit (change fun s => { s with crcState := 0xFFFFFFFF#32 }) s

/-- CRC_UPDATE (42_crc.md R193). -/
def execCrcUpdate (s : State) : Host.Outcome State Fault Refusal :=
  runCommand .crcUpdate (change fun s => crcUpdate (byteOperand s.arg0) s) s

end Sys2Proof.Machine
end

