-- ==== Sys2Proof/Machine/Huffman.lean ====
section
/-! DEFINITION. The Huffman unit (44_huffman.md): tree construction, depth limiting, canonical codes,
the fixed tables, symbol decoding, code-length packing, and the commands over them. -/

namespace Sys2Proof.Machine

/-! ### Small list helpers -/

/-- The largest of a list of naturals; 0 for none. -/
def maxOf (l : List Nat) : Nat := l.foldr max 0

/-- The smallest of a list of naturals; 0 for none. -/
def minOf : List Nat → Nat
  | [] => 0
  | [x] => x
  | x :: y :: rest => min x (minOf (y :: rest))

/-! ### Tree construction (44_huffman.md R221 to R223) -/

/-- The Huffman tree (10_state.md R45); it lives only inside a build (log 13). -/
inductive HufTree where
  | leaf (sym : Nat)
  | node (left right : HufTree)
deriving DecidableEq, Repr

/-- A node of the priority queue: its weight, its order number and its subtree (44_huffman.md R222). -/
structure QNode where
  weight : Nat
  order : Nat
  tree : HufTree
deriving DecidableEq, Repr

/-- The leaves: one per symbol of nonzero frequency with that weight, and the lowest zero-frequency
symbols with weight 1 until there are two (44_huffman.md R221). Pairs are (symbol, weight). -/
def hufLeaves (freq : List Nat) : List (Nat × Nat) :=
  let used := (freq.zipIdx.filter (fun x => x.1 > 0)).map (fun x => (x.2, x.1))
  let unused := (freq.zipIdx.filter (fun x => x.1 = 0)).map (fun x => (x.2, 1))
  used ++ unused.take (2 - used.length)

/-- The queue key (weight, order), compared lexicographically (44_huffman.md R222). -/
def QNode.before (x y : QNode) : Bool :=
  x.weight < y.weight || (x.weight == y.weight && x.order < y.order)

/-- A node goes to its place in the queue, which is kept in the order of its keys. -/
def enqueue (x : QNode) : List QNode → List QNode
  | [] => [x]
  | y :: rest => if x.before y then x :: y :: rest else y :: enqueue x rest

/-- The queue of the leaves; the order of a leaf is its symbol (44_huffman.md R222). -/
def leafQueue (leaves : List (Nat × Nat)) : List QNode :=
  leaves.foldr (fun x q => enqueue ⟨x.2, x.1, .leaf x.1⟩ q) []

/-- The merging loop (44_huffman.md R222): `order` is S + k for the k-th internal node. The queue loses
one node a turn, so its length bounds the turns. -/
def mergeQueue : (turns order : Nat) → List QNode → Except Stop HufTree
  | _, _, [x] => .ok x.tree
  | turns + 1, order, x :: y :: rest =>
    mergeQueue turns (order + 1) (enqueue ⟨x.weight + y.weight, order, .node x.tree y.tree⟩ rest)
  | _, _, _ => .error .bound

/-- The (symbol, depth) of every leaf below a node at a depth (44_huffman.md R223). -/
def HufTree.depths : HufTree → Nat → List (Nat × Nat)
  | .leaf s, d => [(s, d)]
  | .node l r, d => l.depths (d + 1) ++ r.depths (d + 1)

/-- The largest leaf depth of a tree. -/
def HufTree.maxDepth (t : HufTree) : Nat := maxOf ((t.depths 0).map Prod.snd)

/-! ### Depth limiting (44_huffman.md R224) -/

/-- Whether a tree is the leaf of a symbol. -/
def HufTree.isLeaf (t : HufTree) (a : Nat) : Bool :=
  match t with
  | .leaf s => s == a
  | .node _ _ => false

/-- Leaf `a` is detached: its sibling takes the place of their parent (44_huffman.md R224). -/
def HufTree.detach (a : Nat) : HufTree → HufTree
  | .leaf s => .leaf s
  | .node l r =>
    if l.isLeaf a then r
    else if r.isLeaf a then l
    else .node (l.detach a) (r.detach a)

/-- A new internal node with left child `c` and right child `a` in the place of leaf `c`
(44_huffman.md R224). -/
def HufTree.attach (c a : Nat) : HufTree → HufTree
  | .leaf s => if s = c then .node (.leaf c) (.leaf a) else .leaf s
  | .node l r => .node (l.attach c a) (r.attach c a)

/-- The lowest symbol among the leaves at a depth. -/
def lowestAt (leaves : List (Nat × Nat)) (d : Nat) : Nat :=
  minOf ((leaves.filter (fun x => x.2 = d)).map Prod.fst)

/-- One turn of the depth-limiting loop; none where no leaf at depth ≤ LIMIT-2 exists to attach to
(44_huffman.md R224). -/
def rebalance (limit : Nat) (t : HufTree) : Option HufTree :=
  let a := lowestAt (t.depths 0) t.maxDepth
  let t1 := t.detach a
  let candidates := (t1.depths 0).filter (fun x => x.2 + 2 ≤ limit)
  if candidates.isEmpty then none
  else some (t1.attach (lowestAt candidates (maxOf (candidates.map Prod.snd))) a)

/-- The sum over the leaves of max(0, depth - (LIMIT-1)), which every turn lowers (44_huffman.md R225):
a bound on the turns. -/
def excessDepth (limit : Nat) (t : HufTree) : Nat :=
  ((t.depths 0).map (fun x => x.2 - (limit - 1))).sum

/-- The depth-limiting loop (44_huffman.md R224). -/
def limitDepth (limit : Nat) : (turns : Nat) → HufTree → Except Stop HufTree
  | turns, t =>
    if t.maxDepth ≤ limit then .ok t
    else
      match turns with
      | 0 => .error .bound
      | turns + 1 =>
        match rebalance limit t with
        | some t' => limitDepth limit turns t'
        | none => .error (.raise .hufConstruct)

/-- The depth of a symbol's leaf, 0 for a symbol without one (44_huffman.md R223). -/
def depthOf (leaves : List (Nat × Nat)) (s : Nat) : Nat :=
  match leaves.find? (fun x => x.1 = s) with
  | some x => x.2
  | none => 0

/-- `HufBuild(FREQ, LIMIT)`: the code lengths of all S symbols, or the error (44_huffman.md R221 to
R224). -/
def hufBuild (freq : List Nat) (limit : Nat) : Except Stop (List Nat) :=
  match mergeQueue freq.length freq.length (leafQueue (hufLeaves freq)) with
  | .error e => .error e
  | .ok t =>
    match limitDepth limit (excessDepth limit t) t with
    | .error e => .error e
    | .ok t' => .ok ((List.range freq.length).map (depthOf (t'.depths 0)))

/-! ### Canonical codes (44_huffman.md R227) -/

/-- The code of the next symbol of length `len`: 0 for the first, one more at the same length, shifted
up at a longer one. `last` is (previous code, its length) (44_huffman.md R227). -/
def nextCode (len : Nat) : Option (Nat × Nat) → Nat
  | none => 0
  | some (code, prev) => if len = prev then code + 1 else (code + 1) * 2 ^ (len - prev)

/-- The inner loop of 44_huffman.md R227 for one length over the symbols in order: entries are
(LEN[s], CODE[s]). -/
def canonPass (len : Nat) :
    List (Nat × Nat) → Option (Nat × Nat) → List (Nat × Nat) × Option (Nat × Nat)
  | [], last => ([], last)
  | (l, c) :: rest, last =>
    if l = len then
      let code := nextCode len last
      let r := canonPass len rest (some (code, len))
      ((l, code) :: r.1, r.2)
    else
      let r := canonPass len rest last
      ((l, c) :: r.1, r.2)

/-- The outer loop of 44_huffman.md R227, over the lengths in order. -/
def canonPasses : List Nat → List (Nat × Nat) → Option (Nat × Nat) → List (Nat × Nat)
  | [], table, _ => table
  | len :: rest, table, last =>
    let r := canonPass len table last
    canonPasses rest r.1 r.2

/-- `HufCanon(LEN)`: lengths 1..15 in order; a symbol of length 0 has code 0 (44_huffman.md R227). -/
def hufCanon (lens : List Nat) : List Nat :=
  (canonPasses (List.range' 1 Config.maxCodeLen) (lens.map (fun l => (l, 0))) none).map Prod.snd

/-- `CODE <- HufCanon(LEN)` for an alphabet. -/
def canonTables (a : Alphabet) (t : Tables) : Tables := setCodes t a (hufCanon (lensOf t a))

/-! ### The fixed tables (44_huffman.md R232) -/

/-- The fixed literal/length code length of a symbol (44_huffman.md R232). -/
def fixedLL (s : Nat) : Nat :=
  if s ≤ 143 then 8 else if s ≤ 255 then 9 else if s ≤ 279 then 7 else 8

/-- The fixed distance code length of a symbol (44_huffman.md R232). -/
def fixedD (s : Nat) : Nat := if s ≤ 29 then 5 else 0

/-- `FixedTables()` (44_huffman.md R232). -/
def fixedTables (t : Tables) : Tables :=
  let t1 := setLens t .ll ((List.range Config.llSize).map fixedLL)
  let t2 := setLens t1 .d ((List.range Config.dSize).map fixedD)
  canonTables .d (canonTables .ll t2)

/-- A change of the tables. -/
def changeTables (f : Tables → Tables) : Exec Unit :=
  change fun s => { s with tables := f s.tables }

/-! ### Symbol decoding (44_huffman.md R229) -/

/-- The lowest symbol from `s` on with the length and the code; entries are (LEN, CODE). -/
def findCode (len v : Nat) : (s : Nat) → List (Nat × Nat) → Option Nat
  | _, [] => none
  | s, (l, c) :: rest => if l = len ∧ c = v then some s else findCode len v (s + 1) rest

/-- The loop of 44_huffman.md R229 from bit count `len` on, `rem` bits at most to go, `v` the value of
the bits read. -/
def decodeFrom (table : List (Nat × Nat)) : (rem len v : Nat) → Exec Nat
  | 0, _, _ => raise .badSymbol
  | rem + 1, len, v => do
    let b ← getBit
    let v' := 2 * v + bit b
    match findCode len v' 0 table with
    | some s => pure s
    | none => decodeFrom table rem (len + 1) v'

/-- `HufDecode(SEL)`: a table without codes raises BAD_SYMBOL before a bit is read (44_huffman.md
R229). -/
def hufDecode (a : Alphabet) : Exec Nat := do
  let s ← getState
  let lens := lensOf s.tables a
  decodeFrom (lens.zip (codesOf s.tables a)) (maxOf lens) 1 0

/-! ### Code-length packing (44_huffman.md R234, R235) -/

/-- The packed symbols (symbol, extra value) of the rest of a zero run: 18 while at least 11 are left,
then 17 for at least 3, then single zeros (44_huffman.md R234). Each turn uses up at least one. -/
def packZeros : (turns rem : Nat) → List (Nat × Nat)
  | 0, _ => []
  | turns + 1, rem =>
    if rem ≥ 11 then (18, min rem 138 - 11) :: packZeros turns (rem - min rem 138)
    else if rem ≥ 3 then [(17, rem - 3)]
    else List.replicate rem (0, 0)

/-- The packed symbols of the repeats of a nonzero length: 16 while at least 3 are left, then the length
itself (44_huffman.md R234). -/
def packRepeats (v : Nat) : (turns rem : Nat) → List (Nat × Nat)
  | 0, _ => []
  | turns + 1, rem =>
    if rem ≥ 3 then (16, min rem 6 - 3) :: packRepeats v turns (rem - min rem 6)
    else List.replicate rem (v, 0)

/-- The packed symbols of a run of `r` lengths `v` (44_huffman.md R234). -/
def packRun (v r : Nat) : List (Nat × Nat) :=
  if v = 0 then packZeros r r else (v, 0) :: packRepeats v r (r - 1)

/-- `ClPack(seq)`, run by run; each turn uses up at least one length (44_huffman.md R234). -/
def packRuns : (turns : Nat) → List Nat → List (Nat × Nat)
  | turns + 1, v :: rest =>
    let more := (rest.takeWhile (fun x => x = v)).length
    packRun v (more + 1) ++ packRuns turns (rest.drop more)
  | _, _ => []

/-- `ClPack(seq)` (44_huffman.md R234). -/
def clPack (seq : List Nat) : List (Nat × Nat) := packRuns seq.length seq

/-- A PACKED entry: the symbol in bits 4:0, the extra value in bits 14:8 (10_state.md R41). -/
def packedEntry (p : Nat × Nat) : BitVec 16 := BitVec.ofNat 16 (p.2 * 2 ^ 8 + p.1)

/-- The symbol of a PACKED entry, bits 4:0. -/
def packedSym (e : BitVec 16) : Nat := (e.extractLsb' 0 5).toNat

/-- The extra value of a PACKED entry, bits 14:8. -/
def packedExtra (e : BitVec 16) : Nat := (e.extractLsb' 8 7).toNat

/-- The tables after packing the first `nll` and `nd` lengths: PACKED[0..] and all of FREQ_CL
(44_huffman.md R234). Also gives the number of packed symbols. -/
def packTables (nll nd : Nat) (t : Tables) : Tables × Nat :=
  let p := clPack ((lensOf t .ll).take nll ++ (lensOf t .d).take nd)
  let counts := (List.range Config.clSize).map (fun s => (p.filter (fun x => x.1 = s)).length)
  ({ t with
      packed := t.packed.writeList 0 (p.map packedEntry)
      freqCL := .ofList (counts.map (BitVec.ofNat 32)) }, p.length)

/-- What one packed symbol adds to the lengths expanded so far, given its extra value (44_huffman.md
R235, 45_deflate.md R278): a 16 repeats the last length, and needs one; a run past `total` is an
error. -/
def expandSymbol (total : Nat) (seq : List Nat) (sym x : Nat) : Except ErrCode (List Nat) :=
  let run : Except ErrCode (Nat × Nat) :=
    if sym ≤ 15 then .ok (1, sym)
    else if sym = 16 then
      match seq.getLast? with
      | none => .error .badCodelengths
      | some v => .ok (3 + x, v)
    else if sym = 17 then .ok (3 + x, 0)
    else if sym = 18 then .ok (11 + x, 0)
    else .error .badSymbol
  match run with
  | .error e => .error e
  | .ok (rep, v) =>
    if seq.length + rep > total then .error .badCodelengths
    else .ok (seq ++ List.replicate rep v)

/-- The extra bits of a code-length symbol (30_encoding.md R112). -/
def extraBits (sym : Nat) : Nat :=
  if sym = 16 then 2 else if sym = 17 then 3 else if sym = 18 then 7 else 0

/-- `ClUnpack(P, total)` from the lengths expanded so far; the extra value is masked to its symbol's
width (44_huffman.md R235). -/
def clUnpack (total : Nat) : (seq : List Nat) → List (BitVec 16) → Except ErrCode (List Nat)
  | seq, [] => if seq.length < total then .error .badCodelengths else .ok seq
  | seq, e :: rest =>
    match expandSymbol total seq (packedSym e) (packedExtra e % 2 ^ extraBits (packedSym e)) with
    | .error c => .error c
    | .ok seq' => clUnpack total seq' rest

/-- An expanded sequence fills the length tables: `nll` literal/length lengths, then `nd` distance
lengths, and 0 for the rest (44_huffman.md R235, 45_deflate.md R278). -/
def splitLens (nll nd : Nat) (seq : List Nat) (t : Tables) : Tables :=
  let ll := (List.range Config.llSize).map (fun s => if s < nll then seq.getD s 0 else 0)
  let d := (List.range Config.dSize).map (fun s => if s < nd then seq.getD (nll + s) 0 else 0)
  setLens (setLens t .ll ll) .d d

/-! ### Commands -/

/-- The alphabet of SEL, BAD_COMMAND for SEL = 3 (44_huffman.md R220). -/
def alphabetOf (sel : Sel) : Exec Alphabet :=
  match selAlphabet sel with
  | some a => pure a
  | none => raise .badCommand

/-- After HUF_CONSTRUCT the LEN table of the alphabet is unspecified (44_huffman.md R230, 60_exceptions.md
R336). -/
def scrambleLens (a : Alphabet) (s : State) : State :=
  { s with
    tables :=
      (match a with
       | .ll => { s.tables with lenLL := .unknown 4 s.draws }
       | .d => { s.tables with lenD := .unknown 4 s.draws }
       | .cl => { s.tables with lenCL := .unknown 4 s.draws })
    draws := s.draws + 1 }

/-- `LEN <- HufBuild(FREQ, LIMIT)` for an alphabet (44_huffman.md R230). -/
def buildLens (a : Alphabet) (limit : Nat) : Exec Unit := fun s =>
  match hufBuild (freqsOf s.tables a) limit with
  | .ok lens => .ok () { s with tables := setLens s.tables a lens }
  | .error stop => .error stop s

/-- HUF_BUILD (44_huffman.md R230). -/
def hufBuildSteps (sel : Sel) (limit : Nat) : Exec Unit := do
  let a ← alphabetOf sel
  raiseIf (limit = 0) .badCommand
  leavingUnspecified (scrambleLens a) (buildLens a limit)

/-- HUF_BUILD (44_huffman.md R230). -/
def execHufBuild (sel : Sel) (limit : Nat) (s : State) : Host.Outcome State Fault Refusal :=
  runCommand (.hufBuild sel limit) (hufBuildSteps sel limit) s

/-- HUF_CANON (44_huffman.md R231). -/
def hufCanonSteps (sel : Sel) : Exec Unit := do
  let a ← alphabetOf sel
  changeTables (canonTables a)

/-- HUF_CANON (44_huffman.md R231). -/
def execHufCanon (sel : Sel) (s : State) : Host.Outcome State Fault Refusal :=
  runCommand (.hufCanon sel) (hufCanonSteps sel) s

/-- HUF_FIXED (44_huffman.md R232). -/
def execHufFixed (s : State) : Host.Outcome State Fault Refusal :=
  runCommand .hufFixed (changeTables fixedTables) s

/-- HUF_DECODE (44_huffman.md R233). -/
def hufDecodeSteps (sel : Sel) : Exec Unit := do
  let a ← alphabetOf sel
  let sym ← hufDecode a
  change (setRes0 (BitVec.ofNat 32 sym))

/-- HUF_DECODE (44_huffman.md R233). -/
def execHufDecode (sel : Sel) (s : State) : Host.Outcome State Fault Refusal :=
  runCommand (.hufDecode sel) (hufDecodeSteps sel) s

/-- The operand ranges of CL_PACK and CL_UNPACK: nll in 1..288, nd in 1..32 (44_huffman.md R234). -/
abbrev lengthCountsOk (s : State) : Prop :=
  (1 ≤ natOperand s.arg0 ∧ natOperand s.arg0 ≤ Config.llSize) ∧
    (1 ≤ natOperand s.arg1 ∧ natOperand s.arg1 ≤ Config.dSize)

/-- CL_PACK (44_huffman.md R234). -/
def clPackSteps : Exec Unit := do
  let s ← getState
  raiseIf (¬ lengthCountsOk s) .badCommand
  let r := packTables (natOperand s.arg0) (natOperand s.arg1) s.tables
  changeTables fun _ => r.1
  change (setRes0 (BitVec.ofNat 32 r.2))

/-- CL_PACK (44_huffman.md R234). -/
def execClPack (s : State) : Host.Outcome State Fault Refusal :=
  runCommand .clPack clPackSteps s

/-- CL_UNPACK (44_huffman.md R235): the LEN tables are written only when the whole sequence expands. -/
def clUnpackSteps : Exec Unit := do
  let s ← getState
  raiseIf (¬ lengthCountsOk s ∨ natOperand s.arg2 > Config.packedMax) .badCommand
  let nll := natOperand s.arg0
  let nd := natOperand s.arg1
  match clUnpack (nll + nd) [] (s.tables.packed.toList (natOperand s.arg2)) with
  | .error e => raise e
  | .ok seq => changeTables (splitLens nll nd seq)

/-- CL_UNPACK (44_huffman.md R235). -/
def execClUnpack (s : State) : Host.Outcome State Fault Refusal :=
  runCommand .clUnpack clUnpackSteps s

end Sys2Proof.Machine
end

