-- ==== Sys2Proof/Machine/Window.lean ====
section
/-! DEFINITION. The sliding window and the match finder (43_window.md). -/

namespace Sys2Proof.Machine

/-- `WinAdd(b)` (43_window.md R200). -/
def winAdd (b : Byte) (s : State) : State :=
  { s with
    tables := { s.tables with window := s.tables.window.write s.wcur.toNat b }
    wcur := BitVec.ofNat 15 ((s.wcur.toNat + 1) % winCap s)
    wvalid := BitVec.ofNat 16 (min (s.wvalid.toNat + 1) (winCap s)) }

/-- The index `(WCUR - d) mod N` (43_window.md R200), a difference of integers modulo N: for d > N,
which no rule's caller uses in a state of R48, it is still that residue (log 23). -/
def winIndex (s : State) (d : Nat) : Nat :=
  (s.wcur.toNat + (winCap s - d % winCap s)) % winCap s

/-- `WinAt(d)`: the byte d positions back (43_window.md R200). -/
def winAt (s : State) (d : Nat) : Byte := s.tables.window.read (winIndex s d)

/-- `Src(d, k)`: byte k of the candidate that starts d bytes back; past the window's end it goes on in
CHUNK (43_window.md R202). -/
def matchByte (s : State) (off d k : Nat) : Byte :=
  if k < d then winAt s (d - k) else s.tables.chunk.read (off + k - d)

/-- How many bytes match from byte k on, of at most `rem` more (the `while` of 43_window.md R202). -/
def matchRun (s : State) (off d : Nat) : (rem k : Nat) → Nat
  | 0, k => k
  | rem + 1, k =>
    if matchByte s off d k = s.tables.chunk.read (off + k) then matchRun s off d rem (k + 1) else k

/-- The `for d` loop of 43_window.md R202 from distance d on, `rem` distances to go, with the best
(length, distance) so far: only strictly longer matches replace it. -/
def searchFrom (s : State) (off maxlen : Nat) : (rem d : Nat) → Nat × Nat → Nat × Nat
  | 0, _, best => best
  | rem + 1, d, best =>
    let k := matchRun s off d maxlen 0
    searchFrom s off maxlen rem (d + 1) (if k > best.1 then (k, d) else best)

/-- `WinFind(CHUNK, off, len)` (43_window.md R202); (0, 0) is no match. -/
def winFind (s : State) (off len : Nat) : Nat × Nat :=
  let maxlen := min Config.maxMatch (len - off)
  if maxlen < Config.minMatch then (0, 0)
  else
    let best := searchFrom s off maxlen s.wvalid.toNat 1 (0, 0)
    if best.1 ≥ Config.minMatch then best else (0, 0)

/-- WIN_RESET (43_window.md R203). -/
def winResetSteps : Exec Unit := do
  checkWindowConfig
  change fun s => { s with wcur := 0, wvalid := 0 }

/-- WIN_RESET (43_window.md R203). -/
def execWinReset (s : State) : Host.Outcome State Fault Refusal :=
  runCommand .winReset winResetSteps s

/-- WIN_ADD (43_window.md R204). -/
def winAddSteps : Exec Unit := do
  checkWindowConfig
  change fun s => winAdd (byteOperand s.arg0) s

/-- WIN_ADD (43_window.md R204). -/
def execWinAdd (s : State) : Host.Outcome State Fault Refusal :=
  runCommand .winAdd winAddSteps s

/-- WIN_FIND (43_window.md R205); BAD_COMMAND comes before BAD_CONFIG (60_exceptions.md R334). -/
def winFindSteps : Exec Unit := do
  let s ← getState
  raiseIf (natOperand s.arg1 > s.params.chunkSize ∨ natOperand s.arg0 > natOperand s.arg1) .badCommand
  checkWindowConfig
  change fun s =>
    let r := winFind s (natOperand s.arg0) (natOperand s.arg1)
    setRes1 (BitVec.ofNat 32 r.2) (setRes0 (BitVec.ofNat 32 r.1) s)

/-- WIN_FIND (43_window.md R205). -/
def execWinFind (s : State) : Host.Outcome State Fault Refusal :=
  runCommand .winFind winFindSteps s

end Sys2Proof.Machine
end

