-- ==== Sys2Proof/Machine/Deflate.lean ====
section
/-! DEFINITION. The DEFLATE encoder and decoder (45_deflate.md). -/

namespace Sys2Proof.Machine

/-! ### Encoder, pass 1 (45_deflate.md R261) -/

/-- `WinAdd` of each byte in order. -/
def winAddAll : List Byte → State → State
  | [], s => s
  | b :: rest, s => winAddAll rest (winAdd b s)

/-- `CrcUpdate` of each byte in order. -/
def crcAll : List Byte → State → State
  | [], s => s
  | b :: rest, s => crcAll rest (crcUpdate b s)

/-- CHUNK[i..i+n-1]. -/
def chunkBytes (t : Tables) (i n : Nat) : List Byte := (List.range' i n).map t.chunk.read

/-- `FREQ_LL[sym] <- FREQ_LL[sym] + 1`. -/
def countLL (sym : Nat) (t : Tables) : Tables :=
  { t with freqLL := t.freqLL.write sym (t.freqLL.read sym + 1) }

/-- `FREQ_D[sym] <- FREQ_D[sym] + 1`. -/
def countD (sym : Nat) (t : Tables) : Tables :=
  { t with freqD := t.freqD.write sym (t.freqD.read sym + 1) }

/-- A match token: recorded, counted, and its bytes added to the window (45_deflate.md R261). -/
def addMatch (i l d : Nat) (s : State) : State :=
  winAddAll (chunkBytes s.tables i l)
    { s with
      tokens := s.tokens ++ [.copy l d]
      tables := countD (distSym d) (countLL (lenSym l) s.tables) }

/-- A literal token: recorded, counted, and its byte added to the window (45_deflate.md R261). -/
def addLiteral (i : Nat) (s : State) : State :=
  let b := s.tables.chunk.read i
  winAdd b { s with tokens := s.tokens ++ [.literal b], tables := countLL b.toNat s.tables }

/-- The match at a position, or (0, 0) where the match finder is off (45_deflate.md R261). -/
def matchAt (s : State) (i n : Nat) : Nat × Nat := if lz77En s then winFind s i n else (0, 0)

/-- The token loop of 45_deflate.md R261 from position i on; each turn codes at least one byte, so n
bounds the turns. -/
def tokenizeFrom (n : Nat) : (turns i : Nat) → State → State
  | 0, _, s => s
  | turns + 1, i, s =>
    if i < n then
      let m := matchAt s i n
      if m.1 ≥ Config.minMatch then tokenizeFrom n turns (i + m.1) (addMatch i m.1 m.2 s)
      else tokenizeFrom n turns (i + 1) (addLiteral i s)
    else s

/-- `Tokenize(n)` (45_deflate.md R261): TOKENS, FREQ_LL, FREQ_D and the window; the end-of-block symbol is
counted once. -/
def tokenize (n : Nat) (s : State) : State :=
  let s0 :=
    { s with
      tokens := []
      tables := { s.tables with freqLL := .zeros 32, freqD := .zeros 32 } }
  let s1 := tokenizeFrom n n 0 s0
  { s1 with tables := countLL 256 s1.tables }

/-! ### Encoder, tables and pass 2 (45_deflate.md R262 to R266) -/

/-- `LEN <- HufBuild(FREQ, limit); CODE <- HufCanon(LEN)` for an alphabet. -/
def buildCodes (a : Alphabet) (limit : Nat) : Exec Unit := do
  buildLens a limit
  changeTables (canonTables a)

/-- `BuildDynamic()`: gives the number of packed symbols (45_deflate.md R262). -/
def buildDynamic : Exec Nat := do
  buildCodes .ll Config.maxCodeLen
  buildCodes .d Config.maxCodeLen
  let s ← getState
  let r := packTables 286 30 s.tables
  changeTables fun _ => r.1
  buildCodes .cl Config.maxClCodeLen
  pure r.2

/-- `WriteBitsR(CODE[sym], LEN[sym])` for an alphabet (30_encoding.md R114). -/
def writeCode (a : Alphabet) (sym : Nat) : Exec Unit := do
  let s ← getState
  writeBitsR (codeAt s.tables a sym) (lenAt s.tables a sym)

/-- The 3-bit meta lengths in transmission order (45_deflate.md R263). -/
def writeMetaLens : List Nat → Exec Unit
  | [] => pure ()
  | sym :: rest => do
    let s ← getState
    writeBits (lenAt s.tables .cl sym) 3
    writeMetaLens rest

/-- The packed code lengths: each symbol's code and its extra bits (45_deflate.md R263). -/
def writePacked : List (BitVec 16) → Exec Unit
  | [] => pure ()
  | e :: rest => do
    writeCode .cl (packedSym e)
    writeBits (packedExtra e) (extraBits (packedSym e))
    writePacked rest

/-- The block header, BFINAL then BTYPE (30_encoding.md R101). -/
def writeBlockHeader (final : Bool) (btype : Nat) : Exec Unit := do
  writeBits (bit final) 1
  writeBits btype 2

/-- `WriteDynamicHeader(final, np)`: HLIT = 29, HDIST = 29, HCLEN = 15 (45_deflate.md R263). -/
def writeDynamicHeader (final : Bool) (np : Nat) : Exec Unit := do
  writeBlockHeader final 2
  writeBits 29 5
  writeBits 29 5
  writeBits 15 4
  writeMetaLens clOrder
  let s ← getState
  writePacked (s.tables.packed.toList np)

/-- One token of pass 2 (45_deflate.md R264). -/
def emitToken : Token → Exec Unit
  | .literal b => writeCode .ll b.toNat
  | .copy l d => do
    let r := lenRange (lenSym l - 257)
    writeCode .ll (lenSym l)
    writeBits (l - r.base) r.extra
    let q := distRange (distSym d)
    writeCode .d (distSym d)
    writeBits (d - q.base) q.extra

/-- The tokens of pass 2, in order. -/
def emitEach : List Token → Exec Unit
  | [] => pure ()
  | t :: rest => do
    emitToken t
    emitEach rest

/-- `EmitTokens(ntok)`: the tokens and the end-of-block symbol (45_deflate.md R264). -/
def emitTokens : Exec Unit := do
  let s ← getState
  emitEach s.tokens
  writeCode .ll 256

/-- `EncodeFixed(n, final)` (45_deflate.md R265). -/
def encodeFixed (n : Nat) (final : Bool) : Exec Unit := do
  change (tokenize n)
  changeTables fixedTables
  writeBlockHeader final 1
  emitTokens

/-- `EncodeStored(n, final)` (45_deflate.md R266). -/
def encodeStored (n : Nat) (final : Bool) : Exec Unit := do
  let s ← getState
  let bytes := chunkBytes s.tables 0 n
  change (winAddAll bytes)
  writeBlockHeader final 0
  flush
  writeBits n 16
  writeBits (n ^^^ 0xFFFF) 16
  writeBytes bytes

/-- The dynamic block of 45_deflate.md R269. -/
def encodeDynamic (n : Nat) (final : Bool) : Exec Unit := do
  change (tokenize n)
  let np ← buildDynamic
  writeDynamicHeader final np
  emitTokens

/-- `EncChunk(n, final)` (45_deflate.md R269). -/
def encChunk (n : Nat) (final : Bool) : Exec Unit := do
  let s ← getState
  change (crcAll (chunkBytes s.tables 0 n))
  change fun s => { s with rawCount := s.rawCount + BitVec.ofNat 32 n }
  if btypeSel s = 0 then encodeStored n final
  else if btypeSel s = 1 then encodeFixed n final
  else encodeDynamic n final

/-! ### Encoder, the stream (45_deflate.md R271) -/

/-- Fill CHUNK from the input port from entry n on, until it is full (`room` = 0) or the input ends;
gives the number of valid bytes (45_deflate.md R271). Entries it writes keep their bytes after the command, as every
RAM entry does (10_state.md R14), where 93_implementation_defined.md U5 leaves those the next command does not write at
any value (log 29). -/
def fillChunk : (room n : Nat) → Exec Nat
  | 0, n => pure n
  | room + 1, n => do
    let atEnd ← inAtEnd
    if atEnd then pure n
    else
      let b ← inRead
      changeTables fun t => { t with chunk := t.chunk.write n b }
      fillChunk room (n + 1)

/-- The chunk loop of 45_deflate.md R271; a chunk that is not final takes at least one byte from the
port, so the bytes there bound the turns. -/
def encChunks : (turns : Nat) → Exec Unit
  | 0 => outOfBound
  | turns + 1 => do
    let s ← getState
    let n ← fillChunk s.params.chunkSize 0
    let final ← inAtEnd
    encChunk n final
    if final then pure () else encChunks turns

/-- `EncStreamBody()` (45_deflate.md R271). -/
def encStreamBody : Exec Unit := do
  let s ← getState
  encChunks (s.inPort.length + 1)
  flush

/-! ### Decoder (45_deflate.md R274 to R283) -/

/-- `EmitByte(b)` (45_deflate.md R277). -/
def emitByte (b : Byte) : Exec Unit := do
  outWrite b
  change fun s =>
    let t := crcUpdate b (winAdd b s)
    { t with rawCount := t.rawCount + 1 }

/-- The block header (45_deflate.md R274). BFINAL_SEEN is set where R274's steps set it, once BFINAL and BTYPE have been
read; its prose, "as soon as the bit is read", differs where the input ends between them (log 28). -/
def readBlockHeader : Exec (Nat × Nat) := do
  let bfinal ← readBits 1
  let btype ← readBits 2
  change fun s => { s with bfinalSeen := s.bfinalSeen || bfinal == 1 }
  pure (bfinal, btype)

/-- The stored bytes, `len` of them (45_deflate.md R276). -/
def copyStored : Nat → Exec Unit
  | 0 => pure ()
  | len + 1 => do
    let b ← readByte
    emitByte b
    copyStored len

/-- `DecodeStored()` (45_deflate.md R276). -/
def decodeStored : Exec Unit := do
  let _ ← alignIn
  let len ← readBits 16
  let nlen ← readBits 16
  raiseIf (nlen ≠ len ^^^ 0xFFFF) .storedLen
  copyStored len

/-- The meta lengths of the given symbols, 3 bits each, in order (45_deflate.md R278). -/
def readMetaLens : List Nat → Exec Unit
  | [] => pure ()
  | sym :: rest => do
    let v ← readBits 3
    changeTables fun t => { t with lenCL := t.lenCL.write sym (BitVec.ofNat 4 v) }
    readMetaLens rest

/-- The loop that decodes the combined length sequence up to `total` lengths; each turn adds at least one,
so `total` bounds the turns (45_deflate.md R278). -/
def readLens (total : Nat) : (turns : Nat) → (seq : List Nat) → Exec (List Nat)
  | turns, seq =>
    if seq.length < total then
      match turns with
      | 0 => outOfBound
      | turns + 1 => do
        let sym ← hufDecode .cl
        if sym = 16 ∧ seq = [] then raise .badCodelengths
        else
          let x ← readBits (extraBits sym)
          match expandSymbol total seq sym x with
          | .error e => raise e
          | .ok seq' => readLens total turns seq'
    else pure seq

/-- `DecodeDynamicTables()` (45_deflate.md R278). -/
def decodeDynamicTables : Exec Unit := do
  let hlit ← readBits 5
  let hdist ← readBits 5
  let hclen ← readBits 4
  raiseIf (hlit > 29) .badCodelengths
  changeTables fun t => { t with lenCL := .zeros 4 }
  readMetaLens (clOrder.take (hclen + 4))
  changeTables (canonTables .cl)
  let nll := hlit + 257
  let nd := hdist + 1
  let seq ← readLens (nll + nd) (nll + nd) []
  changeTables fun t => canonTables .d (canonTables .ll (splitLens nll nd seq t))

/-- `repeat L times: EmitByte(WinAt(dist))` (45_deflate.md R280). -/
def copyBytes (dist : Nat) : Nat → Exec Unit
  | 0 => pure ()
  | n + 1 => do
    let s ← getState
    emitByte (winAt s dist)
    copyBytes dist n

/-- `CopyMatch(L)` (45_deflate.md R280). -/
def copyMatch (l : Nat) : Exec Unit := do
  let ds ← hufDecode .d
  raiseIf (ds ≥ 30) .badSymbol
  let x ← readBits (distRange ds).extra
  let dist := (distRange ds).base + x
  let s ← getState
  raiseIf (dist > s.wvalid.toNat) .badDistance
  copyBytes dist l

/-- `DecodeSymbols()`: each turn reads at least one bit, so the bits left bound the turns (45_deflate.md
R279). -/
def decodeSymbolsFrom : (turns : Nat) → Exec Unit
  | 0 => outOfBound
  | turns + 1 => do
    let sym ← hufDecode .ll
    if sym < 256 then
      emitByte (BitVec.ofNat 8 sym)
      decodeSymbolsFrom turns
    else if sym = 256 then pure ()
    else if sym ≤ 285 then
      let r := lenRange (sym - 257)
      let x ← readBits r.extra
      copyMatch (r.base + x)
      decodeSymbolsFrom turns
    else raise .badSymbol

/-- `DecodeSymbols()` (45_deflate.md R279). -/
def decodeSymbols : Exec Unit := do
  let s ← getState
  decodeSymbolsFrom (bitsLeft s + 1)

/-- `OUT_COMMIT <- BYTES_OUT` at the end of a block (45_deflate.md R281). -/
def commitOutput (s : State) : State := { s with outCommit := s.bytesOut }

/-- `DecBlock()`: gives BFINAL and BTYPE (45_deflate.md R282, R275). -/
def decBlock : Exec (Nat × Nat) := do
  let h ← readBlockHeader
  if h.2 = 0 then decodeStored
  else if h.2 = 1 then
    changeTables fixedTables
    decodeSymbols
  else if h.2 = 2 then
    decodeDynamicTables
    decodeSymbols
  else raise .badBtype
  change commitOutput
  pure h

/-- The block loop, which counts the blocks (45_deflate.md R283); a block takes at least three bits, so
the bits left bound the turns. -/
def decBlocks : (turns count : Nat) → Exec Nat
  | 0, _ => outOfBound
  | turns + 1, count => do
    let h ← decBlock
    if h.1 = 1 then pure (count + 1) else decBlocks turns (count + 1)

/-- `DecStreamBody()` (45_deflate.md R283). -/
def decStreamBody : Exec Nat := do
  let s ← getState
  decBlocks (bitsLeft s + 1) 0

/-! ### Commands -/

/-- DEF_ENC_CHUNK (45_deflate.md R270). -/
def defEncChunkSteps (final : Bool) : Exec Unit := do
  let s ← getState
  raiseIf (natOperand s.arg0 > s.params.chunkSize) .badCommand
  checkEncoderConfig
  encChunk (natOperand s.arg0) final

/-- DEF_ENC_CHUNK (45_deflate.md R270). -/
def execDefEncChunk (final : Bool) (s : State) : Host.Outcome State Fault Refusal :=
  runCommand (.defEncChunk final) (defEncChunkSteps final) s

/-- DEF_ENC_STREAM (45_deflate.md R271). -/
def defEncStreamSteps : Exec Unit := do
  checkEncoderConfig
  change streamInit
  encStreamBody

/-- DEF_ENC_STREAM (45_deflate.md R271). -/
def execDefEncStream (s : State) : Host.Outcome State Fault Refusal :=
  runCommand .defEncStream defEncStreamSteps s

/-- DEF_DEC_BLOCK (45_deflate.md R284). -/
def defDecBlockSteps : Exec Unit := do
  checkWindowConfig
  leavingUnspecified scrambleDecoder do
    let h ← decBlock
    change fun s => setRes1 (BitVec.ofNat 32 h.2) (setRes0 (BitVec.ofNat 32 h.1) s)

/-- DEF_DEC_BLOCK (45_deflate.md R284). -/
def execDefDecBlock (s : State) : Host.Outcome State Fault Refusal :=
  runCommand .defDecBlock defDecBlockSteps s

/-- DEF_DEC_STREAM (45_deflate.md R285). RES0 takes the low 32 bits of the count of blocks, which R283 does not bound
(log 30). -/
def defDecStreamSteps : Exec Unit := do
  checkWindowConfig
  leavingUnspecified scrambleDecoder do
    change streamInit
    let count ← decStreamBody
    change (setRes0 (BitVec.ofNat 32 count))

/-- DEF_DEC_STREAM (45_deflate.md R285). -/
def execDefDecStream (s : State) : Host.Outcome State Fault Refusal :=
  runCommand .defDecStream defDecStreamSteps s

end Sys2Proof.Machine
end

