-- ==== Sys2Proof/Machine/Container.lean ====
section
/-! DEFINITION. The gzip container codec (46_container.md). -/

namespace Sys2Proof.Machine

/-! ### Header and trailer (46_container.md R300 to R303) -/

/-- FLG.FNAME (30_encoding.md R117). -/
def flgFname : Byte := 0x08#8

/-- The flags that are refused: FHCRC, FEXTRA, FCOMMENT and the reserved bits (46_container.md R306). -/
def flgRefused : Byte := 0xF6#8

/-- The bytes of a header: ID1, ID2, CM, FLG, six placeholders, and the name with its NUL (46_container.md
R300, 30_encoding.md R116). -/
def headerBytes (fn : Bool) (name : List Byte) : List Byte :=
  [0x1F#8, 0x8B#8, 0x08#8, if fn then flgFname else 0x00#8] ++ List.replicate 6 0x00#8
    ++ (if fn then name ++ [0x00#8] else [])

/-- `WriteHeader(fn, namelen)` (46_container.md R300). -/
def writeHeader (fn : Bool) (namelen : Nat) : Exec Unit := do
  let s ← getState
  writeBytes (headerBytes fn (s.tables.fname.toList (if fn then namelen else 0)))

/-- The name of a header, read up to its NUL: kept up to FNAME_MAX bytes, counted up to 2^32 - 1; gives
the count and whether it was cut (46_container.md R301). A turn takes eight bits, so the bits left
bound the turns. -/
def readName : (turns namelen : Nat) → (trunc : Bool) → Exec (Nat × Bool)
  | 0, _, _ => outOfBound
  | turns + 1, namelen, trunc => do
    let b ← readByte
    if b = 0x00#8 then pure (namelen, trunc)
    else
      let s ← getState
      let counted := if namelen < 2 ^ 32 - 1 then namelen + 1 else namelen
      if namelen < s.params.fnameMax then
        changeTables fun t => { t with fname := t.fname.write namelen b }
        readName turns counted trunc
      else readName turns counted true

/-- The name field, present only with FLG.FNAME (46_container.md R301). -/
def readNameField (flg : Byte) : Exec (Nat × Bool) := do
  let s ← getState
  if flg &&& flgFname ≠ 0 then readName (bitsLeft s + 1) 0 false else pure (0, false)

/-- `ReadHeader()`: gives FLG and the name length (46_container.md R301). -/
def readHeader : Exec (Byte × Nat) := do
  let id1 ← readByte
  raiseIf (id1 ≠ 0x1F#8) .badMagic
  let id2 ← readByte
  raiseIf (id2 ≠ 0x8B#8) .badMagic
  let cm ← readByte
  raiseIf (cm ≠ 0x08#8) .badMethod
  let flg ← readByte
  raiseIf (flg &&& flgRefused ≠ 0) .unsupportedFlags
  let mtime ← readInt
  let xfl ← readByte
  let os ← readByte
  let name ← readNameField flg
  change fun s =>
    { s with
      gzFlg := flg
      gzMtime := mtime
      gzXfl := xfl
      gzOs := os
      gzFnameLen := BitVec.ofNat 32 name.1
      fnameTrunc := name.2 }
  pure (flg, name.1)

/-- `WriteTrailer()` (46_container.md R302). -/
def writeTrailer : Exec Unit := do
  flush
  let s ← getState
  writeInt (crcValue s)
  writeInt s.rawCount

/-- `ReadTrailer()`: both fields are read before either is compared, the CRC first (46_container.md
R303). -/
def readTrailer : Exec Unit := do
  let _ ← alignIn
  let crc ← readInt
  let isize ← readInt
  change fun s => { s with gzTrlCrc := crc, gzTrlIsize := isize }
  let s ← getState
  raiseIf (crc ≠ crcValue s) .crcMismatch
  raiseIf (isize ≠ s.rawCount) .isizeMismatch

/-! ### Commands -/

/-- GZ_WR_HEADER (46_container.md R310): ARG0 is read only when FN = 1. -/
def gzWrHeaderSteps (fn : Bool) : Exec Unit := do
  let s ← getState
  raiseIf (fn ∧ natOperand s.arg0 > s.params.fnameMax) .badCommand
  writeHeader fn (natOperand s.arg0)

/-- GZ_WR_HEADER (46_container.md R310). -/
def execGzWrHeader (fn : Bool) (s : State) : Host.Outcome State Fault Refusal :=
  runCommand (.gzWrHeader fn) (gzWrHeaderSteps fn) s

/-- `(RES0, RES1) <- ReadHeader()`; a failed header leaves FNAME unspecified (46_container.md R311,
60_exceptions.md R336). -/
def headerToRes : Exec Unit :=
  leavingUnspecified scrambleName do
    let h ← readHeader
    change fun s => setRes1 (BitVec.ofNat 32 h.2) (setRes0 (zext32 h.1) s)

/-- GZ_RD_HEADER (46_container.md R311). -/
def execGzRdHeader (s : State) : Host.Outcome State Fault Refusal :=
  runCommand .gzRdHeader headerToRes s

/-- GZ_WR_TRAILER (46_container.md R312). -/
def execGzWrTrailer (s : State) : Host.Outcome State Fault Refusal :=
  runCommand .gzWrTrailer writeTrailer s

/-- GZ_RD_TRAILER (46_container.md R313). -/
def execGzRdTrailer (s : State) : Host.Outcome State Fault Refusal :=
  runCommand .gzRdTrailer (leavingUnspecified scrambleTrailer readTrailer) s

/-- GZ_COMPRESS (46_container.md R314). -/
def gzCompressSteps (fn : Bool) : Exec Unit := do
  let s ← getState
  raiseIf (fn ∧ natOperand s.arg0 > s.params.fnameMax) .badCommand
  checkEncoderConfig
  change streamInit
  writeHeader fn (natOperand s.arg0)
  encStreamBody
  writeTrailer

/-- GZ_COMPRESS (46_container.md R314). -/
def execGzCompress (fn : Bool) (s : State) : Host.Outcome State Fault Refusal :=
  runCommand (.gzCompress fn) (gzCompressSteps fn) s

/-- The body and the trailer of a member; where they fail, the registers and the name the header wrote
are unspecified too (60_exceptions.md R336). -/
def memberBody : Exec Unit :=
  leavingUnspecified (fun s => scrambleHeader (scrambleName s)) do
    let _ ← decStreamBody
    readTrailer

/-- GZ_DECOMPRESS (46_container.md R315): RES0 and RES1 are written when the header has been read. -/
def gzDecompressSteps : Exec Unit := do
  checkWindowConfig
  leavingUnspecified (fun s => scrambleTrailer (scrambleDecoder s)) do
    change streamInit
    headerToRes
    memberBody

/-- GZ_DECOMPRESS (46_container.md R315). -/
def execGzDecompress (s : State) : Host.Outcome State Fault Refusal :=
  runCommand .gzDecompress gzDecompressSteps s

end Sys2Proof.Machine
end

