-- ==== Sys2Proof/Machine/Control.lean ====
section
/-! DEFINITION. The control and table-access commands (40_control.md). -/

namespace Sys2Proof.Machine

/-- NOP (40_control.md R140). -/
def execNop (s : State) : Host.Outcome State Fault Refusal :=
  runCommand .nop (pure ()) s

/-- RESET (40_control.md R141): the block takes its reset values; no DONE. -/
def execReset (s : State) : Host.Outcome State Fault Refusal :=
  .next (resetBlock s)

/-- CLEAR_ERR (40_control.md R142). -/
def execClearErr (s : State) : Host.Outcome State Fault Refusal :=
  runCommand .clearErr (change leaveError) s

/-- STREAM_INIT (40_control.md R144). -/
def execStreamInit (s : State) : Host.Outcome State Fault Refusal :=
  runCommand .streamInit (change streamInit) s

/-- TBL_READ (40_control.md R145). -/
def tblReadSteps (t : TableId) : Exec Unit := do
  let s ← getState
  raiseIf (entries s.params t ≤ natOperand s.arg0) .badCommand
  change (setRes0 (readEntry s.tables (natOperand s.arg0) t))

/-- TBL_READ (40_control.md R145). -/
def execTblRead (t : TableId) (s : State) : Host.Outcome State Fault Refusal :=
  runCommand (.tblRead t) (tblReadSteps t) s

/-- TBL_WRITE (40_control.md R146): a read-only table is refused before the index is checked. -/
def tblWriteSteps (t : TableId) : Exec Unit := do
  let s ← getState
  raiseIf (readOnlyTable t) .badCommand
  raiseIf (entries s.params t ≤ natOperand s.arg0) .badCommand
  change fun s => { s with tables := writeEntry s.tables (natOperand s.arg0) s.arg1 t }

/-- TBL_WRITE (40_control.md R146). -/
def execTblWrite (t : TableId) (s : State) : Host.Outcome State Fault Refusal :=
  runCommand (.tblWrite t) (tblWriteSteps t) s

end Sys2Proof.Machine
end

