-- ==== Sys2Proof/Machine/Dispatch.lean ====
section
/-! DEFINITION. The meaning of a command, one arm per constructor (30_encoding.md R93): from the state in
which it has been accepted (60_exceptions.md R330) to its completion, its error entry or its hold. -/

namespace Sys2Proof.Machine

def exec (i : Instr) (s : State) : Host.Outcome State Fault Refusal :=
  match i with
  -- 40_control.md
  | .nop => Sys2Proof.Machine.execNop s
  | .reset => Sys2Proof.Machine.execReset s
  | .clearErr => Sys2Proof.Machine.execClearErr s
  | .streamInit => Sys2Proof.Machine.execStreamInit s
  | .tblRead tbl => Sys2Proof.Machine.execTblRead tbl s
  | .tblWrite tbl => Sys2Proof.Machine.execTblWrite tbl s
  -- 41_bitio.md
  | .bwBits n => Sys2Proof.Machine.execBwBits n s
  | .bwBitsR n => Sys2Proof.Machine.execBwBitsR n s
  | .bwFlush => Sys2Proof.Machine.execBwFlush s
  | .bwByte => Sys2Proof.Machine.execBwByte s
  | .bwShort => Sys2Proof.Machine.execBwShort s
  | .bwInt => Sys2Proof.Machine.execBwInt s
  | .brBits n => Sys2Proof.Machine.execBrBits n s
  | .brByte => Sys2Proof.Machine.execBrByte s
  | .brShort => Sys2Proof.Machine.execBrShort s
  | .brInt => Sys2Proof.Machine.execBrInt s
  | .brAlign => Sys2Proof.Machine.execBrAlign s
  -- 42_crc.md
  | .crcInit => Sys2Proof.Machine.execCrcInit s
  | .crcUpdate => Sys2Proof.Machine.execCrcUpdate s
  -- 43_window.md
  | .winReset => Sys2Proof.Machine.execWinReset s
  | .winAdd => Sys2Proof.Machine.execWinAdd s
  | .winFind => Sys2Proof.Machine.execWinFind s
  -- 44_huffman.md
  | .hufBuild sel limit => Sys2Proof.Machine.execHufBuild sel limit s
  | .hufCanon sel => Sys2Proof.Machine.execHufCanon sel s
  | .hufFixed => Sys2Proof.Machine.execHufFixed s
  | .hufDecode sel => Sys2Proof.Machine.execHufDecode sel s
  | .clPack => Sys2Proof.Machine.execClPack s
  | .clUnpack => Sys2Proof.Machine.execClUnpack s
  -- 45_deflate.md
  | .defEncChunk final => Sys2Proof.Machine.execDefEncChunk final s
  | .defEncStream => Sys2Proof.Machine.execDefEncStream s
  | .defDecBlock => Sys2Proof.Machine.execDefDecBlock s
  | .defDecStream => Sys2Proof.Machine.execDefDecStream s
  -- 46_container.md
  | .gzWrHeader fn => Sys2Proof.Machine.execGzWrHeader fn s
  | .gzRdHeader => Sys2Proof.Machine.execGzRdHeader s
  | .gzWrTrailer => Sys2Proof.Machine.execGzWrTrailer s
  | .gzRdTrailer => Sys2Proof.Machine.execGzRdTrailer s
  | .gzCompress fn => Sys2Proof.Machine.execGzCompress fn s
  | .gzDecompress => Sys2Proof.Machine.execGzDecompress s

end Sys2Proof.Machine
end

