-- ==== Sys2Proof/Machine/Host.lean ====
section
/-! DEFINITION. The two agents' turns: the host's actions on the block (60_exceptions.md R341), among
them the submission of a command (R330), and the engine's turn, in which a held command goes on (00_scope.md
R15). Step.lean chooses between them. -/

namespace Sys2Proof.Machine

/-- A command word written to CMD (60_exceptions.md R330): dropped while BUSY, and in ERROR but for RESET
and CLEAR_ERR; otherwise accepted and executed. An opcode that is not in the map raises BAD_COMMAND
(30_encoding.md R94). -/
def submit (w : Word) (s : State) : Host.Outcome State Fault Refusal :=
  if s.engine = .busy then .next { s with cmdDropped := true }
  else if s.engine = .error ∧ opcField w ≠ 0x01#8 ∧ opcField w ≠ 0x02#8 then
    .next { s with cmdDropped := true }
  else
    match decode w with
    | .ok i => exec i (accept w s)
    | .error _ => .next (enterError .badCommand (accept w s))

/-- A host write to a register other than CMD: CFG and ARG0..ARG2 are written unless BUSY (10_state.md
R24, R27, 70_reset_and_hazards.md R380); a 1 to STATUS bit 3 clears CMD_DROPPED (10_state.md R25);
writes to read-only registers are ignored (20_memory.md R66). -/
def writeRegister (r : Reg) (v : Word) (s : State) : State :=
  match r with
  | .cfg => if busy s then s else { s with cfg := v &&& cfgMask }
  | .arg0 => if busy s then s else { s with arg0 := v }
  | .arg1 => if busy s then s else { s with arg1 := v }
  | .arg2 => if busy s then s else { s with arg2 := v }
  | .status => if v.getLsbD 3 then { s with cmdDropped := false } else s
  | .cmd | .errinfo | .res0 | .res1 | .crcState | .crcValue | .rawCount => s
  | .bytesInLo | .bytesInHi | .bytesOutLo | .bytesOutHi | .outCommitLo | .outCommitHi => s
  | .bwState | .brState | .winState | .gzFlg | .gzMtime | .gzXflOs | .gzFnameLen => s
  | .gzTrlCrc | .gzTrlIsize | .params => s

/-- A host write of a word at an offset; a write to an unmapped offset is ignored (20_memory.md R66). -/
def writeOffset (offset : Nat) (v : Word) (s : State) : Host.Outcome State Fault Refusal :=
  match regAt offset with
  | none => .next s
  | some .cmd => submit v s
  | some r => .next (writeRegister r v s)

/-- A host read at an offset: an unmapped offset reads 0 (20_memory.md R66); while BUSY every register
but STATUS reads a free value (70_reset_and_hazards.md R381; log 16). -/
def readOffset (offset : Nat) (s : State) : State :=
  match regAt offset with
  | none => { s with hostRead := 0 }
  | some r =>
    if busy s ∧ r ≠ .status then
      { s with hostRead := Config.freeBits 32 s.draws 0, draws := s.draws + 1 }
    else { s with hostRead := regValue s r }

/-- The host does one action (60_exceptions.md R341). Bytes may be appended at any time, to a closed port too, which
stays closed (20_memory.md R61; log 6); a `takeOutput` of more bytes than the port holds takes those it holds
(log 5). -/
def hostTurn (e : HostEvent) (s : State) : Host.Outcome State Fault Refusal :=
  match e with
  | .write bits offset v =>
    if bits = 32 then writeOffset offset v s else .refused (.accessWidth bits)
  | .read bits offset =>
    if bits = 32 then .next (readOffset offset s) else .refused (.accessWidth bits)
  | .input bytes => .next { s with inPort := s.inPort ++ bytes }
  | .closeInput => .next { s with inClosed := true }
  | .openInput => if busy s then .refused .reopenWhileBusy else .next { s with inClosed := false }
  | .emptyInput => if busy s then .refused .withdrawWhileBusy else .next { s with inPort := [] }
  | .takeOutput count => .next { s with outPort := s.outPort.drop count }
  | .acceptOutput room => .next { s with outRoom := room }
  | .resetInput => .next (resetBlock s)
  | .pass | .wait => .next s

/-- The bytes appended behind the end of the input a held command has already seen: it ends with the bytes it
took, and these stay in the port (00_scope.md R15; log 3). -/
def lateInput (h : Held) (s : State) : List Byte := if h.ended then s.inPort else []

/-- The state a held command runs again from: the block as it was when the command was accepted, the bytes
it took back at the head of the input port, and room for the bytes it gave (log 3). CMD_DROPPED may
have changed since (60_exceptions.md R330). -/
def rewind (h : Held) (s : State) : State :=
  { s with
    toEngine := { h.start with cmdDropped := s.cmdDropped }
    inPort := h.taken ++ (if h.ended then [] else s.inPort)
    outPort := []
    outRoom := s.outRoom.map (· + h.given)
    held := none
    sawEnd := false }

/-- The ports once a command has run again: the bytes it had given before stay given (00_scope.md R17), the
others follow them; the bytes it never saw are in the input port. -/
def regive (h : Held) (s t : State) : State :=
  { t with
    inPort := t.inPort ++ lateInput h s
    outPort := s.outPort ++ t.outPort.drop h.given }

/-- A held command goes on (00_scope.md R15): it runs from its start, over the same bytes, past the point
where it held (log 3). -/
def resume (h : Held) (s : State) : Host.Outcome State Fault Refusal :=
  match exec h.instr (rewind h s) with
  | .next t => .next (regive h s t)
  | .fault f => .fault f
  | .refused r => .refused r

/-- The engine's turn: a held command goes on; an engine that holds nothing waits (70_reset_and_hazards.md
R370). -/
def engineTurn (s : State) : Host.Outcome State Fault Refusal :=
  match s.held with
  | some h => resume h s
  | none => .next s

end Sys2Proof.Machine
end

