-- ==== Sys2Proof/Machine/Step.lean ====
section
/-! DEFINITION. One step of the machine. The block fetches no instructions (20_memory.md R73): commands
come from the host, whose actions wait in `host`. -/

namespace Sys2Proof.Machine

/-- One step. The next host action is done; where the host waits for BUSY = 0, lets the engine go on, or has
nothing queued, the engine has the turn (logs 1, 4). -/
def step (s : State) : Host.Outcome State Fault Refusal :=
  match s.host with
  | [] => engineTurn s
  | .wait :: rest => if busy s then engineTurn s else .next { s with host := rest }
  | .pass :: rest => engineTurn { s with host := rest }
  | e :: rest => hostTurn e { s with host := rest }

/-- The state in which the next step runs a command word: the host's next action is the 32-bit write of the
word to CMD, offset 0x00 (10_state.md R23; log 1). -/
def State.withFetchWord (s : State) (nbits w : Nat) : State :=
  { s with host := .write 32 0x00 (tableWord nbits w) :: s.host }

end Sys2Proof.Machine
end

