-- ==== Sys2Proof/Safety.lean ====
section
/-! DEFINITION. What claims about CORE speak of: streams as bits, what a host may do, the state a command
may write and the errors it may raise, and the invariants of the block (10_state.md R48, R49). -/

namespace Sys2Proof.Machine

/-! ### Streams as bits (20_memory.md R64, 10_state.md R32) -/

/-- The low `n` bits of a value, LSB first: the order of `WriteBits` and `ReadBits`. -/
def bitsOf (n v : Nat) : List Bool := (List.range n).map v.testBit

/-- The low `n` bits of a value, MSB first: the order of `WriteBitsR`. -/
def bitsRev (n v : Nat) : List Bool := (bitsOf n v).reverse

/-- The value of bits read LSB first. -/
def natOfBits : List Bool → Nat
  | [] => 0
  | b :: rest => bit b + 2 * natOfBits rest

/-- The bits of bytes in stream order: bit 0 of a byte first (20_memory.md R64). -/
def streamBits (l : List Byte) : List Bool := l.flatMap (fun b => bitsOf 8 b.toNat)

/-- The bits the writer holds pending, oldest first (10_state.md R32). -/
def pendingBits (s : State) : List Bool := bitsOf s.wcount.toNat s.wbuf.toNat

/-- The bits a reader can still take: those of the current byte, then those of the port (10_state.md
R32). -/
def unreadBits (s : State) : List Bool := bitsOf s.rcount.toNat s.rbuf.toNat ++ streamBits s.inPort

/-- The host accepts `n` more output bytes. -/
def hasRoom (s : State) (n : Nat) : Prop := ∀ k, s.outRoom = some k → n ≤ k

/-- What `n` accepted bytes leave of the host's room. -/
def roomAfter (s : State) (n : Nat) : Option Nat := s.outRoom.map (· - n)

/-! ### The host's side of the interface (60_exceptions.md R341) -/

/-- An action inside the interface: register accesses are 32 bits wide (20_memory.md R66), and the input port is
reopened (20_memory.md R61), and emptied (log 27), only while BUSY = 0. -/
def HostEvent.allowed (s : State) : HostEvent → Bool
  | .write bits _ _ => bits == 32
  | .read bits _ => bits == 32
  | .openInput | .emptyInput => !busy s
  | .input _ | .closeInput | .takeOutput _ | .acceptOutput _ | .resetInput | .pass | .wait => true

/-- A safe run of `k` steps: every step answers a next state, and no action is outside the interface. -/
def SafeRun : Nat → State → Prop
  | 0, _ => True
  | k + 1, s => ∃ t, step s = .next t ∧ SafeRun k t

/-! ### What a command may raise (60_exceptions.md R331, column "raised by") -/

/-- The errors of the block decoder (45_deflate.md R284). -/
def decoderErrors : List ErrCode :=
  [.badConfig, .badBtype, .storedLen, .badCodelengths, .badSymbol, .badDistance, .ioEof]

/-- The errors of the header reader (46_container.md R311). -/
def headerErrors : List ErrCode := [.badMagic, .badMethod, .unsupportedFlags, .ioEof]

/-- The errors of the trailer reader (46_container.md R313). -/
def trailerErrors : List ErrCode := [.ioEof, .crcMismatch, .isizeMismatch]

/-- The errors a command can raise (60_exceptions.md R331). -/
def raises : Instr → List ErrCode
  | .nop | .reset | .clearErr | .streamInit => []
  | .tblRead _ | .tblWrite _ | .bwBits _ | .bwBitsR _ => [.badCommand]
  | .bwFlush | .bwByte | .bwShort | .bwInt => []
  | .brBits _ => [.badCommand, .ioEof]
  | .brByte | .brShort | .brInt => [.ioEof]
  | .brAlign | .crcInit | .crcUpdate => []
  | .winReset | .winAdd => [.badConfig]
  | .winFind => [.badCommand, .badConfig]
  | .hufBuild _ _ => [.badCommand, .hufConstruct]
  | .hufCanon _ => [.badCommand]
  | .hufFixed => []
  | .hufDecode _ => [.badCommand, .badSymbol, .ioEof]
  | .clPack => [.badCommand]
  | .clUnpack => [.badCommand, .badCodelengths, .badSymbol]
  | .defEncChunk _ => [.badCommand, .badConfig]
  | .defEncStream => [.badConfig]
  | .defDecBlock | .defDecStream => decoderErrors
  | .gzWrHeader _ => [.badCommand]
  | .gzRdHeader => headerErrors
  | .gzWrTrailer => []
  | .gzRdTrailer => trailerErrors
  | .gzCompress _ => [.badCommand, .badConfig]
  | .gzDecompress => decoderErrors ++ headerErrors ++ trailerErrors

/-! ### What a command checks before any effect (30_encoding.md R94, 60_exceptions.md R333) -/

/-- The bits of a command word its format uses (30_encoding.md R90, R91). -/
def usedBits : Instr → Word
  | .nop | .reset | .clearErr | .streamInit | .bwFlush | .bwByte | .bwShort | .bwInt => 0x000000FF#32
  | .brByte | .brShort | .brInt | .brAlign | .crcInit | .crcUpdate | .winReset | .winAdd => 0x000000FF#32
  | .winFind | .hufFixed | .clPack | .clUnpack | .defEncStream | .defDecBlock => 0x000000FF#32
  | .defDecStream | .gzRdHeader | .gzWrTrailer | .gzRdTrailer | .gzDecompress => 0x000000FF#32
  | .tblRead _ | .tblWrite _ => 0x00000FFF#32
  | .bwBits _ | .bwBitsR _ | .brBits _ => 0x00003FFF#32
  | .hufBuild _ _ => 0x000F03FF#32
  | .hufCanon _ | .hufDecode _ => 0x000003FF#32
  | .defEncChunk _ => 0x010000FF#32
  | .gzWrHeader _ | .gzCompress _ => 0x020000FF#32

/-- A field or operand is out of its command's range (30_encoding.md R94). -/
def badOperand (s : State) : Instr → Prop
  | .tblRead t => entries s.params t ≤ s.arg0.toNat
  | .tblWrite t => readOnlyTable t = true ∨ entries s.params t ≤ s.arg0.toNat
  | .bwBits n | .bwBitsR n | .brBits n => 32 < n
  | .winFind => s.params.chunkSize < s.arg1.toNat ∨ s.arg1.toNat < s.arg0.toNat
  | .hufBuild sel limit => sel = .illegal ∨ limit = 0
  | .hufCanon sel | .hufDecode sel => sel = .illegal
  | .clPack => s.arg0.toNat < 1 ∨ 288 < s.arg0.toNat ∨ s.arg1.toNat < 1 ∨ 32 < s.arg1.toNat
  | .clUnpack =>
    s.arg0.toNat < 1 ∨ 288 < s.arg0.toNat ∨ s.arg1.toNat < 1 ∨ 32 < s.arg1.toNat ∨ 320 < s.arg2.toNat
  | .defEncChunk _ => s.params.chunkSize < s.arg0.toNat
  | .gzWrHeader fn | .gzCompress fn => fn = true ∧ s.params.fnameMax < s.arg0.toNat
  | .nop | .reset | .clearErr | .streamInit | .bwFlush | .bwByte | .bwShort | .bwInt => False
  | .brByte | .brShort | .brInt | .brAlign | .crcInit | .crcUpdate | .winReset | .winAdd => False
  | .hufFixed | .defEncStream | .defDecBlock | .defDecStream => False
  | .gzRdHeader | .gzWrTrailer | .gzRdTrailer | .gzDecompress => False

/-- A configuration field the command reads is illegal (60_exceptions.md R333). -/
def badConfig (s : State) : Instr → Prop
  | .defEncChunk _ | .defEncStream | .gzCompress _ => btypeSel s = 3 ∨ winLog2 s = 0
  | .winReset | .winAdd | .winFind | .defDecBlock | .defDecStream | .gzDecompress => winLog2 s = 0
  | .nop | .reset | .clearErr | .streamInit | .tblRead _ | .tblWrite _ | .bwBits _ | .bwBitsR _ => False
  | .bwFlush | .bwByte | .bwShort | .bwInt | .brBits _ | .brByte | .brShort | .brInt | .brAlign => False
  | .crcInit | .crcUpdate | .hufBuild _ _ | .hufCanon _ | .hufFixed | .hufDecode _ => False
  | .clPack | .clUnpack | .gzWrHeader _ | .gzRdHeader | .gzWrTrailer | .gzRdTrailer => False

/-! ### What a command may write -/

/-- The parts of State that a frame tells apart. -/
inductive Field where
  | engine | cmd | done | cmdDropped | bfinalSeen | fnameTrunc | errinfo | cfg | arg0 | arg1 | arg2
  | res0 | res1 | crcState | rawCount | bytesIn | bytesOut | outCommit | writer | reader | winCursor
  | gzHeader | gzTrailer | table (t : TableId) | tokens | params | inPort | inClosed | outPort
  | outRoom | held | sawEnd | draws | hostRead | host
deriving DecidableEq, Repr

/-- A part of State is the same in two states. -/
def kept (s t : State) : Field → Prop
  | .engine => t.engine = s.engine
  | .cmd => t.cmd = s.cmd
  | .done => t.done = s.done
  | .cmdDropped => t.cmdDropped = s.cmdDropped
  | .bfinalSeen => t.bfinalSeen = s.bfinalSeen
  | .fnameTrunc => t.fnameTrunc = s.fnameTrunc
  | .errinfo => t.errinfo = s.errinfo
  | .cfg => t.cfg = s.cfg
  | .arg0 => t.arg0 = s.arg0
  | .arg1 => t.arg1 = s.arg1
  | .arg2 => t.arg2 = s.arg2
  | .res0 => t.res0 = s.res0
  | .res1 => t.res1 = s.res1
  | .crcState => t.crcState = s.crcState
  | .rawCount => t.rawCount = s.rawCount
  | .bytesIn => t.bytesIn = s.bytesIn
  | .bytesOut => t.bytesOut = s.bytesOut
  | .outCommit => t.outCommit = s.outCommit
  | .writer => t.wcount = s.wcount ∧ t.wbuf = s.wbuf
  | .reader => t.rcount = s.rcount ∧ t.rbuf = s.rbuf
  | .winCursor => t.wcur = s.wcur ∧ t.wvalid = s.wvalid
  | .gzHeader =>
    t.gzFlg = s.gzFlg ∧ t.gzMtime = s.gzMtime ∧ t.gzXfl = s.gzXfl ∧ t.gzOs = s.gzOs
      ∧ t.gzFnameLen = s.gzFnameLen
  | .gzTrailer => t.gzTrlCrc = s.gzTrlCrc ∧ t.gzTrlIsize = s.gzTrlIsize
  | .table .chunk => t.tables.chunk = s.tables.chunk
  | .table .window => t.tables.window = s.tables.window
  | .table .freqLL => t.tables.freqLL = s.tables.freqLL
  | .table .freqD => t.tables.freqD = s.tables.freqD
  | .table .freqCL => t.tables.freqCL = s.tables.freqCL
  | .table .lenLL => t.tables.lenLL = s.tables.lenLL
  | .table .lenD => t.tables.lenD = s.tables.lenD
  | .table .lenCL => t.tables.lenCL = s.tables.lenCL
  | .table .codeLL => t.tables.codeLL = s.tables.codeLL
  | .table .codeD => t.tables.codeD = s.tables.codeD
  | .table .codeCL => t.tables.codeCL = s.tables.codeCL
  | .table .packed => t.tables.packed = s.tables.packed
  | .table .fname => t.tables.fname = s.tables.fname
  | .table .crcTable => True
  | .table .lenRange => True
  | .table .distRange => True
  | .tokens => t.tokens = s.tokens
  | .params => t.params = s.params
  | .inPort => t.inPort = s.inPort
  | .inClosed => t.inClosed = s.inClosed
  | .outPort => t.outPort = s.outPort
  | .outRoom => t.outRoom = s.outRoom
  | .held => t.held = s.held
  | .sawEnd => t.sawEnd = s.sawEnd
  | .draws => t.draws = s.draws
  | .hostRead => t.hostRead = s.hostRead
  | .host => t.host = s.host

/-- What every command's course may write: acceptance, completion, error entry and holding
(60_exceptions.md R330, R332, R335, 00_scope.md R15). -/
def courseFields : List Field := [.engine, .done, .errinfo, .outCommit, .held, .draws]

/-- What the bit reader writes (41_bitio.md R170). -/
def readerFields : List Field := [.reader, .inPort, .bytesIn]

/-- What giving output bytes writes (00_scope.md R15). -/
def outputFields : List Field := [.outPort, .outRoom, .bytesOut]

/-- What the bit writer writes (41_bitio.md R160). -/
def writerFields : List Field := .writer :: outputFields

/-- What STREAM_INIT writes (40_control.md R144). -/
def streamFields : List Field := [.winCursor, .crcState, .rawCount, .bfinalSeen]

/-- What coding a stored chunk writes (45_deflate.md R266, R267, R269). -/
def storedFields : List Field :=
  [.crcState, .rawCount, .winCursor, .table .window, .writer, .outPort, .outRoom, .bytesOut]

/-- What coding a fixed chunk writes besides (45_deflate.md R265, R267). -/
def fixedFields : List Field :=
  [.tokens, .table .freqLL, .table .freqD, .table .lenLL, .table .lenD, .table .codeLL, .table .codeD]

/-- What coding a dynamic chunk writes besides (45_deflate.md R262, R267). -/
def dynamicFields : List Field := [.table .freqCL, .table .lenCL, .table .codeCL, .table .packed]

/-- What coding one chunk writes, for a block type (45_deflate.md R267, R269). -/
def chunkFields (btype : Nat) : List Field :=
  match btype with
  | 0 => storedFields
  | 1 => storedFields ++ fixedFields
  | _ => storedFields ++ (fixedFields ++ dynamicFields)

/-- What filling chunks writes (45_deflate.md R271); `sawEnd` is the model's note of an InAtEnd (log 3). -/
def fillFields : List Field := [.bfinalSeen, .table .chunk, .inPort, .bytesIn, .sawEnd]

/-- What coding a stream writes (45_deflate.md R271). -/
def encodeFields (btype : Nat) : List Field := fillFields ++ chunkFields btype

/-- What decoding blocks writes (45_deflate.md R274 to R282). -/
def decodeFields : List Field :=
  [.bfinalSeen, .winCursor, .crcState, .rawCount, .table .window, .table .lenLL, .table .lenD,
    .table .lenCL, .table .codeLL, .table .codeD, .table .codeCL, .reader, .inPort, .bytesIn, .outPort,
    .outRoom, .bytesOut]

/-- What reading a header writes (46_container.md R301, R311). -/
def headerFields : List Field :=
  [.gzHeader, .fnameTrunc, .table .fname, .res0, .res1, .reader, .inPort, .bytesIn]

/-- The length table of an alphabet (44_huffman.md R220). -/
def lenField : Sel → List Field
  | .ll => [.table .lenLL]
  | .d => [.table .lenD]
  | .cl => [.table .lenCL]
  | .illegal => []

/-- The code table of an alphabet (44_huffman.md R220). -/
def codeField : Sel → List Field
  | .ll => [.table .codeLL]
  | .d => [.table .codeD]
  | .cl => [.table .codeCL]
  | .illegal => []

/-- What RESET leaves alone: the host's side of the ports, and the model's own fields that no reset
reaches (70_reset_and_hazards.md R371). -/
def hostFields : List Field := [.params, .inPort, .inClosed, .outPort, .outRoom, .hostRead, .host]

/-- What a command's rule lets it write besides `courseFields`, given CFG.BTYPE_SEL; RESET writes all of the
block and has its own statement. -/
def writes (btype : Nat) : Instr → List Field
  | .nop | .reset | .clearErr => []
  | .streamInit => streamFields
  | .tblRead _ => [.res0]
  | .tblWrite t => [.table t]
  | .bwBits _ | .bwBitsR _ | .bwFlush | .bwByte | .bwShort | .bwInt => writerFields
  | .brBits _ | .brByte | .brShort | .brInt => .res0 :: readerFields
  | .brAlign => [.res0, .reader]
  | .crcInit | .crcUpdate => [.crcState]
  | .winReset => [.winCursor]
  | .winAdd => [.winCursor, .table .window]
  | .winFind => [.res0, .res1]
  | .hufBuild sel _ => lenField sel
  | .hufCanon sel => codeField sel
  | .hufFixed => [.table .lenLL, .table .lenD, .table .codeLL, .table .codeD]
  | .hufDecode _ => .res0 :: readerFields
  | .clPack => [.table .packed, .table .freqCL, .res0]
  | .clUnpack => [.table .lenLL, .table .lenD]
  | .defEncChunk _ => chunkFields btype
  | .defEncStream => encodeFields btype
  | .defDecBlock => .res0 :: .res1 :: decodeFields
  | .defDecStream => .res0 :: decodeFields
  | .gzWrHeader _ => writerFields
  | .gzRdHeader => headerFields
  | .gzWrTrailer => writerFields
  | .gzRdTrailer => .gzTrailer :: readerFields
  | .gzCompress _ => encodeFields btype
  | .gzDecompress => .gzTrailer :: (headerFields ++ decodeFields)

/-- The commands that commit output block by block (45_deflate.md R281). -/
def decodesBlocks : Instr → Bool
  | .defDecBlock | .defDecStream | .gzDecompress => true
  | .nop | .reset | .clearErr | .streamInit | .tblRead _ | .tblWrite _ | .bwBits _ | .bwBitsR _ => false
  | .bwFlush | .bwByte | .bwShort | .bwInt | .brBits _ | .brByte | .brShort | .brInt | .brAlign => false
  | .crcInit | .crcUpdate | .winReset | .winAdd | .winFind | .hufBuild _ _ | .hufCanon _ => false
  | .hufFixed | .hufDecode _ | .clPack | .clUnpack | .defEncChunk _ | .defEncStream => false
  | .gzWrHeader _ | .gzRdHeader | .gzWrTrailer | .gzRdTrailer | .gzCompress _ => false

/-! ### Invariants (10_state.md R48, R49) -/

/-- WBUF >> WCOUNT = 0: no bit above the pending ones is set (10_state.md R48). -/
abbrev WriterOk (e : Engine) : Prop := e.wbuf >>> e.wcount.toNat = 0

/-- RBUF >> RCOUNT = 0: no bit above the unread ones is set (10_state.md R48). -/
abbrev ReaderOk (e : Engine) : Prop := e.rbuf >>> e.rcount.toNat = 0

/-- The window clauses of 10_state.md R48: WVALID ≤ N, WCUR < N, and WCUR = WVALID while WVALID < N. -/
abbrev WindowOk (s : State) : Prop :=
  s.wvalid.toNat ≤ winCap s ∧ s.wcur.toNat < winCap s ∧
    (s.wvalid.toNat < winCap s → s.wcur.toNat = s.wvalid.toNat)

/-- A table is in canonical form and lists only entries it has (10_state.md R36). -/
abbrev Memory.fits {w : Nat} (m : Memory w) (n : Nat) : Prop := m.wf ∧ m.within n

/-- Every table is (10_state.md R36), and the bits of PACKED that hold nothing read 0 (R36, R41). -/
structure Tables.Ok (p : Config.Params) (t : Tables) : Prop where
  chunk : t.chunk.fits p.chunkSize
  window : t.window.fits Config.windowSize
  freqLL : t.freqLL.fits Config.llSize
  freqD : t.freqD.fits Config.dSize
  freqCL : t.freqCL.fits Config.clSize
  lenLL : t.lenLL.fits Config.llSize
  lenD : t.lenD.fits Config.dSize
  lenCL : t.lenCL.fits Config.clSize
  codeLL : t.codeLL.fits Config.llSize
  codeD : t.codeD.fits Config.dSize
  codeCL : t.codeCL.fits Config.clSize
  packed : t.packed.fits Config.packedMax
  fname : t.fname.fits p.fnameMax
  packedBits : ∀ k, t.packed.read k &&& ~~~packedMask = 0

/-- What holds of the block in every state: the bit cursors of 10_state.md R48, the reserved bits of CFG
(R24), the tables (R36), and the capacity of TOKENS (R44). -/
structure Engine.Ok (p : Config.Params) (e : Engine) : Prop where
  writer : WriterOk e
  reader : ReaderOk e
  cfg : e.cfg &&& ~~~cfgMask = 0
  tables : Tables.Ok p e.tables
  tokens : e.tokens.length ≤ p.chunkSize

/-- STATUS, ERRINFO and OUT_COMMIT (10_state.md R21, R25, R26, R31): DONE only in IDLE; ERRINFO is 0 in IDLE and names
an error of the command in CMD in ERROR; in IDLE every output byte is committed (for CLEAR_ERR, log 14). -/
structure StatusOk (s : State) : Prop where
  done : s.done = true → s.engine = .idle
  idle : s.engine = .idle → s.errinfo = 0
  commit : s.engine = .idle → s.outCommit = s.bytesOut
  error : s.engine = .error → ∃ e, s.errinfo = errorInfo s.cmd e

/-- The engine is BUSY between steps exactly where a command holds (00_scope.md R15; logs 2, 3); what is
kept of the command is the block in its accepted state, with the CFG and ARG values it still has
(70_reset_and_hazards.md R380) and the BFINAL_SEEN and FNAME_TRUNC that STATUS still shows (R387). -/
structure HoldOk (s : State) : Prop where
  busy : s.engine = .busy ↔ s.held.isSome
  held : ∀ h, s.held = some h →
    Engine.Ok s.params h.start ∧ h.start.engine = .busy ∧ h.start.done = false ∧ h.start.errinfo = 0 ∧
      (h.start.cmd = s.cmd ∧ h.start.cfg = s.cfg ∧ h.start.arg0 = s.arg0 ∧ h.start.arg1 = s.arg1 ∧
        h.start.arg2 = s.arg2) ∧
      (h.start.bfinalSeen = s.bfinalSeen ∧ h.start.fnameTrunc = s.fnameTrunc) ∧
      decode s.cmd = .ok h.instr ∧ h.instr ≠ .reset ∧ s.errinfo = 0 ∧ (h.ended = true → s.inClosed = true)

/-- The invariant of the machine. -/
structure Inv (s : State) : Prop where
  params : s.params.wf
  block : Engine.Ok s.params s.toEngine
  status : StatusOk s
  hold : HoldOk s

/-! ### Codes (44_huffman.md R226 to R228) -/

/-- The Kraft sum of the nonzero lengths, in units of 2^-`limit` (44_huffman.md R226). -/
def kraft (limit : Nat) (lens : List Nat) : Nat :=
  ((lens.filter (fun l => l > 0)).map (fun l => 2 ^ (limit - l))).sum

/-- Code `s` of a table of (length, code) is matched by no shorter or equal prefix of another symbol, and
fits its length: its bits decode to it alone. -/
def Decodable (lens codes : List Nat) (s : Nat) : Prop :=
  s < lens.length ∧ 0 < lens.getD s 0 ∧ codes.getD s 0 < 2 ^ lens.getD s 0 ∧
    ∀ r, r < lens.length → r ≠ s → 0 < lens.getD r 0 → lens.getD r 0 ≤ lens.getD s 0 →
      codes.getD s 0 / 2 ^ (lens.getD s 0 - lens.getD r 0) ≠ codes.getD r 0

/-! ### Building a code (44_huffman.md R221 to R224), as relations -/

/-- A symbol has a leaf: it has a nonzero frequency, or it is one of the lowest others that make two leaves
(44_huffman.md R221). -/
def HasLeaf (freq : List Nat) (s : Nat) : Prop :=
  s < freq.length ∧
    (0 < freq.getD s 0 ∨ (freq.filter (fun f => f > 0)).length + ((freq.take s).filter (fun f => f = 0)).length < 2)

/-- The queue the merging starts from, in any order: one leaf a symbol that has one, its weight the frequency, 1 for a
padding leaf, its order the symbol (44_huffman.md R221, R222). -/
def LeafQueue (freq : List Nat) (q : List QNode) : Prop :=
  q.Nodup ∧ ∀ x, x ∈ q ↔ ∃ s, HasLeaf freq s ∧ x = ⟨max 1 (freq.getD s 0), s, .leaf s⟩

/-- A node pops before another: the smaller (weight, order) (44_huffman.md R222). -/
def PopsBefore (x y : QNode) : Prop := x.weight < y.weight ∨ (x.weight = y.weight ∧ x.order < y.order)

/-- The merging of a queue, in whatever order it is listed, into one tree; `order` is that of the next internal node
(44_huffman.md R222). -/
inductive Merged : (order : Nat) → (queue : List QNode) → HufTree → Prop where
  | root {order : Nat} {x : QNode} : Merged order [x] x.tree
  | merge {order : Nat} {queue rest : List QNode} {x y : QNode} {t : HufTree} :
      queue.Perm (x :: y :: rest) → (∀ z ∈ y :: rest, PopsBefore x z) → (∀ z ∈ rest, PopsBefore y z) →
      Merged (order + 1) (⟨x.weight + y.weight, order, .node x.tree y.tree⟩ :: rest) t →
      Merged order queue t

/-- One tree is another with a subtree `q` in the place of a subtree `p`. -/
inductive Replaced (p q : HufTree) : HufTree → HufTree → Prop where
  | here : Replaced p q p q
  | left {l l' r : HufTree} : Replaced p q l l' → Replaced p q (.node l r) (.node l' r)
  | right {l r r' : HufTree} : Replaced p q r r' → Replaced p q (.node l r) (.node l r')

/-- The tree is deeper than the limit, `a` is the lowest symbol at its greatest depth, and its sibling takes the place of
their parent (44_huffman.md R224). -/
def Detached (limit a : Nat) (t t' : HufTree) : Prop :=
  ∃ b depth, limit < depth ∧ (a, depth) ∈ t.depths 0 ∧
    (∀ x ∈ t.depths 0, x.2 ≤ depth ∧ (x.2 = depth → a ≤ x.1)) ∧
    (Replaced (.node (.leaf a) b) b t t' ∨ Replaced (.node b (.leaf a)) b t t')

/-- One turn of the depth limiting: `a` is detached and goes beside `c`, the lowest symbol at the greatest depth that is
at most LIMIT - 2 (44_huffman.md R224). -/
def LimitTurn (limit : Nat) (t t' : HufTree) : Prop :=
  ∃ a c depth u, Detached limit a t u ∧ ((c, depth) ∈ u.depths 0 ∧ depth + 2 ≤ limit) ∧
    (∀ x ∈ u.depths 0, x.2 + 2 ≤ limit → x.2 < depth ∨ (x.2 = depth ∧ c ≤ x.1)) ∧
    Replaced (.leaf c) (.node (.leaf c) (.leaf a)) u t'

/-- Turns of the depth limiting, any number (44_huffman.md R224). -/
inductive LimitTurns (limit : Nat) : HufTree → HufTree → Prop where
  | none {t : HufTree} : LimitTurns limit t t
  | turn {t u t' : HufTree} : LimitTurn limit t u → LimitTurns limit u t' → LimitTurns limit t t'

/-- A turn finds no leaf to attach to (44_huffman.md R224). -/
def LimitStuck (limit : Nat) (t : HufTree) : Prop :=
  ∃ a u, Detached limit a t u ∧ ∀ x ∈ u.depths 0, limit < x.2 + 2

/-- The symbols a run of `r` lengths `v` is packed as: for zeros 18 as long as 11 are left, then 17 for 3 or more; for
others the length itself, then 16 as long as 3 are left; what is left after that as lengths (44_huffman.md R234). -/
def runSymbols (v r : Nat) : List (Nat × Nat) :=
  if v = 0 then
    List.replicate (r / 138) (18, 127) ++
      (if 11 ≤ r % 138 then [(18, r % 138 - 11)]
       else if 3 ≤ r % 138 then [(17, r % 138 - 3)]
       else List.replicate (r % 138) (0, 0))
  else
    (v, 0) :: List.replicate ((r - 1) / 6) (16, 3) ++
      (if 3 ≤ (r - 1) % 6 then [(16, (r - 1) % 6 - 3)] else List.replicate ((r - 1) % 6) (v, 0))

/-! ### How a command ends (60_exceptions.md R332, R335) -/

/-- A command has completed without error: what R332 sets, and ERRINFO as before. -/
structure Completed (s t : State) : Prop where
  engine : t.engine = .idle
  done : t.done = true
  commit : t.outCommit = t.bytesOut
  errinfo : t.errinfo = s.errinfo
  held : t.held = none
  draws : t.draws = s.draws

/-- A command has raised an error: what R335 sets. -/
structure Raised (e : ErrCode) (s t : State) : Prop where
  engine : t.engine = .error
  done : t.done = false
  errinfo : t.errinfo = errorInfo s.cmd e
  held : t.held = none

/-- A command holds on a port (00_scope.md R15): the engine stays busy, STATUS shows no effect of the command
(70_reset_and_hazards.md R387; log 31), and what resumes it is kept (log 3). -/
structure Holding (s t : State) : Prop where
  engine : t.engine = .busy
  done : t.done = false
  bfinalSeen : t.bfinalSeen = s.bfinalSeen
  fnameTrunc : t.fnameTrunc = s.fnameTrunc
  errinfo : t.errinfo = s.errinfo
  held : t.held.isSome

/-- The bits given to the writer have reached the output, or are pending (41_bitio.md R160): a byte is
given to the port exactly when its eighth bit is put. -/
structure Wrote (bits : List Bool) (s t : State) : Prop where
  stream : streamBits t.outPort ++ pendingBits t = streamBits s.outPort ++ pendingBits s ++ bits
  given : t.outPort.length = s.outPort.length + (s.wcount.toNat + bits.length) / 8
  count : t.bytesOut = s.bytesOut + BitVec.ofNat 64 ((s.wcount.toNat + bits.length) / 8)
  room : t.outRoom = roomAfter s ((s.wcount.toNat + bits.length) / 8)
  pending : t.wcount.toNat = (s.wcount.toNat + bits.length) % 8 ∧ WriterOk t.toEngine

/-- How many bytes the reader needs from the port for `n` bits (41_bitio.md R170). -/
def bytesFor (s : State) (n : Nat) : Nat := (n + 7 - s.rcount.toNat) / 8

/-- The reader has taken `n` bits (41_bitio.md R170): those that follow are the unread ones, and no byte
has been taken before it is needed. -/
structure Took (n : Nat) (s t : State) : Prop where
  unread : unreadBits t = (unreadBits s).drop n
  port : t.inPort = s.inPort.drop (bytesFor s n)
  count : t.bytesIn = s.bytesIn + BitVec.ofNat 64 (bytesFor s n)
  buffer : ReaderOk t.toEngine

/-! ### The window as a history (43_window.md R200, R201) -/

/-- The window holds the most recent bytes of a history: all of them while they are fewer than N, then the
last N. -/
structure Remembers (s : State) (h : List Byte) : Prop where
  window : WindowOk s
  valid : s.wvalid.toNat = min h.length (winCap s)
  byte : ∀ d, 1 ≤ d → d ≤ s.wvalid.toNat → winAt s d = h.getD (h.length - d) 0

/-- The first `k` bytes of the candidate that starts `d` bytes back match the chunk from `off` on
(43_window.md R202). -/
def Matches (s : State) (off d k : Nat) : Prop :=
  ∀ j, j < k → matchByte s off d j = s.tables.chunk.read (off + j)

/-- CRC_STATE after bytes, in order (42_crc.md R191). -/
def crcOf (c : Word) (bytes : List Byte) : Word := bytes.foldl crcStep c

/-! ### The stream format, as relations (30_encoding.md Part B) -/

/-- The value of bits read MSB first (30_encoding.md R115). -/
def codeOfBits (bits : List Bool) : Nat := natOfBits bits.reverse

/-- The bits of a symbol's canonical code, MSB first (30_encoding.md R114). -/
def symBits (lens : List Nat) (s : Nat) : List Bool :=
  bitsRev (lens.getD s 0) ((hufCanon lens).getD s 0)

/-- A symbol has a code in the canonical code of the lengths, and its bits decode to it alone. -/
def Coded (lens : List Nat) (s : Nat) : Prop := Decodable lens (hufCanon lens) s

/-- The canonical code of the lengths is prefix-free and every code fits its length (10_state.md R49). -/
def PrefixFree (lens : List Nat) : Prop := ∀ s, s < lens.length → 0 < lens.getD s 0 → Coded lens s

/-- The bits of one token under a literal/length code and a distance code: a literal's code; or the code
and the extra bits of a length, then those of a distance (30_encoding.md R106 to R109). -/
def TokenCoded (ll d : List Nat) : Token → List Bool → Prop
  | .literal b, bits => Coded ll b.toNat ∧ bits = symBits ll b.toNat
  | .copy l k, bits => ∃ i x j y,
      (i < 29 ∧ x < 2 ^ (lenRange i).extra ∧ l = (lenRange i).base + x ∧ Coded ll (257 + i)) ∧
      (j < 30 ∧ y < 2 ^ (distRange j).extra ∧ k = (distRange j).base + y ∧ Coded d j) ∧
      bits = symBits ll (257 + i) ++ bitsOf (lenRange i).extra x
        ++ (symBits d j ++ bitsOf (distRange j).extra y)

/-- The bits of a block's symbols: its tokens and the end-of-block symbol (30_encoding.md R103). -/
def TokensCoded (ll d : List Nat) : List Token → List Bool → Prop
  | [], bits => Coded ll 256 ∧ bits = symBits ll 256
  | t :: rest, bits => ∃ a b, TokenCoded ll d t a ∧ TokensCoded ll d rest b ∧ bits = a ++ b

/-- A history after a copy of `l` bytes from `k` back, one at a time (43_window.md R208). -/
def copyOnto (k : Nat) : (l : Nat) → (h : List Byte) → List Byte
  | 0, h => h
  | l + 1, h => copyOnto k l (h ++ [h.getD (h.length - k) 0])

/-- A history after one token. -/
def tokenOnto (h : List Byte) : Token → List Byte
  | .literal b => h ++ [b]
  | .copy l k => copyOnto k l h

/-- Tokens turn a history into another, every distance reaching at most min(history, N) back
(45_deflate.md R280). -/
def TokensOnto (n : Nat) : List Token → (h h' : List Byte) → Prop
  | [], h, h' => h' = h
  | t :: rest, h, h' =>
    (∀ l k, t = .copy l k → k ≤ min h.length n) ∧ TokensOnto n rest (tokenOnto h t) h'

/-- The lengths a sequence of packed symbols expands to (30_encoding.md R112). -/
def unpackAll (total : Nat) : (seq : List Nat) → List (Nat × Nat) → Except ErrCode (List Nat)
  | seq, [] => .ok seq
  | seq, (sym, x) :: rest =>
    match expandSymbol total seq sym x with
    | .error e => .error e
    | .ok seq' => unpackAll total seq' rest

/-- The bits of a dynamic block's tables (30_encoding.md R104): HLIT, HDIST, HCLEN, the meta lengths in
transmission order, then the packed lengths of both alphabets. `cl`, `ll` and `d` are the whole length
tables. -/
def DynamicTables (cl ll d : List Nat) (bits : List Bool) : Prop :=
  ∃ (hlit hdist hclen : Nat) (packed : List (Nat × Nat)) (seq : List Nat),
    (hlit ≤ 29 ∧ hdist ≤ 31 ∧ hclen ≤ 15) ∧
    (cl.length = 19 ∧ (∀ s, cl.getD s 0 < 8) ∧ ∀ s, s ∉ clOrder.take (hclen + 4) → cl.getD s 0 = 0) ∧
    (∀ p ∈ packed, p.1 < 19 ∧ p.2 < 2 ^ extraBits p.1 ∧ Coded cl p.1) ∧
    (unpackAll (hlit + 257 + (hdist + 1)) [] packed = .ok seq ∧ seq.length = hlit + 257 + (hdist + 1)) ∧
    ll = (List.range 288).map (fun s => if s < hlit + 257 then seq.getD s 0 else 0) ∧
    d = (List.range 32).map (fun s => if s < hdist + 1 then seq.getD (hlit + 257 + s) 0 else 0) ∧
    bits = bitsOf 5 hlit ++ bitsOf 5 hdist ++ bitsOf 4 hclen
      ++ (clOrder.take (hclen + 4)).flatMap (fun s => bitsOf 3 (cl.getD s 0))
      ++ packed.flatMap (fun p => symBits cl p.1 ++ bitsOf (extraBits p.1) p.2)

/-- The same, whatever the meta lengths. -/
def TablesCoded (ll d : List Nat) (bits : List Bool) : Prop := ∃ cl, DynamicTables cl ll d bits

/-- The fixed literal/length lengths (30_encoding.md R113). -/
def fixedLensLL : List Nat := (List.range Config.llSize).map fixedLL

/-- The fixed distance lengths (30_encoding.md R113). -/
def fixedLensD : List Nat := (List.range Config.dSize).map fixedD

/-- The length tables hold two codes, the code tables their canonical codes (45_deflate.md R265, R278). -/
def HasCodes (ll d : List Nat) (t : Tables) : Prop :=
  (lensOf t .ll = ll ∧ codesOf t .ll = hufCanon ll) ∧ lensOf t .d = d ∧ codesOf t .d = hufCanon d

/-- The bits of a block that starts `pos` bits past a byte boundary, for a window of `n` bytes and the
history before and after it (30_encoding.md R101 to R104). -/
def BlockCoded (pos n : Nat) (final : Bool) (btype : Nat) (bits : List Bool) (h h' : List Byte) : Prop :=
  ∃ payload, bits = bitsOf 1 (bit final) ++ bitsOf 2 btype ++ payload ∧
    ((btype = 0 ∧ ∃ pad bytes, pad.length = (8 - (pos + 3) % 8) % 8 ∧ bytes.length < 2 ^ 16 ∧
        payload = pad ++ bitsOf 16 bytes.length ++ bitsOf 16 (bytes.length ^^^ 0xFFFF) ++ streamBits bytes ∧
        h' = h ++ bytes) ∨
      (btype = 1 ∧ ∃ toks, TokensCoded fixedLensLL fixedLensD toks payload ∧ TokensOnto n toks h h') ∨
      (btype = 2 ∧ ∃ ll d tables symbols toks, TablesCoded ll d tables ∧ TokensCoded ll d toks symbols ∧
        payload = tables ++ symbols ∧ TokensOnto n toks h h'))

/-! ### Streams that are not of the format (45_deflate.md R278 to R280) -/

/-- Bits that match no code up to the longest length of a code, which is how many there are (44_huffman.md R229). -/
def NoCode (lens : List Nat) (bits : List Bool) : Prop :=
  (∀ x, lens.getD x 0 ≤ bits.length) ∧ (bits = [] ∨ ∃ x, lens.getD x 0 = bits.length) ∧
    ∀ m x, 1 ≤ m → m ≤ bits.length → lens.getD x 0 = m → (hufCanon lens).getD x 0 ≠ codeOfBits (bits.take m)

/-- How many lengths a code-length symbol stands for, given its extra value (30_encoding.md R112). -/
def runLength (sym x : Nat) : Nat :=
  if sym = 16 ∨ sym = 17 then 3 + x else if sym = 18 then 11 + x else 1

/-- The bits of a dynamic block's tables up to an error: HLIT above 29; or packed lengths `seq` so far, then a 16 where
there are none, a run past the announced number, or no code (45_deflate.md R278). -/
def BadTables (e : ErrCode) (bits : List Bool) : Prop :=
  (e = .badCodelengths ∧ ∃ hlit hdist hclen, 29 < hlit ∧ hlit < 32 ∧ hdist < 32 ∧ hclen < 16 ∧
    bits = bitsOf 5 hlit ++ bitsOf 5 hdist ++ bitsOf 4 hclen) ∨
  ∃ (hlit hdist hclen : Nat) (cl : List Nat) (packed : List (Nat × Nat)) (seq : List Nat) (last : List Bool),
    (hlit ≤ 29 ∧ hdist ≤ 31 ∧ hclen ≤ 15) ∧
    (cl.length = 19 ∧ (∀ s, cl.getD s 0 < 8) ∧ ∀ s, s ∉ clOrder.take (hclen + 4) → cl.getD s 0 = 0) ∧
    (∀ p ∈ packed, p.1 < 19 ∧ p.2 < 2 ^ extraBits p.1 ∧ Coded cl p.1) ∧
    (unpackAll (hlit + 257 + (hdist + 1)) [] packed = .ok seq ∧ seq.length < hlit + 257 + (hdist + 1)) ∧
    bits = bitsOf 5 hlit ++ bitsOf 5 hdist ++ bitsOf 4 hclen
      ++ (clOrder.take (hclen + 4)).flatMap (fun s => bitsOf 3 (cl.getD s 0))
      ++ packed.flatMap (fun p => symBits cl p.1 ++ bitsOf (extraBits p.1) p.2) ++ last ∧
    ((e = .badCodelengths ∧ seq = [] ∧ Coded cl 16 ∧ last = symBits cl 16) ∨
      (e = .badCodelengths ∧ ∃ sym x, sym < 19 ∧ x < 2 ^ extraBits sym ∧ Coded cl sym ∧ (sym = 16 → seq ≠ []) ∧
        hlit + 257 + (hdist + 1) < seq.length + runLength sym x ∧
        last = symBits cl sym ++ bitsOf (extraBits sym) x) ∨
      (e = .badSymbol ∧ NoCode cl last))

/-- The bits of tokens, and no end of the block. -/
def TokensBegun (ll d : List Nat) : List Token → List Bool → Prop
  | [], bits => bits = []
  | t :: rest, bits => ∃ a b, TokenCoded ll d t a ∧ TokensBegun ll d rest b ∧ bits = a ++ b

/-- The bits of a symbol or token that is an error where the window holds `valid` bytes: no code, literal/length symbol
286 or 287, distance symbol 30 or 31, a distance beyond the window (45_deflate.md R279, R280). -/
def BadToken (ll d : List Nat) (valid : Nat) (e : ErrCode) (bits : List Bool) : Prop :=
  (e = .badSymbol ∧ NoCode ll bits) ∨
  (e = .badSymbol ∧ ∃ x, (x = 286 ∨ x = 287) ∧ Coded ll x ∧ bits = symBits ll x) ∨
  ∃ i x last, (i < 29 ∧ x < 2 ^ (lenRange i).extra ∧ Coded ll (257 + i)) ∧
    bits = symBits ll (257 + i) ++ bitsOf (lenRange i).extra x ++ last ∧
    ((e = .badSymbol ∧ NoCode d last) ∨
      (e = .badSymbol ∧ ∃ y, (y = 30 ∨ y = 31) ∧ Coded d y ∧ last = symBits d y) ∨
      (e = .badDistance ∧ ∃ j y, j < 30 ∧ y < 2 ^ (distRange j).extra ∧ Coded d j ∧
        valid < (distRange j).base + y ∧ last = symBits d j ++ bitsOf (distRange j).extra y))

/-- The codes of a fixed block, or of a dynamic block with the bits of its tables (30_encoding.md R103, R104). -/
def CodesCoded (btype : Nat) (ll d : List Nat) (bits : List Bool) : Prop :=
  (btype = 1 ∧ ll = fixedLensLL ∧ d = fixedLensD ∧ bits = []) ∨ (btype = 2 ∧ TablesCoded ll d bits)

/-! ### Streams of blocks (30_encoding.md R100) -/

/-- The bits of a stream of `count` blocks (30_encoding.md R100): the last one, and only it, is final. -/
inductive StreamCoded (n : Nat) : (pos count : Nat) → List Bool → (h h' : List Byte) → Prop where
  | last {pos btype : Nat} {bits : List Bool} {h h' : List Byte} :
      BlockCoded pos n true btype bits h h' → StreamCoded n pos 1 bits h h'
  | more {pos count btype : Nat} {bits rest : List Bool} {h h' h'' : List Byte} :
      BlockCoded pos n false btype bits h h' →
      StreamCoded n ((pos + bits.length) % 8) count rest h' h'' →
      StreamCoded n pos (count + 1) (bits ++ rest) h h''

/-- How far past a byte boundary the reader stands. -/
def readerPos (s : State) : Nat := (8 - s.rcount.toNat) % 8

/-- The padding bits after a stream that ends `pos` bits past a byte boundary (30_encoding.md R100). -/
def padBits (pos : Nat) : Nat := (8 - pos % 8) % 8

/-! ### What the encoder makes of a chunk (45_deflate.md R261 to R267) -/

/-- The first `k` of the bytes that follow a history are those `d` back, which may reach into the bytes that follow
(43_window.md R202). -/
def Repeats (h rest : List Byte) (d k : Nat) : Prop :=
  ∀ j, j < k → (h ++ rest).getD (h.length + j - d) 0 = rest.getD j 0

/-- `l` is the length of the longest match in a window of `n` bytes, and `d` the nearest distance of a match that long
(43_window.md R202, R207). -/
def LongestMatch (n : Nat) (h rest : List Byte) (l d : Nat) : Prop :=
  (3 ≤ l ∧ l ≤ min 258 rest.length) ∧ (1 ≤ d ∧ d ≤ min h.length n) ∧ Repeats h rest d l ∧
    ∀ d' k, 1 ≤ d' → d' ≤ min h.length n → k ≤ min 258 rest.length → Repeats h rest d' k → k ≤ l ∧ (k = l → d ≤ d')

/-- No distance of the window matches 3 bytes (43_window.md R202). -/
def NoMatch (n : Nat) (h rest : List Byte) : Prop :=
  ∀ d k, 1 ≤ d → d ≤ min h.length n → k ≤ min 258 rest.length → Repeats h rest d k → k < 3

/-- Pass 1 over the rest of a chunk (45_deflate.md R261): with LZ77_EN the longest match at the position, if there is one,
and on past it; else a literal. Without LZ77_EN every byte is a literal. -/
inductive Parsed (lz77 : Bool) (n : Nat) : (h rest : List Byte) → List Token → Prop where
  | done {h : List Byte} : Parsed lz77 n h [] []
  | literal {h rest : List Byte} {b : Byte} {toks : List Token} :
      (lz77 = true → NoMatch n h (b :: rest)) → Parsed lz77 n (h ++ [b]) rest toks →
      Parsed lz77 n h (b :: rest) (.literal b :: toks)
  | copy {h rest : List Byte} {l d : Nat} {toks : List Token} :
      lz77 = true → LongestMatch n h rest l d → Parsed lz77 n (h ++ rest.take l) (rest.drop l) toks →
      Parsed lz77 n h rest (.copy l d :: toks)

/-- The literal/length symbol of a token (45_deflate.md R261). -/
def Token.symbol : Token → Nat
  | .literal b => b.toNat
  | .copy l _ => lenSym l

/-- The distance symbol of a token that has one (45_deflate.md R261). -/
def Token.distance : Token → Option Nat
  | .literal _ => none
  | .copy _ d => some (distSym d)

/-- How often each of the symbols below `size` occurs (45_deflate.md R261, R262). -/
def countsOf (size : Nat) (symbols : List Nat) : List Nat := (List.range size).map (fun s => symbols.count s)

/-- FREQ_LL of tokens: their literal/length symbols and one end of the block (45_deflate.md R261). -/
def countsLL (toks : List Token) : List Nat := countsOf Config.llSize (toks.map Token.symbol ++ [256])

/-- FREQ_D of tokens (45_deflate.md R261). -/
def countsD (toks : List Token) : List Nat := countsOf Config.dSize (toks.filterMap Token.distance)

/-- FREQ_CL of packed code lengths (45_deflate.md R262). -/
def countsCL (packed : List (Nat × Nat)) : List Nat := countsOf Config.clSize (packed.map Prod.fst)

/-- The codes of a dynamic block of tokens (45_deflate.md R262): built from the counts with limit 15, their first 286 and
30 lengths packed, and the meta code built from the counts of those with limit 7. -/
structure DynamicCodes (toks : List Token) (ll d cl : List Nat) (packed : List (Nat × Nat)) : Prop where
  buildLL : hufBuild (countsLL toks) 15 = .ok ll
  buildD : hufBuild (countsD toks) 15 = .ok d
  pack : packed = clPack (ll.take 286 ++ d.take 30)
  buildCL : hufBuild (countsCL packed) 7 = .ok cl

/-- The bits of a token (45_deflate.md R264). -/
def tokenBits (ll d : List Nat) : Token → List Bool
  | .literal b => symBits ll b.toNat
  | .copy l k =>
    symBits ll (lenSym l) ++ bitsOf (lenRange (lenSym l - 257)).extra (l - (lenRange (lenSym l - 257)).base)
      ++ (symBits d (distSym k) ++ bitsOf (distRange (distSym k)).extra (k - (distRange (distSym k)).base))

/-- The bits of tokens and the end of the block (45_deflate.md R264). -/
def tokensBits (ll d : List Nat) (toks : List Token) : List Bool := toks.flatMap (tokenBits ll d) ++ symBits ll 256

/-- The bits of the header of a dynamic block after BTYPE (45_deflate.md R263): HLIT = 29, HDIST = 29, HCLEN = 15, the 19
meta lengths in transmission order, and the packed lengths. -/
def dynamicHeader (cl : List Nat) (packed : List (Nat × Nat)) : List Bool :=
  bitsOf 5 29 ++ bitsOf 5 29 ++ bitsOf 4 15 ++ clOrder.flatMap (fun s => bitsOf 3 (cl.getD s 0))
    ++ packed.flatMap (fun p => symBits cl p.1 ++ bitsOf (extraBits p.1) p.2)

/-- The bits the encoder writes for a chunk, `pos` bits past a byte boundary (45_deflate.md R263 to R266, R269). -/
def ChunkBits (lz77 : Bool) (n pos : Nat) (final : Bool) (btype : Nat) (h chunk : List Byte) (bits : List Bool) : Prop :=
  ∃ payload, bits = bitsOf 1 (bit final) ++ bitsOf 2 btype ++ payload ∧
    ((btype = 0 ∧ payload = List.replicate (padBits (pos + 3)) true ++ bitsOf 16 chunk.length
        ++ bitsOf 16 (chunk.length ^^^ 0xFFFF) ++ streamBits chunk) ∨
      ∃ toks, Parsed lz77 n h chunk toks ∧
        ((btype = 1 ∧ payload = tokensBits fixedLensLL fixedLensD toks) ∨
          (btype = 2 ∧ ∃ ll d cl packed, DynamicCodes toks ll d cl packed ∧
            payload = dynamicHeader cl packed ++ tokensBits ll d toks)))

/-- What coding a chunk leaves in the FREQ, LEN, CODE and PACKED tables (45_deflate.md R267); a stored one leaves them
alone. -/
def ChunkTables (lz77 : Bool) (n btype : Nat) (h chunk : List Byte) (t : Tables) : Prop :=
  btype ≠ 0 → ∃ toks, Parsed lz77 n h chunk toks ∧ freqsOf t .ll = countsLL toks ∧ freqsOf t .d = countsD toks ∧
    (btype = 1 → HasCodes fixedLensLL fixedLensD t) ∧
    (btype = 2 → ∃ ll d cl packed, DynamicCodes toks ll d cl packed ∧ HasCodes ll d t ∧
      (lensOf t .cl = cl ∧ codesOf t .cl = hufCanon cl) ∧ freqsOf t .cl = countsCL packed ∧
      t.packed.toList packed.length = packed.map (fun p => BitVec.ofNat 16 (p.2 * 2 ^ 8 + p.1)))

/-- The bits the encoder writes for a stream, chunk by chunk, each filled before it is coded (45_deflate.md R271). -/
inductive ChunksBits (lz77 : Bool) (n btype chunkSize : Nat) : (pos : Nat) → (h rest : List Byte) → List Bool → Prop where
  | last {pos : Nat} {h rest : List Byte} {bits : List Bool} : rest.length ≤ chunkSize →
      ChunkBits lz77 n pos true btype h rest bits → ChunksBits lz77 n btype chunkSize pos h rest bits
  | more {pos : Nat} {h rest : List Byte} {bits bits' : List Bool} : chunkSize < rest.length →
      ChunkBits lz77 n pos false btype h (rest.take chunkSize) bits →
      ChunksBits lz77 n btype chunkSize ((pos + bits.length) % 8) (h ++ rest.take chunkSize) (rest.drop chunkSize) bits' →
      ChunksBits lz77 n btype chunkSize pos h rest (bits ++ bits')

/-- How many blocks a stream of so many bytes is coded as: one a chunk, and one for no bytes
(45_deflate.md R271). -/
def chunkCount (chunkSize bytes : Nat) : Nat := max 1 ((bytes + chunkSize - 1) / chunkSize)

/-- How many bytes of an input come before its last chunk (45_deflate.md R271). -/
def lastChunk (chunkSize bytes : Nat) : Nat := (chunkCount chunkSize bytes - 1) * chunkSize

/-- A block decoder has read `n` bits and given the output `out` (45_deflate.md R277): the port, the
counters, the window, the CRC and RAW_COUNT. -/
structure Decoded (n : Nat) (out : List Byte) (s t : State) : Prop where
  read : Took n s t
  output : t.outPort = s.outPort ++ out
  count : t.bytesOut = s.bytesOut + BitVec.ofNat 64 out.length
  room : t.outRoom = roomAfter s out.length
  crc : t.crcState = crcOf s.crcState out
  raw : t.rawCount = s.rawCount + BitVec.ofNat 32 out.length

/-- A block decoder has rejected its block after `n` bits, with the block's output so far given and none of it committed
(45_deflate.md R281, R284). -/
structure Rejected (e : ErrCode) (n : Nat) (out : List Byte) (s t : State) : Prop where
  error : Raised e s t
  read : Took n s t
  output : t.outPort = s.outPort ++ out
  commit : t.outCommit = s.outCommit

/-! ### Input that ends early, and streams that are rejected (45_deflate.md R281, R284, 41_bitio.md R172) -/

/-- The reader has taken every bit there is and wants more (41_bitio.md R172): IO_EOF where the port is closed, a hold where
it is open (00_scope.md R15). -/
structure RanDry (s t : State) : Prop where
  read : Took (unreadBits s).length s t
  closed : s.inClosed = true → Raised .ioEof s t
  opened : s.inClosed = false → Holding s t

/-- The bits of a block up to an error before its first symbol: BTYPE = 3; NLEN that is not the complement of LEN; tables
that are rejected (45_deflate.md R275, R276, R278). -/
def BadStart (pos : Nat) (final : Bool) (e : ErrCode) (bits : List Bool) : Prop :=
  (e = .badBtype ∧ bits = [final, true, true]) ∨
  (e = .storedLen ∧ ∃ (pad : List Bool) (len nlen : Nat), pad.length = padBits (pos + 3) ∧ len < 2 ^ 16 ∧ nlen < 2 ^ 16 ∧
    nlen ≠ len ^^^ 0xFFFF ∧ bits = [final, false, false] ++ pad ++ bitsOf 16 len ++ bitsOf 16 nlen) ∨
  ∃ tables, BadTables e tables ∧ bits = [final, false, true] ++ tables

/-- The bits of a block up to a symbol or token that is an error, and the history after the tokens before it
(45_deflate.md R279, R280). -/
def BadSymbols (n : Nat) (final : Bool) (e : ErrCode) (bits : List Bool) (h h' : List Byte) : Prop :=
  ∃ btype ll d tables begun bad toks, CodesCoded btype ll d tables ∧ TokensBegun ll d toks begun ∧ TokensOnto n toks h h' ∧
    BadToken ll d (min h'.length n) e bad ∧
    bits = bitsOf 1 (bit final) ++ bitsOf 2 btype ++ tables ++ begun ++ bad

/-- The bits of a block that ends early, at `pos` bits past a byte boundary, and the history after the bytes whose bits
are all there: the stored bytes that are whole; or the tokens before the one, or the end of the block, that is cut short.
What is cut short may also be something the decoder would reject once it is whole. -/
def BlockCut (pos n : Nat) (final : Bool) (btype : Nat) (bits : List Bool) (h h' : List Byte) : Prop :=
  ∃ more, more ≠ [] ∧
    ((btype = 0 ∧ ∃ pad bytes, pad.length = padBits (pos + 3) ∧ bytes.length < 2 ^ 16 ∧
        bits ++ more = bitsOf 1 (bit final) ++ bitsOf 2 btype ++ pad ++ bitsOf 16 bytes.length
          ++ bitsOf 16 (bytes.length ^^^ 0xFFFF) ++ streamBits bytes ∧
        h' = h ++ bytes.take ((bits.length - (pad.length + 35)) / 8)) ∨
      (h' = h ∧ ∃ e, BadStart pos final e (bits ++ more)) ∨
      ∃ ll d tables, CodesCoded btype ll d tables ∧
        ((bits ++ more = bitsOf 1 (bit final) ++ bitsOf 2 btype ++ tables ∧ h' = h) ∨
          ∃ toks begun part, TokensBegun ll d toks begun ∧ TokensOnto n toks h h' ∧
            bits = bitsOf 1 (bit final) ++ bitsOf 2 btype ++ tables ++ begun ++ part ∧
            ((Coded ll 256 ∧ part ++ more = symBits ll 256) ∨ (∃ t, TokenCoded ll d t (part ++ more)) ∨
              ∃ valid e, BadToken ll d valid e (part ++ more))))

/-- The bits of a block up to what the decoder rejects, and the history then. -/
def BadBlock (pos n : Nat) (final : Bool) (e : ErrCode) (bits : List Bool) (h h' : List Byte) : Prop :=
  (BadStart pos final e bits ∧ h' = h) ∨ BadSymbols n final e bits h h'

/-- The bits of `count` blocks, none of them final (30_encoding.md R100). -/
inductive BlocksBegun (n : Nat) : (pos count : Nat) → List Bool → (h h' : List Byte) → Prop where
  | none {pos : Nat} {h : List Byte} : BlocksBegun n pos 0 [] h h
  | more {pos count btype : Nat} {bits rest : List Bool} {h h' h'' : List Byte} :
      BlockCoded pos n false btype bits h h' →
      BlocksBegun n ((pos + bits.length) % 8) count rest h' h'' → BlocksBegun n pos (count + 1) (bits ++ rest) h h''

/-- The bits of a stream whose blocks after the first `count` are rejected at once: `done` is what those give, `out` all
that is given (45_deflate.md R281). -/
def BadStream (n pos count : Nat) (final : Bool) (e : ErrCode) (bits : List Bool) (done out : List Byte) : Prop :=
  ∃ blocks last, BlocksBegun n pos count blocks [] done ∧
    BadBlock ((pos + blocks.length) % 8) n final e last done out ∧ bits = blocks ++ last

/-- The bits of a stream that ends early, in the block after the first `count`. -/
def StreamCut (n pos count : Nat) (bits : List Bool) (done out : List Byte) : Prop :=
  ∃ blocks last final btype, BlocksBegun n pos count blocks [] done ∧
    BlockCut ((pos + blocks.length) % 8) n final btype last done out ∧ bits = blocks ++ last

/-- OUT_COMMIT where a stream has failed after `count` blocks that gave `done` (45_deflate.md R281, R284). -/
def commitAfter (s : State) (count : Nat) (done : List Byte) : BitVec 64 :=
  if count = 0 then s.outCommit else s.bytesOut + BitVec.ofNat 64 done.length

/-! ### The gzip member (30_encoding.md R116) -/

/-- The bytes of a value, low byte first (20_memory.md R63). -/
def wordBytes (v : Word) : List Byte :=
  [v.extractLsb' 0 8, v.extractLsb' 8 8, v.extractLsb' 16 8, v.extractLsb' 24 8]

/-- The bytes of a gzip header; the name and its NUL are there only with FLG.FNAME (30_encoding.md R116,
R117). -/
def gzipHeader (flg : Byte) (mtime : Word) (xfl os : Byte) (name : List Byte) : List Byte :=
  [0x1F#8, 0x8B#8, 0x08#8, flg] ++ wordBytes mtime ++ [xfl, os]
    ++ (if flg.getLsbD 3 then name ++ [0x00#8] else [])

/-- A header the reader accepts: no flag is refused, and a name holds no NUL (46_container.md R306). -/
def HeaderOk (flg : Byte) (name : List Byte) : Prop :=
  flg &&& 0xF6#8 = 0 ∧ (∀ b ∈ name, b ≠ 0x00#8) ∧ (flg.getLsbD 3 = false → name = [])

/-- The bytes of a header up to one that the reader rejects: ID1, ID2, CM, FLG, in this order (46_container.md R306). -/
def BadHeader (e : ErrCode) (bytes : List Byte) : Prop :=
  (e = .badMagic ∧ ∃ b, bytes = [b] ∧ b ≠ 0x1F#8) ∨
  (e = .badMagic ∧ ∃ b, bytes = [0x1F#8, b] ∧ b ≠ 0x8B#8) ∨
  (e = .badMethod ∧ ∃ b, bytes = [0x1F#8, 0x8B#8, b] ∧ b ≠ 0x08#8) ∨
  (e = .unsupportedFlags ∧ ∃ b, bytes = [0x1F#8, 0x8B#8, 0x08#8, b] ∧ b &&& 0xF6#8 ≠ 0)

/-- A header that the reader does not end with leaves its registers and FNAME_TRUNC (46_container.md R301; log 10) and the
results as they were. -/
structure HeaderUnread (s t : State) : Prop where
  registers : kept s t .gzHeader
  cut : t.fnameTrunc = s.fnameTrunc
  results : t.res0 = s.res0 ∧ t.res1 = s.res1

/-- A member fails or holds past its header (46_container.md R315): the results are the header's, and FNAME_TRUNC where it
has failed; the header's registers are unspecified (60_exceptions.md R336). -/
structure HeaderPassed (flg : Byte) (name : List Byte) (s t : State) : Prop where
  results : t.res0 = zext32 flg ∧ t.res1 = BitVec.ofNat 32 (min name.length (2 ^ 32 - 1))
  cut : t.engine = .error → t.fnameTrunc = decide (s.params.fnameMax < name.length)

/-- The header's registers and FNAME have been written (46_container.md R301): the name is kept up to
FNAME_MAX bytes and counted up to 2^32 - 1. -/
structure HeaderRead (flg : Byte) (mtime : Word) (xfl os : Byte) (name : List Byte) (s t : State) :
    Prop where
  fixed : t.gzFlg = flg ∧ t.gzMtime = mtime ∧ t.gzXfl = xfl ∧ t.gzOs = os
  length : t.gzFnameLen = BitVec.ofNat 32 (min name.length (2 ^ 32 - 1))
  cut : t.fnameTrunc = decide (s.params.fnameMax < name.length)
  name : ∀ k, t.tables.fname.read k =
    if k < min name.length s.params.fnameMax then name.getD k 0 else s.tables.fname.read k
  results : t.res0 = zext32 flg ∧ t.res1 = t.gzFnameLen

end Sys2Proof.Machine
end

