-- ==== Sys2Proof/Certificates/Slice0/Obligations.lean ====
section
/-! DEFINITION. The statements about CORE for the provers, one definition each, in the order of
OBLIGATIONS.json. -/

open Sys2Proof Sys2Proof.Machine

/-! ### Encoding (30_encoding.md Part A) -/

/-- Decoding the word of a well-formed command gives the command back, with every field at every value
its bits admit (R90, R93). -/
def Obligations.DecodeEncode : Prop :=
  ∀ i : Instr, i.wellFormed = true → decode (encode i) = .ok i

/-- A word decodes to a command exactly where the command is well formed and the bits its format uses are
the command's: every other bit of the word is ignored (R90, R91). -/
def Obligations.DecodeUsesItsFields : Prop :=
  ∀ (w : Word) (i : Instr),
    decode w = .ok i ↔ i.wellFormed = true ∧ w &&& usedBits i = encode i

/-- The words that are no command are exactly those whose OPC is not in the opcode map (R93, R94). -/
def Obligations.IllegalOpcodes : Prop :=
  ∀ w : Word,
    decode w = .error (.illegalOpcode (opcField w)) ↔
      (opcField w).toNat ∉
        [0x00, 0x01, 0x02, 0x03, 0x04, 0x05, 0x10, 0x11, 0x12, 0x13, 0x14, 0x15, 0x18, 0x19, 0x1A, 0x1B,
         0x1C, 0x20, 0x21, 0x30, 0x31, 0x32, 0x40, 0x41, 0x42, 0x43, 0x44, 0x45, 0x50, 0x51, 0x52, 0x53,
         0x60, 0x61, 0x62, 0x63, 0x64, 0x65]

/-- Words written out from the formats and the opcode map, one of each family (R90, R93). -/
def Obligations.KnownWords : Prop :=
  decode 0x00000003#32 = .ok .streamInit ∧
  decode 0x00000C04#32 = .ok (.tblRead .fname) ∧
  decode 0x00002011#32 = .ok (.bwBitsR 32) ∧
  decode 0x00000718#32 = .ok (.brBits 7) ∧
  decode 0x00000021#32 = .ok .crcUpdate ∧
  decode 0x00000032#32 = .ok .winFind ∧
  decode 0x00070240#32 = .ok (.hufBuild .cl 7) ∧
  decode 0x01000050#32 = .ok (.defEncChunk true) ∧
  decode 0x02000064#32 = .ok (.gzCompress true) ∧
  decode 0x00000006#32 = .error (.illegalOpcode 0x06#8)

/-! ### The host interface (60_exceptions.md R330, R337, R341) -/

/-- A step runs the decoded command: where the host writes a word to CMD and the word is accepted, the step
is the command's meaning on the state in which it has been accepted (R330; `sawEnd` is the model's, log 3). -/
def Obligations.StepRunsDecoded : Prop :=
  ∀ (s : State) (rest : List HostEvent) (off : Nat) (w : Word) (i : Instr),
    s.host = .write 32 off w :: rest → off / 4 = 0 → s.engine = .idle → decode w = .ok i →
      step s = exec i { s with host := rest, cmd := w, done := false, engine := .busy, sawEnd := false }

/-- Acceptance of a command word: dropped while BUSY, refused in ERROR but for RESET and CLEAR_ERR,
otherwise accepted; an unknown opcode then raises BAD_COMMAND (R330). A dropped write sets CMD_DROPPED
and has no other effect; CMD_DROPPED is cleared only by a host write of 1 to STATUS bit 3, by RESET, or by
the reset input. (`sawEnd` is the model's, log 3.) -/
def Obligations.CommandAcceptance : Prop :=
  (∀ (s : State) (rest : List HostEvent) (off : Nat) (w : Word),
    s.host = .write 32 off w :: rest → off / 4 = 0 →
      (s.engine = .busy → step s = .next { s with host := rest, cmdDropped := true }) ∧
      (s.engine = .error → opcField w ≠ 0x01#8 → opcField w ≠ 0x02#8 →
        step s = .next { s with host := rest, cmdDropped := true }) ∧
      (s.engine = .idle ∨ (s.engine = .error ∧ (opcField w = 0x01#8 ∨ opcField w = 0x02#8)) →
        (∀ i, decode w = .ok i →
          step s = exec i { s with host := rest, cmd := w, done := false, engine := .busy, sawEnd := false }) ∧
        (∀ e, decode w = .error e →
          step s = .next
            { s with
              host := rest, cmd := w, done := false, engine := .error, held := none, sawEnd := false
              errinfo := errorInfo w .badCommand }))) ∧
  (∀ s t : State, Inv s → step s = .next t → s.cmdDropped = true → t.cmdDropped = false →
    ∃ e rest, s.host = e :: rest ∧
      (e = .resetInput ∨ (∃ off v, e = .write 32 off v ∧ off / 4 = 1 ∧ v.getLsbD 3 = true) ∨
        ∃ off w, e = .write 32 off w ∧ off / 4 = 0 ∧ opcField w = 0x01#8))

/-- The register port: an access that is not 32 bits wide is refused; the two low offset bits are ignored; an
unmapped offset reads 0; a write to an unmapped offset or a read-only register is ignored; a read
changes nothing but what the host has read (20_memory.md R66). -/
def Obligations.RegisterPort : Prop :=
  ∀ (s : State) (off : Nat) (v : Word),
    (∀ bits, bits ≠ 32 → hostTurn (.write bits off v) s = .refused (.accessWidth bits) ∧
      hostTurn (.read bits off) s = .refused (.accessWidth bits)) ∧
    (hostTurn (.write 32 off v) s = hostTurn (.write 32 (off / 4 * 4) v) s ∧
      hostTurn (.read 32 off) s = hostTurn (.read 32 (off / 4 * 4)) s) ∧
    (0x70 ≤ off → hostTurn (.read 32 off) s = .next { s with hostRead := 0 } ∧
      hostTurn (.write 32 off v) s = .next s) ∧
    (off / 4 ∉ [0, 1, 3, 4, 5, 6] → hostTurn (.write 32 off v) s = .next s) ∧
    (∃ x d, hostTurn (.read 32 off) s = .next { s with hostRead := x, draws := d })

/-- What each of the 28 registers reads as while the engine is not busy (10_state.md R22 to R35), and STATUS
in every state. -/
def Obligations.RegisterValues : Prop :=
  ∀ s : State,
    (readOffset 0x04 s).hostRead =
      0#26 ++ BitVec.ofBool s.fnameTrunc ++ BitVec.ofBool s.bfinalSeen ++ BitVec.ofBool s.cmdDropped
        ++ BitVec.ofBool (s.engine == .error) ++ BitVec.ofBool s.done
        ++ BitVec.ofBool (s.engine == .busy) ∧
    (s.engine ≠ .busy →
      (readOffset 0x00 s).hostRead = s.cmd ∧ (readOffset 0x08 s).hostRead = s.errinfo ∧
      (readOffset 0x0C s).hostRead = s.cfg ∧ (readOffset 0x10 s).hostRead = s.arg0 ∧
      (readOffset 0x14 s).hostRead = s.arg1 ∧ (readOffset 0x18 s).hostRead = s.arg2 ∧
      (readOffset 0x1C s).hostRead = s.res0 ∧ (readOffset 0x20 s).hostRead = s.res1 ∧
      (readOffset 0x24 s).hostRead = s.crcState ∧ (readOffset 0x28 s).hostRead = ~~~s.crcState ∧
      (readOffset 0x2C s).hostRead = s.rawCount ∧
      (readOffset 0x34 s).hostRead ++ (readOffset 0x30 s).hostRead = s.bytesIn ∧
      (readOffset 0x3C s).hostRead ++ (readOffset 0x38 s).hostRead = s.bytesOut ∧
      (readOffset 0x44 s).hostRead ++ (readOffset 0x40 s).hostRead = s.outCommit ∧
      (readOffset 0x48 s).hostRead = 0#16 ++ s.wbuf ++ (0#5 ++ s.wcount) ∧
      (readOffset 0x4C s).hostRead = 0#16 ++ s.rbuf ++ (0#5 ++ s.rcount) ∧
      (readOffset 0x50 s).hostRead = s.wvalid ++ (0#1 ++ s.wcur) ∧
      (readOffset 0x54 s).hostRead = 0#24 ++ s.gzFlg ∧ (readOffset 0x58 s).hostRead = s.gzMtime ∧
      (readOffset 0x5C s).hostRead = 0#16 ++ s.gzOs ++ s.gzXfl ∧
      (readOffset 0x60 s).hostRead = s.gzFnameLen ∧ (readOffset 0x64 s).hostRead = s.gzTrlCrc ∧
      (readOffset 0x68 s).hostRead = s.gzTrlIsize ∧
      (readOffset 0x6C s).hostRead =
        BitVec.ofNat 16 s.params.fnameMax ++ BitVec.ofNat 16 s.params.chunkSize)

/-- Host writes to CFG and ARG0..ARG2: stored while the engine is not busy, the reserved bits of CFG reading
0; ignored while it is; a 1 to STATUS bit 3 clears CMD_DROPPED, other writes to STATUS do nothing
(10_state.md R24, R25, R27, 70_reset_and_hazards.md R380). -/
def Obligations.HostWrites : Prop :=
  ∀ (s : State) (v : Word),
    (s.engine ≠ .busy →
      hostTurn (.write 32 0x0C v) s = .next { s with cfg := v &&& 0x000003F7#32 } ∧
      hostTurn (.write 32 0x10 v) s = .next { s with arg0 := v } ∧
      hostTurn (.write 32 0x14 v) s = .next { s with arg1 := v } ∧
      hostTurn (.write 32 0x18 v) s = .next { s with arg2 := v }) ∧
    (s.engine = .busy → ∀ off, off / 4 ∈ [3, 4, 5, 6] → hostTurn (.write 32 off v) s = .next s) ∧
    hostTurn (.write 32 0x04 v) s =
      .next (if v.getLsbD 3 then { s with cmdDropped := false } else s)

/-- The ports are first-in first-out (20_memory.md R61): the host appends to the end of the input port and
takes from the head of the output port; a command takes bytes from the head of the input port and
gives them to the end of the output port, and BYTES_IN and BYTES_OUT count them (10_state.md R30); only
the host moves the closed flag. The model's choices in it: taking output leaves the room the host grants, and takes
what is there where it is less than asked (log 5); an append leaves a closed port closed (log 6); the host withdraws
queued input only while BUSY = 0 (log 27). -/
def Obligations.PortDiscipline : Prop :=
  ∀ s t : State,
    (∀ bytes, hostTurn (.input bytes) s = .next { s with inPort := s.inPort ++ bytes }) ∧
    (∀ n, hostTurn (.takeOutput n) s = .next { s with outPort := s.outPort.drop n }) ∧
    hostTurn .closeInput s = .next { s with inClosed := true } ∧
    (s.engine ≠ .busy → hostTurn .openInput s = .next { s with inClosed := false } ∧
      hostTurn .emptyInput s = .next { s with inPort := [] }) ∧
    (∀ i, i ≠ .reset → exec i s = .next t →
      ∃ taken given, s.inPort = taken ++ t.inPort ∧ t.outPort = s.outPort ++ given ∧
        t.bytesIn = s.bytesIn + BitVec.ofNat 64 taken.length ∧
        t.bytesOut = s.bytesOut + BitVec.ofNat 64 given.length ∧ t.inClosed = s.inClosed)

/-- IRQ is the level (DONE & IE_DONE) | (ERR & IE_ERR) (R337). -/
def Obligations.IrqLevel : Prop :=
  ∀ s : State,
    irq s = (((statusWord s).getLsbD 1 && s.cfg.getLsbD 8) || ((statusWord s).getLsbD 2 && s.cfg.getLsbD 9))

/-! ### The course of a command (60_exceptions.md) -/

/-- RESET and the reset input leave every register, field and table at its reset value, whatever the state,
and a held command is gone; neither reaches the host's side of the ports (70_reset_and_hazards.md R370,
R371, 40_control.md R141). Nothing is said of CHUNK and WINDOW, whose contents are unspecified. -/
def Obligations.ResetValues : Prop :=
  ∀ s : State, ∃ t, exec .reset s = .next t ∧ hostTurn .resetInput s = .next t ∧
    (t.engine = .idle ∧ t.cmd = 0 ∧ statusWord t = 0 ∧ t.errinfo = 0 ∧ t.cfg = 0x000000F6#32) ∧
    (t.arg0 = 0 ∧ t.arg1 = 0 ∧ t.arg2 = 0 ∧ t.res0 = 0 ∧ t.res1 = 0) ∧
    (t.crcState = 0xFFFFFFFF#32 ∧ t.rawCount = 0 ∧ t.bytesIn = 0 ∧ t.bytesOut = 0 ∧ t.outCommit = 0) ∧
    (t.wcount = 0 ∧ t.wbuf = 0 ∧ t.rcount = 0 ∧ t.rbuf = 0 ∧ t.wcur = 0 ∧ t.wvalid = 0) ∧
    (t.gzFlg = 0 ∧ t.gzMtime = 0 ∧ t.gzXfl = 0 ∧ t.gzOs = 0 ∧ t.gzFnameLen = 0 ∧ t.gzTrlCrc = 0 ∧
      t.gzTrlIsize = 0) ∧
    (∀ tbl k, tbl ∉ [.chunk, .window, .crcTable, .lenRange, .distRange] → readEntry t.tables k tbl = 0) ∧
    irq t = false ∧ t.held = none ∧ engineTurn t = .next t ∧
    (t.inPort = s.inPort ∧ t.inClosed = s.inClosed ∧ t.outPort = s.outPort ∧ t.outRoom = s.outRoom ∧
      t.params = s.params ∧ t.host = s.host)

/-- How a command ends: with DONE, OUT_COMMIT at BYTES_OUT and the engine in IDLE (R332); or in ERROR with an
error code of those its opcode can raise, ERRINFO naming it and the opcode (R331, R335), OUT_COMMIT as before
unless the command decodes blocks (R336), RES0 and RES1 as before unless it is GZ_DECOMPRESS (R336); or
it holds, busy, and STATUS shows none of its effects meanwhile (70_reset_and_hazards.md R387; log 31). Where a block
decoder has not completed, OUT_COMMIT is as before or counts some of the bytes the command has given (R336, 45_deflate.md
R281), so that it never passes BYTES_OUT (10_state.md R48). The codes are those of R331. That CLEAR_ERR
completes with OUT_COMMIT at BYTES_OUT is the model's reading (log 14). -/
def Obligations.CommandEnds : Prop :=
  (∀ (i : Instr) (s t : State), i ≠ .reset → exec i s = .next t →
    (t.engine = .idle → t.done = true ∧ t.outCommit = t.bytesOut ∧ t.held = none ∧
      (i ≠ .clearErr → Completed s t)) ∧
    (t.engine = .error → ∃ e ∈ raises i, Raised e s t) ∧
    (t.engine = .busy → Holding s t) ∧
    (t.engine ≠ .idle →
      (decodesBlocks i = false → t.outCommit = s.outCommit) ∧
      (t.outCommit = s.outCommit ∨
        ∃ k, k ≤ t.outPort.length - s.outPort.length ∧ t.outCommit = s.bytesOut + BitVec.ofNat 64 k) ∧
      (i ≠ .gzDecompress → t.res0 = s.res0 ∧ t.res1 = s.res1))) ∧
  (∀ (cmd : Word) (e : ErrCode), errorInfo cmd e = 0#16 ++ opcField cmd ++ e.code) ∧
  [ErrCode.badMagic, .badMethod, .badBtype, .storedLen, .crcMismatch, .isizeMismatch, .badSymbol,
    .badDistance, .badCodelengths, .hufConstruct, .ioEof, .unsupportedFlags, .badCommand,
    .badConfig].map ErrCode.code = (List.range 14).map (fun k => BitVec.ofNat 8 (k + 1))

/-- The checks before any effect: a field or operand out of range raises BAD_COMMAND (30_encoding.md R94), then an
illegal value of a configuration field the command reads raises BAD_CONFIG (R333, R334); nothing changes
but the state of an error entry. -/
def Obligations.Checks : Prop :=
  ∀ (i : Instr) (s : State),
    (badOperand s i → exec i s = .next
      { s with errinfo := errorInfo s.cmd .badCommand, engine := .error, done := false, held := none }) ∧
    (¬ badOperand s i → badConfig s i → exec i s = .next
      { s with errinfo := errorInfo s.cmd .badConfig, engine := .error, done := false, held := none })

/-- The ERROR state is left only by CLEAR_ERR, RESET or the reset input (40_control.md R143). -/
def Obligations.ErrorStays : Prop :=
  ∀ s t : State, Inv s → step s = .next t → s.engine = .error → t.engine ≠ .error →
    ∃ e rest, s.host = e :: rest ∧
      (e = .resetInput ∨
        ∃ off w, e = .write 32 off w ∧ off / 4 = 0 ∧ (opcField w = 0x01#8 ∨ opcField w = 0x02#8))

/-- CLEAR_ERR: ERR and ERRINFO are cleared, the engine is IDLE, DONE is set (40_control.md R142). Two parts are the
model's reading: it completes like every command, so OUT_COMMIT takes the value of BYTES_OUT (R332; log 14, where
70_reset_and_hazards.md R372 says "kept"), and it keeps BFINAL_SEEN (log 15, where R142's example shows it 0). -/
def Obligations.ClearErr : Prop :=
  ∀ s : State, exec .clearErr s = .next
    { s with errinfo := 0, engine := .idle, done := true, outCommit := s.bytesOut, held := none }

/-- Every command answers a next state in every state of legal parameters: no meaning refuses, and no loop
outruns its bound. -/
def Obligations.NeverStops : Prop :=
  ∀ (i : Instr) (s : State), s.params.wf → ∃ t, exec i s = .next t

/-- The machine stops only where the host's next action is outside the interface: an access that is not 32 bits wide, a
reopening or a withdrawal of input while BUSY (20_memory.md R61, R66; the refusals are the model's, logs 6, 27). -/
def Obligations.StepStops : Prop :=
  ∀ s : State, Inv s →
    ((∃ t, step s = .next t) ↔ ∀ e rest, s.host = e :: rest → e.allowed s = true)

/-- What a command leaves unchanged, however it ends: everything but the course of a command and the parts its
rule writes. -/
def Obligations.Frame : Prop :=
  ∀ (i : Instr) (s t : State) (f : Field), i ≠ .reset → exec i s = .next t →
    f ∉ courseFields → f ∉ writes (btypeSel s) i → kept s t f

/-- A held command goes on as if it had not held (00_scope.md R15; the model's resumption, log 3): once the host
has added input, closed the port or made room, the engine's turn gives what the command gives from the
state in which it was accepted with that input, that flag and that room from the start. Input added behind an end the
command has already seen (InAtEnd gave true) is the exception: it stays in the port. -/
def Obligations.HoldIsTransparent : Prop :=
  ∀ (i : Instr) (s t : State) (h : Held) (more : List Byte) (closed : Bool) (room : Option Nat),
    s.params.wf → s.engine = .busy → s.done = false → s.held = none → s.sawEnd = false → i ≠ .reset →
    exec i s = .next t → t.held = some h → (s.inClosed = true → closed = true) →
      (h.ended = false →
        engineTurn { t with inPort := t.inPort ++ more, inClosed := closed, outRoom := room } =
          exec i
            { s with
              inPort := s.inPort ++ more, inClosed := closed
              outRoom := room.map (· + (t.outPort.length - s.outPort.length)) }) ∧
      (h.ended = true →
        ∀ u, exec i
            { s with
              inClosed := closed
              outRoom := room.map (· + (t.outPort.length - s.outPort.length)) } = .next u →
          engineTurn { t with inPort := t.inPort ++ more, inClosed := closed, outRoom := room } =
            .next { u with inPort := u.inPort ++ more })

/-! ### Invariants (10_state.md R48) -/

/-- The invariant holds after reset. -/
def Obligations.ResetInv : Prop := Inv State.reset

/-- Every step keeps the invariant: the cursors, the reserved bits, the tables' canonical form and sizes, STATUS
and ERRINFO, OUT_COMMIT at BYTES_OUT in IDLE (for CLEAR_ERR the model's reading, log 14), and what a held command
keeps. -/
def Obligations.StepInv : Prop := ∀ s t : State, Inv s → step s = .next t → Inv t

/-- A command that completes keeps the window clauses of R48. -/
def Obligations.WindowInv : Prop :=
  ∀ (i : Instr) (s t : State), i ≠ .reset → exec i s = .next t → t.engine = .idle → WindowOk s → WindowOk t

/-! ### Control and table access (40_control.md) -/

/-- NOP, STREAM_INIT, CRC_INIT: what they leave, in every state (R140, R144, 42_crc.md R192). That STREAM_INIT completes
with OUT_COMMIT at BYTES_OUT, where R144 says OUT_COMMIT is unchanged, is the model's reading (log 14): in IDLE, where
it is accepted, they are equal. -/
def Obligations.ControlResults : Prop :=
  ∀ s : State,
    exec .nop s = .next { s with engine := .idle, done := true, outCommit := s.bytesOut, held := none } ∧
    exec .streamInit s = .next
      { s with
        wcur := 0, wvalid := 0, crcState := 0xFFFFFFFF#32, rawCount := 0, bfinalSeen := false
        engine := .idle, done := true, outCommit := s.bytesOut, held := none } ∧
    exec .crcInit s = .next
      { s with
        crcState := 0xFFFFFFFF#32
        engine := .idle, done := true, outCommit := s.bytesOut, held := none }

/-- TBL_READ: BAD_COMMAND where ARG0 is no entry of the table, else RES0 is the entry, zero-extended (R145). -/
def Obligations.TblRead : Prop :=
  ∀ (tbl : TableId) (s : State),
    (entries s.params tbl ≤ s.arg0.toNat → exec (.tblRead tbl) s = .next (enterError .badCommand s)) ∧
    (s.arg0.toNat < entries s.params tbl →
      exec (.tblRead tbl) s = .next
        { s with
          res0 := readEntry s.tables s.arg0.toNat tbl
          engine := .idle, done := true, outCommit := s.bytesOut, held := none })

/-- TBL_WRITE: BAD_COMMAND for a read-only table, or where ARG0 is no entry of the table; else ARG1, truncated to the
entry's width (and to the bits an entry of PACKED keeps), is written, and nothing else of the state changes but what
every command's completion sets: no other entry, no register (10_state.md R36, R146). -/
def Obligations.TblWrite : Prop :=
  ∀ (tbl : TableId) (s : State),
    (tbl ∈ [.window, .crcTable, .lenRange, .distRange] ∨ entries s.params tbl ≤ s.arg0.toNat →
      exec (.tblWrite tbl) s = .next (enterError .badCommand s)) ∧
    (tbl ∉ [.window, .crcTable, .lenRange, .distRange] → s.arg0.toNat < entries s.params tbl →
      ∃ tables, exec (.tblWrite tbl) s = .next
          { s with
            tables := tables
            engine := .idle, done := true, outCommit := s.bytesOut, held := none } ∧
        readEntry tables s.arg0.toNat tbl =
          s.arg1 &&& (match tbl with
            | .chunk | .fname => 0x000000FF#32
            | .lenLL | .lenD | .lenCL => 0x0000000F#32
            | .packed => 0x00007F1F#32
            | _ => 0xFFFFFFFF#32) ∧
        ∀ k tbl', (k ≠ s.arg0.toNat ∨ tbl' ≠ tbl) → readEntry tables k tbl' = readEntry s.tables k tbl')

/-! ### The bit framer (41_bitio.md) -/

/-- BW_BITS and BW_BITS_R: the low N bits of ARG0, LSB first and MSB first; BAD_COMMAND for N > 32 (R161, R162).
The host has room for the bytes that fill up. -/
def Obligations.WriteBits : Prop :=
  ∀ (n : Nat) (s : State),
    (32 < n → exec (.bwBits n) s = .next (enterError .badCommand s) ∧
      exec (.bwBitsR n) s = .next (enterError .badCommand s)) ∧
    (n ≤ 32 → WriterOk s.toEngine → hasRoom s ((s.wcount.toNat + n) / 8) →
      (∃ t, exec (.bwBits n) s = .next t ∧ Completed s t ∧ Wrote (bitsOf n s.arg0.toNat) s t) ∧
      (∃ t, exec (.bwBitsR n) s = .next t ∧ Completed s t ∧ Wrote (bitsRev n s.arg0.toNat) s t))

/-- BW_BYTE, BW_SHORT and BW_INT: 8, 16 and 32 bits of ARG0, LSB first from the cursor, wherever it stands; from a
byte boundary, whole bytes, low byte first (R163, R165 to R167). BW_FLUSH: nothing where no bit is pending;
else one byte, its free bits 1 (R164). -/
def Obligations.WriteBytes : Prop :=
  ∀ s : State, WriterOk s.toEngine →
    (s.wcount = 0 → exec .bwFlush s = .next
      { s with engine := .idle, done := true, outCommit := s.bytesOut, held := none }) ∧
    (s.wcount ≠ 0 → hasRoom s 1 → ∃ t, exec .bwFlush s = .next t ∧ Completed s t ∧
      Wrote (List.replicate (8 - s.wcount.toNat) true) s t ∧ t.wcount = 0 ∧ t.wbuf = 0) ∧
    (hasRoom s 1 → ∃ t, exec .bwByte s = .next t ∧ Completed s t ∧ Wrote (bitsOf 8 s.arg0.toNat) s t ∧
      (s.wcount = 0 → t.outPort = s.outPort ++ (wordBytes s.arg0).take 1)) ∧
    (hasRoom s 2 → ∃ t, exec .bwShort s = .next t ∧ Completed s t ∧ Wrote (bitsOf 16 s.arg0.toNat) s t ∧
      (s.wcount = 0 → t.outPort = s.outPort ++ (wordBytes s.arg0).take 2)) ∧
    (hasRoom s 4 → ∃ t, exec .bwInt s = .next t ∧ Completed s t ∧ Wrote (bitsOf 32 s.arg0.toNat) s t ∧
      (s.wcount = 0 → t.outPort = s.outPort ++ wordBytes s.arg0))

/-- A command of the bit writer holds once the host accepts no more (00_scope.md R15): which bits it puts, and that a byte
is given where its eighth bit is put, are R160 to R167; of those bits the bytes accepted so far are given, the engine
stays busy and nothing is committed. That seven of the bits after them are pending, WCOUNT = 7, is the model's state of a
held command (log 3): its eighth bit has not been put. -/
def Obligations.WriteHolds : Prop :=
  ∀ (i : Instr) (bits : List Bool) (k : Nat) (s : State), WriterOk s.toEngine →
    (∃ n, n ≤ 32 ∧ ((i = .bwBits n ∧ bits = bitsOf n s.arg0.toNat) ∨ (i = .bwBitsR n ∧ bits = bitsRev n s.arg0.toNat))) ∨
      (i = .bwFlush ∧ bits = List.replicate ((8 - s.wcount.toNat) % 8) true) ∨
      (i = .bwByte ∧ bits = bitsOf 8 s.arg0.toNat) ∨ (i = .bwShort ∧ bits = bitsOf 16 s.arg0.toNat) ∨
      (i = .bwInt ∧ bits = bitsOf 32 s.arg0.toNat) →
    s.outRoom = some k → k < (s.wcount.toNat + bits.length) / 8 →
      ∃ t, exec i s = .next t ∧ Holding s t ∧ t.outRoom = some 0 ∧ t.outCommit = s.outCommit ∧
        t.outPort.length = s.outPort.length + k ∧ t.bytesOut = s.bytesOut + BitVec.ofNat 64 k ∧ t.wcount = 7 ∧
        streamBits t.outPort ++ pendingBits t =
          streamBits s.outPort ++ pendingBits s ++ bits.take (8 * k + 7 - s.wcount.toNat)

/-- BR_BITS, BR_BYTE, BR_SHORT and BR_INT: RES0 is the value of the next N, 8, 16, 32 bits, the first of them bit 0;
BAD_COMMAND for N > 32 (R171, R173 to R175). Where the bits are not there, the bits read are consumed and RES0 is
unchanged: IO_EOF where the port is closed (R172), a hold where it is open (00_scope.md R15). -/
def Obligations.ReadBits : Prop :=
  ∀ (n : Nat) (s : State), ReaderOk s.toEngine →
    (32 < n → exec (.brBits n) s = .next (enterError .badCommand s)) ∧
    (n ≤ 32 → ∀ i : Instr,
      i = .brBits n ∨ (n = 8 ∧ i = .brByte) ∨ (n = 16 ∧ i = .brShort) ∨ (n = 32 ∧ i = .brInt) →
        (n ≤ (unreadBits s).length →
          ∃ t, exec i s = .next t ∧ Completed s t ∧ Took n s t ∧
            t.res0 = BitVec.ofNat 32 (natOfBits ((unreadBits s).take n))) ∧
        ((unreadBits s).length < n →
          ∃ t, exec i s = .next t ∧ Took (unreadBits s).length s t ∧ t.rcount = 0 ∧ t.res0 = s.res0 ∧
            (s.inClosed = true → Raised .ioEof s t) ∧ (s.inClosed = false → Holding s t)))

/-- BR_ALIGN discards the unread bits of the current byte and counts them, reading no byte (R176). -/
def Obligations.ReadAlign : Prop :=
  ∀ s : State, exec .brAlign s = .next
    { s with
      res0 := 0#29 ++ s.rcount, rbuf := 0, rcount := 0
      engine := .idle, done := true, outCommit := s.bytesOut, held := none }

/-! ### The CRC engine (42_crc.md) -/

/-- CRC_UPDATE folds ARG0[7:0] into CRC_STATE by the table (R193); RAW_COUNT is not changed. -/
def Obligations.CrcUpdate : Prop :=
  ∀ s : State, exec .crcUpdate s = .next
    { s with
      crcState :=
        crcTable ((s.crcState ^^^ (0#24 ++ s.arg0.extractLsb' 0 8)) &&& 0xFF#32).toNat ^^^ (s.crcState >>> 8)
      engine := .idle, done := true, outCommit := s.bytesOut, held := none }

/-- The table-driven update is eight reflected rounds of the polynomial on the state with the byte folded in: the
definition of the CRC (R190, R191, R194). -/
def Obligations.CrcIsBitwise : Prop :=
  ∀ (c : Word) (b : Byte),
    crcStep c b =
      crcRound (crcRound (crcRound (crcRound (crcRound (crcRound (crcRound (crcRound
        (c ^^^ zext32 b))))))))

/-! ### The window (43_window.md) -/

/-- WIN_RESET and WIN_ADD: BAD_CONFIG for WIN_LOG2 = 0; else the window is emptied, or ARG0[7:0] is written at WCUR,
which advances modulo N while WVALID grows up to N (R200, R203, R204): a window that remembers a history then
remembers it with the byte after it (R201). -/
def Obligations.WindowResults : Prop :=
  ∀ s : State,
    (winLog2 s = 0 → exec .winReset s = .next (enterError .badConfig s) ∧
      exec .winAdd s = .next (enterError .badConfig s)) ∧
    (winLog2 s ≠ 0 →
      exec .winReset s = .next
        { s with
          wcur := 0, wvalid := 0
          engine := .idle, done := true, outCommit := s.bytesOut, held := none } ∧
      ∃ t, exec .winAdd s = .next t ∧ Completed s t ∧
        (t.wcur.toNat = (s.wcur.toNat + 1) % 2 ^ winLog2 s ∧
        t.wvalid.toNat = min (s.wvalid.toNat + 1) (2 ^ winLog2 s) ∧
        ∀ k, t.tables.window.read k =
          if k = s.wcur.toNat then s.arg0.extractLsb' 0 8 else s.tables.window.read k) ∧
        ∀ h, Remembers s h → Remembers t (h ++ [s.arg0.extractLsb' 0 8]))

/-- WIN_FIND: BAD_COMMAND, then BAD_CONFIG; else the longest match of CHUNK[ARG0..] over all distances 1..WVALID, of
the nearest distance where lengths tie, and (0, 0) where none reaches 3 bytes (R202, R205, R207). -/
def Obligations.WinFind : Prop :=
  ∀ s : State,
    (s.params.chunkSize < s.arg1.toNat ∨ s.arg1.toNat < s.arg0.toNat →
      exec .winFind s = .next (enterError .badCommand s)) ∧
    (s.arg1.toNat ≤ s.params.chunkSize → s.arg0.toNat ≤ s.arg1.toNat →
      (winLog2 s = 0 → exec .winFind s = .next (enterError .badConfig s)) ∧
      (winLog2 s ≠ 0 →
        ∃ l d, exec .winFind s = .next
            { s with
              res0 := BitVec.ofNat 32 l, res1 := BitVec.ofNat 32 d
              engine := .idle, done := true, outCommit := s.bytesOut, held := none } ∧
          ((l = 0 ∧ d = 0 ∧ ∀ d' k, 1 ≤ d' → d' ≤ s.wvalid.toNat →
              k ≤ min 258 (s.arg1.toNat - s.arg0.toNat) → Matches s s.arg0.toNat d' k → k < 3) ∨
            (3 ≤ l ∧ l ≤ min 258 (s.arg1.toNat - s.arg0.toNat) ∧ 1 ≤ d ∧ d ≤ s.wvalid.toNat ∧
              Matches s s.arg0.toNat d l ∧
              ∀ d' k, 1 ≤ d' → d' ≤ s.wvalid.toNat → k ≤ min 258 (s.arg1.toNat - s.arg0.toNat) →
                Matches s s.arg0.toNat d' k → k ≤ l ∧ (k = l → d ≤ d')))))

/-! ### The Huffman unit (44_huffman.md) -/

/-- HUF_BUILD: BAD_COMMAND for SEL = 3 or LIMIT = 0. Else the leaves, one a symbol of nonzero frequency and the lowest
others where there are fewer than two (R221), merge into a tree, the two nodes of the smallest (weight, order) each
time (R222); the tree is limited in depth turn by turn (R224). Where it comes within LIMIT the command completes and each
symbol's length is the depth of its leaf, 0 without one (R223); where a turn finds no leaf to attach to it raises
HUF_CONSTRUCT. It completes where the tree has at most 2^(LIMIT-1) leaves, and raises where it has more than 2^LIMIT
(R225, R230). -/
def Obligations.HufBuild : Prop :=
  ∀ (sel : Sel) (limit : Nat) (s : State), limit < 16 →
    (sel = .illegal ∨ limit = 0 → exec (.hufBuild sel limit) s = .next (enterError .badCommand s)) ∧
    (limit ≠ 0 → ∀ a, selAlphabet sel = some a →
      (∃ queue tree tree' t, LeafQueue (freqsOf s.tables a) queue ∧ Merged (alphabetSize a) queue tree ∧
        LimitTurns limit tree tree' ∧ exec (.hufBuild sel limit) s = .next t ∧
        ((Completed s t ∧ (∀ x ∈ tree'.depths 0, x.2 ≤ limit ∧ lenAt t.tables a x.1 = x.2) ∧
            ∀ x, x < alphabetSize a → ¬ HasLeaf (freqsOf s.tables a) x → lenAt t.tables a x = 0) ∨
          (Raised .hufConstruct s t ∧ LimitStuck limit tree'))) ∧
      (max 2 ((freqsOf s.tables a).filter (fun f => f > 0)).length ≤ 2 ^ (limit - 1) →
        ∃ t, exec (.hufBuild sel limit) s = .next t ∧ Completed s t) ∧
      (2 ^ limit < max 2 ((freqsOf s.tables a).filter (fun f => f > 0)).length →
        ∃ t, exec (.hufBuild sel limit) s = .next t ∧ Raised .hufConstruct s t))

/-- The lengths a build gives, whether for HUF_BUILD or for an encoder command: every used symbol has one, every length
is at most LIMIT, their Kraft sum is exactly 1, and the canonical codes of the lengths are prefix-free; HUF_BUILD writes
them to the length table (R226, R230). -/
def Obligations.KraftEquality : Prop :=
  (∀ (freq lens : List Nat) (limit : Nat), 2 ≤ freq.length → 1 ≤ limit → limit ≤ 15 →
    hufBuild freq limit = .ok lens →
      lens.length = freq.length ∧ (∀ k, 0 < freq.getD k 0 → 0 < lens.getD k 0) ∧
      (∀ k, lens.getD k 0 ≤ limit) ∧ kraft limit lens = 2 ^ limit ∧ PrefixFree lens) ∧
  (∀ (sel : Sel) (a : Alphabet) (limit : Nat) (s t : State), limit < 16 → selAlphabet sel = some a →
    exec (.hufBuild sel limit) s = .next t → t.engine = .idle →
      hufBuild (freqsOf s.tables a) limit = .ok (lensOf t.tables a))

/-- HUF_CANON: BAD_COMMAND for SEL = 3; else a symbol without a length has code 0, the first of the others, in the order
of (length, symbol), has code 0, and each next one the code before plus one, shifted to its length (R227, R231). The
codes are those of `hufCanon`, by which other statements name them. -/
def Obligations.HufCanon : Prop :=
  ∀ (sel : Sel) (s : State),
    (sel = .illegal → exec (.hufCanon sel) s = .next (enterError .badCommand s)) ∧
    (∀ a, selAlphabet sel = some a →
      ∃ t, exec (.hufCanon sel) s = .next t ∧ Completed s t ∧
        codesOf t.tables a = hufCanon (lensOf s.tables a) ∧
        ∀ x, x < alphabetSize a →
          (lenAt s.tables a x = 0 → codeAt t.tables a x = 0) ∧
          (0 < lenAt s.tables a x →
            ((∀ y, y < alphabetSize a → 0 < lenAt s.tables a y →
                lenAt s.tables a x < lenAt s.tables a y ∨ (lenAt s.tables a x = lenAt s.tables a y ∧ x ≤ y)) →
              codeAt t.tables a x = 0) ∧
            ∀ y, y < alphabetSize a → 0 < lenAt s.tables a y →
              (lenAt s.tables a y < lenAt s.tables a x ∨ (lenAt s.tables a y = lenAt s.tables a x ∧ y < x)) →
              (∀ z, z < alphabetSize a → 0 < lenAt s.tables a z → z ≠ x →
                (lenAt s.tables a z < lenAt s.tables a x ∨
                  (lenAt s.tables a z = lenAt s.tables a x ∧ z < x)) →
                lenAt s.tables a z < lenAt s.tables a y ∨
                  (lenAt s.tables a z = lenAt s.tables a y ∧ z ≤ y)) →
              codeAt t.tables a x =
                (codeAt t.tables a y + 1) * 2 ^ (lenAt s.tables a x - lenAt s.tables a y)))

/-- Canonical codes of lengths up to 15 whose Kraft sum is at most 1 are prefix-free (R228, R237). -/
def Obligations.CanonicalPrefixFree : Prop :=
  ∀ lens : List Nat, (∀ l ∈ lens, l ≤ 15) → kraft 15 lens ≤ 2 ^ 15 → PrefixFree lens

/-- HUF_FIXED: the fixed lengths and codes, in every state (30_encoding.md R113, R232). -/
def Obligations.HufFixed : Prop :=
  ∀ s : State, ∃ t, exec .hufFixed s = .next t ∧ Completed s t ∧
    (∀ k, k < 144 → lenAt t.tables .ll k = 8 ∧ codeAt t.tables .ll k = 0x30 + k) ∧
    (∀ k, 144 ≤ k → k < 256 → lenAt t.tables .ll k = 9 ∧ codeAt t.tables .ll k = 0x190 + (k - 144)) ∧
    (∀ k, 256 ≤ k → k < 280 → lenAt t.tables .ll k = 7 ∧ codeAt t.tables .ll k = k - 256) ∧
    (∀ k, 280 ≤ k → k < 288 → lenAt t.tables .ll k = 8 ∧ codeAt t.tables .ll k = 0xC0 + (k - 280)) ∧
    (∀ k, k < 30 → lenAt t.tables .d k = 5 ∧ codeAt t.tables .d k = k) ∧
    (∀ k, 30 ≤ k → k < 32 → lenAt t.tables .d k = 0 ∧ codeAt t.tables .d k = 0)

/-- HUF_DECODE: the symbol of the first bit count at which the bits read are a code of that length, the lowest where
several match; BAD_SYMBOL where no code matches within the longest length, or the table has none; BAD_COMMAND for
SEL = 3; where the input ends before a code matches, IO_EOF or a hold (R229, R233). -/
def Obligations.HufDecode : Prop :=
  ∀ (sel : Sel) (s : State), ReaderOk s.toEngine →
    (sel = .illegal → exec (.hufDecode sel) s = .next (enterError .badCommand s)) ∧
    (∀ a, selAlphabet sel = some a →
      (∀ x n, x < alphabetSize a → 1 ≤ n → n ≤ (unreadBits s).length →
        lenAt s.tables a x = n → codeAt s.tables a x = codeOfBits ((unreadBits s).take n) →
        (∀ y, y < x → lenAt s.tables a y = n →
          codeAt s.tables a y ≠ codeOfBits ((unreadBits s).take n)) →
        (∀ m, 1 ≤ m → m < n → ∀ y, y < alphabetSize a → lenAt s.tables a y = m →
          codeAt s.tables a y ≠ codeOfBits ((unreadBits s).take m)) →
          ∃ t, exec (.hufDecode sel) s = .next t ∧ Completed s t ∧ Took n s t ∧ t.res0 = BitVec.ofNat 32 x) ∧
      (∀ n, n ≤ (unreadBits s).length → (∀ y, y < alphabetSize a → lenAt s.tables a y ≤ n) →
        (n = 0 ∨ ∃ y, y < alphabetSize a ∧ lenAt s.tables a y = n) →
        (∀ m, 1 ≤ m → m ≤ n → ∀ y, y < alphabetSize a → lenAt s.tables a y = m →
          codeAt s.tables a y ≠ codeOfBits ((unreadBits s).take m)) →
          ∃ t, exec (.hufDecode sel) s = .next t ∧ Raised .badSymbol s t ∧ Took n s t ∧ t.res0 = s.res0) ∧
      ((∃ y, y < alphabetSize a ∧ (unreadBits s).length < lenAt s.tables a y) →
        (∀ m, 1 ≤ m → m ≤ (unreadBits s).length → ∀ y, y < alphabetSize a → lenAt s.tables a y = m →
          codeAt s.tables a y ≠ codeOfBits ((unreadBits s).take m)) →
          ∃ t, exec (.hufDecode sel) s = .next t ∧ Took (unreadBits s).length s t ∧ t.res0 = s.res0 ∧
            (s.inClosed = true → Raised .ioEof s t) ∧ (s.inClosed = false → Holding s t)))

/-- Encoder and decoder agree: from the bits BW_BITS_R writes for a code, HUF_DECODE gives the symbol back, for every
symbol of a prefix-free code (R237). -/
def Obligations.DecodeReadsCode : Prop :=
  ∀ (sel : Sel) (a : Alphabet) (s : State) (x : Nat) (rest : List Bool),
    selAlphabet sel = some a → ReaderOk s.toEngine →
    codesOf s.tables a = hufCanon (lensOf s.tables a) → Coded (lensOf s.tables a) x →
    unreadBits s = symBits (lensOf s.tables a) x ++ rest →
      ∃ t, exec (.hufDecode sel) s = .next t ∧ Completed s t ∧ t.res0 = BitVec.ofNat 32 x ∧
        unreadBits t = rest

/-- CL_PACK: BAD_COMMAND for a count out of range; else the packed symbols of the two length arrays go to PACKED, their
number to RES0, and how often each occurs to FREQ_CL; other entries of PACKED keep their values. The arrays are packed as
one sequence, run by run, each as `runSymbols` says: 18 before 17, each repeat as long as its code allows, what is shorter
as lengths (R234). -/
def Obligations.ClPack : Prop :=
  (∀ s : State,
    (badOperand s .clPack → exec .clPack s = .next (enterError .badCommand s)) ∧
    (¬ badOperand s .clPack →
      ∃ t p, exec .clPack s = .next t ∧ Completed s t ∧
        p = clPack ((List.range s.arg0.toNat).map (lenAt s.tables .ll)
          ++ (List.range s.arg1.toNat).map (lenAt s.tables .d)) ∧
        p.length ≤ 320 ∧ t.res0 = BitVec.ofNat 32 p.length ∧
        (∀ k x, p[k]? = some x → t.tables.packed.read k = BitVec.ofNat 16 (x.2 * 2 ^ 8 + x.1)) ∧
        (∀ k, p.length ≤ k → t.tables.packed.read k = s.tables.packed.read k) ∧
        (∀ x, x < 19 → (t.tables.freqCL.read x).toNat = (p.map Prod.fst).count x))) ∧
  clPack [] = [] ∧
  ∀ (v r : Nat) (rest : List Nat), 1 ≤ r → rest.head? ≠ some v →
    clPack (List.replicate r v ++ rest) = runSymbols v r ++ clPack rest

/-- CL_UNPACK: BAD_COMMAND for a count out of range; where the packed symbols expand to exactly the announced number of
lengths the two length tables are written, 0 past the counts; else the error is raised and no table changes. The
expansion takes entry by entry, the symbol in bits 4:0 and the extra value in bits 14:8, masked to its symbol's width: 0
to 15 is that length; 16 repeats the last length, whatever symbol gave it, and is BAD_CODELENGTHS where there is none; 17
and 18 repeat 0; 19 to 31 is BAD_SYMBOL. More lengths than announced, or fewer at the end, are BAD_CODELENGTHS (R235). -/
def Obligations.ClUnpack : Prop :=
  (∀ s : State,
    (badOperand s .clUnpack → exec .clUnpack s = .next (enterError .badCommand s)) ∧
    (¬ badOperand s .clUnpack →
      (∀ seq, clUnpack (s.arg0.toNat + s.arg1.toNat) [] (s.tables.packed.toList s.arg2.toNat) = .ok seq →
        ∃ t, exec .clUnpack s = .next t ∧ Completed s t ∧ seq.length = s.arg0.toNat + s.arg1.toNat ∧
          (∀ k, k < 288 →
            lenAt t.tables .ll k = if k < s.arg0.toNat then seq.getD k 0 else 0) ∧
          (∀ k, k < 32 →
            lenAt t.tables .d k = if k < s.arg1.toNat then seq.getD (s.arg0.toNat + k) 0 else 0)) ∧
      (∀ e, clUnpack (s.arg0.toNat + s.arg1.toNat) [] (s.tables.packed.toList s.arg2.toNat) = .error e →
        (e = .badCodelengths ∨ e = .badSymbol) ∧ exec .clUnpack s = .next (enterError e s)))) ∧
  (∀ (total : Nat) (seq : List Nat),
    clUnpack total seq [] = if seq.length < total then .error .badCodelengths else .ok seq) ∧
  ∀ (total : Nat) (seq : List Nat) (e : BitVec 16) (rest : List (BitVec 16)),
    let sym := e.toNat % 32
    let x := e.toNat / 256 % 128
    let repeated (rep v : Nat) : Except ErrCode (List Nat) :=
      if total < seq.length + rep then .error .badCodelengths
      else clUnpack total (seq ++ List.replicate rep v) rest
    (sym ≤ 15 → clUnpack total seq (e :: rest) = repeated 1 sym) ∧
    (sym = 16 → seq = [] → clUnpack total seq (e :: rest) = .error .badCodelengths) ∧
    (sym = 16 → ∀ v, seq.getLast? = some v → clUnpack total seq (e :: rest) = repeated (3 + x % 4) v) ∧
    (sym = 17 → clUnpack total seq (e :: rest) = repeated (3 + x % 8) 0) ∧
    (sym = 18 → clUnpack total seq (e :: rest) = repeated (11 + x) 0) ∧
    (19 ≤ sym → clUnpack total seq (e :: rest) = .error .badSymbol)

/-- Packing round trip: CL_PACK, then CL_UNPACK with ARG2 the RES0 of CL_PACK, restores the lengths and zeroes the rest
(R236). -/
def Obligations.PackRoundTrip : Prop :=
  ∀ s : State, 1 ≤ s.arg0.toNat → s.arg0.toNat ≤ 288 → 1 ≤ s.arg1.toNat → s.arg1.toNat ≤ 32 →
    ∃ t, exec .clPack s = .next t ∧
      ∀ u : State, u.tables.packed = t.tables.packed → u.arg0 = s.arg0 → u.arg1 = s.arg1 → u.arg2 = t.res0 →
        ∃ v, exec .clUnpack u = .next v ∧ Completed u v ∧
          (∀ k, k < 288 →
            lenAt v.tables .ll k = if k < s.arg0.toNat then lenAt s.tables .ll k else 0) ∧
          (∀ k, k < 32 → lenAt v.tables .d k = if k < s.arg1.toNat then lenAt s.tables .d k else 0)

/-! ### The encoder and the decoder (45_deflate.md) -/

/-- Lengths and distances have the symbols of the range tables (30_encoding.md R110, R111): the range with the largest
base that is at most the value, and the rest fits its extra bits. -/
def Obligations.RangeSymbols : Prop :=
  (∀ l, 3 ≤ l → l ≤ 258 →
    (l = 258 → lenSym l = 285) ∧
    (l ≠ 258 → ∃ i, i ≤ 27 ∧ lenSym l = 257 + i ∧ (lenRange i).base ≤ l ∧
      (∀ j, j ≤ 27 → (lenRange j).base ≤ l → j ≤ i) ∧ l - (lenRange i).base < 2 ^ (lenRange i).extra)) ∧
  (∀ d, 1 ≤ d → d ≤ 32768 →
    ∃ i, i ≤ 29 ∧ distSym d = i ∧ (distRange i).base ≤ d ∧
      (∀ j, j ≤ 29 → (distRange j).base ≤ d → j ≤ i) ∧ d - (distRange i).base < 2 ^ (distRange i).extra)

/-- A stored chunk: the header, 1 bits up to the byte boundary, LEN, NLEN and the chunk's bytes; the
bytes feed the window, and no other table changes (R266). -/
def Obligations.StoredChunk : Prop :=
  ∀ (final : Bool) (s : State), ¬ badOperand s (.defEncChunk final) → winLog2 s ≠ 0 → btypeSel s = 0 →
    s.params.wf → WriterOk s.toEngine → s.outRoom = none →
      ∃ t, exec (.defEncChunk final) s = .next t ∧ Completed s t ∧
        Wrote ([final, false, false] ++ List.replicate (padBits (s.wcount.toNat + 3)) true
          ++ bitsOf 16 s.arg0.toNat ++ bitsOf 16 (s.arg0.toNat ^^^ 0xFFFF)
          ++ streamBits (s.tables.chunk.toList s.arg0.toNat)) s t ∧
        t.tables = { s.tables with window := t.tables.window } ∧
        ∀ h, Remembers s h → Remembers t (h ++ s.tables.chunk.toList s.arg0.toNat)

/-- DEF_ENC_CHUNK: for every legal configuration the chunk becomes one block of the selected type that decodes to the
chunk, from whatever bit the writer stands at; CRC, RAW_COUNT and the window take the chunk in (R261 to R270). Its bits are
those of the tokens of pass 1 (with LZ77_EN the longest, nearest match at each position, skipping ahead by its length;
without it literals alone), with the fixed codes, or with the codes built from their counts behind the header of
HLIT = 29, HDIST = 29, HCLEN = 15. A stored block changes no table but WINDOW; a fixed one leaves FREQ_LL and FREQ_D as
counted and the fixed LEN and CODE tables; a dynamic one leaves all of them as built, and PACKED past its symbols as it
was (R267). -/
def Obligations.EncodesChunk : Prop :=
  ∀ (final : Bool) (s : State) (h : List Byte), ¬ badOperand s (.defEncChunk final) →
    ¬ badConfig s (.defEncChunk final) → s.params.wf → WriterOk s.toEngine → Remembers s h → s.outRoom = none →
      ∃ t bits, exec (.defEncChunk final) s = .next t ∧ Completed s t ∧ Wrote bits s t ∧
        BlockCoded s.wcount.toNat (winCap s) final (btypeSel s) bits h
          (h ++ s.tables.chunk.toList s.arg0.toNat) ∧
        ChunkBits (lz77En s) (winCap s) s.wcount.toNat final (btypeSel s) h (s.tables.chunk.toList s.arg0.toNat) bits ∧
        ChunkTables (lz77En s) (winCap s) (btypeSel s) h (s.tables.chunk.toList s.arg0.toNat) t.tables ∧
        (btypeSel s = 0 → t.tables = { s.tables with window := t.tables.window }) ∧
        (btypeSel s = 1 → t.tables.freqCL = s.tables.freqCL ∧ t.tables.lenCL = s.tables.lenCL ∧
          t.tables.codeCL = s.tables.codeCL ∧ t.tables.packed = s.tables.packed) ∧
        (btypeSel s = 2 → ∀ k, (clPack ((lensOf t.tables .ll).take 286 ++ (lensOf t.tables .d).take 30)).length ≤ k →
          t.tables.packed.read k = s.tables.packed.read k) ∧
        Remembers t (h ++ s.tables.chunk.toList s.arg0.toNat) ∧
        t.crcState = crcOf s.crcState (s.tables.chunk.toList s.arg0.toNat) ∧
        t.rawCount = s.rawCount + s.arg0

/-- DEF_ENC_STREAM: the whole input becomes one stream that decodes to it, one block a chunk, and is padded with 1 bits
(R271, 30_encoding.md R100). Every block has the bits the encoder gives its chunk, with the chunks before it in the
window, and the tables are those the last chunk leaves (R261 to R267). -/
def Obligations.EncodesStream : Prop :=
  ∀ s : State, ¬ badConfig s .defEncStream → s.params.wf → WriterOk s.toEngine → s.outRoom = none →
    s.inClosed = true →
      ∃ t bits, exec .defEncStream s = .next t ∧ Completed s t ∧
        StreamCoded (winCap s) s.wcount.toNat (chunkCount s.params.chunkSize s.inPort.length) bits [] s.inPort ∧
        ChunksBits (lz77En s) (winCap s) (btypeSel s) s.params.chunkSize s.wcount.toNat [] s.inPort bits ∧
        ChunkTables (lz77En s) (winCap s) (btypeSel s) (s.inPort.take (lastChunk s.params.chunkSize s.inPort.length))
          (s.inPort.drop (lastChunk s.params.chunkSize s.inPort.length)) t.tables ∧
        Wrote (bits ++ List.replicate (padBits (s.wcount.toNat + bits.length)) true) s t ∧
        t.inPort = [] ∧ t.bytesIn = s.bytesIn + BitVec.ofNat 64 s.inPort.length ∧
        t.crcState = crcOf 0xFFFFFFFF#32 s.inPort ∧ t.rawCount = BitVec.ofNat 32 s.inPort.length ∧
        Remembers t s.inPort

/-- DEF_DEC_BLOCK decodes every block of the format, of each of the three types, from whatever bit the reader stands at:
its output, RES0, RES1, BFINAL_SEEN, the window, CRC and RAW_COUNT (R274 to R284). A stored block changes no table but
WINDOW; a fixed block leaves the fixed LEN and CODE tables and those of the code lengths as they were; a dynamic block
leaves the lengths its bits carry and their canonical codes, the code-length tables among them (R278, R282). -/
def Obligations.DecodesBlock : Prop :=
  ∀ (s : State) (final : Bool) (btype : Nat) (bits rest : List Bool) (h h' : List Byte),
    winLog2 s ≠ 0 → s.params.wf → ReaderOk s.toEngine → Remembers s h →
    BlockCoded (readerPos s) (winCap s) final btype bits h h' → unreadBits s = bits ++ rest →
    hasRoom s (h'.length - h.length) →
      ∃ t, exec .defDecBlock s = .next t ∧ Completed s t ∧
        t.res0 = BitVec.ofNat 32 (bit final) ∧ t.res1 = BitVec.ofNat 32 btype ∧
        t.bfinalSeen = (s.bfinalSeen || final) ∧
        h' = h ++ h'.drop h.length ∧ Decoded bits.length (h'.drop h.length) s t ∧ Remembers t h' ∧
        (btype = 0 → t.tables = { s.tables with window := t.tables.window }) ∧
        (btype = 1 → HasCodes fixedLensLL fixedLensD t.tables ∧ t.tables.lenCL = s.tables.lenCL ∧
          t.tables.codeCL = s.tables.codeCL) ∧
        (btype = 2 → ∀ (cl ll d : List Nat) (tables symbols : List Bool), DynamicTables cl ll d tables →
          bits = bitsOf 1 (bit final) ++ bitsOf 2 btype ++ tables ++ symbols →
            HasCodes ll d t.tables ∧ lensOf t.tables .cl = cl ∧ codesOf t.tables .cl = hufCanon cl)

/-- DEF_DEC_STREAM decodes every stream of the format, whatever follows it, and counts its blocks (R283, R285). That RES0
is the count modulo 2^32, for 2^32 blocks or more, is the model's choice (log 30). Where blocks of the format come first
and the next one is rejected, as RejectsBlock says, it raises that error: all bytes up to there are given, OUT_COMMIT is at
the end of the last complete block, or as it was where there is none, and RES0 is unchanged (R281, R284, R285,
70_reset_and_hazards.md R384). So where the input ends early: IO_EOF, or a hold where the port is open (41_bitio.md R172).
That BFINAL_SEEN is set where the header of the rejected block has been read is the model's reading (log 28). -/
def Obligations.DecodesStream : Prop :=
  ∀ (s : State) (count : Nat) (bits rest : List Bool) (done out : List Byte),
    winLog2 s ≠ 0 → s.params.wf → ReaderOk s.toEngine → hasRoom s out.length →
    (StreamCoded (winCap s) (readerPos s) count bits [] out → unreadBits s = bits ++ rest →
      ∃ t, exec .defDecStream s = .next t ∧ Completed s t ∧ t.res0 = BitVec.ofNat 32 count ∧
        t.bfinalSeen = true ∧ Decoded bits.length out (streamInit s) t ∧ Remembers t out) ∧
    (∀ (final : Bool) (e : ErrCode), BadStream (winCap s) (readerPos s) count final e bits done out →
      unreadBits s = bits ++ rest →
        ∃ t, exec .defDecStream s = .next t ∧ Raised e s t ∧ Took bits.length s t ∧
          t.outPort = s.outPort ++ out ∧ t.bytesOut = s.bytesOut + BitVec.ofNat 64 out.length ∧
          t.outCommit = commitAfter s count done ∧ t.res0 = s.res0 ∧ t.bfinalSeen = final) ∧
    (StreamCut (winCap s) (readerPos s) count (unreadBits s) done out →
      ∃ t, exec .defDecStream s = .next t ∧ RanDry s t ∧
        t.outPort = s.outPort ++ out ∧ t.bytesOut = s.bytesOut + BitVec.ofNat 64 out.length ∧
        t.outCommit = commitAfter s count done ∧ t.res0 = s.res0)

/-- What DEF_DEC_BLOCK rejects, and how far it has come: BTYPE = 3 (R275); a stored block whose NLEN is not the complement
of its LEN (R276); tables with HLIT above 29, a first 16, a run past the announced number, or no code (R278); a symbol
without a code, a literal/length symbol 286 or 287, a distance symbol 30 or 31, a distance beyond the window (R279, R280);
and, anywhere in a block, the end of the input (41_bitio.md R172), or a hold where the port is open. The bytes decoded
before are given, those of every token and stored byte whose bits are all there, and none is committed (R281). A proper
prefix of a block of the format is such a block (the last clause). That BFINAL_SEEN is set where the whole header has been
read is the model's reading (log 28; R274). -/
def Obligations.RejectsBlock : Prop :=
  ∀ (s : State) (final : Bool), winLog2 s ≠ 0 → s.params.wf → ReaderOk s.toEngine →
    (∀ (e : ErrCode) (bits rest : List Bool), BadStart (readerPos s) final e bits → unreadBits s = bits ++ rest →
      ∃ t, exec .defDecBlock s = .next t ∧ Rejected e bits.length [] s t ∧ t.bfinalSeen = (s.bfinalSeen || final)) ∧
    (∀ (e : ErrCode) (bits rest : List Bool) (h h' : List Byte), Remembers s h →
      BadSymbols (winCap s) final e bits h h' → unreadBits s = bits ++ rest → hasRoom s (h'.length - h.length) →
        ∃ t, exec .defDecBlock s = .next t ∧ Rejected e bits.length (h'.drop h.length) s t ∧
          t.bfinalSeen = (s.bfinalSeen || final)) ∧
    (∀ (btype : Nat) (h h' : List Byte), Remembers s h →
      BlockCut (readerPos s) (winCap s) final btype (unreadBits s) h h' → hasRoom s (h'.length - h.length) →
        ∃ t, exec .defDecBlock s = .next t ∧ RanDry s t ∧ t.outPort = s.outPort ++ h'.drop h.length ∧
          t.outCommit = s.outCommit ∧
          (s.inClosed = true → t.bfinalSeen = (s.bfinalSeen || (final && decide (3 ≤ (unreadBits s).length))))) ∧
    (∀ (btype : Nat) (more : List Bool) (h h' : List Byte), more ≠ [] →
      BlockCoded (readerPos s) (winCap s) final btype (unreadBits s ++ more) h h' →
        ∃ k, BlockCut (readerPos s) (winCap s) final btype (unreadBits s) h (h ++ (h'.drop h.length).take k))

/-- Round trip: for every input and every legal configuration, of each block type, DEF_DEC_STREAM of what DEF_ENC_STREAM
writes gives the input back, with the same CRC and count, in any decoder whose window is at least as large, and leaves
what follows unread (R272). -/
def Obligations.RoundTrip : Prop :=
  ∀ s u : State,
    btypeSel s ≠ 3 → winLog2 s ≠ 0 → s.params.wf → u.params.wf → winLog2 s ≤ winLog2 u →
    s.wcount = 0 → s.wbuf = 0 → s.inClosed = true → s.outRoom = none →
    u.rcount = 0 → u.rbuf = 0 → u.outRoom = none →
      ∃ t y, exec .defEncStream s = .next t ∧ Completed s t ∧ t.outPort = s.outPort ++ y ∧
        ∀ rest, u.inPort = y ++ rest →
          ∃ v, exec .defDecStream u = .next v ∧ Completed u v ∧ v.outPort = u.outPort ++ s.inPort ∧
            v.inPort = rest ∧ v.crcState = t.crcState ∧ v.rawCount = t.rawCount

/-! ### The container (46_container.md) -/

/-- GZ_WR_HEADER: BAD_COMMAND for a name longer than FNAME; else the ten bytes 1F 8B 08 FLG 00 00 00 00 00 00, and with FN
the first ARG0 bytes of FNAME and a NUL (R300, R310). -/
def Obligations.WriteHeader : Prop :=
  ∀ (fn : Bool) (s : State),
    (fn = true → s.params.fnameMax < s.arg0.toNat →
      exec (.gzWrHeader fn) s = .next (enterError .badCommand s)) ∧
    (¬ (fn = true ∧ s.params.fnameMax < s.arg0.toNat) → WriterOk s.toEngine →
      hasRoom s (10 + if fn then s.arg0.toNat + 1 else 0) →
        ∃ t, exec (.gzWrHeader fn) s = .next t ∧ Completed s t ∧
          Wrote (streamBits (gzipHeader (if fn then 0x08#8 else 0x00#8) 0 0 0
            (s.tables.fname.toList s.arg0.toNat))) s t)

/-- GZ_RD_HEADER reads every header whose flags are not refused, from whatever bit the reader stands at (R301, R311), and
rejects the others, each check made as soon as its byte is read: ID1, ID2, CM, FLG, in this order (R306). Where the input
ends inside a header, its name among it, every bit has been taken: IO_EOF, or a hold where the port is open (R311,
41_bitio.md R172). That the registers of the header and FNAME_TRUNC then keep their values is the model's reading (log 10:
R301 against 60_exceptions.md R336). -/
def Obligations.ReadHeader : Prop :=
  (∀ (s : State) (flg xfl os : Byte) (mtime : Word) (name : List Byte) (rest : List Bool),
    s.params.wf → ReaderOk s.toEngine → HeaderOk flg name →
    unreadBits s = streamBits (gzipHeader flg mtime xfl os name) ++ rest →
      ∃ t, exec .gzRdHeader s = .next t ∧ Completed s t ∧ HeaderRead flg mtime xfl os name s t ∧
        Took (8 * (gzipHeader flg mtime xfl os name).length) s t) ∧
  (∀ (s : State) (e : ErrCode) (bytes : List Byte) (rest : List Bool), ReaderOk s.toEngine → BadHeader e bytes →
    unreadBits s = streamBits bytes ++ rest →
      ∃ t, exec .gzRdHeader s = .next t ∧ Raised e s t ∧ Took (8 * bytes.length) s t ∧ HeaderUnread s t) ∧
  (∀ (s : State) (flg xfl os : Byte) (mtime : Word) (name : List Byte) (more : List Bool),
    s.params.wf → ReaderOk s.toEngine → HeaderOk flg name → more ≠ [] →
    unreadBits s ++ more = streamBits (gzipHeader flg mtime xfl os name) →
      ∃ t, exec .gzRdHeader s = .next t ∧ RanDry s t ∧ HeaderUnread s t)

/-- GZ_WR_TRAILER: the stream's last byte is padded with 1 bits, then CRC_VALUE and RAW_COUNT, 32 bits each, low bit first
(R302, R312). -/
def Obligations.WriteTrailer : Prop :=
  ∀ s : State, WriterOk s.toEngine → hasRoom s 9 →
    ∃ t, exec .gzWrTrailer s = .next t ∧ Completed s t ∧
      Wrote (List.replicate (padBits s.wcount.toNat) true ++ bitsOf 32 (~~~s.crcState).toNat
        ++ bitsOf 32 s.rawCount.toNat) s t

/-- GZ_RD_TRAILER: the rest of the current byte is discarded, both fields are read; the CRC is compared first, then the
size (R303, R313). Where the input ends inside them, every bit has been taken: IO_EOF, or a hold where the port is open
(R313, 41_bitio.md R172). What a failed trailer leaves in GZ_TRL_CRC and GZ_TRL_ISIZE is unspecified (log 10). -/
def Obligations.ReadTrailer : Prop :=
  ∀ s : State, ReaderOk s.toEngine →
    (∀ (crc isize : Word) (rest : List Bool),
      (unreadBits s).drop s.rcount.toNat = bitsOf 32 crc.toNat ++ bitsOf 32 isize.toNat ++ rest →
        ∃ t, exec .gzRdTrailer s = .next t ∧ Took (s.rcount.toNat + 64) s t ∧
          (crc = ~~~s.crcState → isize = s.rawCount →
            Completed s t ∧ t.gzTrlCrc = crc ∧ t.gzTrlIsize = isize) ∧
          (crc ≠ ~~~s.crcState → Raised .crcMismatch s t) ∧
          (crc = ~~~s.crcState → isize ≠ s.rawCount → Raised .isizeMismatch s t)) ∧
    (((unreadBits s).drop s.rcount.toNat).length < 64 → ∃ t, exec .gzRdTrailer s = .next t ∧ RanDry s t)

/-- GZ_COMPRESS: one member of header, stream and trailer: the header's bytes, a stream that decodes to the input, padded
with 1 bits, the CRC and the size of the input (R304, R305, R314). The stream has the bits DEF_ENC_STREAM gives the input,
and leaves its tables (45_deflate.md R261 to R267, R271). -/
def Obligations.Compresses : Prop :=
  ∀ (fn : Bool) (s : State), ¬ badOperand s (.gzCompress fn) → ¬ badConfig s (.gzCompress fn) →
    s.params.wf → WriterOk s.toEngine → s.outRoom = none → s.inClosed = true →
      ∃ t bits, exec (.gzCompress fn) s = .next t ∧ Completed s t ∧
        StreamCoded (winCap s) s.wcount.toNat (chunkCount s.params.chunkSize s.inPort.length) bits [] s.inPort ∧
        ChunksBits (lz77En s) (winCap s) (btypeSel s) s.params.chunkSize s.wcount.toNat [] s.inPort bits ∧
        ChunkTables (lz77En s) (winCap s) (btypeSel s) (s.inPort.take (lastChunk s.params.chunkSize s.inPort.length))
          (s.inPort.drop (lastChunk s.params.chunkSize s.inPort.length)) t.tables ∧
        Wrote (streamBits (gzipHeader (if fn then 0x08#8 else 0x00#8) 0 0 0
            (s.tables.fname.toList s.arg0.toNat))
          ++ bits ++ List.replicate (padBits (s.wcount.toNat + bits.length)) true
          ++ bitsOf 32 (~~~(crcOf 0xFFFFFFFF#32 s.inPort)).toNat
          ++ bitsOf 32 (BitVec.ofNat 32 s.inPort.length).toNat) s t ∧
        t.inPort = [] ∧ t.crcState = crcOf 0xFFFFFFFF#32 s.inPort ∧
        t.rawCount = BitVec.ofNat 32 s.inPort.length

/-- GZ_DECOMPRESS decodes every member of the format whose trailer agrees, and leaves what follows unread (R304, R315).
Where a part fails: a trailer that disagrees is CRC_MISMATCH, or, with the CRC right, ISIZE_MISMATCH, with all the output
given and committed (70_reset_and_hazards.md R384); a stream that is rejected, as DecodesStream says, raises its error, with
OUT_COMMIT at the end of its last complete block (45_deflate.md R281); a header that is rejected raises its error (R306) and
gives nothing. Where the input ends in the header, the stream or the trailer it is IO_EOF, or a hold where the port is open
(41_bitio.md R172). RES0 and RES1 are the header's once it has been read, and unchanged before (R315). What a header that is
not read keeps is the model's reading (log 10), and when BFINAL_SEEN is set (log 28). -/
def Obligations.Decompresses : Prop :=
  ∀ (s : State) (flg xfl os : Byte) (mtime : Word) (name : List Byte) (count : Nat)
    (head bits pad rest : List Bool) (done out : List Byte),
    winLog2 s ≠ 0 → s.params.wf → ReaderOk s.toEngine → HeaderOk flg name →
    head = streamBits (gzipHeader flg mtime xfl os name) → hasRoom s out.length →
    (StreamCoded (winCap s) (readerPos s) count bits [] out → pad.length = padBits (readerPos s + bits.length) →
      (unreadBits s = head ++ bits ++ pad ++ bitsOf 32 (~~~(crcOf 0xFFFFFFFF#32 out)).toNat
          ++ bitsOf 32 (BitVec.ofNat 32 out.length).toNat ++ rest →
        ∃ t, exec .gzDecompress s = .next t ∧ Completed s t ∧ HeaderRead flg mtime xfl os name s t ∧
          Decoded (head.length + bits.length + pad.length + 64) out (streamInit s) t ∧
          t.bfinalSeen = true ∧ t.gzTrlCrc = ~~~t.crcState ∧ t.gzTrlIsize = t.rawCount) ∧
      (∀ (e : ErrCode) (crc isize : Word),
        unreadBits s = head ++ bits ++ pad ++ bitsOf 32 crc.toNat ++ bitsOf 32 isize.toNat ++ rest →
        (e = .crcMismatch ∧ crc ≠ ~~~(crcOf 0xFFFFFFFF#32 out)) ∨
          (e = .isizeMismatch ∧ crc = ~~~(crcOf 0xFFFFFFFF#32 out) ∧ isize ≠ BitVec.ofNat 32 out.length) →
        ∃ t, exec .gzDecompress s = .next t ∧ Raised e s t ∧ HeaderPassed flg name s t ∧
          Took (head.length + bits.length + pad.length + 64) s t ∧ t.outPort = s.outPort ++ out ∧
          t.bytesOut = s.bytesOut + BitVec.ofNat 64 out.length ∧ t.outCommit = t.bytesOut ∧ t.bfinalSeen = true) ∧
      (∀ part : List Bool, unreadBits s = head ++ bits ++ part → part.length < pad.length + 64 →
        ∃ t, exec .gzDecompress s = .next t ∧ RanDry s t ∧ HeaderPassed flg name s t ∧
          t.outPort = s.outPort ++ out ∧ t.bytesOut = s.bytesOut + BitVec.ofNat 64 out.length ∧
          t.outCommit = t.bytesOut)) ∧
    (∀ (final : Bool) (e : ErrCode), BadStream (winCap s) (readerPos s) count final e bits done out →
      unreadBits s = head ++ bits ++ rest →
        ∃ t, exec .gzDecompress s = .next t ∧ Raised e s t ∧ HeaderPassed flg name s t ∧
          Took (head.length + bits.length) s t ∧ t.outPort = s.outPort ++ out ∧
          t.bytesOut = s.bytesOut + BitVec.ofNat 64 out.length ∧ t.outCommit = commitAfter s count done ∧
          t.bfinalSeen = final) ∧
    (StreamCut (winCap s) (readerPos s) count bits done out → unreadBits s = head ++ bits →
      ∃ t, exec .gzDecompress s = .next t ∧ RanDry s t ∧ HeaderPassed flg name s t ∧
        t.outPort = s.outPort ++ out ∧ t.bytesOut = s.bytesOut + BitVec.ofNat 64 out.length ∧
        t.outCommit = commitAfter s count done) ∧
    (∀ (e : ErrCode) (bytes : List Byte), BadHeader e bytes → unreadBits s = streamBits bytes ++ rest →
      ∃ t, exec .gzDecompress s = .next t ∧ Raised e s t ∧ HeaderUnread s t ∧ Took (8 * bytes.length) s t ∧
        t.outPort = s.outPort ∧ t.outCommit = s.outCommit) ∧
    (∀ more : List Bool, more ≠ [] → unreadBits s ++ more = head →
      ∃ t, exec .gzDecompress s = .next t ∧ RanDry s t ∧ HeaderUnread s t ∧ t.outPort = s.outPort ∧
        t.outCommit = s.outCommit)

/-- A member GZ_COMPRESS writes, GZ_DECOMPRESS decodes to the input, with the name the header carried, in any decoder whose
window is at least as large; bytes after the member stay in the port (R304, R314, R315, 45_deflate.md R272). -/
def Obligations.MemberRoundTrip : Prop :=
  ∀ (fn : Bool) (s u : State),
    ¬ badOperand s (.gzCompress fn) → btypeSel s ≠ 3 → winLog2 s ≠ 0 → s.params.wf → u.params.wf →
    winLog2 s ≤ winLog2 u →
    (fn = true → s.params.fnameMax ≤ u.params.fnameMax ∧
      ∀ k, k < s.arg0.toNat → s.tables.fname.read k ≠ 0) →
    s.wcount = 0 → s.wbuf = 0 → s.inClosed = true → s.outRoom = none →
    u.rcount = 0 → u.rbuf = 0 → u.outRoom = none →
      ∃ t y, exec (.gzCompress fn) s = .next t ∧ Completed s t ∧ t.outPort = s.outPort ++ y ∧
        ∀ rest, u.inPort = y ++ rest →
          ∃ v, exec .gzDecompress u = .next v ∧ Completed u v ∧ v.outPort = u.outPort ++ s.inPort ∧
            v.inPort = rest ∧ v.crcState = t.crcState ∧ v.rawCount = t.rawCount ∧
            v.res1 = (if fn then s.arg0 else 0) ∧
            ∀ k, fn = true → k < s.arg0.toNat → v.tables.fname.read k = s.tables.fname.read k
end

