-- ==== Sys2Proof/Laws/Bits.lean ====
section
/-! SUPPORT. Streams as bits (20_memory.md R64): the lists of bits of values and bytes. -/

namespace Sys2Proof.Machine

@[simp] theorem bit_false : bit false = 0 := rfl

@[simp] theorem bit_true : bit true = 1 := rfl

@[simp] theorem bitsOf_length (n v : Nat) : (bitsOf n v).length = n := by simp [bitsOf]

@[simp] theorem bitsRev_length (n v : Nat) : (bitsRev n v).length = n := by simp [bitsRev]

@[simp] theorem bitsOf_zero (v : Nat) : bitsOf 0 v = [] := rfl

@[simp] theorem bitsRev_zero (v : Nat) : bitsRev 0 v = [] := rfl

theorem bitsOf_getElem? (n v k : Nat) : (bitsOf n v)[k]? = if k < n then some (v.testBit k) else none := by
  simp only [bitsOf, List.getElem?_map]
  split <;> simp_all

theorem bitsOf_add (m n v : Nat) : bitsOf (m + n) v = bitsOf m v ++ bitsOf n (v / 2 ^ m) := by
  apply List.ext_getElem?
  intro k
  rw [List.getElem?_append]
  simp only [bitsOf_getElem?, bitsOf_length, Nat.testBit_div_two_pow]
  by_cases h : k < m
  · simp [h, Nat.lt_add_right n h]
  · have : k < m + n ↔ k - m < n := by omega
    have hk : m + (k - m) = k := by omega
    simp [h, this, Nat.add_comm (k - m) m, hk]

theorem bitsOf_succ (n v : Nat) : bitsOf (n + 1) v = v.testBit 0 :: bitsOf n (v / 2) := by
  rw [Nat.add_comm n 1, bitsOf_add]
  simp [bitsOf]

theorem bitsOf_succ_last (n v : Nat) : bitsOf (n + 1) v = bitsOf n v ++ [v.testBit n] := by
  simp [bitsOf, List.range_succ]

theorem bitsRev_succ (n v : Nat) : bitsRev (n + 1) v = v.testBit n :: bitsRev n v := by
  simp [bitsRev, bitsOf_succ_last]

theorem bitsOf_mod (n v : Nat) : bitsOf n (v % 2 ^ n) = bitsOf n v := by
  apply List.ext_getElem?
  intro k
  simp only [bitsOf_getElem?, Nat.testBit_mod_two_pow]
  split <;> simp_all

/-- The bits of a value put together of a low and a high part. -/
theorem bitsOf_pack {m n a b : Nat} (ha : a < 2 ^ m) : bitsOf (m + n) (a + b * 2 ^ m) = bitsOf m a ++ bitsOf n b := by
  rw [bitsOf_add, Nat.add_mul_div_right _ _ (Nat.two_pow_pos m), Nat.div_eq_of_lt ha, Nat.zero_add,
    ← bitsOf_mod m (a + b * 2 ^ m), Nat.add_mul_mod_self_right, bitsOf_mod]

@[simp] theorem natOfBits_nil : natOfBits [] = 0 := rfl

theorem natOfBits_lt (l : List Bool) : natOfBits l < 2 ^ l.length := by
  induction l with
  | nil => simp
  | cons b l ih =>
    simp only [natOfBits, List.length_cons, Nat.pow_succ]
    cases b <;> simp <;> omega

theorem natOfBits_append (a b : List Bool) : natOfBits (a ++ b) = natOfBits a + 2 ^ a.length * natOfBits b := by
  induction a with
  | nil => simp
  | cons x a ih =>
    simp only [List.cons_append, natOfBits, ih, List.length_cons, Nat.pow_succ]
    ring

theorem natOfBits_bitsOf (n v : Nat) : natOfBits (bitsOf n v) = v % 2 ^ n := by
  induction n generalizing v with
  | zero => simp [Nat.mod_one]
  | succ n ih =>
    rw [bitsOf_succ, natOfBits, ih]
    have h1 : v % 2 ^ (n + 1) = v % 2 + 2 * (v / 2 % 2 ^ n) := by
      rw [Nat.pow_succ, Nat.mul_comm, Nat.mod_mul]
    rw [h1, Nat.testBit_zero]
    rcases Nat.mod_two_eq_zero_or_one v with h | h <;> simp [h]

theorem bitsOf_natOfBits (l : List Bool) : bitsOf l.length (natOfBits l) = l := by
  induction l with
  | nil => rfl
  | cons b l ih =>
    rw [List.length_cons, bitsOf_succ]
    have h2 : natOfBits (b :: l) / 2 = natOfBits l := by
      cases b <;> simp only [natOfBits] <;> simp <;> omega
    have h1 : (natOfBits (b :: l)).testBit 0 = b := by
      cases b <;> simp [natOfBits, Nat.testBit_zero]
    rw [h2, ih, h1]

@[simp] theorem streamBits_nil : streamBits [] = [] := rfl

@[simp] theorem streamBits_cons (b : Byte) (l : List Byte) : streamBits (b :: l) = bitsOf 8 b.toNat ++ streamBits l := rfl

@[simp] theorem streamBits_append (a b : List Byte) : streamBits (a ++ b) = streamBits a ++ streamBits b := by
  simp [streamBits]

@[simp] theorem streamBits_length (l : List Byte) : (streamBits l).length = 8 * l.length := by
  induction l with
  | nil => rfl
  | cons b l ih => simp [ih]; omega

theorem streamBits_drop (l : List Byte) (k : Nat) : streamBits (l.drop k) = (streamBits l).drop (8 * k) := by
  induction l generalizing k with
  | nil => simp
  | cons b l ih =>
    cases k with
    | zero => simp
    | succ k =>
      rw [List.drop_succ_cons, ih, streamBits_cons, List.drop_append]
      simp [List.drop_eq_nil_of_le, Nat.mul_succ, show 8 * k + 8 - 8 = 8 * k by omega]

/-- The bytes of a stream are determined by its bits. -/
theorem streamBits_inj {a b : List Byte} (h : streamBits a = streamBits b) : a = b := by
  induction a generalizing b with
  | nil =>
    have := congrArg List.length h
    simp at this
    exact this.symm
  | cons x a ih =>
    cases b with
    | nil => have := congrArg List.length h; simp at this
    | cons y b =>
      simp only [streamBits_cons] at h
      have h2 := List.append_inj h (by simp)
      have h3 := congrArg natOfBits h2.1
      simp only [natOfBits_bitsOf] at h3
      rw [ih h2.2]
      congr 1
      exact BitVec.eq_of_toNat_eq (by
        rwa [Nat.mod_eq_of_lt x.isLt, Nat.mod_eq_of_lt y.isLt] at h3)

/-- A 32-bit value's bits are those of its bytes, low byte first (20_memory.md R63). -/
theorem streamBits_wordBytes (v : Word) : streamBits (wordBytes v) = bitsOf 32 v.toNat := by
  have h : ∀ k, bitsOf 8 (v.extractLsb' (8 * k) 8).toNat = bitsOf 8 (v.toNat / 2 ^ (8 * k)) := by
    intro k
    rw [BitVec.extractLsb'_toNat, Nat.shiftRight_eq_div_pow, bitsOf_mod]
  have h0 := h 0; have h1 := h 1; have h2 := h 2; have h3 := h 3
  simp only [Nat.mul_zero, Nat.mul_one, Nat.reduceMul] at h0 h1 h2 h3
  rw [wordBytes, streamBits_cons, streamBits_cons, streamBits_cons, streamBits_cons, streamBits_nil, h0, h1, h2, h3]
  have : bitsOf (8 + (8 + (8 + 8))) v.toNat = bitsOf 32 v.toNat := rfl
  rw [← this, bitsOf_add, bitsOf_add, bitsOf_add, Nat.div_div_eq_div_mul, Nat.div_div_eq_div_mul]
  simp

end Sys2Proof.Machine
end

