-- ==== Sys2Proof/Laws/Memory.lean ====
section
/-! SUPPORT. Laws of the table RAMs: read after write, and that every operation keeps the canonical form and
the table's size. -/

namespace Sys2Proof.Machine

variable {w : Nat}

/-! ### Cells -/

theorem find_put_same (l : List (Nat × BitVec w)) (a : Nat) (v : BitVec w) :
    Memory.find (Memory.put l a v) a = some v := by
  induction l with
  | nil => simp [Memory.put, Memory.find]
  | cons c rest ih =>
    obtain ⟨k, u⟩ := c
    simp only [Memory.put]
    split
    · simp [Memory.find]
    · split
      · simp [Memory.find]
      · have : k ≠ a := by omega
        simp [Memory.find, this, ih]

theorem find_put_other (l : List (Nat × BitVec w)) {a b : Nat} (v : BitVec w) (h : b ≠ a) :
    Memory.find (Memory.put l a v) b = Memory.find l b := by
  induction l with
  | nil => simp [Memory.put, Memory.find, h.symm]
  | cons c rest ih =>
    obtain ⟨k, u⟩ := c
    simp only [Memory.put]
    split
    · simp [Memory.find, h.symm]
    · split
      · subst_vars
        simp [Memory.find, h.symm]
      · simp [Memory.find, ih]

theorem find_erase_other (l : List (Nat × BitVec w)) {a b : Nat} (h : b ≠ a) :
    Memory.find (Memory.erase l a) b = Memory.find l b := by
  induction l with
  | nil => simp [Memory.erase]
  | cons c rest ih =>
    obtain ⟨k, u⟩ := c
    simp only [Memory.erase]
    split
    · subst_vars
      simp [Memory.find, h.symm, ih]
    · simp [Memory.find, ih]

theorem find_none_of_lt {l : List (Nat × BitVec w)} {a : Nat} (h : ∀ c ∈ l, a < c.1) :
    Memory.find l a = none := by
  induction l with
  | nil => rfl
  | cons c rest ih =>
    have : a < c.1 := h c (by simp)
    simp only [Memory.find, show ¬ c.1 = a by omega, if_false]
    exact ih (fun c' hc => h c' (by simp [hc]))

theorem find_erase_same (l : List (Nat × BitVec w)) (a : Nat) : Memory.find (Memory.erase l a) a = none := by
  induction l with
  | nil => rfl
  | cons c rest ih =>
    obtain ⟨k, u⟩ := c
    simp only [Memory.erase]
    split
    · exact ih
    · rename_i hk
      simp [Memory.find, hk, ih]

theorem mem_put {l : List (Nat × BitVec w)} {a : Nat} {v : BitVec w} {c : Nat × BitVec w}
    (h : c ∈ Memory.put l a v) : c = (a, v) ∨ c ∈ l := by
  induction l with
  | nil => simpa [Memory.put] using h
  | cons d rest ih =>
    simp only [Memory.put] at h
    split at h
    · simpa using h
    · split at h
      · simp only [List.mem_cons] at h ⊢
        tauto
      · simp only [List.mem_cons] at h ⊢
        rcases h with h | h
        · exact .inr (.inl h)
        · rcases ih h with h | h
          · exact .inl h
          · exact .inr (.inr h)

theorem mem_erase {l : List (Nat × BitVec w)} {a : Nat} {c : Nat × BitVec w}
    (h : c ∈ Memory.erase l a) : c ∈ l := by
  induction l with
  | nil => simp [Memory.erase] at h
  | cons d rest ih =>
    simp only [Memory.erase] at h
    split at h
    · exact List.mem_cons_of_mem _ (ih h)
    · simp only [List.mem_cons] at h ⊢
      tauto

theorem put_pairwise {l : List (Nat × BitVec w)} (hl : l.Pairwise (fun x y => x.1 < y.1)) (a : Nat)
    (v : BitVec w) : (Memory.put l a v).Pairwise (fun x y => x.1 < y.1) := by
  induction l with
  | nil => simp [Memory.put]
  | cons d rest ih =>
    obtain ⟨k, u⟩ := d
    have hd := List.pairwise_cons.1 hl
    simp only [Memory.put]
    split
    · rename_i hak
      refine List.pairwise_cons.2 ⟨?_, hl⟩
      intro c hc
      rcases List.mem_cons.1 hc with h | h
      · subst h
        exact hak
      · have := hd.1 c h
        simp only at this ⊢
        omega
    · split
      · subst_vars
        exact List.pairwise_cons.2 ⟨hd.1, hd.2⟩
      · refine List.pairwise_cons.2 ⟨?_, ih hd.2⟩
        intro c hc
        rcases mem_put hc with h | h
        · subst h
          simp only
          omega
        · exact hd.1 c h

theorem erase_pairwise {l : List (Nat × BitVec w)} (hl : l.Pairwise (fun x y => x.1 < y.1)) (a : Nat) :
    (Memory.erase l a).Pairwise (fun x y => x.1 < y.1) := by
  induction l with
  | nil => exact hl
  | cons d rest ih =>
    have hd := List.pairwise_cons.1 hl
    simp only [Memory.erase]
    split
    · exact ih hd.2
    · exact List.pairwise_cons.2 ⟨fun c hc => hd.1 c (mem_erase hc), ih hd.2⟩

/-! ### Reads and writes -/

theorem unlisted_of_fill {m m' : Memory w} (h : m'.fill = m.fill) (a : Nat) :
    m'.unlisted a = m.unlisted a := by
  simp only [Memory.unlisted, h]

theorem read_write_same (m : Memory w) (a : Nat) (v : BitVec w) : (m.write a v).read a = v := by
  simp only [Memory.write]
  split
  · rename_i hz
    simp only [Memory.read, find_erase_same, Memory.unlisted, hz.1, hz.2]
  · simp only [Memory.read, find_put_same]

theorem read_write_other (m : Memory w) {a b : Nat} (v : BitVec w) (h : b ≠ a) :
    (m.write a v).read b = m.read b := by
  simp only [Memory.write]
  split <;> simp only [Memory.read, find_erase_other _ h, find_put_other _ _ h, Memory.unlisted]

theorem write_wf {m : Memory w} (h : m.wf) (a : Nat) (v : BitVec w) : (m.write a v).wf := by
  simp only [Memory.write]
  split
  · exact ⟨erase_pairwise h.1 a, fun hz c hc => h.2 hz c (mem_erase hc)⟩
  · rename_i hv
    refine ⟨put_pairwise h.1 a v, fun hz c hc => ?_⟩
    rcases mem_put hc with rfl | hc
    · exact fun h0 => hv ⟨hz, h0⟩
    · exact h.2 hz c hc

theorem write_within {m : Memory w} {n a : Nat} (h : m.within n) (ha : a < n) (v : BitVec w) :
    (m.write a v).within n := by
  simp only [Memory.write]
  split
  · exact fun c hc => h c (mem_erase hc)
  · intro c hc
    rcases mem_put hc with rfl | hc
    · exact ha
    · exact h c hc

theorem write_fits {m : Memory w} {n a : Nat} (h : m.fits n) (ha : a < n) (v : BitVec w) :
    (m.write a v).fits n :=
  ⟨write_wf h.1 a v, write_within h.2 ha v⟩

theorem zeros_fits (n : Nat) : (Memory.zeros w).fits n := by
  simp [Memory.zeros, Memory.fits, Memory.wf, Memory.within]

theorem unknown_fits (d n : Nat) : (Memory.unknown w d).fits n := by
  simp [Memory.unknown, Memory.fits, Memory.wf, Memory.within]

@[simp] theorem read_zeros (a : Nat) : (Memory.zeros w).read a = 0 := rfl

/-! ### Whole tables -/

theorem mem_cellsFrom {l : List (BitVec w)} {k : Nat} {c : Nat × BitVec w}
    (h : c ∈ Memory.cellsFrom k l) : k ≤ c.1 ∧ c.1 < k + l.length ∧ c.2 ≠ 0 := by
  induction l generalizing k with
  | nil => simp [Memory.cellsFrom] at h
  | cons v rest ih =>
    simp only [Memory.cellsFrom] at h
    split at h
    · have := ih h
      simp only [List.length_cons]
      exact ⟨by omega, by omega, this.2.2⟩
    · rename_i hv
      rcases List.mem_cons.1 h with rfl | h
      · exact ⟨le_refl _, by simp, hv⟩
      · have := ih h
        simp only [List.length_cons]
        exact ⟨by omega, by omega, this.2.2⟩

theorem cellsFrom_pairwise (l : List (BitVec w)) (k : Nat) :
    (Memory.cellsFrom k l).Pairwise (fun x y => x.1 < y.1) := by
  induction l generalizing k with
  | nil => simp [Memory.cellsFrom]
  | cons v rest ih =>
    simp only [Memory.cellsFrom]
    split
    · exact ih (k + 1)
    · refine List.pairwise_cons.2 ⟨fun c hc => ?_, ih (k + 1)⟩
      have := (mem_cellsFrom hc).1
      simp only
      omega

theorem ofList_fits {l : List (BitVec w)} {n : Nat} (h : l.length ≤ n) : (Memory.ofList l).fits n :=
  ⟨⟨cellsFrom_pairwise l 0, fun _ _ hc => (mem_cellsFrom hc).2.2⟩,
    fun c hc => by have := (mem_cellsFrom hc).2.1; omega⟩

theorem find_cellsFrom (l : List (BitVec w)) (k a : Nat) (ha : a < l.length) :
    (Memory.find (Memory.cellsFrom k l) (k + a)).getD 0 = l.getD a 0 := by
  induction l generalizing k a with
  | nil => simp at ha
  | cons v rest ih =>
    simp only [Memory.cellsFrom]
    cases a with
    | zero =>
      split
      · rename_i hv
        rw [find_none_of_lt]
        · simp [hv]
        · intro c hc
          have := (mem_cellsFrom hc).1
          omega
      · simp [Memory.find]
    | succ a =>
      have ha' : a < rest.length := by simpa using ha
      have e : k + (a + 1) = k + 1 + a := by omega
      split
      · rw [e, ih _ _ ha']
        simp
      · have hk : ¬ k = k + (a + 1) := by omega
        simp only [Memory.find, hk, if_false]
        rw [e, ih _ _ ha']
        simp

theorem read_ofList (l : List (BitVec w)) (a : Nat) : (Memory.ofList l).read a = l.getD a 0 := by
  by_cases ha : a < l.length
  · have := find_cellsFrom l 0 a ha
    simp only [Nat.zero_add] at this
    simp only [Memory.read, Memory.ofList, Memory.unlisted]
    rw [← this]
    cases Memory.find (Memory.cellsFrom 0 l) a <;> rfl
  · have hf : Memory.find (Memory.cellsFrom 0 l) a = none := by
      have : ∀ c ∈ Memory.cellsFrom 0 l, c.1 ≠ a := fun c hc => by
        have := (mem_cellsFrom hc).2.1; omega
      generalize Memory.cellsFrom 0 l = cs at this
      induction cs with
      | nil => rfl
      | cons c rest ih =>
        have h1 := this c (by simp)
        simp only [Memory.find, h1, if_false]
        exact ih (fun c hc => this c (by simp [hc]))
    simp only [Memory.read, Memory.ofList, hf, Memory.unlisted]
    rw [List.getD_eq_default _ _ (Nat.le_of_not_lt ha)]

@[simp] theorem toList_length (m : Memory w) (n : Nat) : (m.toList n).length = n := by
  simp [Memory.toList]

theorem toList_getD (m : Memory w) {n a : Nat} (h : a < n) (d : BitVec w) :
    (m.toList n).getD a d = m.read a := by
  simp [Memory.toList, List.getD_eq_getElem?_getD, List.getElem?_map, List.getElem?_range h]

theorem toList_ofList (l : List (BitVec w)) : (Memory.ofList l).toList l.length = l := by
  apply List.ext_getElem
  · simp
  · intro i h1 h2
    simp only [Memory.toList, List.getElem_map, List.getElem_range, read_ofList]
    simp [List.getD_eq_getElem?_getD, List.getElem?_eq_getElem h2]

theorem writeList_fits {n : Nat} (l : List (BitVec w)) {m : Memory w} {k : Nat} (h : m.fits n)
    (hk : k + l.length ≤ n) : (m.writeList k l).fits n := by
  induction l generalizing m k with
  | nil => exact h
  | cons v rest ih =>
    simp only [List.length_cons] at hk
    exact ih (write_fits h (by omega) v) (by omega)

theorem read_writeList_other (l : List (BitVec w)) (m : Memory w) {k a : Nat}
    (h : a < k ∨ k + l.length ≤ a) : (m.writeList k l).read a = m.read a := by
  induction l generalizing m k with
  | nil => rfl
  | cons v rest ih =>
    simp only [List.length_cons] at h
    rw [Memory.writeList, ih _ (by omega), read_write_other _ _ (by omega)]

theorem read_writeList (l : List (BitVec w)) (m : Memory w) {k a : Nat}
    (h : a < l.length) : (m.writeList k l).read (k + a) = l.getD a 0 := by
  induction l generalizing m k a with
  | nil => simp at h
  | cons v rest ih =>
    rw [Memory.writeList]
    cases a with
    | zero =>
      rw [read_writeList_other _ _ (by omega)]
      simpa using read_write_same m k v
    | succ a =>
      have := ih (m.write k v) (k := k + 1) (a := a) (by simpa using h)
      rw [show k + (a + 1) = k + 1 + a by omega, this]
      simp

end Sys2Proof.Machine
end

