-- ==== Sys2Proof/Laws/Exec.lean ====
section
/-! SUPPORT. The logic of a command's steps: how steps run one after another, and the rule `Good I E` (the
steps keep `I`, and where they stop the stop is one of `E`), closed under everything steps are made of. -/

namespace Sys2Proof.Machine

variable {α β : Type}

/-! ### The input port -/

/-- `InAtEnd` where a byte is there. -/
theorem inAtEnd_more {s : State} {b : Byte} {rest : List Byte} (h : s.inPort = b :: rest) :
    inAtEnd s = .ok false s := by
  rw [inAtEnd, h]

/-- `InAtEnd` where the port is empty and closed. -/
theorem inAtEnd_end {s : State} (h : s.inPort = []) (hc : s.inClosed = true) :
    inAtEnd s = .ok true { s with sawEnd := true } := by
  unfold inAtEnd
  split
  · rename_i b rest e
    rw [h] at e
    cases e
  · rw [if_pos hc]

/-- `InAtEnd` where the port is empty and open. -/
theorem inAtEnd_open {s : State} (h : s.inPort = []) (hc : s.inClosed = false) : inAtEnd s = .error .hold s := by
  unfold inAtEnd
  split
  · rename_i b rest e
    rw [h] at e
    cases e
  · rw [if_neg (by simp [hc])]

/-- `InRead` where a byte is there. -/
theorem inRead_more {s : State} {b : Byte} {rest : List Byte} (h : s.inPort = b :: rest) :
    inRead s = .ok b { s with inPort := rest, bytesIn := s.bytesIn + 1 } := by
  rw [inRead, h]

/-- `InRead` where the port is empty: IO_EOF or a hold. -/
theorem inRead_none {s : State} (h : s.inPort = []) :
    inRead s = if s.inClosed then .error (.raise .ioEof) s else .error .hold s := by
  rw [inRead, h]

/-! ### Running steps -/

theorem bind_run (x : Exec α) (f : α → Exec β) (s : State) :
    (x >>= f) s = match x s with
      | .ok a t => f a t
      | .error e t => .error e t := by
  change EStateM.bind x f s = _
  unfold EStateM.bind
  cases x s <;> rfl

@[simp] theorem pure_run (a : α) (s : State) : (pure a : Exec α) s = .ok a s := rfl

@[simp] theorem getState_run (s : State) : getState s = .ok s s := rfl

@[simp] theorem change_run (f : State → State) (s : State) : change f s = .ok () (f s) := rfl

@[simp] theorem raise_run (e : ErrCode) (s : State) : (raise e : Exec α) s = .error (.raise e) s := rfl

@[simp] theorem outOfBound_run (s : State) : (outOfBound : Exec α) s = .error .bound s := rfl

theorem raiseIf_run (c : Prop) [Decidable c] (e : ErrCode) (s : State) :
    raiseIf c e s = if c then .error (.raise e) s else .ok () s := by
  unfold raiseIf
  split <;> rfl

theorem bind_ok {x : Exec α} {f : α → Exec β} {s t : State} {a : α} (h : x s = .ok a t) :
    (x >>= f) s = f a t := by
  rw [bind_run, h]

theorem bind_error {x : Exec α} {f : α → Exec β} {s t : State} {e : Stop} (h : x s = .error e t) :
    (x >>= f) s = .error e t := by
  rw [bind_run, h]

@[simp] theorem getState_bind (f : State → Exec β) (s : State) : (getState >>= f) s = f s s := rfl

@[simp] theorem change_bind (g : State → State) (f : Unit → Exec β) (s : State) :
    (change g >>= f) s = f () (g s) := rfl

theorem raiseIf_bind (c : Prop) [Decidable c] (e : ErrCode) (f : Unit → Exec β) (s : State) :
    (raiseIf c e >>= f) s = if c then .error (.raise e) s else f () s := by
  rw [bind_run, raiseIf_run]
  by_cases hc : c <;> simp [hc]

theorem bind_assoc_run (x : Exec α) (f : α → Exec β) {γ : Type} (g : β → Exec γ) (s : State) :
    ((x >>= f) >>= g) s = (x >>= fun a => f a >>= g) s := by
  simp only [bind_run]
  cases x s <;> rfl

theorem map_run (g : α → β) (x : Exec α) (s : State) :
    (g <$> x) s = match x s with
      | .ok a t => .ok (g a) t
      | .error e t => .error e t := by
  change EStateM.map g x s = _
  unfold EStateM.map
  cases x s <;> rfl

/-- What `bind` answers, said once: both parts ran, or one of them stopped. -/
theorem bind_cases (x : Exec α) (f : α → Exec β) (s : State) :
    (∃ a t, x s = .ok a t ∧ (x >>= f) s = f a t) ∨
      (∃ e t, x s = .error e t ∧ (x >>= f) s = .error e t) := by
  cases h : x s with
  | ok a t => exact .inl ⟨a, t, rfl, bind_ok h⟩
  | error e t => exact .inr ⟨e, t, rfl, bind_error h⟩

/-! ### Steps that keep a property -/

/-- From a state with `I` the steps end or stop in one with `I`, and a stop is one of `E`. -/
structure Good (I : State → Prop) (E : Stop → Prop) (x : Exec α) : Prop where
  run : ∀ s, I s → match x s with
    | .ok _ t => I t
    | .error e t => I t ∧ E e

variable {I : State → Prop} {E : Stop → Prop}

theorem Good.ok {x : Exec α} (h : Good I E x) {s t : State} {a : α} (hs : I s) (hx : x s = .ok a t) :
    I t := by
  have := h.run s hs
  rwa [hx] at this

theorem Good.error {x : Exec α} (h : Good I E x) {s t : State} {e : Stop} (hs : I s)
    (hx : x s = .error e t) : I t ∧ E e := by
  have := h.run s hs
  rwa [hx] at this

theorem Good.pure (a : α) : Good I E (Pure.pure a : Exec α) := ⟨fun _ hs => hs⟩

theorem Good.raise {e : ErrCode} (he : E (.raise e)) : Good I E (Machine.raise e : Exec α) :=
  ⟨fun _ hs => ⟨hs, he⟩⟩

theorem Good.outOfBound (he : E .bound) : Good I E (Machine.outOfBound : Exec α) :=
  ⟨fun _ hs => ⟨hs, he⟩⟩

theorem Good.change {f : State → State} (h : ∀ s, I s → I (f s)) : Good I E (Machine.change f) :=
  ⟨fun s hs => h s hs⟩

theorem Good.bind {x : Exec α} {f : α → Exec β} (hx : Good I E x) (hf : ∀ a, Good I E (f a)) :
    Good I E (x >>= f) := by
  refine ⟨fun s hs => ?_⟩
  rcases bind_cases x f s with ⟨a, t, h, h'⟩ | ⟨e, t, h, h'⟩
  · rw [h']
    exact (hf a).run t (hx.ok hs h)
  · rw [h']
    exact hx.error hs h

/-- As `Good.bind`, where what follows may use that its value came from the first part. -/
theorem Good.bindOf {x : Exec α} {f : α → Exec β} (hx : Good I E x)
    (hf : ∀ s a t, I s → x s = .ok a t → Good I E (f a)) : Good I E (x >>= f) := by
  refine ⟨fun s hs => ?_⟩
  rcases bind_cases x f s with ⟨a, t, h, h'⟩ | ⟨e, t, h, h'⟩
  · rw [h']
    exact (hf s a t hs h).run t (hx.ok hs h)
  · rw [h']
    exact hx.error hs h

/-- A look at the state: what follows may use what is known of it. -/
theorem Good.look {f : State → Exec β}
    (h : ∀ s, I s → match f s s with
      | .ok _ t => I t
      | .error e t => I t ∧ E e) :
    Good I E (getState >>= f) := ⟨h⟩

theorem Good.look' {f : State → Exec β} (h : ∀ a, Good I E (f a)) : Good I E (getState >>= f) :=
  ⟨fun s hs => (h s).run s hs⟩

theorem Good.ite {c : Prop} [Decidable c] {x y : Exec α} (hx : c → Good I E x) (hy : ¬ c → Good I E y) :
    Good I E (if c then x else y) := by
  split
  · exact hx ‹_›
  · exact hy ‹_›

theorem Good.raiseIf {c : Prop} [Decidable c] {e : ErrCode} (he : c → E (.raise e)) :
    Good I E (Machine.raiseIf c e) := by
  unfold Machine.raiseIf
  exact Good.ite (fun h => Good.raise (he h)) (fun _ => Good.pure ())

theorem Good.weaken {E' : Stop → Prop} {x : Exec α} (h : Good I E x) (hE : ∀ e, E e → E' e) :
    Good I E' x := by
  refine ⟨fun s hs => ?_⟩
  cases hx : x s with
  | ok a t => exact h.ok hs hx
  | error e t => exact ⟨(h.error hs hx).1, hE e (h.error hs hx).2⟩

theorem Good.leaving {x : Exec α} {f : State → State} (h : Good I E x) (hf : ∀ s, I s → I (f s)) :
    Good I E (leavingUnspecified f x) := by
  refine ⟨fun s hs => ?_⟩
  unfold leavingUnspecified
  cases hx : x s with
  | ok a t => exact h.ok hs hx
  | error e t =>
    have := h.error hs hx
    cases e with
    | raise c => exact ⟨hf t this.1, this.2⟩
    | hold => exact this
    | bound => exact this

end Sys2Proof.Machine
end

