-- ==== Sys2Proof/Laws/Steps.lean ====
section
/-! SUPPORT. What every command's steps keep, said once for each unit: given that a property is kept by the
unit's primitives (`ReaderGood`, `WriterGood`, `BlockGood`, `NameGood`, `EncoderGood` and what extends them), its
procedures keep it, and stop only as they may. -/

namespace Sys2Proof.Machine

variable {α β : Type} {I : State → Prop} {E : Stop → Prop}

theorem Good.tables {f : Tables → Tables} (h : ∀ s, I s → I { s with tables := f s.tables }) :
    Good I E (changeTables f) :=
  Good.change h

/-! ### The bit framer (41_bitio.md) -/

/-- The property is kept by the primitives of the bit reader. -/
structure ReaderGood (I : State → Prop) (E : Stop → Prop) : Prop where
  bit : Good I E getBit
  align : Good I E alignIn

/-- The property is kept by `PutBit`. -/
def WriterGood (I : State → Prop) (E : Stop → Prop) : Prop := ∀ b, Good I E (putBit b)

theorem readBits_good (h : ReaderGood I E) (n : Nat) : Good I E (readBits n) := by
  induction n with
  | zero => exact Good.pure 0
  | succ n ih => exact h.bit.bind fun _ => ih.bind fun _ => Good.pure _

theorem readByte_good (h : ReaderGood I E) : Good I E readByte :=
  (readBits_good h 8).bind fun _ => Good.pure _

theorem readInt_good (h : ReaderGood I E) : Good I E readInt :=
  (readBits_good h 32).bind fun _ => Good.pure _

theorem writeBits_good (h : WriterGood I E) (v n : Nat) : Good I E (writeBits v n) := by
  induction n generalizing v with
  | zero => exact Good.pure ()
  | succ n ih => exact (h _).bind fun _ => ih _

theorem writeBitsR_good (h : WriterGood I E) (v n : Nat) : Good I E (writeBitsR v n) := by
  induction n with
  | zero => exact Good.pure ()
  | succ n ih => exact (h _).bind fun _ => ih

theorem putOnes_good (h : WriterGood I E) (n : Nat) : Good I E (putOnes n) := by
  induction n with
  | zero => exact Good.pure ()
  | succ n ih => exact (h _).bind fun _ => ih

theorem flush_good (h : WriterGood I E) : Good I E flush :=
  Good.look' fun _ => putOnes_good h _

theorem writeByte_good (h : WriterGood I E) (b : Byte) : Good I E (writeByte b) := writeBits_good h _ _

theorem writeInt_good (h : WriterGood I E) (v : Word) : Good I E (writeInt v) := writeBits_good h _ _

theorem writeBytes_good (h : WriterGood I E) (l : List Byte) : Good I E (writeBytes l) := by
  induction l with
  | nil => exact Good.pure ()
  | cons b rest ih => exact (writeByte_good h b).bind fun _ => ih

/-! ### Symbols (44_huffman.md R229) -/

theorem decodeFrom_good (h : ReaderGood I E) (hE : E (.raise .badSymbol)) (table : List (Nat × Nat))
    (rem len v : Nat) : Good I E (decodeFrom table rem len v) := by
  induction rem generalizing len v with
  | zero => exact Good.raise hE
  | succ rem ih =>
    refine h.bit.bind fun b => ?_
    dsimp only
    split
    · exact Good.pure _
    · exact ih _ _

theorem hufDecode_good (h : ReaderGood I E) (hE : E (.raise .badSymbol)) (a : Alphabet) :
    Good I E (hufDecode a) :=
  Good.look' fun _ => decodeFrom_good h hE _ _ _ _

/-! ### The block decoder (45_deflate.md R274 to R283) -/

/-- The property is kept by everything the block decoder does before it commits a block, and the decoder's stops are
allowed. -/
structure BlockGood (I : State → Prop) (E : Stop → Prop) : Prop extends ReaderGood I E where
  emit : ∀ b, Good I E (emitByte b)
  bfinal : ∀ b s, I s → I { s with bfinalSeen := b }
  fixed : ∀ s, I s → I { s with tables := fixedTables s.tables }
  clearCL : ∀ s, I s → I { s with tables := { s.tables with lenCL := .zeros 4 } }
  metaLen : ∀ sym v s, sym < Config.clSize → I s →
    I { s with tables := { s.tables with lenCL := s.tables.lenCL.write sym v } }
  canon : ∀ a s, I s → I { s with tables := canonTables a s.tables }
  splitLens : ∀ nll nd seq s, I s → I { s with tables := splitLens nll nd seq s.tables }
  bound : E .bound
  storedLen : E (.raise .storedLen)
  badSymbol : E (.raise .badSymbol)
  badCodelengths : E (.raise .badCodelengths)
  badDistance : E (.raise .badDistance)
  badBtype : E (.raise .badBtype)

/-- And by committing a block (45_deflate.md R281). -/
structure DecoderGood (I : State → Prop) (E : Stop → Prop) : Prop extends BlockGood I E where
  commit : ∀ s, I s → I (commitOutput s)

theorem readBlockHeader_good (h : BlockGood I E) : Good I E readBlockHeader :=
  (readBits_good h.toReaderGood 1).bind fun _ => (readBits_good h.toReaderGood 2).bind fun _ =>
    (Good.change fun s hs => h.bfinal _ s hs).bind fun _ => Good.pure _

theorem copyStored_good (h : BlockGood I E) (n : Nat) : Good I E (copyStored n) := by
  induction n with
  | zero => exact Good.pure ()
  | succ n ih => exact (readByte_good h.toReaderGood).bind fun b => (h.emit b).bind fun _ => ih

theorem decodeStored_good (h : BlockGood I E) : Good I E decodeStored :=
  h.align.bind fun _ => (readBits_good h.toReaderGood 16).bind fun _ =>
    (readBits_good h.toReaderGood 16).bind fun _ =>
      (Good.raiseIf fun _ => h.storedLen).bind fun _ => copyStored_good h _

theorem readMetaLens_good (h : BlockGood I E) (l : List Nat) (hl : ∀ s ∈ l, s < Config.clSize) :
    Good I E (readMetaLens l) := by
  induction l with
  | nil => exact Good.pure ()
  | cons sym rest ih =>
    exact (readBits_good h.toReaderGood 3).bind fun _ =>
      (Good.tables fun s hs => h.metaLen _ _ s (hl sym (by simp)) hs).bind fun _ =>
        ih fun s hs => hl s (by simp [hs])

/-- What expanding one symbol can raise. -/
theorem expandSymbol_error {total : Nat} {seq : List Nat} {sym x : Nat} {e : ErrCode}
    (h : expandSymbol total seq sym x = .error e) : e = .badCodelengths ∨ e = .badSymbol := by
  unfold expandSymbol at h
  by_cases h15 : sym ≤ 15
  · simp only [h15, if_true] at h
    split at h
    · exact .inl (by injection h with h; exact h.symm)
    · exact absurd h (by simp)
  by_cases h16 : sym = 16
  · subst h16
    cases hl : seq.getLast? with
    | none => simp [hl] at h; exact .inl h.symm
    | some v =>
      simp [hl] at h
      split at h
      · exact .inl (by injection h with h; exact h.symm)
      · exact absurd h (by simp)
  by_cases h17 : sym = 17
  · subst h17
    simp at h
    split at h
    · exact .inl (by injection h with h; exact h.symm)
    · exact absurd h (by simp)
  by_cases h18 : sym = 18
  · subst h18
    simp at h
    split at h
    · exact .inl (by injection h with h; exact h.symm)
    · exact absurd h (by simp)
  simp [h15, h16, h17, h18] at h
  exact .inr h.symm

theorem readLens_good (h : BlockGood I E) (total turns : Nat) (seq : List Nat) :
    Good I E (readLens total turns seq) := by
  induction turns generalizing seq with
  | zero =>
    unfold readLens
    exact Good.ite (fun _ => Good.outOfBound h.bound) (fun _ => Good.pure _)
  | succ turns ih =>
    unfold readLens
    refine Good.ite (fun _ => ?_) (fun _ => Good.pure _)
    refine (hufDecode_good h.toReaderGood h.badSymbol .cl).bind fun sym => ?_
    refine Good.ite (fun _ => Good.raise h.badCodelengths) (fun _ => ?_)
    refine (readBits_good h.toReaderGood _).bind fun x => ?_
    split
    · rename_i e he
      rcases expandSymbol_error he with rfl | rfl
      · exact Good.raise h.badCodelengths
      · exact Good.raise h.badSymbol
    · exact ih _

theorem clOrder_lt : ∀ s ∈ clOrder, s < Config.clSize := by decide

theorem decodeDynamicTables_good (h : BlockGood I E) : Good I E decodeDynamicTables := by
  refine (readBits_good h.toReaderGood 5).bind fun hlit => ?_
  refine (readBits_good h.toReaderGood 5).bind fun hdist => ?_
  refine (readBits_good h.toReaderGood 4).bind fun hclen => ?_
  refine (Good.raiseIf fun _ => h.badCodelengths).bind fun _ => ?_
  refine (Good.tables fun s hs => h.clearCL s hs).bind fun _ => ?_
  refine (readMetaLens_good h _ fun s hs => clOrder_lt s (List.mem_of_mem_take hs)).bind fun _ => ?_
  refine (Good.tables fun s hs => h.canon .cl s hs).bind fun _ => ?_
  refine (readLens_good h _ _ _).bind fun seq => ?_
  exact Good.tables fun s hs => h.canon .d _ (h.canon .ll _ (h.splitLens _ _ seq s hs))

theorem copyBytes_good (h : BlockGood I E) (d n : Nat) : Good I E (copyBytes d n) := by
  induction n with
  | zero => exact Good.pure ()
  | succ n ih => exact Good.look' fun _ => (h.emit _).bind fun _ => ih

theorem copyMatch_good (h : BlockGood I E) (l : Nat) : Good I E (copyMatch l) := by
  refine (hufDecode_good h.toReaderGood h.badSymbol .d).bind fun ds => ?_
  refine (Good.raiseIf fun _ => h.badSymbol).bind fun _ => ?_
  refine (readBits_good h.toReaderGood _).bind fun x => ?_
  refine Good.look' fun _ => ?_
  exact (Good.raiseIf fun _ => h.badDistance).bind fun _ => copyBytes_good h _ _

theorem decodeSymbolsFrom_good (h : BlockGood I E) (turns : Nat) :
    Good I E (decodeSymbolsFrom turns) := by
  induction turns with
  | zero => exact Good.outOfBound h.bound
  | succ turns ih =>
    unfold decodeSymbolsFrom
    refine (hufDecode_good h.toReaderGood h.badSymbol .ll).bind fun sym => ?_
    refine Good.ite (fun _ => (h.emit _).bind fun _ => ih) (fun _ => ?_)
    refine Good.ite (fun _ => Good.pure ()) (fun _ => ?_)
    refine Good.ite (fun _ => ?_) (fun _ => Good.raise h.badSymbol)
    refine (readBits_good h.toReaderGood (lenRange (sym - 257)).extra).bind fun x => ?_
    refine (copyMatch_good h ((lenRange (sym - 257)).base + x)).bind fun _ => ?_
    exact ih

theorem decodeSymbols_good (h : BlockGood I E) : Good I E decodeSymbols := by
  unfold decodeSymbols
  exact Good.look' fun _ => decodeSymbolsFrom_good h _

/-- What a block's BTYPE asks for after its header (45_deflate.md R275). -/
def blockPayload (btype : Nat) : Exec Unit :=
  if btype = 0 then decodeStored
  else if btype = 1 then changeTables fixedTables >>= fun _ => decodeSymbols
  else if btype = 2 then decodeDynamicTables >>= fun _ => decodeSymbols
  else raise .badBtype

theorem blockPayload_fixed (s : State) : blockPayload 1 s = decodeSymbols { s with tables := fixedTables s.tables } := by
  rw [blockPayload, if_neg (by decide), if_pos rfl, changeTables, change_bind]

theorem blockPayload_dynamic : blockPayload 2 = (decodeDynamicTables >>= fun _ => decodeSymbols) := by
  rw [blockPayload, if_neg (by decide), if_neg (by decide), if_pos rfl]

theorem blockPayload_stored : blockPayload 0 = decodeStored := if_pos rfl

/-- A block is its header, its payload and the commit (45_deflate.md R282). -/
theorem decBlock_run (s : State) : decBlock s =
    (readBlockHeader >>= fun hd => blockPayload hd.2 >>= fun _ => change commitOutput >>= fun _ => pure hd) s := by
  rw [decBlock, bind_run, bind_run]
  cases readBlockHeader s with
  | error e t => rfl
  | ok hd t =>
    simp only [blockPayload]
    by_cases h0 : hd.2 = 0
    · simp only [if_pos h0]
    by_cases h1 : hd.2 = 1
    · simp only [if_neg h0, if_pos h1, bind_assoc_run]
    by_cases h2 : hd.2 = 2
    · simp only [if_neg h0, if_neg h1, if_pos h2, bind_assoc_run]
    · simp only [if_neg h0, if_neg h1, if_neg h2]
theorem blockPayload_good (h : BlockGood I E) (btype : Nat) : Good I E (blockPayload btype) :=
  Good.ite (fun _ => decodeStored_good h) fun _ =>
    Good.ite (fun _ => (Good.tables h.fixed).bind fun _ => decodeSymbols_good h) fun _ =>
      Good.ite (fun _ => (decodeDynamicTables_good h).bind fun _ => decodeSymbols_good h) fun _ => Good.raise h.badBtype

theorem decBlock_good (h : DecoderGood I E) : Good I E decBlock := by
  refine ⟨fun s hs => ?_⟩
  rw [decBlock_run]
  exact ((readBlockHeader_good h.toBlockGood).bind fun hd => (blockPayload_good h.toBlockGood hd.2).bind fun _ =>
    (Good.change fun s hs => h.commit s hs).bind fun _ => Good.pure _).run s hs

/-- A block that fails has committed nothing (45_deflate.md R281). -/
theorem decBlock_error (h : BlockGood I E) {s t : State} {e : Stop} (hs : I s) (he : decBlock s = .error e t) :
    I t ∧ E e := by
  rw [decBlock_run] at he
  rcases bind_cases _ _ s with ⟨hd, s1, h1, q⟩ | ⟨e1, s1, h1, q⟩
  · rw [q] at he
    have i1 := (readBlockHeader_good h).ok hs h1
    rcases bind_cases _ _ s1 with ⟨_, s2, h2, q2⟩ | ⟨e2, s2, h2, q2⟩
    · rw [q2] at he
      cases he
    · rw [q2] at he
      cases he
      exact (blockPayload_good h hd.2).error i1 h2
  · rw [q] at he
    cases he
    exact (readBlockHeader_good h).error hs h1

theorem decBlocks_good (h : DecoderGood I E) (turns count : Nat) : Good I E (decBlocks turns count) := by
  induction turns generalizing count with
  | zero => exact Good.outOfBound h.bound
  | succ turns ih =>
    exact (decBlock_good h).bind fun hd => Good.ite (fun _ => Good.pure _) (fun _ => ih _)

theorem decStreamBody_good (h : DecoderGood I E) : Good I E decStreamBody :=
  Good.look' fun _ => decBlocks_good h _ _

/-! ### The container's readers (46_container.md R301, R303) -/

/-- The property is kept by everything the header reader does before it writes the header's registers. -/
structure NameGood (I : State → Prop) (E : Stop → Prop) : Prop extends ReaderGood I E where
  name : ∀ k b s, k < s.params.fnameMax → I s →
    I { s with tables := { s.tables with fname := s.tables.fname.write k b } }
  bound : E .bound
  badMagic : E (.raise .badMagic)
  badMethod : E (.raise .badMethod)
  unsupportedFlags : E (.raise .unsupportedFlags)

/-- And by writing them. -/
structure HeaderGood (I : State → Prop) (E : Stop → Prop) : Prop extends NameGood I E where
  header : ∀ flg mtime xfl os len trunc s, I s →
    I { s with gzFlg := flg, gzMtime := mtime, gzXfl := xfl, gzOs := os, gzFnameLen := len,
               fnameTrunc := trunc }

theorem readName_good (h : NameGood I E) (turns n : Nat) (tr : Bool) :
    Good I E (readName turns n tr) := by
  induction turns generalizing n tr with
  | zero => exact Good.outOfBound h.bound
  | succ turns ih =>
    refine (readByte_good h.toReaderGood).bind fun b => ?_
    refine Good.ite (fun _ => Good.pure _) (fun _ => ?_)
    refine ⟨fun s hs => ?_⟩
    rw [getState_bind]
    by_cases hk : n < s.params.fnameMax
    · rw [if_pos hk]
      exact (ih _ _).run _ (h.name _ _ s hk hs)
    · rw [if_neg hk]
      exact (ih _ _).run s hs

theorem readNameField_good (h : NameGood I E) (flg : Byte) : Good I E (readNameField flg) := by
  refine Good.look' fun _ => ?_
  exact Good.ite (fun _ => readName_good h _ _ _) (fun _ => Good.pure _)

/-- The fields of a header: FLG, MTIME, XFL, OS, and the length of the name and whether it was cut (46_container.md
R301). -/
def readFields : Exec (Byte × Word × Byte × Byte × Nat × Bool) := do
  let id1 ← readByte
  raiseIf (id1 ≠ 0x1F#8) .badMagic
  let id2 ← readByte
  raiseIf (id2 ≠ 0x8B#8) .badMagic
  let cm ← readByte
  raiseIf (cm ≠ 0x08#8) .badMethod
  let flg ← readByte
  raiseIf (flg &&& flgRefused ≠ 0) .unsupportedFlags
  let mtime ← readInt
  let xfl ← readByte
  let os ← readByte
  let name ← readNameField flg
  pure (flg, mtime, xfl, os, name)

/-- A header is its fields, and then its registers are written (46_container.md R301). -/
theorem readHeader_eq : readHeader = readFields >>= fun x =>
    change (fun s => { s with gzFlg := x.1, gzMtime := x.2.1, gzXfl := x.2.2.1, gzOs := x.2.2.2.1,
                              gzFnameLen := BitVec.ofNat 32 x.2.2.2.2.1, fnameTrunc := x.2.2.2.2.2 }) >>= fun _ =>
      pure (x.1, x.2.2.2.2.1) := by
  simp only [readHeader, readFields, bind_assoc, pure_bind]

theorem readFields_good (h : NameGood I E) : Good I E readFields := by
  refine (readByte_good h.toReaderGood).bind fun _ => ?_
  refine (Good.raiseIf fun _ => h.badMagic).bind fun _ => ?_
  refine (readByte_good h.toReaderGood).bind fun _ => ?_
  refine (Good.raiseIf fun _ => h.badMagic).bind fun _ => ?_
  refine (readByte_good h.toReaderGood).bind fun _ => ?_
  refine (Good.raiseIf fun _ => h.badMethod).bind fun _ => ?_
  refine (readByte_good h.toReaderGood).bind fun flg => ?_
  refine (Good.raiseIf fun _ => h.unsupportedFlags).bind fun _ => ?_
  refine (readInt_good h.toReaderGood).bind fun _ => ?_
  refine (readByte_good h.toReaderGood).bind fun _ => ?_
  refine (readByte_good h.toReaderGood).bind fun _ => ?_
  exact (readNameField_good h flg).bind fun _ => Good.pure _

theorem readHeader_good (h : HeaderGood I E) : Good I E readHeader := by
  rw [readHeader_eq]
  exact (readFields_good h.toNameGood).bind fun _ => (Good.change fun s hs => h.header _ _ _ _ _ _ s hs).bind fun _ =>
    Good.pure _

/-- A header the reader does not end with has written no register (46_container.md R301; log 10). -/
theorem readHeader_error (h : NameGood I E) {s t : State} {e : Stop} (hs : I s) (he : readHeader s = .error e t) :
    I t ∧ E e := by
  rw [readHeader_eq] at he
  rcases bind_cases readFields _ s with ⟨x, s1, h1, q⟩ | ⟨e1, s1, h1, q⟩
  · rw [q] at he
    cases he
  · rw [q] at he
    cases he
    exact (readFields_good h).error hs h1

theorem readTrailer_good (h : ReaderGood I E)
    (ht : ∀ crc isize s, I s → I { s with gzTrlCrc := crc, gzTrlIsize := isize })
    (hc : E (.raise .crcMismatch)) (hi : E (.raise .isizeMismatch)) : Good I E readTrailer := by
  refine h.align.bind fun _ => ?_
  refine (readInt_good h).bind fun _ => (readInt_good h).bind fun _ => ?_
  refine (Good.change fun s hs => ht _ _ s hs).bind fun _ => ?_
  refine Good.look' fun _ => ?_
  exact (Good.raiseIf fun _ => hc).bind fun _ => Good.raiseIf fun _ => hi

/-! ### The encoder (45_deflate.md R261 to R271) -/

/-- The property is kept by everything that codes a chunk under the parameters `p` and the block type `b`.
The builds of tables are asked for whole, since whether they can fail depends on the alphabet
(44_huffman.md R225). -/
structure EncoderGood (p : Config.Params) (b : Nat) (I : State → Prop) (E : Stop → Prop) : Prop where
  params : ∀ s, I s → s.params = p
  btype : ∀ s, I s → btypeSel s = b
  put : WriterGood I E
  count : ∀ bytes n s, I s → I { crcAll bytes s with rawCount := n }
  window : ∀ bytes s, I s → I (winAddAll bytes s)
  tokenize : b ≠ 0 → ∀ n s, n ≤ p.chunkSize → I s → I (tokenize n s)
  fixed : b ≠ 0 → ∀ s, I s → I { s with tables := fixedTables s.tables }
  build : b ≠ 0 → b ≠ 1 → Good I E buildDynamic

variable {p : Config.Params} {b : Nat}

theorem writeCode_good (h : WriterGood I E) (a : Alphabet) (sym : Nat) : Good I E (writeCode a sym) :=
  Good.look' fun _ => writeBitsR_good h _ _

theorem writeMetaLens_good (h : WriterGood I E) (l : List Nat) : Good I E (writeMetaLens l) := by
  induction l with
  | nil => exact Good.pure ()
  | cons sym rest ih => exact Good.look' fun _ => (writeBits_good h _ _).bind fun _ => ih

theorem writePacked_good (h : WriterGood I E) (l : List (BitVec 16)) : Good I E (writePacked l) := by
  induction l with
  | nil => exact Good.pure ()
  | cons e rest ih =>
    exact (writeCode_good h _ _).bind fun _ => (writeBits_good h _ _).bind fun _ => ih

theorem writeBlockHeader_good (h : WriterGood I E) (final : Bool) (btype : Nat) :
    Good I E (writeBlockHeader final btype) :=
  (writeBits_good h _ _).bind fun _ => writeBits_good h _ _

theorem writeDynamicHeader_good (h : WriterGood I E) (final : Bool) (np : Nat) :
    Good I E (writeDynamicHeader final np) :=
  (writeBlockHeader_good h final 2).bind fun _ => (writeBits_good h _ _).bind fun _ =>
    (writeBits_good h _ _).bind fun _ => (writeBits_good h _ _).bind fun _ =>
      (writeMetaLens_good h _).bind fun _ => Good.look' fun _ => writePacked_good h _

theorem emitToken_good (h : WriterGood I E) (t : Token) : Good I E (emitToken t) := by
  cases t with
  | literal b => exact writeCode_good h _ _
  | copy l d =>
    unfold emitToken
    exact (writeCode_good h _ _).bind fun _ => (writeBits_good h _ _).bind fun _ =>
      (writeCode_good h _ _).bind fun _ => writeBits_good h _ _

theorem emitEach_good (h : WriterGood I E) (l : List Token) : Good I E (emitEach l) := by
  induction l with
  | nil => exact Good.pure ()
  | cons t rest ih => exact (emitToken_good h t).bind fun _ => ih

theorem emitTokens_good (h : WriterGood I E) : Good I E emitTokens :=
  Good.look' fun _ => (emitEach_good h _).bind fun _ => writeCode_good h _ _

theorem encodeFixed_good (h : EncoderGood p b I E) (hb : b ≠ 0) (n : Nat) (final : Bool)
    (hn : n ≤ p.chunkSize) : Good I E (encodeFixed n final) :=
  (Good.change fun s hs => h.tokenize hb n s hn hs).bind fun _ =>
    (Good.tables (h.fixed hb)).bind fun _ =>
      (writeBlockHeader_good h.put final 1).bind fun _ => emitTokens_good h.put

theorem encodeStored_good (h : EncoderGood p b I E) (n : Nat) (final : Bool) :
    Good I E (encodeStored n final) :=
  Good.look' fun _ => (Good.change fun s hs => h.window _ s hs).bind fun _ =>
    (writeBlockHeader_good h.put final 0).bind fun _ => (flush_good h.put).bind fun _ =>
      (writeBits_good h.put _ _).bind fun _ => (writeBits_good h.put _ _).bind fun _ =>
        writeBytes_good h.put _

theorem encodeDynamic_good (h : EncoderGood p b I E) (hb : b ≠ 0) (hb1 : b ≠ 1) (n : Nat) (final : Bool)
    (hn : n ≤ p.chunkSize) : Good I E (encodeDynamic n final) :=
  (Good.change fun s hs => h.tokenize hb n s hn hs).bind fun _ => (h.build hb hb1).bind fun _ =>
    (writeDynamicHeader_good h.put final _).bind fun _ => emitTokens_good h.put

theorem encChunk_good (h : EncoderGood p b I E) (n : Nat) (final : Bool) (hn : n ≤ p.chunkSize) :
    Good I E (encChunk n final) := by
  refine ⟨fun s0 hs0 => ?_⟩
  have e : encChunk n final s0 =
      (change (fun s => { crcAll (chunkBytes s0.tables 0 n) s with
          rawCount := (crcAll (chunkBytes s0.tables 0 n) s).rawCount + BitVec.ofNat 32 n }) >>= fun _ =>
        if btypeSel s0 = 0 then encodeStored n final
        else if btypeSel s0 = 1 then encodeFixed n final else encodeDynamic n final) s0 := rfl
  rw [e, h.btype s0 hs0]
  refine Good.run ?_ s0 hs0
  refine (Good.change fun s hs => h.count _ _ s hs).bind fun _ => ?_
  exact Good.ite (fun _ => encodeStored_good h n final) fun hb =>
    Good.ite (fun _ => encodeFixed_good h hb n final hn) fun hb1 =>
      encodeDynamic_good h hb hb1 n final hn

/-- The property is kept by everything that fills CHUNK and codes it. -/
structure StreamGood (p : Config.Params) (b : Nat) (I : State → Prop) (E : Stop → Prop) : Prop
    extends EncoderGood p b I E where
  atEnd : Good I E inAtEnd
  take : Good I E inRead
  fill : ∀ k b s, k < p.chunkSize → I s →
    I { s with tables := { s.tables with chunk := s.tables.chunk.write k b } }
  bound : E .bound

theorem fillChunk_good (h : StreamGood p b I E) (room n : Nat) (hn : n + room ≤ p.chunkSize) :
    Good I E (fillChunk room n) := by
  induction room generalizing n with
  | zero => exact Good.pure _
  | succ room ih =>
    refine h.atEnd.bind fun b => ?_
    refine Good.ite (fun _ => Good.pure _) (fun _ => ?_)
    refine h.take.bind fun b => ?_
    refine (Good.tables fun s hs => h.fill _ _ s (by omega) hs).bind fun _ => ?_
    exact ih (n + 1) (by omega)

/-- How many bytes a fill leaves in CHUNK. -/
theorem fillChunk_count {room n k : Nat} {s t : State} (h : fillChunk room n s = .ok k t) :
    n ≤ k ∧ k ≤ n + room := by
  induction room generalizing n s with
  | zero =>
    simp only [fillChunk, pure_run, EStateM.Result.ok.injEq] at h
    omega
  | succ room ih =>
    unfold fillChunk at h
    rcases bind_cases inAtEnd _ s with ⟨b, s1, hx, h'⟩ | ⟨e, s1, hx, h'⟩
    · rw [h'] at h
      cases b
      · simp only [Bool.false_eq_true, if_false] at h
        rcases bind_cases inRead _ s1 with ⟨c, s2, hx2, h2⟩ | ⟨e, s2, hx2, h2⟩
        · rw [h2] at h
          have := ih h
          omega
        · rw [h2] at h
          exact absurd h (by simp)
      · simp only [if_true, pure_run, EStateM.Result.ok.injEq] at h
        omega
    · rw [h'] at h
      exact absurd h (by simp)

theorem encChunks_good (h : StreamGood p b I E) (turns : Nat) : Good I E (encChunks turns) := by
  induction turns with
  | zero => exact Good.outOfBound h.bound
  | succ turns ih =>
    refine ⟨fun s hs => ?_⟩
    unfold encChunks
    rw [getState_bind, h.params s hs]
    refine ((fillChunk_good h p.chunkSize 0 (by omega)).bindOf fun s1 n t _ hx => ?_).run s hs
    have hn : n ≤ p.chunkSize := by have := fillChunk_count hx; omega
    refine h.atEnd.bind fun final => ?_
    refine (encChunk_good h.toEncoderGood n final hn).bind fun _ => ?_
    exact Good.ite (fun _ => Good.pure ()) (fun _ => ih)

theorem encStreamBody_good (h : StreamGood p b I E) : Good I E encStreamBody := by
  unfold encStreamBody
  exact Good.look' fun _ => (encChunks_good h _).bind fun _ => flush_good h.put

end Sys2Proof.Machine
end

