-- ==== Sys2Proof/Laws/Commands.lean ====
section
/-! SUPPORT. Commands as wholes: the steps of each, how `exec` runs them, and the outcomes a command has. -/

namespace Sys2Proof.Machine

/-- The steps of a command; RESET has none of its own (40_control.md R141). -/
def stepsOf : Instr → Exec Unit
  | .nop | .reset => pure ()
  | .clearErr => change leaveError
  | .streamInit => change streamInit
  | .tblRead t => tblReadSteps t
  | .tblWrite t => tblWriteSteps t
  | .bwBits n => bwBitsSteps n
  | .bwBitsR n => bwBitsRSteps n
  | .bwFlush => flush
  | .bwByte => bwByteSteps
  | .bwShort => bwShortSteps
  | .bwInt => bwIntSteps
  | .brBits n => brBitsSteps n
  | .brByte => readBitsToRes0 8
  | .brShort => readBitsToRes0 16
  | .brInt => readBitsToRes0 32
  | .brAlign => brAlignSteps
  | .crcInit => change fun s => { s with crcState := 0xFFFFFFFF#32 }
  | .crcUpdate => change fun s => crcUpdate (byteOperand s.arg0) s
  | .winReset => winResetSteps
  | .winAdd => winAddSteps
  | .winFind => winFindSteps
  | .hufBuild sel limit => hufBuildSteps sel limit
  | .hufCanon sel => hufCanonSteps sel
  | .hufFixed => changeTables fixedTables
  | .hufDecode sel => hufDecodeSteps sel
  | .clPack => clPackSteps
  | .clUnpack => clUnpackSteps
  | .defEncChunk final => defEncChunkSteps final
  | .defEncStream => defEncStreamSteps
  | .defDecBlock => defDecBlockSteps
  | .defDecStream => defDecStreamSteps
  | .gzWrHeader fn => gzWrHeaderSteps fn
  | .gzRdHeader => headerToRes
  | .gzWrTrailer => writeTrailer
  | .gzRdTrailer => leavingUnspecified scrambleTrailer readTrailer
  | .gzCompress fn => gzCompressSteps fn
  | .gzDecompress => gzDecompressSteps

/-- Every command but RESET runs its steps. -/
theorem exec_eq {i : Instr} (h : i ≠ .reset) (s : State) : exec i s = runCommand i (stepsOf i) s := by
  cases i <;> first | rfl | exact absurd rfl h

theorem exec_reset (s : State) : exec .reset s = .next (resetBlock s) := rfl

/-- The outcomes of a command, said once: it completes, enters the ERROR state, holds, or has run out of a
loop's bound. -/
theorem runCommand_cases (i : Instr) (steps : Exec Unit) (s : State) :
    (∃ t, steps s = .ok () t ∧ runCommand i steps s = .next (complete t)) ∨
    (∃ e t, steps s = .error (.raise e) t ∧ runCommand i steps s = .next (enterError e t)) ∨
    (∃ t, steps s = .error .hold t ∧ runCommand i steps s = .next (suspend i s t)) ∨
    (∃ t, steps s = .error .bound t ∧ runCommand i steps s = .fault .loopBound) := by
  unfold runCommand
  cases h : steps s with
  | ok a t => exact .inl ⟨t, rfl, rfl⟩
  | error e t =>
    cases e with
    | raise c => exact .inr (.inl ⟨c, t, rfl, rfl⟩)
    | hold => exact .inr (.inr (.inl ⟨t, rfl, rfl⟩))
    | bound => exact .inr (.inr (.inr ⟨t, rfl, rfl⟩))

theorem runCommand_ok {i : Instr} {steps : Exec Unit} {s t : State} (h : steps s = .ok () t) :
    runCommand i steps s = .next (complete t) := by
  unfold runCommand
  rw [h]

theorem runCommand_raise {i : Instr} {steps : Exec Unit} {s t : State} {e : ErrCode}
    (h : steps s = .error (.raise e) t) : runCommand i steps s = .next (enterError e t) := by
  unfold runCommand
  rw [h]

theorem runCommand_hold {i : Instr} {steps : Exec Unit} {s t : State}
    (h : steps s = .error .hold t) : runCommand i steps s = .next (suspend i s t) := by
  unfold runCommand
  rw [h]

end Sys2Proof.Machine
end

