-- ==== Sys2Proof/Laws/Frames.lean ====
section
/-! SUPPORT. Frames: what each primitive leaves alone, in the terms of `kept`, and from it what each unit and
each command's steps leave alone. -/

namespace Sys2Proof.Machine

variable {α : Type} {F G : List Field}

/-- Every part of State outside `F` is the same. -/
def Frames (F : List Field) (s t : State) : Prop := ∀ f, f ∉ F → kept s t f

theorem kept_refl (s : State) (f : Field) : kept s s f := by
  cases f with
  | table t => cases t <;> first | rfl | trivial
  | _ => first | rfl | exact ⟨rfl, rfl⟩ | exact ⟨rfl, rfl, rfl, rfl, rfl⟩

theorem kept_trans {s t u : State} {f : Field} (h : kept s t f) (h' : kept t u f) : kept s u f := by
  cases f with
  | table t => cases t <;> first | exact Eq.trans h' h | trivial
  | _ =>
    first
    | exact Eq.trans h' h
    | exact ⟨h'.1.trans h.1, h'.2.trans h.2⟩
    | exact ⟨h'.1.trans h.1, h'.2.1.trans h.2.1, h'.2.2.1.trans h.2.2.1,
        h'.2.2.2.1.trans h.2.2.2.1, h'.2.2.2.2.trans h.2.2.2.2⟩

theorem Frames.refl (F : List Field) (s : State) : Frames F s s := fun f _ => kept_refl s f

theorem Frames.trans {s t u : State} (h : Frames F s t) (h' : Frames F t u) : Frames F s u :=
  fun f hf => kept_trans (h f hf) (h' f hf)

theorem Frames.mono {s t : State} (h : Frames F s t) (hFG : ∀ f ∈ F, f ∈ G) : Frames G s t :=
  fun f hf => h f fun h' => hf (hFG f h')

theorem not_mem_left {f : Field} {l r : List Field} (h : f ∉ l ++ r) : f ∉ l :=
  fun h' => h (List.mem_append_left r h')

/-- The state in which steps have ended or stopped. -/
def after : EStateM.Result Stop State α → State
  | .ok _ t => t
  | .error _ t => t

/-- Every stop is allowed. -/
def anyStop : Stop → Prop := fun _ => True

/-- Steps that, from every state, leave alone all but `F` keep a frame of any `G` that has `F`. -/
theorem frames_good {x : Exec α} (h : ∀ s, Frames F s (after (x s))) (hFG : ∀ f ∈ F, f ∈ G) (s0 : State) :
    Good (Frames G s0) anyStop x := by
  refine ⟨fun s hs => ?_⟩
  have := h s
  cases hx : x s with
  | ok a t =>
    rw [hx] at this
    exact hs.trans (this.mono hFG)
  | error e t =>
    rw [hx] at this
    exact ⟨hs.trans (this.mono hFG), trivial⟩

/-- The frame of steps that a command runs. -/
theorem Good.frames {x : Exec α} {s : State} (h : Good (Frames F s) anyStop x) :
    Frames F s (after (x s)) := by
  cases hx : x s with
  | ok a t => exact h.ok (Frames.refl F s) hx
  | error e t => exact (h.error (Frames.refl F s) hx).1

/-! ### Primitives -/

theorem after_bind {β : Type} (x : Exec α) (f : α → Exec β) (s : State) :
    (∃ a t, x s = .ok a t ∧ after ((x >>= f) s) = after (f a t)) ∨
      (∃ e t, x s = .error e t ∧ after ((x >>= f) s) = t) := by
  rcases bind_cases x f s with ⟨a, t, h, h'⟩ | ⟨e, t, h, h'⟩
  · exact .inl ⟨a, t, h, by rw [h']⟩
  · exact .inr ⟨e, t, h, by rw [h']; rfl⟩

theorem frames_bind {β : Type} {x : Exec α} {f : α → Exec β} {s : State}
    (hx : Frames F s (after (x s))) (hf : ∀ a t, x s = .ok a t → Frames F t (after (f a t))) :
    Frames F s (after ((x >>= f) s)) := by
  rcases after_bind x f s with ⟨a, t, h, h'⟩ | ⟨e, t, h, h'⟩
  · rw [h']
    rw [h] at hx
    exact hx.trans (hf a t h)
  · rw [h']
    rw [h] at hx
    exact hx

/-- Taking an input byte. -/
theorem frames_take (rest : List Byte) (s : State) :
    Frames [.inPort, .bytesIn] s
      ({ s with inPort := rest, bytesIn := s.bytesIn + 1 }) := by
  intro f hf
  cases f with
  | table t => cases t <;> first | rfl | trivial
  | _ => first | rfl | exact ⟨rfl, rfl⟩ | exact ⟨rfl, rfl, rfl, rfl, rfl⟩ | exact absurd (by decide) hf

/-- Giving output bytes. -/
theorem frames_give (room : Option Nat) (out : List Byte) (n : BitVec 64) (s : State) :
    Frames outputFields s
      ({ s with outPort := out, bytesOut := n, outRoom := room }) := by
  intro f hf
  cases f with
  | table t => cases t <;> first | rfl | trivial
  | _ => first | rfl | exact ⟨rfl, rfl⟩ | exact ⟨rfl, rfl, rfl, rfl, rfl⟩ | exact absurd (by decide) hf

/-- Giving output bytes to a host that accepts every byte. -/
theorem frames_give_all (out : List Byte) (n : BitVec 64) (s : State) :
    Frames outputFields s
      ({ s with outPort := out, bytesOut := n }) := by
  intro f hf
  cases f with
  | table t => cases t <;> first | rfl | trivial
  | _ => first | rfl | exact ⟨rfl, rfl⟩ | exact ⟨rfl, rfl, rfl, rfl, rfl⟩ | exact absurd (by decide) hf

/-- The writer's cursor. -/
theorem frames_writer (b : Byte) (n : BitVec 3) (s : State) :
    Frames writerFields s
      ({ s with wbuf := b, wcount := n }) := by
  intro f hf
  cases f with
  | table t => cases t <;> first | rfl | trivial
  | _ => first | rfl | exact ⟨rfl, rfl⟩ | exact ⟨rfl, rfl, rfl, rfl, rfl⟩ | exact absurd (by decide) hf

/-- The reader's cursor. -/
theorem frames_reader (b : Byte) (n : BitVec 3) (s : State) :
    Frames [.reader] s
      ({ s with rbuf := b, rcount := n }) := by
  intro f hf
  cases f with
  | table t => cases t <;> first | rfl | trivial
  | _ => first | rfl | exact ⟨rfl, rfl⟩ | exact ⟨rfl, rfl, rfl, rfl, rfl⟩ | exact absurd (by decide) hf

/-- CRC_STATE. -/
theorem frames_crc (c : Word) (s : State) : Frames [.crcState] s ({ s with crcState := c }) := by
  intro f hf
  cases f with
  | table t => cases t <;> first | rfl | trivial
  | _ => first | rfl | exact ⟨rfl, rfl⟩ | exact ⟨rfl, rfl, rfl, rfl, rfl⟩ | exact absurd (by decide) hf

/-- RAW_COUNT. -/
theorem frames_raw (c : Word) (s : State) : Frames [.rawCount] s ({ s with rawCount := c }) := by
  intro f hf
  cases f with
  | table t => cases t <;> first | rfl | trivial
  | _ => first | rfl | exact ⟨rfl, rfl⟩ | exact ⟨rfl, rfl, rfl, rfl, rfl⟩ | exact absurd (by decide) hf

/-- `WinAdd`. -/
theorem frames_winAdd (b : Byte) (s : State) : Frames [.winCursor, .table .window] s (winAdd b s) := by
  intro f hf
  cases f with
  | table t => cases t <;> first | rfl | trivial
  | _ => first | rfl | exact ⟨rfl, rfl⟩ | exact ⟨rfl, rfl, rfl, rfl, rfl⟩ | exact absurd (by decide) hf

/-- WIN_RESET. -/
theorem frames_winReset (s : State) : Frames [.winCursor] s ({ s with wcur := 0, wvalid := 0 }) := by
  intro f hf
  cases f with
  | table t => cases t <;> first | rfl | trivial
  | _ => first | rfl | exact ⟨rfl, rfl⟩ | exact ⟨rfl, rfl, rfl, rfl, rfl⟩ | exact absurd (by decide) hf

/-- BFINAL_SEEN. -/
theorem frames_bfinal (b : Bool) (s : State) : Frames [.bfinalSeen] s ({ s with bfinalSeen := b }) := by
  intro f hf
  cases f with
  | table t => cases t <;> first | rfl | trivial
  | _ => first | rfl | exact ⟨rfl, rfl⟩ | exact ⟨rfl, rfl, rfl, rfl, rfl⟩ | exact absurd (by decide) hf

/-- OUT_COMMIT. -/
theorem frames_commit (s : State) : Frames [.outCommit] s (commitOutput s) := by
  intro f hf
  cases f with
  | table t => cases t <;> first | rfl | trivial
  | _ => first | rfl | exact ⟨rfl, rfl⟩ | exact ⟨rfl, rfl, rfl, rfl, rfl⟩ | exact absurd (by decide) hf

/-- STREAM_INIT. -/
theorem frames_streamInit (s : State) : Frames streamFields s (streamInit s) := by
  intro f hf
  cases f with
  | table t => cases t <;> first | rfl | trivial
  | _ => first | rfl | exact ⟨rfl, rfl⟩ | exact ⟨rfl, rfl, rfl, rfl, rfl⟩ | exact absurd (by decide) hf

/-- RES0. -/
theorem frames_res0 (v : Word) (s : State) : Frames [.res0] s (setRes0 v s) := by
  intro f hf
  cases f with
  | table t => cases t <;> first | rfl | trivial
  | _ => first | rfl | exact ⟨rfl, rfl⟩ | exact ⟨rfl, rfl, rfl, rfl, rfl⟩ | exact absurd (by decide) hf

/-- RES1. -/
theorem frames_res1 (v : Word) (s : State) : Frames [.res1] s (setRes1 v s) := by
  intro f hf
  cases f with
  | table t => cases t <;> first | rfl | trivial
  | _ => first | rfl | exact ⟨rfl, rfl⟩ | exact ⟨rfl, rfl, rfl, rfl, rfl⟩ | exact absurd (by decide) hf

/-- The header's registers. -/
theorem frames_header (flg : Byte) (mtime : Word) (xfl os : Byte) (len : Word) (trunc : Bool) (s : State) :
    Frames [.gzHeader, .fnameTrunc] s
      ({ s with gzFlg := flg, gzMtime := mtime, gzXfl := xfl, gzOs := os, gzFnameLen := len, fnameTrunc :=
          trunc }) := by
  intro f hf
  cases f with
  | table t => cases t <;> first | rfl | trivial
  | _ => first | rfl | exact ⟨rfl, rfl⟩ | exact ⟨rfl, rfl, rfl, rfl, rfl⟩ | exact absurd (by decide) hf

/-- The trailer's registers. -/
theorem frames_trailer (crc isize : Word) (s : State) :
    Frames [.gzTrailer] s
      ({ s with gzTrlCrc := crc, gzTrlIsize := isize }) := by
  intro f hf
  cases f with
  | table t => cases t <;> first | rfl | trivial
  | _ => first | rfl | exact ⟨rfl, rfl⟩ | exact ⟨rfl, rfl, rfl, rfl, rfl⟩ | exact absurd (by decide) hf

/-- What a failed decoder leaves unspecified. -/
theorem frames_decoder (s : State) :
    Frames (.draws :: [.winCursor, .crcState, .rawCount, .table .window, .table .lenLL, .table .lenD,
        .table .lenCL, .table .codeLL, .table .codeD, .table .codeCL]) s
      (scrambleDecoder s) := by
  intro f hf
  cases f with
  | table t => cases t <;> first | rfl | trivial
  | _ => first | rfl | exact ⟨rfl, rfl⟩ | exact ⟨rfl, rfl, rfl, rfl, rfl⟩ | exact absurd (by decide) hf

/-- What a failed header read leaves unspecified. -/
theorem frames_name (s : State) : Frames [.draws, .table .fname] s (scrambleName s) := by
  intro f hf
  cases f with
  | table t => cases t <;> first | rfl | trivial
  | _ => first | rfl | exact ⟨rfl, rfl⟩ | exact ⟨rfl, rfl, rfl, rfl, rfl⟩ | exact absurd (by decide) hf

/-- What a member that fails past its header leaves unspecified. -/
theorem frames_scrambleHeader (s : State) : Frames [.draws, .gzHeader] s (scrambleHeader s) := by
  intro f hf
  cases f with
  | table t => cases t <;> first | rfl | trivial
  | _ => first | rfl | exact ⟨rfl, rfl⟩ | exact ⟨rfl, rfl, rfl, rfl, rfl⟩ | exact absurd (by decide) hf

/-- What a failed trailer read leaves unspecified. -/
theorem frames_scrambleTrailer (s : State) : Frames [.draws, .gzTrailer] s (scrambleTrailer s) := by
  intro f hf
  cases f with
  | table t => cases t <;> first | rfl | trivial
  | _ => first | rfl | exact ⟨rfl, rfl⟩ | exact ⟨rfl, rfl, rfl, rfl, rfl⟩ | exact absurd (by decide) hf

/-- The counter of free values. -/
theorem frames_draws (n : Nat) (s : State) : Frames [.draws] s ({ s with draws := n }) := by
  intro f hf
  cases f with
  | table t => cases t <;> first | rfl | trivial
  | _ => first | rfl | exact ⟨rfl, rfl⟩ | exact ⟨rfl, rfl, rfl, rfl, rfl⟩ | exact absurd (by decide) hf

/-- CLEAR_ERR. -/
theorem frames_leaveError (s : State) : Frames [.engine, .errinfo] s (leaveError s) := by
  intro f hf
  cases f with
  | table t => cases t <;> first | rfl | trivial
  | _ => first | rfl | exact ⟨rfl, rfl⟩ | exact ⟨rfl, rfl, rfl, rfl, rfl⟩ | exact absurd (by decide) hf

/-- Completion. -/
theorem frames_complete (s : State) : Frames courseFields s (complete s) := by
  intro f hf
  cases f with
  | table t => cases t <;> first | rfl | trivial
  | _ => first | rfl | exact ⟨rfl, rfl⟩ | exact ⟨rfl, rfl, rfl, rfl, rfl⟩ | exact absurd (by decide) hf

/-- Error entry. -/
theorem frames_enterError (e : ErrCode) (s : State) : Frames courseFields s (enterError e s) := by
  intro f hf
  cases f with
  | table t => cases t <;> first | rfl | trivial
  | _ => first | rfl | exact ⟨rfl, rfl⟩ | exact ⟨rfl, rfl, rfl, rfl, rfl⟩ | exact absurd (by decide) hf

/-- Holding, in terms of the state at acceptance, whose BFINAL_SEEN and FNAME_TRUNC it shows. -/
theorem frames_suspend (i : Instr) {start s : State} (h : Frames F start s) :
    Frames (courseFields ++ F) start (suspend i start s) := by
  intro f hf
  rw [List.mem_append, not_or] at hf
  have hk := h f hf.2
  cases f with
  | table t => cases t <;> exact hk
  | bfinalSeen => rfl
  | fnameTrunc => rfl
  | _ => first | exact hk | exact absurd (by decide) hf.1

/-- The note of an InAtEnd. -/
theorem frames_sawEnd (b : Bool) (s : State) : Frames [.sawEnd] s { s with sawEnd := b } := by
  intro f hf
  cases f with
  | table t => cases t <;> first | rfl | trivial
  | _ => first | rfl | exact ⟨rfl, rfl⟩ | exact ⟨rfl, rfl, rfl, rfl, rfl⟩ | exact absurd (by decide) hf

theorem frames_chunk (m : Memory 8) (s : State) :
    Frames [.table .chunk] s ({ s with tables := { s.tables with chunk := m } }) := by
  intro f hf
  cases f with
  | table t => cases t <;> first | rfl | trivial
  | _ => first | rfl | exact ⟨rfl, rfl⟩ | exact ⟨rfl, rfl, rfl, rfl, rfl⟩

theorem frames_window (m : Memory 8) (s : State) :
    Frames [.table .window] s ({ s with tables := { s.tables with window := m } }) := by
  intro f hf
  cases f with
  | table t => cases t <;> first | rfl | trivial
  | _ => first | rfl | exact ⟨rfl, rfl⟩ | exact ⟨rfl, rfl, rfl, rfl, rfl⟩

theorem frames_freqLL (m : Memory 32) (s : State) :
    Frames [.table .freqLL] s ({ s with tables := { s.tables with freqLL := m } }) := by
  intro f hf
  cases f with
  | table t => cases t <;> first | rfl | trivial
  | _ => first | rfl | exact ⟨rfl, rfl⟩ | exact ⟨rfl, rfl, rfl, rfl, rfl⟩

theorem frames_freqD (m : Memory 32) (s : State) :
    Frames [.table .freqD] s ({ s with tables := { s.tables with freqD := m } }) := by
  intro f hf
  cases f with
  | table t => cases t <;> first | rfl | trivial
  | _ => first | rfl | exact ⟨rfl, rfl⟩ | exact ⟨rfl, rfl, rfl, rfl, rfl⟩

theorem frames_freqCL (m : Memory 32) (s : State) :
    Frames [.table .freqCL] s ({ s with tables := { s.tables with freqCL := m } }) := by
  intro f hf
  cases f with
  | table t => cases t <;> first | rfl | trivial
  | _ => first | rfl | exact ⟨rfl, rfl⟩ | exact ⟨rfl, rfl, rfl, rfl, rfl⟩

theorem frames_lenLL (m : Memory 4) (s : State) :
    Frames [.table .lenLL] s ({ s with tables := { s.tables with lenLL := m } }) := by
  intro f hf
  cases f with
  | table t => cases t <;> first | rfl | trivial
  | _ => first | rfl | exact ⟨rfl, rfl⟩ | exact ⟨rfl, rfl, rfl, rfl, rfl⟩

theorem frames_lenD (m : Memory 4) (s : State) :
    Frames [.table .lenD] s ({ s with tables := { s.tables with lenD := m } }) := by
  intro f hf
  cases f with
  | table t => cases t <;> first | rfl | trivial
  | _ => first | rfl | exact ⟨rfl, rfl⟩ | exact ⟨rfl, rfl, rfl, rfl, rfl⟩

theorem frames_lenCL (m : Memory 4) (s : State) :
    Frames [.table .lenCL] s ({ s with tables := { s.tables with lenCL := m } }) := by
  intro f hf
  cases f with
  | table t => cases t <;> first | rfl | trivial
  | _ => first | rfl | exact ⟨rfl, rfl⟩ | exact ⟨rfl, rfl, rfl, rfl, rfl⟩

theorem frames_codeLL (m : Memory 32) (s : State) :
    Frames [.table .codeLL] s ({ s with tables := { s.tables with codeLL := m } }) := by
  intro f hf
  cases f with
  | table t => cases t <;> first | rfl | trivial
  | _ => first | rfl | exact ⟨rfl, rfl⟩ | exact ⟨rfl, rfl, rfl, rfl, rfl⟩

theorem frames_codeD (m : Memory 32) (s : State) :
    Frames [.table .codeD] s ({ s with tables := { s.tables with codeD := m } }) := by
  intro f hf
  cases f with
  | table t => cases t <;> first | rfl | trivial
  | _ => first | rfl | exact ⟨rfl, rfl⟩ | exact ⟨rfl, rfl, rfl, rfl, rfl⟩

theorem frames_codeCL (m : Memory 32) (s : State) :
    Frames [.table .codeCL] s ({ s with tables := { s.tables with codeCL := m } }) := by
  intro f hf
  cases f with
  | table t => cases t <;> first | rfl | trivial
  | _ => first | rfl | exact ⟨rfl, rfl⟩ | exact ⟨rfl, rfl, rfl, rfl, rfl⟩

theorem frames_packed (m : Memory 16) (s : State) :
    Frames [.table .packed] s ({ s with tables := { s.tables with packed := m } }) := by
  intro f hf
  cases f with
  | table t => cases t <;> first | rfl | trivial
  | _ => first | rfl | exact ⟨rfl, rfl⟩ | exact ⟨rfl, rfl, rfl, rfl, rfl⟩

theorem frames_fname (m : Memory 8) (s : State) :
    Frames [.table .fname] s ({ s with tables := { s.tables with fname := m } }) := by
  intro f hf
  cases f with
  | table t => cases t <;> first | rfl | trivial
  | _ => first | rfl | exact ⟨rfl, rfl⟩ | exact ⟨rfl, rfl, rfl, rfl, rfl⟩

/-! ### Ports, framer and output -/

theorem frames_ite {c : Prop} [Decidable c] {x y : Exec α} {s : State} (hx : c → Frames F s (after (x s)))
    (hy : ¬ c → Frames F s (after (y s))) : Frames F s (after ((if c then x else y) s)) := by
  split
  · exact hx ‹_›
  · exact hy ‹_›

theorem inRead_frames (s : State) : Frames [.inPort, .bytesIn] s (after (inRead s)) := by
  unfold inRead
  split
  · exact frames_take _ _
  · split <;> exact Frames.refl _ _

theorem inAtEnd_frames (s : State) : Frames [.sawEnd] s (after (inAtEnd s)) := by
  unfold inAtEnd
  split
  · exact Frames.refl _ _
  · split
    · exact frames_sawEnd _ _
    · exact Frames.refl _ _

theorem outWrite_frames (b : Byte) (s : State) : Frames outputFields s (after (outWrite b s)) := by
  unfold outWrite
  split
  · exact Frames.refl _ _
  · exact frames_give _ _ _ _
  · exact frames_give_all _ _ _

theorem putBit_frames (b : Bool) (s : State) : Frames writerFields s (after (putBit b s)) := by
  unfold putBit
  rw [getState_bind]
  refine frames_ite (fun _ => ?_) (fun _ => frames_writer _ _ _)
  refine frames_bind ((outWrite_frames _ s).mono (by decide)) fun _ t _ => ?_
  exact frames_writer 0 0 t

theorem getBit_frames (s : State) : Frames readerFields s (after (getBit s)) := by
  unfold getBit bitSource
  refine frames_bind ?_ fun b t _ => ?_
  · rw [getState_bind]
    exact frames_ite (fun _ => (inRead_frames s).mono (by decide)) (fun _ => Frames.refl _ _)
  · rw [change_bind]
    exact (frames_reader _ _ t).mono (by decide)

theorem alignIn_frames (s : State) : Frames [.reader] s (after (alignIn s)) := frames_reader 0 0 s

theorem emitByte_frames (b : Byte) (s : State) :
    Frames (.winCursor :: .table .window :: .crcState :: .rawCount :: outputFields) s
      (after (emitByte b s)) := by
  unfold emitByte
  refine frames_bind ((outWrite_frames _ s).mono (by decide)) fun _ t _ => ?_
  rw [change_run]
  exact ((frames_winAdd b t).mono (by decide)).trans
    (((frames_crc (crcStep t.crcState b) (winAdd b t)).mono (by decide)).trans
      ((frames_raw _ (crcUpdate b (winAdd b t))).mono (by decide)))

/-- A frame that has the reader's fields is kept by the reader. -/
theorem frames_readerGood (h : ∀ f ∈ readerFields, f ∈ F) (s : State) :
    ReaderGood (Frames F s) anyStop :=
  ⟨frames_good getBit_frames h s,
    frames_good alignIn_frames (fun f hf => h f (by rw [List.mem_singleton.1 hf]; decide)) s⟩

/-- A frame that has the writer's fields is kept by the writer. -/
theorem frames_writerGood (h : ∀ f ∈ writerFields, f ∈ F) (s : State) :
    WriterGood (Frames F s) anyStop := fun b => frames_good (putBit_frames b) h s

/-! ### Tables -/

/-- The length table of an alphabet, as a part of State. -/
def lenFieldOf : Alphabet → Field
  | .ll => .table .lenLL
  | .d => .table .lenD
  | .cl => .table .lenCL

/-- The code table of an alphabet, as a part of State. -/
def codeFieldOf : Alphabet → Field
  | .ll => .table .codeLL
  | .d => .table .codeD
  | .cl => .table .codeCL

theorem setLens_frames (a : Alphabet) (l : List Nat) (s : State) :
    Frames [lenFieldOf a] s { s with tables := setLens s.tables a l } := by
  cases a
  · exact frames_lenLL _ s
  · exact frames_lenD _ s
  · exact frames_lenCL _ s

theorem canonTables_frames (a : Alphabet) (s : State) :
    Frames [codeFieldOf a] s { s with tables := canonTables a s.tables } := by
  cases a
  · exact frames_codeLL _ s
  · exact frames_codeD _ s
  · exact frames_codeCL _ s

theorem splitLens_frames (nll nd : Nat) (seq : List Nat) (s : State) :
    Frames [.table .lenLL, .table .lenD] s { s with tables := splitLens nll nd seq s.tables } := by
  intro f hf
  cases f with
  | table t => cases t <;> first | rfl | trivial
  | _ => first | rfl | exact ⟨rfl, rfl⟩ | exact ⟨rfl, rfl, rfl, rfl, rfl⟩

theorem fixedTables_frames (s : State) :
    Frames [.table .lenLL, .table .lenD, .table .codeLL, .table .codeD] s
      { s with tables := fixedTables s.tables } := by
  intro f hf
  cases f with
  | table t => cases t <;> first | rfl | trivial
  | _ => first | rfl | exact ⟨rfl, rfl⟩ | exact ⟨rfl, rfl, rfl, rfl, rfl⟩

theorem packTables_frames (nll nd : Nat) (s : State) :
    Frames [.table .packed, .table .freqCL] s { s with tables := (packTables nll nd s.tables).1 } := by
  intro f hf
  cases f with
  | table t => cases t <;> first | rfl | trivial
  | _ => first | rfl | exact ⟨rfl, rfl⟩ | exact ⟨rfl, rfl, rfl, rfl, rfl⟩

theorem buildLens_frames (a : Alphabet) (limit : Nat) (s : State) :
    Frames [lenFieldOf a] s (after (buildLens a limit s)) := by
  unfold buildLens
  cases hufBuild (freqsOf s.tables a) limit with
  | ok lens => exact setLens_frames _ _ _
  | error e => exact Frames.refl _ _

theorem scrambleLens_frames (a : Alphabet) (s : State) :
    Frames [.draws, lenFieldOf a] s (scrambleLens a s) := by
  cases a <;>
  · intro f hf
    cases f with
    | table t => cases t <;> first | rfl | trivial
    | _ => first | rfl | exact ⟨rfl, rfl⟩ | exact ⟨rfl, rfl, rfl, rfl, rfl⟩ | exact absurd (by decide) hf

theorem buildCodes_frames (a : Alphabet) (limit : Nat) (h : lenFieldOf a ∈ F) (h' : codeFieldOf a ∈ F)
    (s : State) : Good (Frames F s) anyStop (buildCodes a limit) :=
  (frames_good (buildLens_frames a limit) (fun f hf => by rwa [List.mem_singleton.1 hf]) s).bind fun _ =>
    frames_good (x := changeTables (canonTables a)) (canonTables_frames a)
      (fun f hf => by rwa [List.mem_singleton.1 hf]) s

/-- What the tables of a dynamic block are built in (45_deflate.md R262). -/
def buildFields : List Field :=
  [.table .lenLL, .table .codeLL, .table .lenD, .table .codeD, .table .packed, .table .freqCL,
    .table .lenCL, .table .codeCL]

/-- A look at the state, for frames. -/
theorem frames_look {f : State → Exec α} (h : ∀ s, Frames F s (after (f s s))) (s0 : State) :
    Good (Frames F s0) anyStop (getState >>= f) :=
  frames_good (fun s => by rw [getState_bind]; exact h s) (fun _ hf => hf) s0

theorem buildDynamic_frames (h : ∀ f ∈ buildFields, f ∈ F) (s0 : State) :
    Good (Frames F s0) anyStop buildDynamic := by
  have hp : ∀ f ∈ [Field.table .packed, .table .freqCL], f ∈ F := fun f hf =>
    h f ((by decide : ∀ f ∈ [Field.table .packed, .table .freqCL], f ∈ buildFields) f hf)
  unfold buildDynamic
  refine (buildCodes_frames .ll _ (h _ (by decide)) (h _ (by decide)) s0).bind fun _ => ?_
  refine (buildCodes_frames .d _ (h _ (by decide)) (h _ (by decide)) s0).bind fun _ => ?_
  refine frames_look (fun s => ?_) s0
  refine frames_bind ((packTables_frames 286 30 s).mono hp) fun _ t _ => ?_
  exact ((buildCodes_frames .cl _ (h _ (by decide)) (h _ (by decide)) t).bind fun _ => Good.pure _).frames

/-! ### Whole chunks -/

theorem winAddAll_frames (l : List Byte) (s : State) :
    Frames [.winCursor, .table .window] s (winAddAll l s) := by
  induction l generalizing s with
  | nil => exact Frames.refl _ _
  | cons b rest ih => exact (frames_winAdd b s).trans (ih _)

theorem crcAll_frames (l : List Byte) (s : State) : Frames [.crcState] s (crcAll l s) := by
  induction l generalizing s with
  | nil => exact Frames.refl _ _
  | cons b rest ih => exact (frames_crc _ s).trans (ih _)

/-- What pass 1 of the encoder writes (45_deflate.md R261). -/
def tokenFields : List Field :=
  [.tokens, .table .freqLL, .table .freqD, .winCursor, .table .window]

theorem frames_tokens (l : List Token) (s : State) : Frames [.tokens] s { s with tokens := l } := by
  intro f hf
  cases f with
  | table t => cases t <;> first | rfl | trivial
  | _ => first | rfl | exact ⟨rfl, rfl⟩ | exact ⟨rfl, rfl, rfl, rfl, rfl⟩ | exact absurd (by decide) hf

theorem frames_counted (l : List Token) (ll d : Memory 32) (s : State) :
    Frames [.tokens, .table .freqLL, .table .freqD] s
      { s with tokens := l, tables := { s.tables with freqLL := ll, freqD := d } } := by
  intro f hf
  cases f with
  | table t => cases t <;> first | rfl | trivial
  | _ => first | rfl | exact ⟨rfl, rfl⟩ | exact ⟨rfl, rfl, rfl, rfl, rfl⟩ | exact absurd (by decide) hf

theorem addLiteral_frames (i : Nat) (s : State) : Frames tokenFields s (addLiteral i s) := by
  intro f hf
  cases f with
  | table t => cases t <;> first | rfl | trivial
  | _ => first | rfl | exact ⟨rfl, rfl⟩ | exact ⟨rfl, rfl, rfl, rfl, rfl⟩ | exact absurd (by decide) hf

theorem addMatch_frames (i l d : Nat) (s : State) : Frames tokenFields s (addMatch i l d s) := by
  have h := frames_counted (s.tokens ++ [.copy l d])
    (countD (distSym d) (countLL (lenSym l) s.tables)).freqLL
    (countD (distSym d) (countLL (lenSym l) s.tables)).freqD s
  exact (h.mono (by decide)).trans ((winAddAll_frames (chunkBytes s.tables i l) _).mono (by decide))

theorem tokenizeFrom_frames (n turns i : Nat) (s : State) :
    Frames tokenFields s (tokenizeFrom n turns i s) := by
  induction turns generalizing i s with
  | zero => exact Frames.refl _ _
  | succ turns ih =>
    unfold tokenizeFrom
    split
    · dsimp only
      split
      · exact (addMatch_frames _ _ _ s).trans (ih _ _)
      · exact (addLiteral_frames _ s).trans (ih _ _)
    · exact Frames.refl _ _

theorem tokenize_frames (n : Nat) (s : State) : Frames tokenFields s (tokenize n s) := by
  have h := frames_counted [] (.zeros 32) (.zeros 32) s
  refine (h.mono (by decide)).trans ((tokenizeFrom_frames n n 0 _).trans ?_)
  exact (frames_freqLL _ _).mono (by decide)

/-! ### Units and commands -/


theorem frames_blockGood (h : ∀ f ∈ decodeFields, f ∈ F) (s : State) : BlockGood (Frames F s) anyStop := by
  have sub : ∀ l : List Field, (∀ f ∈ l, f ∈ decodeFields) → ∀ f ∈ l, f ∈ F := fun l hl f hf => h f (hl f hf)
  exact
    { toReaderGood := frames_readerGood (sub _ (by decide)) s
      emit := fun b => frames_good (emitByte_frames b) (sub _ (by decide)) s
      bfinal := fun b t ht => ht.trans ((frames_bfinal b t).mono (sub _ (by decide)))
      fixed := fun t ht => ht.trans ((fixedTables_frames t).mono (sub _ (by decide)))
      clearCL := fun t ht => ht.trans ((frames_lenCL _ t).mono (sub _ (by decide)))
      metaLen := fun sym v t _ ht => ht.trans ((frames_lenCL _ t).mono (sub _ (by decide)))
      canon := fun a t ht => ht.trans ((canonTables_frames a t).mono (by cases a <;> exact sub _ (by decide)))
      splitLens := fun nll nd seq t ht => ht.trans ((splitLens_frames nll nd seq t).mono (sub _ (by decide)))
      bound := trivial
      storedLen := trivial
      badSymbol := trivial
      badCodelengths := trivial
      badDistance := trivial
      badBtype := trivial }

theorem frames_decoderGood (h : ∀ f ∈ Field.outCommit :: decodeFields, f ∈ F) (s : State) :
    DecoderGood (Frames F s) anyStop where
  toBlockGood := frames_blockGood (fun f hf => h f (List.mem_cons_of_mem _ hf)) s
  commit t ht := ht.trans ((frames_commit t).mono (by simpa using h .outCommit List.mem_cons_self))

/-- A block that fails writes what decoding writes, and commits nothing (45_deflate.md R281). -/
theorem decBlock_error_frames {s t : State} {e : Stop} (h : decBlock s = .error e t) : Frames decodeFields s t :=
  (decBlock_error (frames_blockGood (fun _ hf => hf) s) (Frames.refl _ s) h).1

/-- What reading a header writes before its registers. -/
def nameFields : List Field := .table .fname :: readerFields

theorem frames_nameGood (h : ∀ f ∈ nameFields, f ∈ F) (s : State) : NameGood (Frames F s) anyStop := by
  have sub : ∀ l : List Field, (∀ f ∈ l, f ∈ nameFields) → ∀ f ∈ l, f ∈ F := fun l hl f hf => h f (hl f hf)
  exact
    { toReaderGood := frames_readerGood (sub _ (by decide)) s
      name := fun k b t _ ht => ht.trans ((frames_fname _ t).mono (sub _ (by decide)))
      bound := trivial, badMagic := trivial, badMethod := trivial, unsupportedFlags := trivial }

theorem frames_headerGood (h : ∀ f ∈ headerFields, f ∈ F) (s : State) : HeaderGood (Frames F s) anyStop where
  toNameGood := frames_nameGood (fun f hf => h f ((by decide : ∀ f ∈ nameFields, f ∈ headerFields) f hf)) s
  header a b c d e f t ht := ht.trans ((frames_header a b c d e f t).mono
    (fun g hg => h g ((by decide : ∀ g ∈ [Field.gzHeader, .fnameTrunc], g ∈ headerFields) g hg)))

/-- A header the reader does not end with has written no register (46_container.md R301; log 10). -/
theorem readHeader_error_frames {s t : State} {e : Stop} (h : readHeader s = .error e t) : Frames nameFields s t :=
  (readHeader_error (frames_nameGood (fun _ hf => hf) s) (Frames.refl _ s) h).1

theorem cfg_of_frames {s t : State} (h : Frames F s t) (hF : Field.cfg ∉ F) : t.cfg = s.cfg := h .cfg hF
theorem params_of_frames {s t : State} (h : Frames F s t) (hF : Field.params ∉ F) : t.params = s.params :=
    h .params hF

theorem btype_of_frames {s t : State} (h : Frames F s t) (hF : Field.cfg ∉ F) : btypeSel t = btypeSel s := by
  unfold btypeSel; rw [cfg_of_frames h hF]

theorem storedFields_sub (b : Nat) : ∀ f ∈ storedFields, f ∈ chunkFields b := by
  intro f hf; unfold chunkFields; split <;> simp [hf]

theorem chunkFields_one_sub {b : Nat} (hb : b ≠ 0) : ∀ f ∈ storedFields ++ fixedFields, f ∈ chunkFields b
    := by
  intro f hf; rw [List.mem_append] at hf; unfold chunkFields
  split
  · exact absurd rfl hb
  · simp [hf]
  · rcases hf with h | h <;> simp [h]

theorem chunkFields_two_sub {b : Nat} (hb : b ≠ 0) (hb1 : b ≠ 1) : ∀ f ∈ storedFields ++ (fixedFields ++
    dynamicFields), f ∈ chunkFields b := by
  intro f hf; unfold chunkFields
  split
  · exact absurd rfl hb
  · exact absurd rfl hb1
  · exact hf

theorem frames_count (bytes : List Byte) (n : Word) (s : State) :
    Frames [.crcState, .rawCount] s { crcAll bytes s with rawCount := n } :=
  ((crcAll_frames bytes s).mono (by decide)).trans ((frames_raw n _).mono (by decide))

theorem raiseIf_ok {c : Prop} [Decidable c] {e : ErrCode} {s t : State} {a : Unit} (h : raiseIf c e s = .ok
    a t) : ¬ c := by
  intro hc
  rw [raiseIf_run, if_pos hc] at h
  exact absurd h (by simp)

theorem raise_bind_good {I : State → Prop} {E : Stop → Prop} {α β} {e : ErrCode} (f : α → Exec β) (he : E
    (.raise e)) : Good I E ((raise e : Exec α) >>= f) :=
  ⟨fun _ hs => ⟨hs, he⟩⟩

theorem frames_encoderGood {b : Nat} (h : ∀ f ∈ chunkFields b, f ∈ F) (hc : .cfg ∉ F) (hp : .params ∉ F) (s
    : State) (hs : btypeSel s = b) :
    EncoderGood s.params b (Frames F s) anyStop := by
  have s0 : ∀ l : List Field, (∀ f ∈ l, f ∈ storedFields) → ∀ f ∈ l, f ∈ F := fun l hl f hf => h f
      (storedFields_sub b f (hl f hf))
  exact
    { params := fun t ht => params_of_frames ht hp
      btype := fun t ht => (btype_of_frames ht hc).trans hs
      put := frames_writerGood (s0 _ (by decide)) s
      count := fun bytes n t ht => ht.trans ((frames_count bytes n t).mono (s0 _ (by decide)))
      window := fun bytes t ht => ht.trans ((winAddAll_frames bytes t).mono (s0 _ (by decide)))
      tokenize := fun hb n t _ ht => ht.trans ((tokenize_frames n t).mono fun f hf => h f
          (chunkFields_one_sub hb f ((by decide : ∀ f ∈ tokenFields, f ∈ storedFields ++ fixedFields) f hf)))
      fixed := fun hb t ht => ht.trans ((fixedTables_frames t).mono fun f hf => h f (chunkFields_one_sub hb
          f ((by decide : ∀ f ∈ [Field.table .lenLL, .table .lenD, .table .codeLL, .table .codeD], f ∈
          storedFields ++ fixedFields) f hf)))
      build := fun hb hb1 => buildDynamic_frames (fun f hf => h f (chunkFields_two_sub hb hb1 f ((by decide
          : ∀ f ∈ buildFields, f ∈ storedFields ++ (fixedFields ++ dynamicFields)) f hf))) s }

theorem frames_streamGood {b : Nat} (h : ∀ f ∈ encodeFields b, f ∈ F) (hc : .cfg ∉ F) (hp : .params ∉ F) (s
    : State) (hs : btypeSel s = b) :
    StreamGood s.params b (Frames F s) anyStop := by
  have sub : ∀ l : List Field, (∀ f ∈ l, f ∈ fillFields) → ∀ f ∈ l, f ∈ F := fun l hl f hf => h f
      (List.mem_append_left _ (hl f hf))
  exact
    { toEncoderGood := frames_encoderGood (fun f hf => h f (List.mem_append_right _ hf)) hc hp s hs
      atEnd := frames_good inAtEnd_frames (sub _ (by decide)) s
      take := frames_good inRead_frames (sub _ (by decide)) s
      fill := fun k b t _ ht => ht.trans ((frames_chunk _ t).mono (sub _ (by decide)))
      bound := trivial }

theorem writeHeader_good {I : State → Prop} {E : Stop → Prop} (h : WriterGood I E) (fn : Bool) (n : Nat) :
    Good I E (writeHeader fn n) :=
  Good.look' fun _ => writeBytes_good h _
theorem writeTrailer_good {I : State → Prop} {E : Stop → Prop} (h : WriterGood I E) : Good I E writeTrailer :=
  (flush_good h).bind fun _ => Good.look' fun _ => (writeInt_good h _).bind fun _ => writeInt_good h _

theorem checkWindow_good {I : State → Prop} {E : Stop → Prop} (h : E (.raise .badConfig)) : Good I E
    checkWindowConfig :=
  Good.look' fun _ => Good.raiseIf fun _ => h
theorem checkEncoder_good {I : State → Prop} {E : Stop → Prop} (h : E (.raise .badConfig)) : Good I E
    checkEncoderConfig :=
  Good.look' fun _ => Good.raiseIf fun _ => h

theorem frames_res {F : List Field} (h0 : .res0 ∈ F) (h1 : .res1 ∈ F) (a b : Word) (s t : State) (ht :
    Frames F s t) : Frames F s (setRes1 b (setRes0 a t)) :=
  ht.trans (((frames_res0 a t).mono (fun f hf => by rwa [List.mem_singleton.1 hf])).trans ((frames_res1 b
      _).mono (fun f hf => by rwa [List.mem_singleton.1 hf])))

theorem headerToRes_frames (h : ∀ f ∈ Field.draws :: headerFields, f ∈ F) (s : State) : Good (Frames F s)
    anyStop headerToRes := by
  have hh := frames_headerGood (fun f hf => h f (List.mem_cons_of_mem _ hf)) s
  refine Good.leaving ((readHeader_good hh).bind fun hd => Good.change fun t ht => ?_) fun t ht => ?_
  · exact frames_res (h _ (by decide)) (h _ (by decide)) _ _ s t ht
  · exact ht.trans ((frames_name t).mono fun f hf => h f ((by decide : ∀ f ∈ [Field.draws, .table .fname],
      f ∈ Field.draws :: headerFields) f hf))

theorem streamInit_mono {b : Nat} : ∀ f ∈ streamFields, f ∈ encodeFields b := by
  intro f hf
  rw [encodeFields, List.mem_append]
  have : f ∈ fillFields ∨ f ∈ storedFields := (by decide : ∀ f ∈ streamFields, f ∈ fillFields ∨ f ∈
      storedFields) f hf
  exact this.imp id (storedFields_sub b f)

theorem encodeFields_no (b : Nat) : Field.cfg ∉ Field.outCommit :: .draws :: encodeFields b ∧ Field.params
    ∉ Field.outCommit :: .draws :: encodeFields b := by
  unfold encodeFields chunkFields
  split <;> decide
theorem chunkFields_no (b : Nat) : Field.cfg ∉ Field.outCommit :: .draws :: chunkFields b ∧ Field.params ∉
    Field.outCommit :: .draws :: chunkFields b := by
  unfold chunkFields
  split <;> decide

theorem ite_frames_good {I : State → Prop} {E : Stop → Prop} {α} {a : Alphabet → Exec α} (sel : Sel) (he :
    E (.raise .badCommand)) (h : ∀ b, selAlphabet sel = some b → Good I E (a b)) :
    Good I E (alphabetOf sel >>= a) := by
  cases sel
  · exact (Good.pure _).bindOf fun s b t _ hx => by cases hx; exact h _ rfl
  · exact (Good.pure _).bindOf fun s b t _ hx => by cases hx; exact h _ rfl
  · exact (Good.pure _).bindOf fun s b t _ hx => by cases hx; exact h _ rfl
  · exact raise_bind_good _ he

theorem steps_frames (i : Instr) (hi : i ≠ .reset) (s : State) :
    Good (Frames (Field.engine :: .errinfo :: .outCommit :: .draws :: writes (btypeSel s) i) s) anyStop
        (stepsOf i) := by
  generalize hG : Field.engine :: .errinfo :: .outCommit :: .draws :: writes (btypeSel s) i = G
  have sub : ∀ l : List Field, (∀ f ∈ l, f ∈ Field.engine :: .errinfo :: .outCommit :: .draws :: writes
      (btypeSel s) i) → ∀ f ∈ l, f ∈ G := fun l hl f hf => hG ▸ hl f hf
  cases i with
  | nop => exact Good.pure _
  | reset => exact absurd rfl hi
  | clearErr => exact Good.change fun t ht => ht.trans ((frames_leaveError t).mono (sub _ (by simp)))
  | streamInit =>
    exact Good.change fun t ht => ht.trans ((frames_streamInit t).mono (sub _ (by simp +contextual [writes])))
  | tblRead x =>
    exact Good.look' fun _ => (Good.raiseIf fun _ => trivial).bind fun _ => Good.change fun t ht =>
        ht.trans ((frames_res0 _ t).mono (sub _ (by simp +contextual [writes])))
  | tblWrite x =>
    refine Good.look' fun _ => (Good.raiseIf fun _ => trivial).bind fun _ => (Good.raiseIf fun _ =>
        trivial).bind fun _ => Good.change fun t ht => ht.trans (Frames.mono (F := [.table x]) ?_ (sub _
        (by simp +contextual [writes])))
    cases x <;>
    · intro f hf
      cases f with
      | table t => cases t <;> first | rfl | trivial
      | _ => first | rfl | exact ⟨rfl, rfl⟩ | exact ⟨rfl, rfl, rfl, rfl, rfl⟩
  | bwBits n =>
    exact (Good.raiseIf fun _ => trivial).bind fun _ => Good.look' fun _ => writeBits_good
        (frames_writerGood (sub _ (by simp +contextual [writes])) s) _ _
  | bwBitsR n =>
    exact (Good.raiseIf fun _ => trivial).bind fun _ => Good.look' fun _ => writeBitsR_good
        (frames_writerGood (sub _ (by simp +contextual [writes])) s) _ _
  | bwFlush => exact flush_good (frames_writerGood (sub _ (by simp +contextual [writes])) s)
  | bwByte =>
    exact Good.look' fun _ => writeBits_good (frames_writerGood (sub _ (by simp +contextual [writes])) s) _ _
  | bwShort =>
    exact Good.look' fun _ => writeBits_good (frames_writerGood (sub _ (by simp +contextual [writes])) s) _ _
  | bwInt =>
    exact Good.look' fun _ => writeBits_good (frames_writerGood (sub _ (by simp +contextual [writes])) s) _ _
  | brBits n =>
    exact (Good.raiseIf fun _ => trivial).bind fun _ => (readBits_good (frames_readerGood (sub _ (by simp +contextual [writes])) s) _).bind fun _ => Good.change fun t ht => ht.trans ((frames_res0 _ t).mono
        (sub _ (by simp +contextual [writes])))
  | brByte =>
    exact (readBits_good (frames_readerGood (sub _ (by simp +contextual [writes])) s) _).bind fun _ =>
        Good.change fun t ht => ht.trans ((frames_res0 _ t).mono (sub _ (by simp +contextual [writes])))
  | brShort =>
    exact (readBits_good (frames_readerGood (sub _ (by simp +contextual [writes])) s) _).bind fun _ =>
        Good.change fun t ht => ht.trans ((frames_res0 _ t).mono (sub _ (by simp +contextual [writes])))
  | brInt =>
    exact (readBits_good (frames_readerGood (sub _ (by simp +contextual [writes])) s) _).bind fun _ =>
        Good.change fun t ht => ht.trans ((frames_res0 _ t).mono (sub _ (by simp +contextual [writes])))
  | brAlign =>
    exact (frames_good alignIn_frames (sub _ (by simp +contextual [writes])) s).bind fun _ => Good.change
        fun t ht => ht.trans ((frames_res0 _ t).mono (sub _ (by simp +contextual [writes])))
  | crcInit =>
    exact Good.change fun t ht => ht.trans ((frames_crc _ t).mono (sub _ (by simp +contextual [writes])))
  | crcUpdate =>
    exact Good.change fun t ht => ht.trans ((frames_crc _ t).mono (sub _ (by simp +contextual [writes])))
  | winReset =>
    exact (checkWindow_good trivial).bind fun _ => Good.change fun t ht => ht.trans ((frames_winReset
        t).mono (sub _ (by simp +contextual [writes])))
  | winAdd =>
    exact (checkWindow_good trivial).bind fun _ => Good.change fun t ht => ht.trans ((frames_winAdd _
        t).mono (sub _ (by simp +contextual [writes])))
  | winFind =>
    exact Good.look' fun _ => (Good.raiseIf fun _ => trivial).bind fun _ => (checkWindow_good trivial).bind
        fun _ => Good.change fun t ht => frames_res (sub [.res0] (by simp +contextual [writes]) _ (by
        simp)) (sub [.res1] (by simp +contextual [writes]) _ (by simp)) _ _ s t ht
  | hufBuild sel limit =>
    refine ite_frames_good sel trivial fun a ha => (Good.raiseIf fun _ => trivial).bind fun _ =>
        Good.leaving (frames_good (buildLens_frames a limit) (sub _ ?_) s) fun t ht => ht.trans
        ((scrambleLens_frames a t).mono (sub _ ?_))
    · cases sel <;> cases ha <;> simp [writes, lenField, lenFieldOf]
    · cases sel <;> cases ha <;> simp [writes, lenField, lenFieldOf]
  | hufCanon sel =>
    refine ite_frames_good sel trivial fun a ha => frames_good (x := changeTables (canonTables a))
        (canonTables_frames a) (sub _ ?_) s
    cases sel <;> cases ha <;> simp [writes, codeField, codeFieldOf]
  | hufFixed =>
    exact frames_good (x := changeTables fixedTables) fixedTables_frames (sub _ (by simp +contextual
        [writes])) s
  | hufDecode sel =>
    exact ite_frames_good sel trivial fun a _ => (hufDecode_good (frames_readerGood (sub _ (by simp +contextual [writes])) s) trivial a).bind fun _ => Good.change fun t ht => ht.trans ((frames_res0 _
        t).mono (sub _ (by simp +contextual [writes])))
  | clPack =>
    refine frames_good (fun t => ?_) (sub [.table .packed, .table .freqCL, .res0] (by simp [writes])) s
    change Frames _ t (after (clPackSteps t))
    unfold clPackSteps
    rw [getState_bind, raiseIf_bind]
    split
    · exact Frames.refl _ _
    · exact ((packTables_frames _ _ t).mono (by decide)).trans ((frames_res0 _ _).mono (by decide))
  | clUnpack =>
    refine Good.look' fun t => (Good.raiseIf fun _ => trivial).bind fun _ => ?_
    dsimp only
    split
    · exact Good.raise trivial
    · exact frames_good (x := changeTables _) (splitLens_frames _ _ _) (sub _ (by simp +contextual
        [writes])) s
  | defEncChunk final =>
    have hG' := chunkFields_no (btypeSel s)
    have hp : Field.params ∉ G := by subst hG; simp_all [writes]
    have he := frames_encoderGood (F := G) (sub _ (by simp +contextual [writes])) (by subst hG; simp_all
        [writes]) hp s rfl
    change Good _ _ (defEncChunkSteps final)
    refine ⟨fun t ht => ?_⟩
    unfold defEncChunkSteps
    rw [getState_bind, params_of_frames ht hp]
    refine Good.run ?_ t ht
    refine (Good.raiseIf fun _ => trivial).bindOf fun s1 a t1 _ hx => ?_
    refine (checkEncoder_good trivial).bind fun _ => encChunk_good he _ final ?_
    have := raiseIf_ok hx
    omega
  | defEncStream =>
    have hG' := encodeFields_no (btypeSel s)
    have hs := frames_streamGood (F := G) (sub _ (by simp +contextual [writes])) (by subst hG; simp_all
        [writes]) (by subst hG; simp_all [writes]) s rfl
    exact (checkEncoder_good trivial).bind fun _ => (Good.change fun t ht => ht.trans ((frames_streamInit
        t).mono (sub _ (fun f hf => by simp [writes, streamInit_mono f hf])))).bind fun _ =>
        encStreamBody_good hs
  | defDecBlock =>
    have hd := frames_decoderGood (F := G) (sub _ (by simp +contextual [writes])) s
    refine (checkWindow_good trivial).bind fun _ => Good.leaving ?_ fun t ht => ht.trans ((frames_decoder
        t).mono (sub _ (by simp [writes, decodeFields])))
    exact (decBlock_good hd).bind fun _ => Good.change fun t ht => frames_res (sub [.res0] (by simp
        [writes]) _ (by simp)) (sub [.res1] (by simp [writes]) _ (by simp)) _ _ s t ht
  | defDecStream =>
    have hd := frames_decoderGood (F := G) (sub _ (by simp +contextual [writes])) s
    refine (checkWindow_good trivial).bind fun _ => Good.leaving ?_ fun t ht => ht.trans ((frames_decoder
        t).mono (sub _ (by simp [writes, decodeFields])))
    exact (Good.change fun t ht => ht.trans ((frames_streamInit t).mono (sub _ (by simp [writes,
        streamFields, decodeFields])))).bind fun _ => (decStreamBody_good hd).bind fun _ => Good.change fun
        t ht => ht.trans ((frames_res0 _ t).mono (sub _ (by simp +contextual [writes])))
  | gzWrHeader fn =>
    exact Good.look' fun _ => (Good.raiseIf fun _ => trivial).bind fun _ => writeHeader_good
        (frames_writerGood (sub _ (by simp +contextual [writes])) s) _ _
  | gzRdHeader => exact headerToRes_frames (sub _ (by simp +contextual [writes])) s
  | gzWrTrailer => exact writeTrailer_good (frames_writerGood (sub _ (by simp +contextual [writes])) s)
  | gzRdTrailer =>
    refine Good.leaving (readTrailer_good (frames_readerGood (sub _ (by simp +contextual [writes])) s) (fun
        c z t ht => ht.trans ((frames_trailer c z t).mono (sub _ (by simp [writes])))) trivial trivial) fun
        t ht => ht.trans ((frames_scrambleTrailer t).mono (sub _ (by simp [writes])))
  | gzCompress fn =>
    have hG' := encodeFields_no (btypeSel s)
    have hs := frames_streamGood (F := G) (sub _ (by simp +contextual [writes])) (by subst hG; simp_all
        [writes]) (by subst hG; simp_all [writes]) s rfl
    exact Good.look' fun _ => (Good.raiseIf fun _ => trivial).bind fun _ => (checkEncoder_good
        trivial).bind fun _ => (Good.change fun t ht => ht.trans ((frames_streamInit t).mono (sub _ (fun f
        hf => by simp [writes, streamInit_mono f hf])))).bind fun _ => (writeHeader_good hs.put _ _).bind
        fun _ => (encStreamBody_good hs).bind fun _ => writeTrailer_good hs.put
  | gzDecompress =>
    have hd := frames_decoderGood (F := G) (sub _ (by simp +contextual [writes])) s
    refine (checkWindow_good trivial).bind fun _ => Good.leaving ?_ fun t ht => (ht.trans ((frames_decoder
        t).mono (sub _ (by simp [writes, decodeFields])))).trans ((frames_scrambleTrailer _).mono (sub _
        (by simp [writes])))
    refine (Good.change fun t ht => ht.trans ((frames_streamInit t).mono (sub _ (by simp [writes,
        streamFields, decodeFields])))).bind fun _ => ?_
    refine (headerToRes_frames (sub _ (by simp +contextual [writes])) s).bind fun _ => ?_
    refine Good.leaving ((decStreamBody_good hd).bind fun _ => readTrailer_good hd.toReaderGood (fun c z t
        ht => ht.trans ((frames_trailer c z t).mono (sub _ (by simp [writes])))) trivial trivial) fun t ht
        => ?_
    exact (ht.trans ((frames_name t).mono (sub _ (by simp [writes, headerFields])))).trans
        ((frames_scrambleHeader _).mono (sub _ (by simp [writes, headerFields])))

/-! ### Ends of commands -/

theorem leaving_ok {f : State → State} {x : Exec α} {s t : State} {a : α} (h : x s = .ok a t) :
    leavingUnspecified f x s = .ok a t := by
  unfold leavingUnspecified
  rw [h]

theorem leaving_raise {f : State → State} {x : Exec α} {s t : State} {e : ErrCode} (h : x s = .error (.raise e) t) :
    leavingUnspecified f x s = .error (.raise e) (f t) := by
  unfold leavingUnspecified
  rw [h]

theorem checkWindow_ok {s : State} (h : winLog2 s ≠ 0) : checkWindowConfig s = .ok () s := by
  rw [checkWindowConfig, getState_bind, raiseIf_run, if_neg h]

theorem checkEncoder_ok {s : State} (h1 : btypeSel s ≠ 3) (h2 : winLog2 s ≠ 0) : checkEncoderConfig s = .ok () s := by
  rw [checkEncoderConfig, getState_bind, raiseIf_run, if_neg (by simp [h1, h2])]

/-- A command whose steps end completes; what it keeps of ERRINFO and of the draws is what its steps keep. -/
theorem completed_of_frames {s t : State} (h : Frames F s t) (h1 : Field.errinfo ∉ F) (h2 : Field.draws ∉ F) :
    Completed s (complete t) :=
  ⟨rfl, rfl, rfl, h .errinfo h1, rfl, h .draws h2⟩

/-- A command that raises leaves ERROR as R335 says, where its steps keep CMD. -/
theorem raised_of_frames {s t : State} {e : ErrCode} (h : Frames F s t) (h1 : Field.cmd ∉ F) :
    Raised e s (enterError e t) :=
  ⟨rfl, rfl, by show errorInfo t.cmd e = _; rw [show t.cmd = s.cmd from h .cmd h1], rfl⟩

end Sys2Proof.Machine
end

