-- ==== Sys2Proof/Laws/Huffman.lean ====
section
/-! SUPPORT. Laws of the Huffman unit (44_huffman.md): the tree a build makes is full and has the right
    leaves,
depth limiting ends, and the canonical codes in closed form. -/

namespace Sys2Proof.Machine

open List (Perm)

/-! ### Lists -/

theorem le_maxOf {l : List Nat} {x : Nat} (h : x ∈ l) : x ≤ maxOf l := by
  induction l with
  | nil => simp at h
  | cons y rest ih =>
    have hd : maxOf (y :: rest) = max y (maxOf rest) := rfl
    rcases List.mem_cons.1 h with rfl | h
    · rw [hd]; exact le_max_left _ _
    · rw [hd]; exact (ih h).trans (le_max_right _ _)

theorem maxOf_mem {l : List Nat} (h : l ≠ []) : maxOf l ∈ l := by
  induction l with
  | nil => exact absurd rfl h
  | cons y rest ih =>
    have hd : maxOf (y :: rest) = max y (maxOf rest) := rfl
    by_cases hr : rest = []
    · subst hr
      simp [maxOf]
    · rw [hd]
      rcases le_total y (maxOf rest) with h | h
      · rw [max_eq_right h]; exact List.mem_cons_of_mem _ (ih hr)
      · rw [max_eq_left h]; exact List.mem_cons_self

theorem minOf_mem {l : List Nat} (h : l ≠ []) : minOf l ∈ l := by
  match l with
  | [] => exact absurd rfl h
  | [x] => simp [minOf]
  | x :: y :: rest =>
    rw [minOf]
    rcases le_total x (minOf (y :: rest)) with h | h
    · rw [min_eq_left h]; exact List.mem_cons_self
    · rw [min_eq_right h]; exact List.mem_cons_of_mem _ (minOf_mem (by simp))

/-! ### Trees (44_huffman.md R222, R223) -/

/-- The symbols of a tree's leaves, left to right. -/
def HufTree.syms : HufTree → List Nat
  | .leaf s => [s]
  | .node l r => l.syms ++ r.syms

theorem depths_syms (t : HufTree) (d : Nat) : (t.depths d).map Prod.fst = t.syms := by
  induction t generalizing d with
  | leaf s => rfl
  | node l r ihl ihr => simp [HufTree.depths, HufTree.syms, ihl, ihr]

theorem depths_ne_nil (t : HufTree) (d : Nat) : t.depths d ≠ [] := by
  induction t generalizing d with
  | leaf s => simp [HufTree.depths]
  | node l r ihl _ => simp [HufTree.depths, ihl]

theorem depths_ge {t : HufTree} {d : Nat} {x : Nat × Nat} (h : x ∈ t.depths d) : d ≤ x.2 := by
  induction t generalizing d with
  | leaf s => simp only [HufTree.depths, List.mem_singleton] at h; subst h; exact le_refl _
  | node l r ihl ihr =>
    simp only [HufTree.depths, List.mem_append] at h
    rcases h with h | h
    · have := ihl h; omega
    · have := ihr h; omega

/-- A full tree satisfies Kraft with equality (44_huffman.md R226). -/
theorem depths_kraft (t : HufTree) (d limit : Nat) (h : ∀ x ∈ t.depths d, x.2 ≤ limit) :
    ((t.depths d).map (fun x => 2 ^ (limit - x.2))).sum = 2 ^ (limit - d) := by
  induction t generalizing d with
  | leaf s => simp [HufTree.depths]
  | node l r ihl ihr =>
    have hl : ∀ x ∈ l.depths (d + 1), x.2 ≤ limit := fun x hx => h x (by simp [HufTree.depths, hx])
    have hr : ∀ x ∈ r.depths (d + 1), x.2 ≤ limit := fun x hx => h x (by simp [HufTree.depths, hx])
    obtain ⟨x, hx⟩ := List.exists_mem_of_ne_nil _ (depths_ne_nil l (d + 1))
    have h1 := hl x hx
    have h2 := depths_ge hx
    have e : 2 ^ (limit - d) = 2 ^ (limit - (d + 1)) + 2 ^ (limit - (d + 1)) := by
      rw [show limit - d = (limit - (d + 1)) + 1 by omega]; ring
    simp only [HufTree.depths, List.map_append, List.sum_append, ihl _ hl, ihr _ hr, e]

theorem isLeaf_iff {t : HufTree} {a : Nat} : t.isLeaf a = true ↔ t = .leaf a := by
  cases t with
  | leaf s => simp [HufTree.isLeaf]
  | node l r => simp [HufTree.isLeaf]

theorem detach_of_not_mem {t : HufTree} {a : Nat} (h : a ∉ t.syms) : t.detach a = t := by
  induction t with
  | leaf s => rfl
  | node l r ihl ihr =>
    simp only [HufTree.syms, List.mem_append, not_or] at h
    have hl : l.isLeaf a = false := by
      cases e : l.isLeaf a with
      | false => rfl
      | true => rw [isLeaf_iff.1 e] at h; simp [HufTree.syms] at h
    have hr : r.isLeaf a = false := by
      cases e : r.isLeaf a with
      | false => rfl
      | true => rw [isLeaf_iff.1 e] at h; simp [HufTree.syms] at h
    simp [HufTree.detach, hl, hr, ihl h.1, ihr h.2]

theorem attach_of_not_mem {t : HufTree} {a c : Nat} (h : c ∉ t.syms) : t.attach c a = t := by
  induction t with
  | leaf s =>
    have : s ≠ c := fun e => h (by simp [HufTree.syms, e])
    simp [HufTree.attach, this]
  | node l r ihl ihr =>
    simp only [HufTree.syms, List.mem_append, not_or] at h
    simp [HufTree.attach, ihl h.1, ihr h.2]

/-- A tree whose leaves are all no deeper than its root is a leaf. -/
theorem leaf_of_depths {t : HufTree} {d : Nat} (h : ∀ x ∈ t.depths d, x.2 ≤ d) : ∃ s, t = .leaf s := by
  cases t with
  | leaf s => exact ⟨s, rfl⟩
  | node l r =>
    obtain ⟨x, hx⟩ := List.exists_mem_of_ne_nil _ (depths_ne_nil l (d + 1))
    have h1 := h x (by simp [HufTree.depths, hx])
    have h2 := depths_ge hx
    omega

theorem mem_syms_of_mem_depths {t : HufTree} {d : Nat} {x : Nat × Nat} (h : x ∈ t.depths d) :
    x.1 ∈ t.syms := by
  rw [← depths_syms t d]
  exact List.mem_map_of_mem h

/-- Detaching a deepest leaf moves its sibling, a leaf, up by one (44_huffman.md R224). -/
theorem detach_depths {t : HufTree} {d D a : Nat} (hn : t.syms.Nodup) (hD : ∀ x ∈ t.depths d, x.2 ≤ D)
    (ha : (a, D) ∈ t.depths d) (hd : d < D) :
    ∃ b rest, Perm (t.depths d) ((a, D) :: (b, D) :: rest) ∧
      Perm ((t.detach a).depths d) ((b, D - 1) :: rest) := by
  induction t generalizing d with
  | leaf s =>
    simp only [HufTree.depths, List.mem_singleton, Prod.mk.injEq] at ha
    omega
  | node l r ihl ihr =>
    simp only [HufTree.syms] at hn
    have hnl := (List.nodup_append.1 hn).1
    have hnr := (List.nodup_append.1 hn).2.1
    have hdis := (List.nodup_append.1 hn).2.2
    have hDl : ∀ x ∈ l.depths (d + 1), x.2 ≤ D := fun x hx => hD x (by simp [HufTree.depths, hx])
    have hDr : ∀ x ∈ r.depths (d + 1), x.2 ≤ D := fun x hx => hD x (by simp [HufTree.depths, hx])
    by_cases hl : l.isLeaf a = true
    · have el := isLeaf_iff.1 hl
      subst el
      have haD : D = d + 1 := by
        have hr' : (a, D) ∉ r.depths (d + 1) := fun h =>
          hdis a (by simp [HufTree.syms]) a (mem_syms_of_mem_depths h) rfl
        simp only [HufTree.depths, List.mem_append, List.mem_singleton, Prod.mk.injEq, true_and] at ha
        rcases ha with h | h
        · exact h
        · exact absurd h hr'
      subst haD
      obtain ⟨b, rfl⟩ := leaf_of_depths hDr
      exact ⟨b, [], by simp [HufTree.depths], by simp [HufTree.detach, HufTree.isLeaf, HufTree.depths]⟩
    · by_cases hr : r.isLeaf a = true
      · have er := isLeaf_iff.1 hr
        subst er
        have haD : D = d + 1 := by
          have hl' : (a, D) ∉ l.depths (d + 1) := fun h =>
            hdis a (mem_syms_of_mem_depths h) a (by simp [HufTree.syms]) rfl
          simp only [HufTree.depths, List.mem_append, List.mem_singleton, Prod.mk.injEq, true_and] at ha
          rcases ha with h | h
          · exact absurd h hl'
          · exact h
        subst haD
        obtain ⟨b, rfl⟩ := leaf_of_depths hDl
        have hab : ¬ b = a := by
          intro e; subst e; exact hl (isLeaf_iff.2 rfl)
        refine ⟨b, [], ?_, ?_⟩
        · simpa [HufTree.depths] using List.Perm.swap _ _ _
        · simp [HufTree.detach, HufTree.isLeaf, HufTree.depths, hab]
      · have hstep : (HufTree.node l r).detach a = .node (l.detach a) (r.detach a) := by
          simp [HufTree.detach, hl, hr]
        simp only [HufTree.depths, List.mem_append] at ha
        rcases ha with ha | ha
        · have hd1 : d + 1 < D := by
            by_contra hc
            have : D = d + 1 := by have := depths_ge ha; have := hDl _ ha; simp only at this; omega
            obtain ⟨s, rfl⟩ := leaf_of_depths (t := l) (d := d + 1) (fun x hx => by have := hDl x hx; omega)
            simp only [HufTree.depths, List.mem_singleton, Prod.mk.injEq] at ha
            exact hl (isLeaf_iff.2 (by rw [ha.1]))
          obtain ⟨b, rest, p1, p2⟩ := ihl hnl hDl ha hd1
          have hr' : r.detach a = r := detach_of_not_mem fun h =>
            hdis a (mem_syms_of_mem_depths ha) a h rfl
          refine ⟨b, rest ++ r.depths (d + 1), ?_, ?_⟩
          · simpa [HufTree.depths] using p1.append_right (r.depths (d + 1))
          · rw [hstep, hr']
            simpa [HufTree.depths] using p2.append_right (r.depths (d + 1))
        · have hd1 : d + 1 < D := by
            by_contra hc
            have : D = d + 1 := by have := depths_ge ha; have := hDr _ ha; simp only at this; omega
            obtain ⟨s, rfl⟩ := leaf_of_depths (t := r) (d := d + 1) (fun x hx => by have := hDr x hx; omega)
            simp only [HufTree.depths, List.mem_singleton, Prod.mk.injEq] at ha
            exact hr (isLeaf_iff.2 (by rw [ha.1]))
          obtain ⟨b, rest, p1, p2⟩ := ihr hnr hDr ha hd1
          have hl' : l.detach a = l := detach_of_not_mem fun h =>
            hdis a h a (mem_syms_of_mem_depths ha) rfl
          refine ⟨b, l.depths (d + 1) ++ rest, ?_, ?_⟩
          · simp only [HufTree.depths]
            refine (p1.append_left (l.depths (d + 1))).trans ?_
            refine List.perm_middle.trans (List.Perm.cons _ ?_)
            exact List.perm_middle
          · rw [hstep, hl']
            simp only [HufTree.depths]
            exact (p2.append_left (l.depths (d + 1))).trans List.perm_middle

/-- Attaching a leaf next to a leaf `c` puts both one deeper than `c` was (44_huffman.md R224). -/
theorem attach_depths {t : HufTree} {d k a c : Nat} (hn : t.syms.Nodup) (hc : (c, k) ∈ t.depths d) :
    ∃ rest, Perm (t.depths d) ((c, k) :: rest) ∧
      Perm ((t.attach c a).depths d) ((c, k + 1) :: (a, k + 1) :: rest) := by
  induction t generalizing d with
  | leaf s =>
    simp only [HufTree.depths, List.mem_singleton, Prod.mk.injEq] at hc
    obtain ⟨rfl, rfl⟩ := hc
    exact ⟨[], by simp [HufTree.depths], by simp [HufTree.attach, HufTree.depths]⟩
  | node l r ihl ihr =>
    simp only [HufTree.syms] at hn
    have hnl := (List.nodup_append.1 hn).1
    have hnr := (List.nodup_append.1 hn).2.1
    have hdis := (List.nodup_append.1 hn).2.2
    simp only [HufTree.depths, List.mem_append] at hc
    rcases hc with hc | hc
    · obtain ⟨rest, p1, p2⟩ := ihl hnl hc
      have hr' : r.attach c a = r := attach_of_not_mem fun h => hdis c (mem_syms_of_mem_depths hc) c h rfl
      refine ⟨rest ++ r.depths (d + 1), ?_, ?_⟩
      · simpa [HufTree.depths] using p1.append_right (r.depths (d + 1))
      · simpa [HufTree.depths, HufTree.attach, hr'] using p2.append_right (r.depths (d + 1))
    · obtain ⟨rest, p1, p2⟩ := ihr hnr hc
      have hl' : l.attach c a = l := attach_of_not_mem fun h => hdis c h c (mem_syms_of_mem_depths hc) rfl
      refine ⟨l.depths (d + 1) ++ rest, ?_, ?_⟩
      · simp only [HufTree.depths]
        exact (p1.append_left (l.depths (d + 1))).trans List.perm_middle
      · simp only [HufTree.depths, HufTree.attach, hl']
        refine (p2.append_left (l.depths (d + 1))).trans ?_
        exact List.perm_middle.trans (List.Perm.cons _ List.perm_middle)

theorem lowestAt_mem {l : List (Nat × Nat)} {d : Nat} (h : ∃ x ∈ l, x.2 = d) : (lowestAt l d, d) ∈ l := by
  have hne : (l.filter (fun x => x.2 = d)).map Prod.fst ≠ [] := by
    obtain ⟨x, hx, e⟩ := h
    intro h0
    have : x.1 ∈ (l.filter (fun x => x.2 = d)).map Prod.fst :=
      List.mem_map_of_mem (List.mem_filter.2 ⟨hx, by simp [e]⟩)
    rw [h0] at this
    simp at this
  have := minOf_mem hne
  obtain ⟨y, hy, e⟩ := List.mem_map.1 this
  have hy' := List.mem_filter.1 hy
  have e2 : y.2 = d := by simpa using hy'.2
  unfold lowestAt
  rw [← e, ← e2]
  exact hy'.1

theorem maxDepth_spec (t : HufTree) :
    (∀ x ∈ t.depths 0, x.2 ≤ t.maxDepth) ∧ ∃ x ∈ t.depths 0, x.2 = t.maxDepth := by
  constructor
  · intro x hx
    exact le_maxOf (List.mem_map_of_mem hx)
  · have := maxOf_mem (l := (t.depths 0).map Prod.snd) (by simpa using depths_ne_nil t 0)
    obtain ⟨x, hx, e⟩ := List.mem_map.1 this
    exact ⟨x, hx, e⟩

/-- One turn of depth limiting, said once (44_huffman.md R224, R225): either no leaf is at depth
`limit` - 2 or less once the deepest leaf is detached, or the tree has the same leaves and is less deep. -/
theorem rebalance_cases {t : HufTree} {limit : Nat} (hn : t.syms.Nodup) (hL : 1 ≤ limit)
    (hd : limit < t.maxDepth) :
    (rebalance limit t = none ∧ 2 ^ (limit - 1) < t.syms.length) ∨
    (∃ t', rebalance limit t = some t' ∧ Perm t'.syms t.syms ∧
      excessDepth limit t' < excessDepth limit t) := by
  obtain ⟨hmax, hex⟩ := maxDepth_spec t
  have ha := lowestAt_mem hex
  obtain ⟨b, rest, p1, p2⟩ := detach_depths (a := lowestAt (t.depths 0) t.maxDepth) hn hmax ha (by omega)
  set a := lowestAt (t.depths 0) t.maxDepth with hadef
  set D := t.maxDepth with hD
  set t1 := t.detach a with ht1
  have ps : Perm t.syms (a :: b :: rest.map Prod.fst) := by
    have := p1.map Prod.fst
    rwa [depths_syms] at this
  have ps1 : Perm t1.syms (b :: rest.map Prod.fst) := by
    have := p2.map Prod.fst
    rwa [depths_syms] at this
  have hn1 : t1.syms.Nodup := by
    rw [ps1.nodup_iff]
    exact (List.nodup_cons.1 (ps.nodup_iff.1 hn)).2
  by_cases hc : ((t1.depths 0).filter (fun x => x.2 + 2 ≤ limit)).isEmpty = true
  · left
    refine ⟨by simp only [rebalance]; rw [if_pos hc], ?_⟩
    have hall : ∀ x ∈ t1.depths 0, limit - 1 ≤ x.2 := by
      intro x hx
      rw [List.isEmpty_iff, List.filter_eq_nil_iff] at hc
      have := hc x hx
      simp only [decide_eq_true_eq] at this
      omega
    have hle : ∀ x ∈ t1.depths 0, x.2 ≤ D := by
      intro x hx
      rcases List.mem_cons.1 (p2.mem_iff.1 hx) with rfl | hx
      · simp
      · exact hmax x (p1.mem_iff.2 (by simp [hx]))
    have hk := depths_kraft t1 0 D hle
    have hsum : ((t1.depths 0).map (fun x => 2 ^ (D - x.2))).sum
        ≤ (t1.depths 0).length * 2 ^ (D - (limit - 1)) := by
      rw [← List.length_map (f := fun x : Nat × Nat => 2 ^ (D - x.2))]
      refine List.sum_le_card_nsmul _ _ fun y hy => ?_
      obtain ⟨x, hx, rfl⟩ := List.mem_map.1 hy
      exact Nat.pow_le_pow_right (by omega) (by have := hall x hx; omega)
    rw [hk] at hsum
    have hlen : (t1.depths 0).length + 1 = t.syms.length := by
      have h1 := p2.length_eq
      have h2 := ps.length_eq
      simp only [List.length_cons, List.length_map] at h1 h2
      omega
    have e : 2 ^ (D - 0) = 2 ^ (limit - 1) * 2 ^ (D - (limit - 1)) := by
      rw [← pow_add]; congr 1; omega
    rw [e] at hsum
    have := Nat.le_of_mul_le_mul_right hsum (by positivity)
    omega
  · right
    have hne : ((t1.depths 0).filter (fun x => x.2 + 2 ≤ limit)) ≠ [] := by
      intro h0; exact hc (by rw [h0]; rfl)
    set cs := (t1.depths 0).filter (fun x => x.2 + 2 ≤ limit) with hcs
    have hcm : ∃ x ∈ cs, x.2 = maxOf (cs.map Prod.snd) := by
      have := maxOf_mem (l := cs.map Prod.snd) (by simpa using hne)
      obtain ⟨x, hx, e⟩ := List.mem_map.1 this
      exact ⟨x, hx, e⟩
    have hcmem := lowestAt_mem hcm
    set k := maxOf (cs.map Prod.snd) with hk
    have hc1 := List.mem_filter.1 hcmem
    have hk2 : k + 2 ≤ limit := by simpa using hc1.2
    obtain ⟨rest', q1, q2⟩ := attach_depths (a := a) hn1 hc1.1
    refine ⟨t1.attach (lowestAt cs k) a, by simp only [rebalance]; rw [if_neg hc], ?_, ?_⟩
    · have e1 := q1.map Prod.fst
      have e2 := q2.map Prod.fst
      rw [depths_syms] at e1 e2
      simp only [List.map_cons] at e1 e2
      refine e2.trans ((List.Perm.swap _ _ _).trans ?_)
      exact ((e1.symm.trans ps1).cons a).trans ps.symm
    · have s0 := ((p1.map (fun x : Nat × Nat => x.2 - (limit - 1))).sum_eq)
      have s1 := ((p2.map (fun x : Nat × Nat => x.2 - (limit - 1))).sum_eq)
      have s2 := ((q1.map (fun x : Nat × Nat => x.2 - (limit - 1))).sum_eq)
      have s3 := ((q2.map (fun x : Nat × Nat => x.2 - (limit - 1))).sum_eq)
      simp only [List.map_cons, List.sum_cons] at s0 s1 s2 s3
      simp only [excessDepth]
      omega

/-- Depth limiting ends with a tree of the same leaves that is deep enough for no code to be longer than
the limit, or fails, which it does only with more than 2^(limit - 1) leaves (44_huffman.md R225). -/
theorem limitDepth_cases {limit : Nat} (hL : 1 ≤ limit) (turns : Nat) (t : HufTree)
    (hn : t.syms.Nodup) (ht : excessDepth limit t ≤ turns) :
    (∃ t', limitDepth limit turns t = .ok t' ∧ Perm t'.syms t.syms ∧ t'.maxDepth ≤ limit) ∨
    (limitDepth limit turns t = .error (.raise .hufConstruct) ∧ 2 ^ (limit - 1) < t.syms.length) := by
  induction turns generalizing t with
  | zero =>
    by_cases hm : t.maxDepth ≤ limit
    · left
      exact ⟨t, by unfold limitDepth; rw [if_pos hm], Perm.refl _, hm⟩
    · rcases rebalance_cases hn hL (by omega) with ⟨_, _⟩ | ⟨t', _, _, hlt⟩
      · exfalso
        obtain ⟨x, hx, e⟩ := (maxDepth_spec t).2
        have : x.2 - (limit - 1) ∈ (t.depths 0).map (fun x => x.2 - (limit - 1)) :=
          List.mem_map_of_mem (f := fun x : Nat × Nat => x.2 - (limit - 1)) hx
        have h2 := List.single_le_sum (l := (t.depths 0).map (fun x => x.2 - (limit - 1)))
          (fun _ _ => Nat.zero_le _) _ this
        unfold excessDepth at ht
        omega
      · omega
  | succ turns ih =>
    by_cases hm : t.maxDepth ≤ limit
    · left
      exact ⟨t, by unfold limitDepth; rw [if_pos hm], Perm.refl _, hm⟩
    · unfold limitDepth
      rw [if_neg hm]
      rcases rebalance_cases hn hL (by omega) with ⟨hr, hlen⟩ | ⟨t', hr, hp, hlt⟩
      · right
        simp only [hr]
        exact ⟨trivial, hlen⟩
      · simp only [hr]
        rcases ih t' (hp.nodup_iff.2 hn) (by omega) with ⟨t2, h2, hp2, hm2⟩ | ⟨h2, hl2⟩
        · exact .inl ⟨t2, h2, hp2.trans hp, hm2⟩
        · exact .inr ⟨h2, by rwa [hp.length_eq] at hl2⟩

/-! ### The queue (44_huffman.md R221, R222) -/

/-- The symbols below the nodes of a queue. -/
def queueSyms (q : List QNode) : List Nat := q.flatMap (fun x => x.tree.syms)

theorem enqueue_perm (x : QNode) (q : List QNode) : Perm (enqueue x q) (x :: q) := by
  induction q with
  | nil => exact Perm.refl _
  | cons y rest ih =>
    unfold enqueue
    split
    · exact Perm.refl _
    · exact (ih.cons y).trans (List.Perm.swap _ _ _)

theorem mergeQueue_ok (turns order : Nat) (q : List QNode) (hq : q ≠ []) (h : q.length ≤ turns + 1) :
    ∃ t, mergeQueue turns order q = .ok t ∧ Perm t.syms (queueSyms q) := by
  induction turns generalizing order q with
  | zero =>
    match q, hq with
    | [x], _ => exact ⟨x.tree, by simp [mergeQueue], by simp [queueSyms]⟩
    | x :: y :: rest, _ => simp at h
  | succ turns ih =>
    match q, hq with
    | [x], _ => exact ⟨x.tree, by simp [mergeQueue], by simp [queueSyms]⟩
    | x :: y :: rest, _ =>
      have hp := enqueue_perm ⟨x.weight + y.weight, order, .node x.tree y.tree⟩ rest
      obtain ⟨t, ht, hpt⟩ := ih (order + 1) (enqueue ⟨x.weight + y.weight, order, .node x.tree y.tree⟩ rest)
        (fun e => by simp [e] at hp) (by simpa [hp.length_eq] using h)
      refine ⟨t, by rw [mergeQueue]; exact ht, hpt.trans ?_⟩
      have := hp.flatMap_right (fun x : QNode => x.tree.syms)
      simpa [queueSyms, HufTree.syms] using this

theorem leafQueue_perm (l : List (Nat × Nat)) :
    Perm (leafQueue l) (l.map (fun x => ⟨x.2, x.1, .leaf x.1⟩)) := by
  induction l with
  | nil => exact Perm.refl _
  | cons x rest ih => exact (enqueue_perm _ _).trans (ih.cons _)

theorem leafQueue_syms (l : List (Nat × Nat)) : Perm (queueSyms (leafQueue l)) (l.map Prod.fst) := by
  have := (leafQueue_perm l).flatMap_right (fun x : QNode => x.tree.syms)
  refine this.trans ?_
  rw [List.flatMap_map]
  simp only [HufTree.syms, ← List.map_eq_flatMap]
  exact Perm.refl _

/-! ### The leaves (44_huffman.md R221) -/

theorem hufLeaves_fst (freq : List Nat) :
    (hufLeaves freq).map Prod.fst =
      (freq.zipIdx.filter (fun x => x.1 > 0)).map Prod.snd ++
        ((freq.zipIdx.filter (fun x => x.1 = 0)).map Prod.snd).take
          (2 - ((freq.zipIdx.filter (fun x => x.1 > 0)).map Prod.snd).length) := by
  simp [hufLeaves, List.map_take, Function.comp_def]

theorem zipIdx_snd_nodup (freq : List Nat) (p : Nat × Nat → Bool) :
    ((freq.zipIdx.filter p).map Prod.snd).Nodup := by
  have : (freq.zipIdx.map Prod.snd).Nodup := by
    rw [List.zipIdx_map_snd]
    exact List.nodup_range'
  exact this.sublist (List.filter_sublist.map Prod.snd)

theorem hufLeaves_nodup (freq : List Nat) : ((hufLeaves freq).map Prod.fst).Nodup := by
  rw [hufLeaves_fst]
  refine List.nodup_append.2 ⟨zipIdx_snd_nodup _ _, (zipIdx_snd_nodup _ _).sublist (List.take_sublist _ _),
      ?_⟩
  intro a ha b hb e
  subst e
  obtain ⟨x, hx, rfl⟩ := List.mem_map.1 ha
  obtain ⟨y, hy, e⟩ := List.mem_map.1 (List.mem_of_mem_take hb)
  have hx' := List.mem_filter.1 hx
  have hy' := List.mem_filter.1 hy
  obtain ⟨h1, h2⟩ := List.mem_zipIdx' hx'.1
  obtain ⟨h3, h4⟩ := List.mem_zipIdx' hy'.1
  have : x.1 = y.1 := by rw [h2, h4]; simp [e]
  simp at hx' hy'
  omega

theorem hufLeaves_lt {freq : List Nat} {s : Nat} (h : s ∈ (hufLeaves freq).map Prod.fst) :
    s < freq.length := by
  rw [hufLeaves_fst] at h
  have : ∃ x ∈ freq.zipIdx, x.2 = s := by
    rcases List.mem_append.1 h with h | h
    · obtain ⟨x, hx, e⟩ := List.mem_map.1 h
      exact ⟨x, (List.mem_filter.1 hx).1, e⟩
    · obtain ⟨x, hx, e⟩ := List.mem_map.1 (List.mem_of_mem_take h)
      exact ⟨x, (List.mem_filter.1 hx).1, e⟩
  obtain ⟨x, hx, rfl⟩ := this
  exact (List.mem_zipIdx' hx).1

theorem hufLeaves_of_used {freq : List Nat} {s : Nat} (hs : s < freq.length) (h : 0 < freq[s]) :
    s ∈ (hufLeaves freq).map Prod.fst := by
  rw [hufLeaves_fst]
  refine List.mem_append_left _ (List.mem_map.2 ⟨(freq[s], s), List.mem_filter.2 ⟨?_, by simpa using h⟩, rfl⟩)
  exact List.mem_zipIdx_iff_getElem?.2 (by simp [hs])

theorem hufLeaves_length (freq : List Nat) (h : 2 ≤ freq.length) :
    2 ≤ ((hufLeaves freq).map Prod.fst).length ∧
      ((hufLeaves freq).map Prod.fst).length = max 2 (freq.filter (fun f => f > 0)).length := by
  have hsum : (freq.zipIdx.filter (fun x => x.1 > 0)).length + (freq.zipIdx.filter (fun x => x.1 = 0)).length
      = freq.length := by
    have := List.length_eq_length_filter_add (l := freq.zipIdx) (fun x => decide (x.1 > 0))
    rw [List.length_zipIdx] at this
    rw [this]
    congr 2
    apply List.filter_congr
    intro x _
    by_cases hx : x.1 = 0 <;> simp [hx, Nat.pos_of_ne_zero]
  have hu : (freq.zipIdx.filter (fun x => x.1 > 0)).length = (freq.filter (fun f => f > 0)).length := by
    have : freq.filter (fun f => f > 0) = (freq.zipIdx.filter (fun x => x.1 > 0)).map Prod.fst := by
      conv_lhs => rw [← List.zipIdx_map_fst 0 freq, List.filter_map]
      rfl
    rw [this, List.length_map]
  rw [hufLeaves_fst]
  simp only [List.length_append, List.length_map, List.length_take]
  omega

/-! ### Builds (44_huffman.md R223 to R226) -/

theorem depthOf_of_mem {l : List (Nat × Nat)} (hn : (l.map Prod.fst).Nodup) {x : Nat × Nat} (h : x ∈ l) :
    depthOf l x.1 = x.2 := by
  induction l with
  | nil => simp at h
  | cons y rest ih =>
    rw [List.map_cons, List.nodup_cons] at hn
    rcases List.mem_cons.1 h with rfl | h
    · simp [depthOf]
    · have hne : ¬ y.1 = x.1 := fun e => hn.1 (e ▸ List.mem_map_of_mem h)
      have := ih hn.2 h
      unfold depthOf at this ⊢
      rw [List.find?_cons_of_neg (by simpa using hne)]
      exact this

theorem depthOf_of_not_mem {l : List (Nat × Nat)} {s : Nat} (h : s ∉ l.map Prod.fst) : depthOf l s = 0 := by
  unfold depthOf
  rw [List.find?_eq_none.2]
  intro x hx e
  exact h (List.mem_map.2 ⟨x, hx, by simpa using e⟩)

/-- The lengths of a tree's leaves, over the alphabet of `n` symbols. -/
def treeLens (n : Nat) (t : HufTree) : List Nat := (List.range n).map (depthOf (t.depths 0))

/-- A build, said once (44_huffman.md R225): it gives the depths of a full tree over the leaves of R221, none
deeper than the limit; or it fails, which it does only with more than 2^(limit - 1) leaves. -/
theorem hufBuild_cases {freq : List Nat} {limit : Nat} (hf : 2 ≤ freq.length) (hL : 1 ≤ limit) :
    (∃ t, hufBuild freq limit = .ok (treeLens freq.length t) ∧
      Perm t.syms ((hufLeaves freq).map Prod.fst) ∧ t.maxDepth ≤ limit) ∨
    (hufBuild freq limit = .error (.raise .hufConstruct) ∧ 2 ^ (limit - 1) < (hufLeaves freq).length) := by
  have hlen := hufLeaves_length freq hf
  have hq := leafQueue_perm (hufLeaves freq)
  have hqlen : (leafQueue (hufLeaves freq)).length = (hufLeaves freq).length := by
    simpa using hq.length_eq
  have hfl : (freq.filter (fun f => f > 0)).length ≤ freq.length := List.length_filter_le _ _
  simp only [List.length_map] at hlen
  obtain ⟨t, ht, hp⟩ := mergeQueue_ok freq.length freq.length (leafQueue (hufLeaves freq))
    (fun e => by rw [e] at hqlen; simp at hqlen; omega) (by rw [hqlen]; omega)
  have hp' := hp.trans (leafQueue_syms _)
  have hn : t.syms.Nodup := hp'.nodup_iff.2 (hufLeaves_nodup freq)
  unfold hufBuild
  rw [ht]
  simp only
  rcases limitDepth_cases hL (excessDepth limit t) t hn (le_refl _) with ⟨t', h', hpt, hm⟩ | ⟨h', hl⟩
  · rw [h']
    exact .inl ⟨t', rfl, hpt.trans hp', hm⟩
  · rw [h']
    exact .inr ⟨rfl, by rwa [hp'.length_eq, List.length_map] at hl⟩

/-- A build over no more than 2^(limit - 1) leaves does not fail (44_huffman.md R225). -/
theorem hufBuild_ok {freq : List Nat} {limit : Nat} (hf : 2 ≤ freq.length) (hL : 1 ≤ limit)
    (h : (hufLeaves freq).length ≤ 2 ^ (limit - 1)) :
    ∃ t, hufBuild freq limit = .ok (treeLens freq.length t) ∧
      Perm t.syms ((hufLeaves freq).map Prod.fst) ∧ t.maxDepth ≤ limit := by
  rcases hufBuild_cases hf hL with h' | ⟨_, hl⟩
  · exact h'
  · omega

/-- The number of leaves of a build is at most the alphabet's size. -/
theorem hufLeaves_le {freq : List Nat} (hf : 2 ≤ freq.length) : (hufLeaves freq).length ≤ freq.length := by
  have := (hufLeaves_length freq hf).2
  have hfl : (freq.filter (fun f => f > 0)).length ≤ freq.length := List.length_filter_le _ _
  simp only [List.length_map] at this
  omega

theorem treeLens_length (n : Nat) (t : HufTree) : (treeLens n t).length = n := by simp [treeLens]

theorem treeLens_getD {n s : Nat} (t : HufTree) (h : s < n) :
    (treeLens n t).getD s 0 = depthOf (t.depths 0) s := by
  simp [treeLens, List.getD_eq_getElem?_getD, List.getElem?_map, List.getElem?_range h]

/-- What the lengths of a tree's leaves are (44_huffman.md R223). -/
theorem treeLens_spec {n : Nat} {t : HufTree} (hn : t.syms.Nodup) (s : Nat) (hs : s < n) :
    (s ∈ t.syms → (s, (treeLens n t).getD s 0) ∈ t.depths 0) ∧
      (s ∉ t.syms → (treeLens n t).getD s 0 = 0) := by
  rw [treeLens_getD t hs]
  constructor
  · intro h
    rw [← depths_syms t 0] at h hn
    obtain ⟨x, hx, rfl⟩ := List.mem_map.1 h
    rw [depthOf_of_mem hn hx]
    exact hx
  · intro h
    rw [← depths_syms t 0] at h
    exact depthOf_of_not_mem h

theorem depths_pos {t : HufTree} (h : 2 ≤ t.syms.length) {x : Nat × Nat} (hx : x ∈ t.depths 0) : 0 < x.2 := by
  cases t with
  | leaf s => simp [HufTree.syms] at h
  | node l r =>
    simp only [HufTree.depths, List.mem_append] at hx
    rcases hx with hx | hx
    · have := depths_ge hx; omega
    · have := depths_ge hx; omega

/-- The Kraft sum of a tree's lengths is 1 (44_huffman.md R226). -/
theorem treeLens_kraft {n limit : Nat} {t : HufTree} (hn : t.syms.Nodup) (hlt : ∀ s ∈ t.syms, s < n)
    (h2 : 2 ≤ t.syms.length) (hm : t.maxDepth ≤ limit) : kraft limit (treeLens n t) = 2 ^ limit := by
  have hle : ∀ x ∈ t.depths 0, x.2 ≤ limit := fun x hx => ((maxDepth_spec t).1 x hx).trans hm
  have hk := depths_kraft t 0 limit hle
  have hsub : Perm (List.range n) (t.syms ++ (List.range n).filter (fun s => s ∉ t.syms)) := by
    refine (List.perm_ext_iff_of_nodup List.nodup_range ?_).2 ?_
    · refine List.nodup_append.2 ⟨hn, List.nodup_range.filter _, ?_⟩
      intro a ha b hb e
      subst e
      have := (List.mem_filter.1 hb).2
      simp [ha] at this
    · intro s
      simp only [List.mem_range, List.mem_append, List.mem_filter, decide_not, Bool.not_eq_true',
          decide_eq_false_iff_not]
      constructor
      · intro h
        by_cases hs : s ∈ t.syms
        · exact .inl hs
        · exact .inr ⟨h, hs⟩
      · rintro (h | h)
        · exact hlt s h
        · exact h.1
  have hsyms : t.syms.map (depthOf (t.depths 0)) = (t.depths 0).map Prod.snd := by
    rw [← depths_syms t 0, List.map_map]
    apply List.map_congr_left
    intro x hx
    exact depthOf_of_mem (by rw [depths_syms]; exact hn) hx
  have hothers : ((List.range n).filter (fun s => s ∉ t.syms)).map (depthOf (t.depths 0))
      = List.replicate ((List.range n).filter (fun s => s ∉ t.syms)).length 0 := by
    rw [List.eq_replicate_iff]
    refine ⟨by simp, ?_⟩
    intro d hd
    obtain ⟨s, hs, rfl⟩ := List.mem_map.1 hd
    have := (List.mem_filter.1 hs).2
    exact depthOf_of_not_mem (by rw [depths_syms]; simpa using this)
  have hp := hsub.map (depthOf (t.depths 0))
  rw [List.map_append, hsyms, hothers] at hp
  unfold kraft treeLens
  have hf := (hp.filter (fun l => decide (l > 0))).map (fun l => 2 ^ (limit - l))
  rw [hf.sum_eq, List.filter_append, List.map_append, List.sum_append]
  have e1 : ((t.depths 0).map Prod.snd).filter (fun l => decide (l > 0)) = (t.depths 0).map Prod.snd := by
    rw [List.filter_eq_self]
    intro d hd
    obtain ⟨x, hx, rfl⟩ := List.mem_map.1 hd
    simpa using depths_pos h2 hx
  have e2 : ∀ k, ((List.replicate k 0).filter (fun l => decide (l > 0))) = [] := by
    intro k
    rw [List.filter_eq_nil_iff]
    intro d hd
    simp [List.eq_of_mem_replicate hd]
  rw [e1, e2, List.map_map]
  simp only [List.map_nil, List.sum_nil, Nat.add_zero]
  have : ((fun l => 2 ^ (limit - l)) ∘ Prod.snd : Nat × Nat → Nat) = fun x => 2 ^ (limit - x.2) := rfl
  rw [this, hk, Nat.sub_zero]

end Sys2Proof.Machine
end

