-- ==== Sys2Proof/Laws/Codes.lean ====
section
/-! SUPPORT. Canonical codes (44_huffman.md R227) in closed form: the code of a symbol counts, in units of its last
bit, what the codes before it in the order (length, symbol) take of the code space. From it: the chain of
R227, and prefix freedom within the Kraft bound (R226, R237). -/

namespace Sys2Proof.Machine

/-- What the codes shorter than `len` take of the code space, in units of 2^-15. -/
def below : List Nat → (len : Nat) → Nat
  | [], _ => 0
  | l :: rest, len => (if 0 < l ∧ l < len then 2 ^ (15 - l) else 0) + below rest len

theorem below_succ (lens : List Nat) {len : Nat} (h : 0 < len) :
    below lens (len + 1) = below lens len + lens.count len * 2 ^ (15 - len) := by
  induction lens with
  | nil => simp [below]
  | cons l lens ih =>
    simp only [below, ih, List.count_cons]
    by_cases h1 : l = len
    · subst h1
      have e1 : 0 < l ∧ l < l + 1 := by omega
      rw [if_pos e1, if_neg (by omega), if_pos (beq_self_eq_true l)]
      ring
    · have h2 : (l == len) = false := by simpa using h1
      have e : (0 < l ∧ l < len + 1) ↔ (0 < l ∧ l < len) := by omega
      simp only [e, h2, Bool.false_eq_true, if_false, Nat.add_zero]
      ring

theorem below_mono (lens : List Nat) {a b : Nat} (h : a ≤ b) : below lens a ≤ below lens b := by
  induction lens with
  | nil => simp [below]
  | cons l lens ih =>
    simp only [below]
    have := Nat.two_pow_pos (15 - l)
    split <;> split <;> omega

theorem below_kraft {lens : List Nat} (h : ∀ l ∈ lens, l ≤ 15) : below lens 16 = kraft 15 lens := by
  induction lens with
  | nil => rfl
  | cons l lens ih =>
    have h1 := h l (by simp)
    have h2 := ih (fun x hx => h x (by simp [hx]))
    simp only [below, h2, kraft, List.filter_cons]
    by_cases e : 0 < l
    · have e2 : 0 < l ∧ l < 16 := by omega
      simp [e, e2]
    · have e2 : ¬ (0 < l ∧ l < 16) := by omega
      simp [e]

theorem below_one (lens : List Nat) : below lens 1 = 0 := by
  induction lens with
  | nil => rfl
  | cons l lens ih =>
    rw [below, if_neg (by omega), ih]

/-- What the last code says of the code space taken so far. -/
def Taken (len : Nat) (last : Option (Nat × Nat)) (k : Nat) : Prop :=
  match last with
  | none => k = 0
  | some (c, p) => p ≤ len ∧ (c + 1) * 2 ^ (15 - p) = k

theorem nextCode_taken {len k : Nat} {last : Option (Nat × Nat)} (h : Taken len last k) (hl : len ≤ 15) :
    nextCode len last * 2 ^ (15 - len) = k := by
  cases last with
  | none => simp only [Taken] at h; simp [nextCode, h]
  | some x =>
    obtain ⟨c, p⟩ := x
    obtain ⟨hp, hk⟩ := h
    simp only [nextCode]
    split
    · rename_i e; rw [e]; exact hk
    · rw [Nat.mul_assoc, ← Nat.pow_add, ← hk]
      congr 2
      omega

/-- One pass of 44_huffman.md R227. -/
theorem canonPass_spec {len : Nat} (hl : len ≤ 15) (table : List (Nat × Nat)) (last : Option (Nat × Nat)) (k : Nat)
    (h : Taken len last k) :
    (canonPass len table last).1.map Prod.fst = table.map Prod.fst ∧
    Taken len (canonPass len table last).2 (k + (table.map Prod.fst).count len * 2 ^ (15 - len)) ∧
    ∀ (s : Nat) (x : Nat × Nat), table[s]? = some x →
      ∃ c, (canonPass len table last).1[s]? = some (x.1, c) ∧
        (x.1 ≠ len → c = x.2) ∧
        (x.1 = len → c * 2 ^ (15 - len) = k + ((table.map Prod.fst).take s).count len * 2 ^ (15 - len)) := by
  induction table generalizing last k with
  | nil => simpa [canonPass] using h
  | cons x rest ih =>
    obtain ⟨l, c⟩ := x
    by_cases e : l = len
    · subst e
      have hn := nextCode_taken h hl
      have ht : Taken l (some (nextCode l last, l)) (k + 2 ^ (15 - l)) :=
        ⟨le_refl _, by rw [Nat.add_mul, hn, Nat.one_mul]⟩
      obtain ⟨i1, i2, i3⟩ := ih (some (nextCode l last, l)) _ ht
      simp only [canonPass, if_true]
      refine ⟨by simp [i1], ?_, ?_⟩
      · simp only [List.map_cons, List.count_cons_self]
        rw [Nat.add_mul, Nat.one_mul, Nat.add_comm (_ * _) (2 ^ _), ← Nat.add_assoc]
        exact i2
      · intro s x hs
        cases s with
        | zero =>
          simp only [List.getElem?_cons_zero, Option.some.injEq] at hs
          subst hs
          exact ⟨_, rfl, fun hne => absurd rfl hne, fun _ => by simpa using hn⟩
        | succ s =>
          simp only [List.getElem?_cons_succ] at hs
          obtain ⟨c', j1, j2, j3⟩ := i3 s x hs
          refine ⟨c', by simpa using j1, j2, fun hx => ?_⟩
          rw [j3 hx]
          simp only [List.map_cons, List.take_succ_cons, List.count_cons_self]
          ring
    · obtain ⟨i1, i2, i3⟩ := ih last k h
      simp only [canonPass, if_neg e]
      have e2 : (l == len) = false := by simpa using e
      refine ⟨by simp [i1], ?_, ?_⟩
      · simp only [List.map_cons, List.count_cons, e2]
        simpa using i2
      · intro s x hs
        cases s with
        | zero =>
          simp only [List.getElem?_cons_zero, Option.some.injEq] at hs
          subst hs
          exact ⟨_, rfl, fun _ => rfl, fun hx => absurd hx e⟩
        | succ s =>
          simp only [List.getElem?_cons_succ] at hs
          obtain ⟨c', j1, j2, j3⟩ := i3 s x hs
          refine ⟨c', by simpa using j1, j2, fun hx => ?_⟩
          rw [j3 hx]
          simp [List.count_cons, e2]

/-- All passes of 44_huffman.md R227. -/
theorem canonPasses_spec (n a : Nat) (table : List (Nat × Nat)) (last : Option (Nat × Nat)) (ha : 0 < a)
    (hn : a + n ≤ 16) (h : Taken a last (below (table.map Prod.fst) a)) :
    (canonPasses (List.range' a n) table last).map Prod.fst = table.map Prod.fst ∧
    ∀ (s : Nat) (x : Nat × Nat), table[s]? = some x →
      ∃ c, (canonPasses (List.range' a n) table last)[s]? = some (x.1, c) ∧
        (¬ (a ≤ x.1 ∧ x.1 < a + n) → c = x.2) ∧
        (a ≤ x.1 ∧ x.1 < a + n → c * 2 ^ (15 - x.1) = below (table.map Prod.fst) x.1
          + ((table.map Prod.fst).take s).count x.1 * 2 ^ (15 - x.1)) := by
  induction n generalizing a table last with
  | zero => exact ⟨rfl, fun s x hs => ⟨x.2, hs, fun _ => rfl, fun h => by omega⟩⟩
  | succ n ih =>
    rw [List.range'_succ]
    simp only [canonPasses]
    obtain ⟨p1, p2, p3⟩ := canonPass_spec (len := a) (by omega) table last _ h
    have hb : Taken (a + 1) (canonPass a table last).2 (below ((canonPass a table last).1.map Prod.fst) (a + 1)) := by
      rw [p1, below_succ _ ha]
      revert p2
      generalize (canonPass a table last).2 = l'
      cases l' with
      | none => exact id
      | some y => exact fun ⟨q1, q2⟩ => ⟨by omega, q2⟩
    obtain ⟨i1, i2⟩ := ih (a + 1) (canonPass a table last).1 (canonPass a table last).2 (by omega) (by omega) hb
    refine ⟨i1.trans p1, fun s x hs => ?_⟩
    obtain ⟨c, q1, q2, q3⟩ := p3 s x hs
    obtain ⟨c', r1, r2, r3⟩ := i2 s (x.1, c) q1
    refine ⟨c', r1, fun hx => ?_, fun hx => ?_⟩
    · rw [r2 (by simp only; omega), q2 (by omega)]
    · by_cases e : x.1 = a
      · rw [r2 (by simp only; omega), e]
        exact q3 e
      · have := r3 ⟨by simp only; omega, by simp only; omega⟩
        rw [p1] at this
        exact this

/-- The canonical code of a symbol (44_huffman.md R227). -/
theorem hufCanon_spec (lens : List Nat) :
    (hufCanon lens).length = lens.length ∧
    ∀ s, s < lens.length →
      (lens.getD s 0 = 0 → (hufCanon lens).getD s 0 = 0) ∧
      (0 < lens.getD s 0 → lens.getD s 0 ≤ 15 →
        (hufCanon lens).getD s 0 * 2 ^ (15 - lens.getD s 0)
          = below lens (lens.getD s 0) + (lens.take s).count (lens.getD s 0) * 2 ^ (15 - lens.getD s 0)) := by
  have hm : (lens.map (fun l => (l, 0))).map Prod.fst = lens := by simp [Function.comp_def]
  have h0 : Taken 1 none (below ((lens.map (fun l => (l, 0))).map Prod.fst) 1) := by
    exact below_one _
  obtain ⟨h1, h2⟩ := canonPasses_spec 15 1 (lens.map (fun l => (l, 0))) none (by omega) (by omega) h0
  rw [hm] at h1 h2
  have hlen : (canonPasses (List.range' 1 15) (lens.map (fun l => (l, 0))) none).length = lens.length := by
    have := congrArg List.length h1
    simpa using this
  refine ⟨by simp [hufCanon, Config.maxCodeLen, hlen], fun s hs => ?_⟩
  have hx : (lens.map (fun l => (l, 0)))[s]? = some (lens.getD s 0, 0) := by
    rw [List.getElem?_map, List.getElem?_eq_getElem hs]
    simp [List.getD_eq_getElem?_getD, List.getElem?_eq_getElem hs]
  obtain ⟨c, q1, q2, q3⟩ := h2 s _ hx
  have hc : (hufCanon lens).getD s 0 = c := by
    simp only [hufCanon, Config.maxCodeLen, List.getD_eq_getElem?_getD, List.getElem?_map, q1]
    rfl
  rw [hc]
  exact ⟨fun e => q2 (by simp only; omega), fun hp hl => q3 ⟨by simp only; omega, by simp only; omega⟩⟩

theorem count_take_lt {lens : List Nat} {s : Nat} (h : s < lens.length) :
    (lens.take s).count (lens.getD s 0) < lens.count (lens.getD s 0) := by
  have hg : lens.getD s 0 = lens[s] := by simp [List.getD_eq_getElem?_getD, List.getElem?_eq_getElem h]
  have : lens.count lens[s] = (lens.take s).count lens[s] + (lens.drop s).count lens[s] := by
    rw [← List.count_append, List.take_append_drop]
  rw [hg, this, List.drop_eq_getElem_cons h, List.count_cons_self]
  omega

theorem count_take_eq {lens : List Nat} {l a b : Nat} (hab : a ≤ b)
    (h : ∀ q, a ≤ q → q < b → q < lens.length → lens.getD q 0 ≠ l) :
    (lens.take b).count l = (lens.take a).count l := by
  have e : lens.take b = lens.take a ++ (lens.drop a).take (b - a) := by
    rw [← List.take_add]; congr 1; omega
  rw [e, List.count_append]
  refine Nat.add_eq_left.2 (List.count_eq_zero.2 ?_)
  intro hm
  obtain ⟨k, hk, hx⟩ := List.mem_iff_getElem.1 hm
  rw [List.length_take, List.length_drop] at hk
  have hlt : a + k < lens.length := by omega
  refine h (a + k) (by omega) (by omega) hlt ?_
  rw [List.getElem_take, List.getElem_drop] at hx
  simp [List.getD_eq_getElem?_getD, List.getElem?_eq_getElem hlt, hx]

theorem count_take_succ {lens : List Nat} {r : Nat} (h : r < lens.length) :
    (lens.take (r + 1)).count (lens.getD r 0) = (lens.take r).count (lens.getD r 0) + 1 := by
  have hg : lens.getD r 0 = lens[r] := by simp [List.getD_eq_getElem?_getD, List.getElem?_eq_getElem h]
  rw [hg, List.take_succ_eq_append_getElem h, List.count_append]
  simp

theorem below_eq {lens : List Nat} {a b : Nat} (hab : a ≤ b)
    (h : ∀ q, q < lens.length → 0 < lens.getD q 0 → a ≤ lens.getD q 0 → b ≤ lens.getD q 0) :
    below lens b = below lens a := by
  induction lens with
  | nil => rfl
  | cons l lens ih =>
    have h0 := h 0 (by simp)
    simp only [List.getD_cons_zero] at h0
    have e : (0 < l ∧ l < b) ↔ (0 < l ∧ l < a) := by
      constructor <;> intro ⟨h1, h2⟩ <;> refine ⟨h1, ?_⟩
      · by_contra h3; have := h0 h1 (by omega); omega
      · omega
    rw [below, below, ih (fun q hq => by simpa using h (q + 1) (by simpa using hq))]
    simp only [e]

theorem count_take_strict {lens : List Nat} {r s : Nat} (hr : r < s) (hs : s < lens.length)
    (he : lens.getD r 0 = lens.getD s 0) :
    (lens.take r).count (lens.getD s 0) < (lens.take s).count (lens.getD s 0) := by
  have h1 : (lens.take s).take r = lens.take r := by rw [List.take_take]; congr 1; omega
  have h2 : (lens.take s).getD r 0 = lens.getD r 0 := by
    simp [List.getD_eq_getElem?_getD, hr]
  have := count_take_lt (lens := lens.take s) (s := r) (by simp; omega)
  rw [h1, h2, he] at this
  exact this

/-- The codes of one symbol and of one after it in the order (length, symbol). -/
theorem hufCanon_before {lens : List Nat} {r s : Nat} (hr : r < lens.length) (hs : s < lens.length)
    (pr : 0 < lens.getD r 0) (hl : lens.getD s 0 ≤ 15)
    (h : lens.getD r 0 < lens.getD s 0 ∨ (lens.getD r 0 = lens.getD s 0 ∧ r < s)) :
    ((hufCanon lens).getD r 0 + 1) * 2 ^ (15 - lens.getD r 0)
      ≤ (hufCanon lens).getD s 0 * 2 ^ (15 - lens.getD s 0) := by
  have e1 := ((hufCanon_spec lens).2 r hr).2 pr (by omega)
  have e2 := ((hufCanon_spec lens).2 s hs).2 (by omega) hl
  rw [Nat.add_mul, Nat.one_mul, e1, e2]
  rcases h with h | ⟨h, hlt⟩
  · have h1 := count_take_lt hr
    have h2 := below_succ lens pr
    have h3 := below_mono lens (show lens.getD r 0 + 1 ≤ lens.getD s 0 from h)
    have h4 : ((lens.take r).count (lens.getD r 0) + 1) * 2 ^ (15 - lens.getD r 0)
        ≤ lens.count (lens.getD r 0) * 2 ^ (15 - lens.getD r 0) := Nat.mul_le_mul_right _ h1
    rw [Nat.add_mul, Nat.one_mul] at h4
    omega
  · have h1 := count_take_strict hlt hs h
    rw [h]
    have h4 : ((lens.take r).count (lens.getD s 0) + 1) * 2 ^ (15 - lens.getD s 0)
        ≤ (lens.take s).count (lens.getD s 0) * 2 ^ (15 - lens.getD s 0) := Nat.mul_le_mul_right _ h1
    rw [Nat.add_mul, Nat.one_mul] at h4
    omega

theorem getD_mem_le {lens : List Nat} (h : ∀ l ∈ lens, l ≤ 15) (s : Nat) : lens.getD s 0 ≤ 15 := by
  rw [List.getD_eq_getElem?_getD]
  cases hs : lens[s]? with
  | none => simp
  | some x => exact h x (List.mem_of_getElem? hs)

/-- Within the Kraft bound every canonical code decodes to its symbol alone (44_huffman.md R228, R237). -/
theorem prefixFree_of_kraft {lens : List Nat} (h : ∀ l ∈ lens, l ≤ 15) (hk : kraft 15 lens ≤ 2 ^ 15) :
    PrefixFree lens := by
  intro s hs ps
  have hls := getD_mem_le h s
  have e := ((hufCanon_spec lens).2 s hs).2 ps hls
  refine ⟨hs, ps, ?_, ?_⟩
  · have h1 := count_take_lt hs
    have h2 := below_succ lens ps
    have h3 := below_mono lens (show lens.getD s 0 + 1 ≤ 16 by omega)
    rw [below_kraft h] at h3
    have h4 : ((lens.take s).count (lens.getD s 0) + 1) * 2 ^ (15 - lens.getD s 0)
        ≤ lens.count (lens.getD s 0) * 2 ^ (15 - lens.getD s 0) := Nat.mul_le_mul_right _ h1
    rw [Nat.add_mul, Nat.one_mul] at h4
    have h5 : (2 : Nat) ^ 15 = 2 ^ lens.getD s 0 * 2 ^ (15 - lens.getD s 0) := by
      rw [← Nat.pow_add]; congr 1; omega
    have h6 : (hufCanon lens).getD s 0 * 2 ^ (15 - lens.getD s 0)
        < 2 ^ lens.getD s 0 * 2 ^ (15 - lens.getD s 0) := by
      have := Nat.two_pow_pos (15 - lens.getD s 0)
      omega
    exact Nat.lt_of_mul_lt_mul_right h6
  · intro r hr hne pr hle heq
    by_cases hlt : lens.getD r 0 < lens.getD s 0 ∨ (lens.getD r 0 = lens.getD s 0 ∧ r < s)
    · have hb := hufCanon_before hr hs pr hls hlt
      have h5 : 2 ^ (15 - lens.getD r 0) = 2 ^ (lens.getD s 0 - lens.getD r 0) * 2 ^ (15 - lens.getD s 0) := by
        rw [← Nat.pow_add]; congr 1; omega
      rw [h5, ← Nat.mul_assoc] at hb
      have hb2 := Nat.le_of_mul_le_mul_right hb (Nat.two_pow_pos _)
      have := (Nat.le_div_iff_mul_le (Nat.two_pow_pos _)).2 hb2
      omega
    · have hlr := getD_mem_le h r
      have hb := hufCanon_before hs hr ps hlr (by omega)
      have e2 : lens.getD r 0 = lens.getD s 0 := by omega
      rw [e2, Nat.sub_self, Nat.pow_zero, Nat.div_one] at heq
      rw [e2] at hb
      have := Nat.le_of_mul_le_mul_right hb (Nat.two_pow_pos _)
      omega

/-- The chain of 44_huffman.md R227: the code of a symbol from that of the symbol just before it. -/
theorem hufCanon_next {lens : List Nat} {r s : Nat} (hr : r < lens.length) (hs : s < lens.length)
    (pr : 0 < lens.getD r 0) (hl : lens.getD s 0 ≤ 15)
    (h : lens.getD r 0 < lens.getD s 0 ∨ (lens.getD r 0 = lens.getD s 0 ∧ r < s))
    (hnone : ∀ q, q < lens.length → 0 < lens.getD q 0 →
      (lens.getD q 0 < lens.getD s 0 ∨ (lens.getD q 0 = lens.getD s 0 ∧ q < s)) →
      lens.getD q 0 < lens.getD r 0 ∨ (lens.getD q 0 = lens.getD r 0 ∧ q ≤ r)) :
    (hufCanon lens).getD s 0 = ((hufCanon lens).getD r 0 + 1) * 2 ^ (lens.getD s 0 - lens.getD r 0) := by
  have e1 := ((hufCanon_spec lens).2 r hr).2 pr (by omega)
  have e2 := ((hufCanon_spec lens).2 s hs).2 (by omega) hl
  have key : (hufCanon lens).getD s 0 * 2 ^ (15 - lens.getD s 0)
      = ((hufCanon lens).getD r 0 + 1) * 2 ^ (15 - lens.getD r 0) := by
    rw [Nat.add_mul, Nat.one_mul, e1, e2]
    rcases h with h | ⟨h, hlt⟩
    · have hb : below lens (lens.getD s 0) = below lens (lens.getD r 0 + 1) := by
        refine below_eq h fun q hq pq hge => ?_
        by_contra hc
        have := hnone q hq pq (Or.inl (by omega))
        omega
      have hc : (lens.take s).count (lens.getD s 0) = 0 := by
        rw [count_take_eq (a := 0) (Nat.zero_le s)]
        · simp
        · intro q _ hq hql he
          have := hnone q hql (by omega) (Or.inr ⟨he, hq⟩)
          omega
      have hd : lens.count (lens.getD r 0) = (lens.take (r + 1)).count (lens.getD r 0) := by
        have := count_take_eq (lens := lens) (l := lens.getD r 0) (a := r + 1) (b := lens.length) hr
          (fun q hq1 hq2 _ he => by
            have := hnone q hq2 (by omega) (Or.inl (by omega))
            omega)
        rwa [List.take_length] at this
      rw [hb, hc, below_succ _ pr, hd, count_take_succ hr]
      ring
    · have hd : (lens.take s).count (lens.getD s 0) = (lens.take (r + 1)).count (lens.getD s 0) :=
        count_take_eq hlt fun q hq1 hq2 hql he => by
          have := hnone q hql (by omega) (Or.inr ⟨he, hq2⟩)
          omega
      rw [hd, ← h, count_take_succ hr]
      ring
  have h5 : 2 ^ (15 - lens.getD r 0) = 2 ^ (lens.getD s 0 - lens.getD r 0) * 2 ^ (15 - lens.getD s 0) := by
    rw [← Nat.pow_add]; congr 1; omega
  rw [h5, ← Nat.mul_assoc] at key
  exact Nat.eq_of_mul_eq_mul_right (Nat.two_pow_pos _) key

/-- The first symbol in the order (length, symbol) has code 0 (44_huffman.md R227). -/
theorem hufCanon_first {lens : List Nat} {s : Nat} (hs : s < lens.length) (ps : 0 < lens.getD s 0)
    (hl : lens.getD s 0 ≤ 15)
    (h : ∀ q, q < lens.length → 0 < lens.getD q 0 →
      lens.getD s 0 < lens.getD q 0 ∨ (lens.getD s 0 = lens.getD q 0 ∧ s ≤ q)) :
    (hufCanon lens).getD s 0 = 0 := by
  have e2 := ((hufCanon_spec lens).2 s hs).2 ps hl
  have hb : below lens (lens.getD s 0) = below lens 1 := by
    refine below_eq ps fun q hq pq _ => ?_
    have := h q hq pq
    omega
  have hc : (lens.take s).count (lens.getD s 0) = 0 := by
    rw [count_take_eq (a := 0) (Nat.zero_le s)]
    · simp
    · intro q _ hq hql he
      have := h q hql (by omega)
      omega
  rw [hb, hc, below_one, Nat.zero_mul, Nat.zero_add] at e2
  exact (Nat.mul_eq_zero.1 e2).resolve_right (Nat.ne_of_gt (Nat.two_pow_pos _))

/-- Every canonical code fits a CODE entry (44_huffman.md R228). -/
theorem hufCanon_lt {lens : List Nat} (h : ∀ l ∈ lens, l ≤ 15) (s : Nat) :
    (hufCanon lens).getD s 0 < lens.length * 2 ^ 15 + 1 := by
  by_cases hs : s < lens.length
  · by_cases ps : lens.getD s 0 = 0
    · rw [((hufCanon_spec lens).2 s hs).1 ps]; omega
    · have hls := getD_mem_le h s
      have e := ((hufCanon_spec lens).2 s hs).2 (by omega) hls
      have h1 := count_take_lt hs
      have h2 := below_succ lens (Nat.pos_of_ne_zero ps)
      have h4 : ((lens.take s).count (lens.getD s 0) + 1) * 2 ^ (15 - lens.getD s 0)
          ≤ lens.count (lens.getD s 0) * 2 ^ (15 - lens.getD s 0) := Nat.mul_le_mul_right _ h1
      rw [Nat.add_mul, Nat.one_mul] at h4
      have h5 : ∀ (l : List Nat) (n : Nat), below l n ≤ l.length * 2 ^ 15 := by
        intro l n
        induction l with
        | nil => simp [below]
        | cons x l ih =>
          have : 2 ^ (15 - x) ≤ 2 ^ 15 := Nat.pow_le_pow_right (by omega) (by omega)
          simp only [below, List.length_cons]
          split <;> omega
      have h6 := h5 lens (lens.getD s 0 + 1)
      have h7 : (hufCanon lens).getD s 0 ≤ (hufCanon lens).getD s 0 * 2 ^ (15 - lens.getD s 0) :=
        Nat.le_mul_of_pos_right _ (Nat.two_pow_pos _)
      have h8 := Nat.two_pow_pos (15 - lens.getD s 0)
      omega
  · have : (hufCanon lens).getD s 0 = 0 := by
      rw [List.getD_eq_getElem?_getD, List.getElem?_eq_none (by rw [(hufCanon_spec lens).1]; omega)]
      rfl
    omega

end Sys2Proof.Machine
end

