-- ==== Sys2Proof/Laws/Reader.lean ====
section
/-! SUPPORT. What the bit reader does (41_bitio.md R170), as a function on states: the primitives give it where
the bits are there, and stop where they are not. -/

namespace Sys2Proof.Machine

/-- The state after one bit has been read. -/
def takeOne (s : State) : State :=
  if s.rcount = 0 then
    match s.inPort with
    | b :: rest => { s with inPort := rest, bytesIn := s.bytesIn + 1, rbuf := b >>> 1, rcount := 7 }
    | [] => s
  else { s with rbuf := s.rbuf >>> 1, rcount := s.rcount - 1 }

/-- The state after `n` bits have been read. -/
def advance : Nat → State → State
  | 0, s => s
  | n + 1, s => advance n (takeOne s)

@[simp] theorem advance_zero (s : State) : advance 0 s = s := rfl

theorem advance_add (m n : Nat) (s : State) : advance (m + n) s = advance n (advance m s) := by
  induction m generalizing s with
  | zero => simp
  | succ m ih => rw [show m + 1 + n = (m + n) + 1 by omega]; exact ih _

/-- Reading bits changes the reader and the input port alone. -/
theorem advance_eq (n : Nat) (s : State) :
    advance n s =
      { s with
        rcount := (advance n s).rcount, rbuf := (advance n s).rbuf, inPort := (advance n s).inPort
        bytesIn := (advance n s).bytesIn } := by
  induction n generalizing s with
  | zero => rfl
  | succ n ih =>
    rw [advance]
    have h : advance n (takeOne s) = _ := ih (takeOne s)
    generalize advance n (takeOne s) = t at h ⊢
    rw [h]
    simp only [takeOne]
    split
    · split <;> rfl
    · rfl

/-- What reading bits keeps. -/
@[simp] theorem advance_keeps (n : Nat) (s : State) :
    (advance n s).engine = s.engine ∧ (advance n s).cmd = s.cmd ∧ (advance n s).done = s.done ∧
    (advance n s).cmdDropped = s.cmdDropped ∧ (advance n s).bfinalSeen = s.bfinalSeen ∧
    (advance n s).fnameTrunc = s.fnameTrunc ∧ (advance n s).errinfo = s.errinfo ∧
    (advance n s).cfg = s.cfg ∧ (advance n s).arg0 = s.arg0 ∧ (advance n s).arg1 = s.arg1 ∧
    (advance n s).arg2 = s.arg2 ∧ (advance n s).res0 = s.res0 ∧ (advance n s).res1 = s.res1 ∧
    (advance n s).crcState = s.crcState ∧ (advance n s).rawCount = s.rawCount ∧
    (advance n s).bytesOut = s.bytesOut ∧ (advance n s).outCommit = s.outCommit ∧
    (advance n s).wcount = s.wcount ∧ (advance n s).wbuf = s.wbuf ∧ (advance n s).wcur = s.wcur ∧
    (advance n s).wvalid = s.wvalid ∧ (advance n s).gzFlg = s.gzFlg ∧
    (advance n s).gzMtime = s.gzMtime ∧ (advance n s).gzXfl = s.gzXfl ∧
    (advance n s).gzOs = s.gzOs ∧ (advance n s).gzFnameLen = s.gzFnameLen ∧
    (advance n s).gzTrlCrc = s.gzTrlCrc ∧ (advance n s).gzTrlIsize = s.gzTrlIsize ∧
    (advance n s).tables = s.tables ∧ (advance n s).tokens = s.tokens ∧
    (advance n s).params = s.params ∧ (advance n s).inClosed = s.inClosed ∧
    (advance n s).outPort = s.outPort ∧ (advance n s).outRoom = s.outRoom ∧
    (advance n s).held = s.held ∧ (advance n s).sawEnd = s.sawEnd ∧ (advance n s).draws = s.draws ∧
    (advance n s).hostRead = s.hostRead ∧ (advance n s).host = s.host := by
  rw [advance_eq]
  and_intros <;> rfl

theorem rcount_pred {c : BitVec 3} (h : c ≠ 0) : c.toNat = (c - 1).toNat + 1 := by
  revert c; decide

theorem unread_byte {s : State} {b : Bool} {rest : List Bool} (h : unreadBits s = b :: rest) (h0 : s.rcount = 0) :
    ∃ x port, s.inPort = x :: port ∧ b = x.toNat.testBit 0 ∧ rest = bitsOf 7 (x.toNat / 2) ++ streamBits port := by
  have h1 : s.rcount.toNat = 0 := by rw [h0]; rfl
  rw [unreadBits, h1, bitsOf_zero, List.nil_append] at h
  cases hp : s.inPort with
  | nil => rw [hp] at h; simp at h
  | cons x port =>
    have h8 : bitsOf 8 x.toNat = x.toNat.testBit 0 :: bitsOf 7 (x.toNat / 2) := bitsOf_succ 7 _
    rw [hp, streamBits_cons, h8, List.cons_append, List.cons.injEq] at h
    exact ⟨x, port, rfl, h.1.symm, h.2.symm⟩

theorem unread_buffer {s : State} {b : Bool} {rest : List Bool} (h : unreadBits s = b :: rest) (h0 : s.rcount ≠ 0) :
    b = s.rbuf.toNat.testBit 0 ∧
      rest = bitsOf (s.rcount - 1).toNat (s.rbuf.toNat / 2) ++ streamBits s.inPort := by
  rw [unreadBits, rcount_pred h0, bitsOf_succ, List.cons_append, List.cons.injEq] at h
  exact ⟨h.1.symm, h.2.symm⟩

theorem takeOne_unread {s : State} {b : Bool} {rest : List Bool} (h : unreadBits s = b :: rest) :
    unreadBits (takeOne s) = rest := by
  by_cases h0 : s.rcount = 0
  · obtain ⟨x, port, hp, -, rfl⟩ := unread_byte h h0
    rw [takeOne, if_pos h0, hp]
    simp only [unreadBits, BitVec.toNat_ushiftRight, Nat.shiftRight_eq_div_pow]
    rfl
  · obtain ⟨-, rfl⟩ := unread_buffer h h0
    rw [takeOne, if_neg h0]
    simp only [unreadBits, BitVec.toNat_ushiftRight, Nat.shiftRight_eq_div_pow, Nat.pow_one]

theorem advance_unread {s : State} {a rest : List Bool} (h : unreadBits s = a ++ rest) :
    unreadBits (advance a.length s) = rest := by
  induction a generalizing s with
  | nil => simpa using h
  | cons b a ih => exact ih (takeOne_unread h)

theorem getBit_ok {s : State} {b : Bool} {rest : List Bool} (h : unreadBits s = b :: rest) :
    getBit s = .ok b (takeOne s) := by
  have e : getBit s = match (if s.rcount = 0 then inRead else pure s.rbuf) s with
      | .ok b t => .ok (b.getLsbD 0) { t with rbuf := b >>> 1, rcount := t.rcount - 1 }
      | .error e t => .error e t := by
    rw [getBit, bind_run, bitSource, getState_bind]
    rcases (if s.rcount = 0 then inRead else pure s.rbuf) s with _ | _ <;> rfl
  rw [e]
  by_cases h0 : s.rcount = 0
  · obtain ⟨x, port, hp, rfl, -⟩ := unread_byte h h0
    rw [if_pos h0, takeOne, if_pos h0, inRead, hp]
    simp only [h0]
    rfl
  · obtain ⟨rfl, -⟩ := unread_buffer h h0
    rw [if_neg h0, takeOne, if_neg h0]
    rfl

/-- Reading bits that are there gives their value, the first of them bit 0. -/
theorem readBits_ok {s : State} {a rest : List Bool} (h : unreadBits s = a ++ rest) :
    readBits a.length s = .ok (natOfBits a) (advance a.length s) := by
  induction a generalizing s with
  | nil => rfl
  | cons b a ih =>
    rw [List.length_cons, readBits, bind_run, getBit_ok h]
    simp only
    rw [bind_run, ih (takeOne_unread h)]
    rfl

/-- Reading a field written with `WriteBits` gives its value. -/
theorem readBits_field {s : State} {n v : Nat} {rest : List Bool} (h : unreadBits s = bitsOf n v ++ rest)
    (hv : v < 2 ^ n) : readBits n s = .ok v (advance n s) ∧ unreadBits (advance n s) = rest := by
  have h1 := readBits_ok h
  have h2 := advance_unread h
  rw [bitsOf_length] at h1 h2
  rw [natOfBits_bitsOf, Nat.mod_eq_of_lt hv] at h1
  exact ⟨h1, h2⟩

/-- Reading a byte that is there. -/
theorem readByte_ok {s : State} {b : Byte} {rest : List Bool} (h : unreadBits s = bitsOf 8 b.toNat ++ rest) :
    readByte s = .ok b (advance 8 s) ∧ unreadBits (advance 8 s) = rest := by
  obtain ⟨h1, h2⟩ := readBits_field h b.isLt
  refine ⟨?_, h2⟩
  rw [readByte, bind_run, h1]
  simp [pure, EStateM.pure]

/-- Reading a 32-bit value that is there. -/
theorem readInt_ok {s : State} {v : Word} {rest : List Bool} (h : unreadBits s = bitsOf 32 v.toNat ++ rest) :
    readInt s = .ok v (advance 32 s) ∧ unreadBits (advance 32 s) = rest := by
  obtain ⟨h1, h2⟩ := readBits_field h v.isLt
  refine ⟨?_, h2⟩
  rw [readInt, bind_run, h1]
  simp [pure, EStateM.pure]

/-! ### The reader's buffer and the port -/

theorem takeOne_readerOk {s : State} (h : ReaderOk s.toEngine) : ReaderOk (takeOne s).toEngine := by
  by_cases h0 : s.rcount = 0
  · rw [takeOne, if_pos h0]
    split
    · rename_i b rest _
      have : ∀ b : Byte, b >>> 1 >>> (7 : BitVec 3).toNat = 0 := by decide
      exact this b
    · exact h
  · rw [takeOne, if_neg h0]
    have : ∀ (b : Byte) (c : BitVec 3), c ≠ 0 → b >>> c.toNat = 0 → b >>> 1 >>> (c - 1).toNat = 0 := by
      decide +kernel
    exact this _ _ h0 h

theorem advance_readerOk {s : State} (n : Nat) (h : ReaderOk s.toEngine) : ReaderOk (advance n s).toEngine := by
  induction n generalizing s with
  | zero => exact h
  | succ n ih => exact ih (takeOne_readerOk h)

theorem bytesFor_zero (s : State) : bytesFor s 0 = 0 := by
  have := s.rcount.isLt
  simp only [bytesFor]
  omega

theorem unread_length (s : State) : (unreadBits s).length = s.rcount.toNat + 8 * s.inPort.length := by
  simp [unreadBits]

theorem advance_port {n : Nat} {s : State} (h : n ≤ (unreadBits s).length) :
    (advance n s).inPort = s.inPort.drop (bytesFor s n) ∧
      (advance n s).bytesIn = s.bytesIn + BitVec.ofNat 64 (bytesFor s n) := by
  induction n generalizing s with
  | zero => simp [bytesFor_zero]
  | succ n ih =>
    have hl := unread_length s
    cases hu : unreadBits s with
    | nil => rw [hu] at h; simp at h
    | cons b rest =>
      have ht := takeOne_unread hu
      have hn : n ≤ (unreadBits (takeOne s)).length := by
        rw [ht]; rw [hu, List.length_cons] at h; omega
      obtain ⟨h1, h2⟩ := ih hn
      rw [advance, h1, h2]
      by_cases h0 : s.rcount = 0
      · cases hp : s.inPort with
        | nil => simp [unreadBits, h0, hp] at hu
        | cons x port =>
          have e : bytesFor s (n + 1) = bytesFor (takeOne s) n + 1 := by
            simp only [bytesFor, takeOne, h0, hp, if_true]
            simp
            omega
          rw [e]
          simp only [takeOne, h0, hp, if_true, List.drop_succ_cons, true_and]
          rw [BitVec.ofNat_add, BitVec.add_assoc, BitVec.add_comm 1]
          rfl
      · have hr := rcount_pred h0
        have e : bytesFor s (n + 1) = bytesFor (takeOne s) n := by
          have hb := s.rcount.isLt
          simp only [bytesFor, takeOne, if_neg h0]
          omega
        rw [e, takeOne, if_neg h0]
        exact ⟨rfl, rfl⟩

/-- The relation of the statements holds of the function (41_bitio.md R170). -/
theorem took_advance {n : Nat} {s : State} (hr : ReaderOk s.toEngine) (h : n ≤ (unreadBits s).length) :
    Took n s (advance n s) := by
  obtain ⟨h1, h2⟩ := advance_port h
  refine ⟨?_, h1, h2, advance_readerOk n hr⟩
  have := advance_unread (s := s) (a := (unreadBits s).take n) (rest := (unreadBits s).drop n) (by simp)
  rwa [List.length_take, Nat.min_eq_left h] at this

theorem readerPos_advance {n : Nat} {s : State} (h : n ≤ (unreadBits s).length) :
    readerPos (advance n s) = (readerPos s + n) % 8 := by
  have h1 := unread_length s
  have h2 := unread_length (advance n s)
  have h3 := advance_unread (s := s) (a := (unreadBits s).take n) (rest := (unreadBits s).drop n) (by simp)
  rw [List.length_take, Nat.min_eq_left h] at h3
  rw [h3, List.length_drop] at h2
  have := s.rcount.isLt
  have := (advance n s).rcount.isLt
  simp only [readerPos]
  omega

/-- Aligning reads the rest of the current byte. -/
theorem alignIn_ok {s : State} (h : ReaderOk s.toEngine) :
    alignIn s = .ok s.rcount.toNat (advance s.rcount.toNat s) := by
  rw [alignIn]
  congr 1
  have key : ∀ (n : Nat) (s : State), s.rcount.toNat = n → ReaderOk s.toEngine →
      advance n s = { s with rbuf := 0, rcount := 0 } := by
    intro n
    induction n with
    | zero =>
      intro s hn h
      have h0 : s.rcount = 0 := BitVec.eq_of_toNat_eq hn
      have hb : s.rbuf = 0 := by
        have := h
        simp only [ReaderOk, h0] at this
        simpa using this
      rw [advance_zero]
      rw [← hb, ← h0]
    | succ n ih =>
      intro s hn h
      have h0 : s.rcount ≠ 0 := by intro e; rw [e] at hn; simp at hn
      have hr := rcount_pred h0
      rw [advance, ih (takeOne s) (by rw [takeOne, if_neg h0]; simp only; omega) (takeOne_readerOk h)]
      rw [takeOne, if_neg h0]
  exact (key _ s rfl h).symm

/-- The padding after a field that ends within a byte is what is left of the current byte. -/
theorem padBits_readerPos (s : State) : padBits (readerPos s) = s.rcount.toNat := by
  have := s.rcount.isLt
  simp only [padBits, readerPos]
  omega

/-! ### Where the bits are not there -/

/-- The stop of a reader that runs dry (00_scope.md R15). -/
def dryStop (s : State) : Stop := if s.inClosed then .raise .ioEof else .hold

theorem getBit_dry {s : State} (h : unreadBits s = []) : getBit s = .error (dryStop s) s := by
  have hl := unread_length s
  rw [h] at hl
  simp only [List.length_nil] at hl
  have h0 : s.rcount = 0 := BitVec.eq_of_toNat_eq (by simp; omega)
  have hp : s.inPort = [] := List.eq_nil_of_length_eq_zero (by omega)
  rw [getBit, bind_run, bitSource, getState_bind]
  rw [if_pos h0, inRead, hp, dryStop]
  by_cases hc : s.inClosed = true <;> simp [hc]

theorem readBits_dry {n : Nat} {s : State} (h : (unreadBits s).length < n) :
    readBits n s = .error (dryStop s) (advance (unreadBits s).length s) := by
  induction n generalizing s with
  | zero => omega
  | succ n ih =>
    rw [readBits, bind_run]
    cases hu : unreadBits s with
    | nil => rw [getBit_dry hu]; rfl
    | cons b rest =>
      rw [getBit_ok hu]
      simp only
      have ht := takeOne_unread hu
      rw [bind_run, ih (by rw [ht]; rw [hu, List.length_cons] at h; omega), ht, List.length_cons, advance]
      have : dryStop (takeOne s) = dryStop s := by
        have := (advance_keeps 1 s)
        simp only [advance] at this
        simp [dryStop, this]
      rw [this]

end Sys2Proof.Machine
end

