-- ==== Sys2Proof/Laws/Symbols.lean ====
section
/-! SUPPORT. Decoding one symbol (44_huffman.md R229), and the tables of an alphabet as lists. -/

namespace Sys2Proof.Machine

/-! ### Tables as lists -/

theorem getD_toList {w : Nat} (m : Memory w) (n s : Nat) (h : s < n) (f : BitVec w → Nat) :
    ((m.toList n).map f).getD s 0 = f (m.read s) := by
  simp [Memory.toList, List.getD_eq_getElem?_getD, List.getElem?_range h]

@[simp] theorem lensOf_length (t : Tables) (a : Alphabet) : (lensOf t a).length = alphabetSize a := by
  cases a <;> simp [lensOf, Memory.toList]

@[simp] theorem codesOf_length (t : Tables) (a : Alphabet) : (codesOf t a).length = alphabetSize a := by
  cases a <;> simp [codesOf, Memory.toList]

@[simp] theorem freqsOf_length (t : Tables) (a : Alphabet) : (freqsOf t a).length = alphabetSize a := by
  cases a <;> simp [freqsOf, Memory.toList]

theorem lensOf_getD {t : Tables} {a : Alphabet} {s : Nat} (h : s < alphabetSize a) :
    (lensOf t a).getD s 0 = lenAt t a s := by
  cases a <;> exact getD_toList _ _ _ h _

theorem codesOf_getD {t : Tables} {a : Alphabet} {s : Nat} (h : s < alphabetSize a) :
    (codesOf t a).getD s 0 = codeAt t a s := by
  cases a <;> exact getD_toList _ _ _ h _

theorem lensOf_le (t : Tables) (a : Alphabet) : ∀ l ∈ lensOf t a, l ≤ 15 := by
  intro l hl
  cases a <;>
    (simp only [lensOf, List.mem_map] at hl
     obtain ⟨x, -, rfl⟩ := hl
     have := x.isLt
     omega)

theorem list_ext_getD {l l' : List Nat} (h1 : l.length = l'.length)
    (h2 : ∀ k, k < l.length → l.getD k 0 = l'.getD k 0) : l = l' := by
  apply List.ext_getElem h1
  intro k hk hk'
  have := h2 k hk
  simpa [List.getD_eq_getElem?_getD, List.getElem?_eq_getElem hk, List.getElem?_eq_getElem hk'] using this

theorem read_ofList_getD {w : Nat} (l : List Nat) (k : Nat) (h : ∀ x ∈ l, x < 2 ^ w) :
    ((Memory.ofList (l.map (BitVec.ofNat w))).read k).toNat = l.getD k 0 := by
  rw [read_ofList]
  rw [List.getD_eq_getElem?_getD, List.getD_eq_getElem?_getD, List.getElem?_map]
  cases hk : l[k]? with
  | none => simp
  | some x =>
    have := h x (List.mem_of_getElem? hk)
    simp [Nat.mod_eq_of_lt this]

theorem lensOf_setLens {t : Tables} {a : Alphabet} {lens : List Nat} (hl : lens.length = alphabetSize a)
    (h : ∀ l ∈ lens, l ≤ 15) : lensOf (setLens t a lens) a = lens := by
  have h' : ∀ x ∈ lens, x < 2 ^ 4 := fun x hx => by have := h x hx; omega
  apply list_ext_getD (by simp [hl])
  intro k hk
  rw [lensOf_length] at hk
  rw [lensOf_getD hk]
  cases a <;> simp only [lenAt, setLens] <;> exact read_ofList_getD lens k h'

theorem codesOf_setCodes {t : Tables} {a : Alphabet} {codes : List Nat} (hl : codes.length = alphabetSize a)
    (h : ∀ c ∈ codes, c < 2 ^ 32) : codesOf (setCodes t a codes) a = codes := by
  apply list_ext_getD (by simp [hl])
  intro k hk
  rw [codesOf_length] at hk
  rw [codesOf_getD hk]
  cases a <;> simp only [codeAt, setCodes] <;> exact read_ofList_getD codes k h

theorem alphabetSize_le (a : Alphabet) : alphabetSize a ≤ 288 := by cases a <;> decide

theorem hufCanon_fits {lens : List Nat} (h : ∀ l ∈ lens, l ≤ 15) (hn : lens.length ≤ 288) :
    ∀ c ∈ hufCanon lens, c < 2 ^ 32 := by
  intro c hc
  obtain ⟨k, hk, rfl⟩ := List.mem_iff_getElem.1 hc
  have := hufCanon_lt h k
  rw [List.getD_eq_getElem?_getD, List.getElem?_eq_getElem hk] at this
  simp only [Option.getD_some] at this
  omega

/-- HUF_CANON leaves the canonical codes of the lengths (44_huffman.md R227, R231). -/
theorem codesOf_canonTables (t : Tables) (a : Alphabet) :
    codesOf (canonTables a t) a = hufCanon (lensOf t a) :=
  codesOf_setCodes (by rw [(hufCanon_spec _).1, lensOf_length])
    (hufCanon_fits (lensOf_le t a) (by rw [lensOf_length]; exact alphabetSize_le a))

@[simp] theorem lensOf_setCodes (t : Tables) (a b : Alphabet) (codes : List Nat) :
    lensOf (setCodes t a codes) b = lensOf t b := by
  cases a <;> cases b <;> rfl

@[simp] theorem lensOf_canonTables (t : Tables) (a b : Alphabet) : lensOf (canonTables a t) b = lensOf t b :=
  lensOf_setCodes _ _ _ _

theorem codesOf_setCodes_of_ne {t : Tables} {a b : Alphabet} (h : a ≠ b) (codes : List Nat) :
    codesOf (setCodes t a codes) b = codesOf t b := by
  cases a <;> cases b <;> first | rfl | exact absurd rfl h

theorem codesOf_canonTables_of_ne {t : Tables} {a b : Alphabet} (h : a ≠ b) :
    codesOf (canonTables a t) b = codesOf t b := codesOf_setCodes_of_ne h _

theorem lensOf_setLens_of_ne {t : Tables} {a b : Alphabet} (h : a ≠ b) (lens : List Nat) :
    lensOf (setLens t a lens) b = lensOf t b := by
  cases a <;> cases b <;> first | rfl | exact absurd rfl h

@[simp] theorem codesOf_setLens (t : Tables) (a b : Alphabet) (lens : List Nat) :
    codesOf (setLens t a lens) b = codesOf t b := by
  cases a <;> cases b <;> rfl

/-! ### Codes as bits -/

theorem codeOfBits_cons (b : Bool) (l : List Bool) : codeOfBits (b :: l) = bit b * 2 ^ l.length + codeOfBits l := by
  simp only [codeOfBits, List.reverse_cons, natOfBits_append, natOfBits, List.length_reverse]
  ring

@[simp] theorem codeOfBits_nil : codeOfBits [] = 0 := rfl

theorem codeOfBits_bitsRev (n v : Nat) : codeOfBits (bitsRev n v) = v % 2 ^ n := by
  rw [codeOfBits, bitsRev, List.reverse_reverse, natOfBits_bitsOf]

theorem bitsRev_take {n m : Nat} (v : Nat) (h : m ≤ n) : (bitsRev n v).take m = bitsRev m (v / 2 ^ (n - m)) := by
  have e : bitsRev n v = bitsRev m (v / 2 ^ (n - m)) ++ bitsRev (n - m) v := by
    rw [bitsRev, bitsRev, bitsRev, ← List.reverse_append, ← bitsOf_add, Nat.sub_add_cancel h]
  rw [e, List.take_append_of_le_length (by simp), List.take_of_length_le (by simp)]

/-! ### The decoding loop -/

theorem findCode_none {len v k : Nat} {table : List (Nat × Nat)}
    (h : ∀ (i : Nat) (x : Nat × Nat), table[i]? = some x → ¬ (x.1 = len ∧ x.2 = v)) : findCode len v k table = none := by
  induction table generalizing k with
  | nil => rfl
  | cons x rest ih =>
    obtain ⟨l, c⟩ := x
    rw [findCode, if_neg (h 0 (l, c) rfl)]
    exact ih fun i y hy => h (i + 1) y (by simpa using hy)

theorem findCode_some {len v k s : Nat} {table : List (Nat × Nat)} (hs : table[s]? = some (len, v))
    (h : ∀ (i : Nat) (x : Nat × Nat), i < s → table[i]? = some x → ¬ (x.1 = len ∧ x.2 = v)) :
    findCode len v k table = some (k + s) := by
  induction table generalizing k s with
  | nil => simp at hs
  | cons x rest ih =>
    obtain ⟨l, c⟩ := x
    cases s with
    | zero =>
      simp only [List.getElem?_cons_zero, Option.some.injEq, Prod.mk.injEq] at hs
      rw [findCode, if_pos hs]
      rfl
    | succ s =>
      rw [findCode, if_neg (h 0 (l, c) (by omega) rfl), ih (s := s) (by simpa using hs)]
      · congr 1; omega
      · exact fun i y hi hy => h (i + 1) y (by omega) (by simpa using hy)

/-- The first bit count at which a code matches gives the symbol. -/
theorem decodeFrom_ok {table : List (Nat × Nat)} {a rest : List Bool} {rem len v x : Nat} {s : State}
    (hu : unreadBits s = a ++ rest) (ha : a ≠ []) (hr : a.length ≤ rem)
    (hno : ∀ m, 1 ≤ m → m < a.length →
      findCode (len - 1 + m) (v * 2 ^ m + codeOfBits (a.take m)) 0 table = none)
    (hx : findCode (len - 1 + a.length) (v * 2 ^ a.length + codeOfBits a) 0 table = some x) (hl : 1 ≤ len) :
    decodeFrom table rem len v s = .ok x (advance a.length s) := by
  induction a generalizing rem len v s with
  | nil => exact absurd rfl ha
  | cons b a ih =>
    cases rem with
    | zero => simp at hr
    | succ rem =>
      have hv : 2 * v + bit b = v * 2 ^ 1 + codeOfBits ([b]) := by
        rw [codeOfBits_cons]; simp; ring
      rw [decodeFrom, bind_run, getBit_ok hu]
      simp only
      have hl1 : len - 1 + 1 = len := by omega
      cases a with
      | nil =>
        have hx' : findCode len (2 * v + bit b) 0 table = some x := by
          rw [hv]
          simpa [hl1] using hx
        rw [hx']
        rfl
      | cons b2 a2 =>
        have h1 := hno 1 (le_refl _) (by simp)
        simp only [List.take_succ_cons, List.take_zero] at h1
        rw [← hv, hl1] at h1
        rw [h1]
        have hshift : ∀ (l : List Bool), (2 * v + bit b) * 2 ^ l.length + codeOfBits l
            = v * 2 ^ (l.length + 1) + codeOfBits (b :: l) := by
          intro l
          rw [codeOfBits_cons]; ring
        refine ih (len := len + 1) (takeOne_unread hu) (by simp) (by simpa using hr) ?_ ?_ (by omega)
        · intro m hm hm2
          have := hno (m + 1) (by omega) (by simpa using hm2)
          have hlen : ((b2 :: a2).take m).length = m := by
            rw [List.length_take]; omega
          have hs := hshift ((b2 :: a2).take m)
          rw [hlen] at hs
          rw [hs, show len + 1 - 1 + m = len - 1 + (m + 1) by omega]
          exact this
        · rw [hshift, show len + 1 - 1 + (b2 :: a2).length = len - 1 + (b :: b2 :: a2).length by
            simp only [List.length_cons]; omega]
          exact hx

/-- Where no code matches: BAD_SYMBOL after the longest length, or the reader runs dry before it. -/
theorem decodeFrom_none {table : List (Nat × Nat)} {rem len v : Nat} {s : State}
    (hno : ∀ m, 1 ≤ m → m ≤ rem → m ≤ (unreadBits s).length →
      findCode (len - 1 + m) (v * 2 ^ m + codeOfBits ((unreadBits s).take m)) 0 table = none) (hl : 1 ≤ len) :
    decodeFrom table rem len v s =
      if rem ≤ (unreadBits s).length then .error (.raise .badSymbol) (advance rem s)
      else .error (dryStop s) (advance (unreadBits s).length s) := by
  induction rem generalizing len v s with
  | zero => rw [if_pos (Nat.zero_le _)]; rfl
  | succ rem ih =>
    rw [decodeFrom, bind_run]
    cases hu : unreadBits s with
    | nil =>
      rw [getBit_dry hu, if_neg (by simp)]
      rfl
    | cons b rest =>
      rw [hu] at hno
      rw [getBit_ok hu]
      simp only
      have h1 := hno 1 (le_refl _) (by omega) (by simp)
      have hl1 : len - 1 + 1 = len := by omega
      have hv : 2 * v + bit b = v * 2 ^ 1 + codeOfBits ((b :: rest).take 1) := by
        simp [codeOfBits_cons]; ring
      rw [← hv, hl1] at h1
      rw [h1]
      have ht := takeOne_unread hu
      have hd : dryStop (takeOne s) = dryStop s := by
        have := (advance_keeps 1 s)
        simp only [advance] at this
        simp [dryStop, this]
      simp only
      rw [ih (len := len + 1) _ (by omega), ht, hd]
      · simp only [List.length_cons, Nat.add_le_add_iff_right]
        split <;> rfl
      · intro m hm1 hm2 hm3
        rw [ht] at hm3 ⊢
        have := hno (m + 1) (by omega) (by omega) (by simp; omega)
        rw [List.take_succ_cons, codeOfBits_cons, List.length_take, Nat.min_eq_left hm3] at this
        rw [show len + 1 - 1 + m = len - 1 + (m + 1) by omega]
        rw [← this]
        congr 1
        ring

theorem table_getElem? {t : Tables} {a : Alphabet} {i : Nat} {x : Nat × Nat}
    (h : ((lensOf t a).zip (codesOf t a))[i]? = some x) : i < alphabetSize a ∧ x = (lenAt t a i, codeAt t a i) := by
  have hi : i < alphabetSize a := by
    have := (List.getElem?_eq_some_iff.1 h).1
    simpa using this
  refine ⟨hi, ?_⟩
  rw [List.getElem?_zip_eq_some] at h
  have h1 := lensOf_getD (t := t) hi
  have h2 := codesOf_getD (t := t) hi
  rw [List.getD_eq_getElem?_getD, h.1] at h1
  rw [List.getD_eq_getElem?_getD, h.2] at h2
  exact Prod.ext h1 h2

theorem table_at {t : Tables} {a : Alphabet} {i : Nat} (h : i < alphabetSize a) :
    ((lensOf t a).zip (codesOf t a))[i]? = some (lenAt t a i, codeAt t a i) := by
  have hi : i < ((lensOf t a).zip (codesOf t a)).length := by simpa using h
  rw [List.getElem?_eq_getElem hi]
  have := table_getElem? (List.getElem?_eq_getElem hi)
  rw [this.2]

theorem lenAt_le_max {t : Tables} {a : Alphabet} {x : Nat} (h : x < alphabetSize a) :
    lenAt t a x ≤ maxOf (lensOf t a) := by
  rw [← lensOf_getD h]
  apply le_maxOf
  rw [List.getD_eq_getElem?_getD, List.getElem?_eq_getElem (by simpa using h)]
  exact List.getElem_mem _

/-- Decoding a symbol whose code is next (44_huffman.md R229). -/
theorem hufDecode_ok {a : Alphabet} {s : State} {x n : Nat} (hx : x < alphabetSize a) (hn : 1 ≤ n)
    (hl : n ≤ (unreadBits s).length) (h1 : lenAt s.tables a x = n)
    (h2 : codeAt s.tables a x = codeOfBits ((unreadBits s).take n))
    (h3 : ∀ y, y < x → lenAt s.tables a y = n → codeAt s.tables a y ≠ codeOfBits ((unreadBits s).take n))
    (h4 : ∀ m, 1 ≤ m → m < n → ∀ y, y < alphabetSize a → lenAt s.tables a y = m →
      codeAt s.tables a y ≠ codeOfBits ((unreadBits s).take m)) :
    hufDecode a s = .ok x (advance n s) := by
  have hlen : ((unreadBits s).take n).length = n := by rw [List.length_take]; omega
  rw [hufDecode, getState_bind]
  have := decodeFrom_ok (table := (lensOf s.tables a).zip (codesOf s.tables a)) (a := (unreadBits s).take n)
    (rest := (unreadBits s).drop n) (rem := maxOf (lensOf s.tables a)) (len := 1) (v := 0) (x := x) (s := s)
    (by simp) (by intro e; rw [e] at hlen; simp at hlen; omega)
    (by rw [hlen, ← h1]; exact lenAt_le_max hx)
    (fun m hm1 hm2 => by
      rw [hlen] at hm2
      have e : ((unreadBits s).take n).take m = (unreadBits s).take m := by rw [List.take_take]; congr 1; omega
      rw [e]
      refine findCode_none fun i y hy => ?_
      obtain ⟨hi, rfl⟩ := table_getElem? hy
      simp only [Nat.zero_mul, Nat.zero_add, Nat.sub_self]
      exact fun ⟨q1, q2⟩ => h4 m hm1 hm2 i hi q1 q2)
    (by
      rw [hlen]
      have := findCode_some (k := 0) (len := n) (v := codeOfBits ((unreadBits s).take n)) (s := x)
        (table := (lensOf s.tables a).zip (codesOf s.tables a)) (by rw [table_at hx, h1, h2])
        (fun i y hi hy => by
          obtain ⟨_, rfl⟩ := table_getElem? hy
          exact fun ⟨q1, q2⟩ => h3 i hi q1 q2)
      simpa using this)
    (le_refl _)
  rwa [hlen] at this

/-- Decoding where no code matches (44_huffman.md R229). -/
theorem hufDecode_none {a : Alphabet} {s : State}
    (h : ∀ m, 1 ≤ m → m ≤ (unreadBits s).length → m ≤ maxOf (lensOf s.tables a) → ∀ y, y < alphabetSize a →
      lenAt s.tables a y = m → codeAt s.tables a y ≠ codeOfBits ((unreadBits s).take m)) :
    hufDecode a s =
      if maxOf (lensOf s.tables a) ≤ (unreadBits s).length then
        .error (.raise .badSymbol) (advance (maxOf (lensOf s.tables a)) s)
      else .error (dryStop s) (advance (unreadBits s).length s) := by
  rw [hufDecode, getState_bind]
  refine decodeFrom_none (fun m hm1 hm2 hm3 => ?_) (le_refl _)
  refine findCode_none fun i y hy => ?_
  obtain ⟨hi, rfl⟩ := table_getElem? hy
  simp only [Nat.zero_mul, Nat.zero_add, Nat.sub_self]
  exact fun ⟨q1, q2⟩ => h m hm1 hm3 hm2 i hi q1 q2

/-- The bits of a canonical code decode to its symbol (44_huffman.md R237). -/
theorem hufDecode_sym {a : Alphabet} {s : State} {lens : List Nat} {x : Nat} {rest : List Bool}
    (hl : lensOf s.tables a = lens) (hc : codesOf s.tables a = hufCanon lens) (hx : Coded lens x)
    (hu : unreadBits s = symBits lens x ++ rest) :
    hufDecode a s = .ok x (advance (symBits lens x).length s) ∧
      unreadBits (advance (symBits lens x).length s) = rest := by
  refine ⟨?_, advance_unread hu⟩
  have hn : lens.length = alphabetSize a := by rw [← hl, lensOf_length]
  obtain ⟨c1, c2, c3, c4⟩ := hx
  rw [hn] at c1
  have hlen : (symBits lens x).length = lens.getD x 0 := by rw [symBits, bitsRev_length]
  have hL : ∀ y, y < alphabetSize a → lenAt s.tables a y = lens.getD y 0 := fun y hy => by
    rw [← lensOf_getD hy, hl]
  have hC : ∀ y, y < alphabetSize a → codeAt s.tables a y = (hufCanon lens).getD y 0 := fun y hy => by
    rw [← codesOf_getD hy, hc]
  have htake : ∀ m, m ≤ lens.getD x 0 →
      codeOfBits ((unreadBits s).take m) = (hufCanon lens).getD x 0 / 2 ^ (lens.getD x 0 - m) := by
    intro m hm
    rw [hu, List.take_append_of_le_length (by omega), symBits, bitsRev_take _ hm, codeOfBits_bitsRev,
      Nat.mod_eq_of_lt]
    rw [Nat.div_lt_iff_lt_mul (Nat.two_pow_pos _), ← Nat.pow_add]
    have : m + (lens.getD x 0 - m) = lens.getD x 0 := by omega
    rwa [this]
  rw [hlen]
  refine hufDecode_ok c1 c2 ?_ (hL x c1) ?_ ?_ ?_
  · rw [hu, List.length_append, hlen]; omega
  · rw [htake _ (le_refl _), hC x c1]; simp
  · intro y hy hly he
    have hy2 : y < alphabetSize a := by omega
    rw [htake _ (le_refl _), hC y hy2] at he
    rw [hL y hy2] at hly
    have := c4 y (by omega) (by omega) (by omega) (by omega)
    rw [hly] at this
    exact this he.symm
  · intro m hm1 hm2 y hy hly he
    rw [htake m (by omega), hC y hy] at he
    rw [hL y hy] at hly
    refine c4 y (by omega) (by rintro rfl; omega) (by omega) (by omega) ?_
    rw [hly]
    exact he.symm

end Sys2Proof.Machine
end

