-- ==== Sys2Proof/Laws/State.lean ====
section
/-! SUPPORT. The named updates of State, field by field, so that no later proof unfolds one. -/

namespace Sys2Proof.Machine

/-- Acceptance (60_exceptions.md R330): what it writes. -/
@[simp] theorem accept_writes (w : Word) (s : State) :
    (accept w s).cmd = w ∧
    (accept w s).done = false ∧
    (accept w s).engine = .busy ∧
    (accept w s).sawEnd = false := by
  and_intros <;> rfl

/-- Acceptance (60_exceptions.md R330): what it keeps. -/
@[simp] theorem accept_keeps (w : Word) (s : State) :
    (accept w s).cmdDropped = s.cmdDropped ∧ (accept w s).bfinalSeen = s.bfinalSeen ∧
    (accept w s).fnameTrunc = s.fnameTrunc ∧ (accept w s).errinfo = s.errinfo ∧
    (accept w s).cfg = s.cfg ∧ (accept w s).arg0 = s.arg0 ∧ (accept w s).arg1 = s.arg1 ∧
    (accept w s).arg2 = s.arg2 ∧ (accept w s).res0 = s.res0 ∧ (accept w s).res1 = s.res1 ∧
    (accept w s).crcState = s.crcState ∧ (accept w s).rawCount = s.rawCount ∧
    (accept w s).bytesIn = s.bytesIn ∧ (accept w s).bytesOut = s.bytesOut ∧
    (accept w s).outCommit = s.outCommit ∧ (accept w s).wcount = s.wcount ∧
    (accept w s).wbuf = s.wbuf ∧ (accept w s).rcount = s.rcount ∧ (accept w s).rbuf = s.rbuf ∧
    (accept w s).wcur = s.wcur ∧ (accept w s).wvalid = s.wvalid ∧ (accept w s).gzFlg = s.gzFlg ∧
    (accept w s).gzMtime = s.gzMtime ∧ (accept w s).gzXfl = s.gzXfl ∧ (accept w s).gzOs = s.gzOs ∧
    (accept w s).gzFnameLen = s.gzFnameLen ∧ (accept w s).gzTrlCrc = s.gzTrlCrc ∧
    (accept w s).gzTrlIsize = s.gzTrlIsize ∧ (accept w s).tables = s.tables ∧
    (accept w s).tokens = s.tokens ∧ (accept w s).params = s.params ∧
    (accept w s).inPort = s.inPort ∧ (accept w s).inClosed = s.inClosed ∧
    (accept w s).outPort = s.outPort ∧ (accept w s).outRoom = s.outRoom ∧
    (accept w s).held = s.held ∧ (accept w s).draws = s.draws ∧ (accept w s).hostRead = s.hostRead ∧
    (accept w s).host = s.host := by
  and_intros <;> rfl

/-- Completion (R332): what it writes. -/
@[simp] theorem complete_writes (s : State) :
    (complete s).engine = .idle ∧
    (complete s).done = true ∧
    (complete s).outCommit = s.bytesOut ∧
    (complete s).held = none := by
  and_intros <;> rfl

/-- Completion (R332): what it keeps. -/
@[simp] theorem complete_keeps (s : State) :
    (complete s).cmd = s.cmd ∧ (complete s).cmdDropped = s.cmdDropped ∧
    (complete s).bfinalSeen = s.bfinalSeen ∧ (complete s).fnameTrunc = s.fnameTrunc ∧
    (complete s).errinfo = s.errinfo ∧ (complete s).cfg = s.cfg ∧ (complete s).arg0 = s.arg0 ∧
    (complete s).arg1 = s.arg1 ∧ (complete s).arg2 = s.arg2 ∧ (complete s).res0 = s.res0 ∧
    (complete s).res1 = s.res1 ∧ (complete s).crcState = s.crcState ∧
    (complete s).rawCount = s.rawCount ∧ (complete s).bytesIn = s.bytesIn ∧
    (complete s).bytesOut = s.bytesOut ∧ (complete s).wcount = s.wcount ∧
    (complete s).wbuf = s.wbuf ∧ (complete s).rcount = s.rcount ∧ (complete s).rbuf = s.rbuf ∧
    (complete s).wcur = s.wcur ∧ (complete s).wvalid = s.wvalid ∧ (complete s).gzFlg = s.gzFlg ∧
    (complete s).gzMtime = s.gzMtime ∧ (complete s).gzXfl = s.gzXfl ∧ (complete s).gzOs = s.gzOs ∧
    (complete s).gzFnameLen = s.gzFnameLen ∧ (complete s).gzTrlCrc = s.gzTrlCrc ∧
    (complete s).gzTrlIsize = s.gzTrlIsize ∧ (complete s).tables = s.tables ∧
    (complete s).tokens = s.tokens ∧ (complete s).params = s.params ∧
    (complete s).inPort = s.inPort ∧ (complete s).inClosed = s.inClosed ∧
    (complete s).outPort = s.outPort ∧ (complete s).outRoom = s.outRoom ∧
    (complete s).sawEnd = s.sawEnd ∧ (complete s).draws = s.draws ∧
    (complete s).hostRead = s.hostRead ∧ (complete s).host = s.host := by
  and_intros <;> rfl

/-- Error entry (R335): what it writes. -/
@[simp] theorem enterError_writes (e : ErrCode) (s : State) :
    (enterError e s).errinfo = errorInfo s.cmd e ∧
    (enterError e s).engine = .error ∧
    (enterError e s).done = false ∧
    (enterError e s).held = none := by
  and_intros <;> rfl

/-- Error entry (R335): what it keeps. -/
@[simp] theorem enterError_keeps (e : ErrCode) (s : State) :
    (enterError e s).cmd = s.cmd ∧ (enterError e s).cmdDropped = s.cmdDropped ∧
    (enterError e s).bfinalSeen = s.bfinalSeen ∧ (enterError e s).fnameTrunc = s.fnameTrunc ∧
    (enterError e s).cfg = s.cfg ∧ (enterError e s).arg0 = s.arg0 ∧ (enterError e s).arg1 = s.arg1 ∧
    (enterError e s).arg2 = s.arg2 ∧ (enterError e s).res0 = s.res0 ∧
    (enterError e s).res1 = s.res1 ∧ (enterError e s).crcState = s.crcState ∧
    (enterError e s).rawCount = s.rawCount ∧ (enterError e s).bytesIn = s.bytesIn ∧
    (enterError e s).bytesOut = s.bytesOut ∧ (enterError e s).outCommit = s.outCommit ∧
    (enterError e s).wcount = s.wcount ∧ (enterError e s).wbuf = s.wbuf ∧
    (enterError e s).rcount = s.rcount ∧ (enterError e s).rbuf = s.rbuf ∧
    (enterError e s).wcur = s.wcur ∧ (enterError e s).wvalid = s.wvalid ∧
    (enterError e s).gzFlg = s.gzFlg ∧ (enterError e s).gzMtime = s.gzMtime ∧
    (enterError e s).gzXfl = s.gzXfl ∧ (enterError e s).gzOs = s.gzOs ∧
    (enterError e s).gzFnameLen = s.gzFnameLen ∧ (enterError e s).gzTrlCrc = s.gzTrlCrc ∧
    (enterError e s).gzTrlIsize = s.gzTrlIsize ∧ (enterError e s).tables = s.tables ∧
    (enterError e s).tokens = s.tokens ∧ (enterError e s).params = s.params ∧
    (enterError e s).inPort = s.inPort ∧ (enterError e s).inClosed = s.inClosed ∧
    (enterError e s).outPort = s.outPort ∧ (enterError e s).outRoom = s.outRoom ∧
    (enterError e s).sawEnd = s.sawEnd ∧ (enterError e s).draws = s.draws ∧
    (enterError e s).hostRead = s.hostRead ∧ (enterError e s).host = s.host := by
  and_intros <;> rfl

/-- CLEAR_ERR (40_control.md R142): what it writes. -/
@[simp] theorem leaveError_writes (s : State) :
    (leaveError s).errinfo = 0 ∧
    (leaveError s).engine = .idle := by
  and_intros <;> rfl

/-- CLEAR_ERR (40_control.md R142): what it keeps. -/
@[simp] theorem leaveError_keeps (s : State) :
    (leaveError s).cmd = s.cmd ∧ (leaveError s).done = s.done ∧
    (leaveError s).cmdDropped = s.cmdDropped ∧ (leaveError s).bfinalSeen = s.bfinalSeen ∧
    (leaveError s).fnameTrunc = s.fnameTrunc ∧ (leaveError s).cfg = s.cfg ∧
    (leaveError s).arg0 = s.arg0 ∧ (leaveError s).arg1 = s.arg1 ∧ (leaveError s).arg2 = s.arg2 ∧
    (leaveError s).res0 = s.res0 ∧ (leaveError s).res1 = s.res1 ∧
    (leaveError s).crcState = s.crcState ∧ (leaveError s).rawCount = s.rawCount ∧
    (leaveError s).bytesIn = s.bytesIn ∧ (leaveError s).bytesOut = s.bytesOut ∧
    (leaveError s).outCommit = s.outCommit ∧ (leaveError s).wcount = s.wcount ∧
    (leaveError s).wbuf = s.wbuf ∧ (leaveError s).rcount = s.rcount ∧ (leaveError s).rbuf = s.rbuf ∧
    (leaveError s).wcur = s.wcur ∧ (leaveError s).wvalid = s.wvalid ∧
    (leaveError s).gzFlg = s.gzFlg ∧ (leaveError s).gzMtime = s.gzMtime ∧
    (leaveError s).gzXfl = s.gzXfl ∧ (leaveError s).gzOs = s.gzOs ∧
    (leaveError s).gzFnameLen = s.gzFnameLen ∧ (leaveError s).gzTrlCrc = s.gzTrlCrc ∧
    (leaveError s).gzTrlIsize = s.gzTrlIsize ∧ (leaveError s).tables = s.tables ∧
    (leaveError s).tokens = s.tokens ∧ (leaveError s).params = s.params ∧
    (leaveError s).inPort = s.inPort ∧ (leaveError s).inClosed = s.inClosed ∧
    (leaveError s).outPort = s.outPort ∧ (leaveError s).outRoom = s.outRoom ∧
    (leaveError s).held = s.held ∧ (leaveError s).sawEnd = s.sawEnd ∧
    (leaveError s).draws = s.draws ∧ (leaveError s).hostRead = s.hostRead ∧
    (leaveError s).host = s.host := by
  and_intros <;> rfl

/-- StreamInit (R144): what it writes. -/
@[simp] theorem streamInit_writes (s : State) :
    (streamInit s).wcur = 0 ∧
    (streamInit s).wvalid = 0 ∧
    (streamInit s).crcState = 0xFFFFFFFF#32 ∧
    (streamInit s).rawCount = 0 ∧
    (streamInit s).bfinalSeen = false := by
  and_intros <;> rfl

/-- StreamInit (R144): what it keeps. -/
@[simp] theorem streamInit_keeps (s : State) :
    (streamInit s).engine = s.engine ∧ (streamInit s).cmd = s.cmd ∧ (streamInit s).done = s.done ∧
    (streamInit s).cmdDropped = s.cmdDropped ∧ (streamInit s).fnameTrunc = s.fnameTrunc ∧
    (streamInit s).errinfo = s.errinfo ∧ (streamInit s).cfg = s.cfg ∧ (streamInit s).arg0 = s.arg0 ∧
    (streamInit s).arg1 = s.arg1 ∧ (streamInit s).arg2 = s.arg2 ∧ (streamInit s).res0 = s.res0 ∧
    (streamInit s).res1 = s.res1 ∧ (streamInit s).bytesIn = s.bytesIn ∧
    (streamInit s).bytesOut = s.bytesOut ∧ (streamInit s).outCommit = s.outCommit ∧
    (streamInit s).wcount = s.wcount ∧ (streamInit s).wbuf = s.wbuf ∧
    (streamInit s).rcount = s.rcount ∧ (streamInit s).rbuf = s.rbuf ∧
    (streamInit s).gzFlg = s.gzFlg ∧ (streamInit s).gzMtime = s.gzMtime ∧
    (streamInit s).gzXfl = s.gzXfl ∧ (streamInit s).gzOs = s.gzOs ∧
    (streamInit s).gzFnameLen = s.gzFnameLen ∧ (streamInit s).gzTrlCrc = s.gzTrlCrc ∧
    (streamInit s).gzTrlIsize = s.gzTrlIsize ∧ (streamInit s).tables = s.tables ∧
    (streamInit s).tokens = s.tokens ∧ (streamInit s).params = s.params ∧
    (streamInit s).inPort = s.inPort ∧ (streamInit s).inClosed = s.inClosed ∧
    (streamInit s).outPort = s.outPort ∧ (streamInit s).outRoom = s.outRoom ∧
    (streamInit s).held = s.held ∧ (streamInit s).sawEnd = s.sawEnd ∧
    (streamInit s).draws = s.draws ∧ (streamInit s).hostRead = s.hostRead ∧
    (streamInit s).host = s.host := by
  and_intros <;> rfl

/-- A write of RES0: what it writes. -/
@[simp] theorem setRes0_writes (v : Word) (s : State) :
    (setRes0 v s).res0 = v := rfl

/-- A write of RES0: what it keeps. -/
@[simp] theorem setRes0_keeps (v : Word) (s : State) :
    (setRes0 v s).engine = s.engine ∧ (setRes0 v s).cmd = s.cmd ∧ (setRes0 v s).done = s.done ∧
    (setRes0 v s).cmdDropped = s.cmdDropped ∧ (setRes0 v s).bfinalSeen = s.bfinalSeen ∧
    (setRes0 v s).fnameTrunc = s.fnameTrunc ∧ (setRes0 v s).errinfo = s.errinfo ∧
    (setRes0 v s).cfg = s.cfg ∧ (setRes0 v s).arg0 = s.arg0 ∧ (setRes0 v s).arg1 = s.arg1 ∧
    (setRes0 v s).arg2 = s.arg2 ∧ (setRes0 v s).res1 = s.res1 ∧
    (setRes0 v s).crcState = s.crcState ∧ (setRes0 v s).rawCount = s.rawCount ∧
    (setRes0 v s).bytesIn = s.bytesIn ∧ (setRes0 v s).bytesOut = s.bytesOut ∧
    (setRes0 v s).outCommit = s.outCommit ∧ (setRes0 v s).wcount = s.wcount ∧
    (setRes0 v s).wbuf = s.wbuf ∧ (setRes0 v s).rcount = s.rcount ∧ (setRes0 v s).rbuf = s.rbuf ∧
    (setRes0 v s).wcur = s.wcur ∧ (setRes0 v s).wvalid = s.wvalid ∧ (setRes0 v s).gzFlg = s.gzFlg ∧
    (setRes0 v s).gzMtime = s.gzMtime ∧ (setRes0 v s).gzXfl = s.gzXfl ∧
    (setRes0 v s).gzOs = s.gzOs ∧ (setRes0 v s).gzFnameLen = s.gzFnameLen ∧
    (setRes0 v s).gzTrlCrc = s.gzTrlCrc ∧ (setRes0 v s).gzTrlIsize = s.gzTrlIsize ∧
    (setRes0 v s).tables = s.tables ∧ (setRes0 v s).tokens = s.tokens ∧
    (setRes0 v s).params = s.params ∧ (setRes0 v s).inPort = s.inPort ∧
    (setRes0 v s).inClosed = s.inClosed ∧ (setRes0 v s).outPort = s.outPort ∧
    (setRes0 v s).outRoom = s.outRoom ∧ (setRes0 v s).held = s.held ∧
    (setRes0 v s).sawEnd = s.sawEnd ∧ (setRes0 v s).draws = s.draws ∧
    (setRes0 v s).hostRead = s.hostRead ∧ (setRes0 v s).host = s.host := by
  and_intros <;> rfl

/-- A write of RES1: what it writes. -/
@[simp] theorem setRes1_writes (v : Word) (s : State) :
    (setRes1 v s).res1 = v := rfl

/-- A write of RES1: what it keeps. -/
@[simp] theorem setRes1_keeps (v : Word) (s : State) :
    (setRes1 v s).engine = s.engine ∧ (setRes1 v s).cmd = s.cmd ∧ (setRes1 v s).done = s.done ∧
    (setRes1 v s).cmdDropped = s.cmdDropped ∧ (setRes1 v s).bfinalSeen = s.bfinalSeen ∧
    (setRes1 v s).fnameTrunc = s.fnameTrunc ∧ (setRes1 v s).errinfo = s.errinfo ∧
    (setRes1 v s).cfg = s.cfg ∧ (setRes1 v s).arg0 = s.arg0 ∧ (setRes1 v s).arg1 = s.arg1 ∧
    (setRes1 v s).arg2 = s.arg2 ∧ (setRes1 v s).res0 = s.res0 ∧
    (setRes1 v s).crcState = s.crcState ∧ (setRes1 v s).rawCount = s.rawCount ∧
    (setRes1 v s).bytesIn = s.bytesIn ∧ (setRes1 v s).bytesOut = s.bytesOut ∧
    (setRes1 v s).outCommit = s.outCommit ∧ (setRes1 v s).wcount = s.wcount ∧
    (setRes1 v s).wbuf = s.wbuf ∧ (setRes1 v s).rcount = s.rcount ∧ (setRes1 v s).rbuf = s.rbuf ∧
    (setRes1 v s).wcur = s.wcur ∧ (setRes1 v s).wvalid = s.wvalid ∧ (setRes1 v s).gzFlg = s.gzFlg ∧
    (setRes1 v s).gzMtime = s.gzMtime ∧ (setRes1 v s).gzXfl = s.gzXfl ∧
    (setRes1 v s).gzOs = s.gzOs ∧ (setRes1 v s).gzFnameLen = s.gzFnameLen ∧
    (setRes1 v s).gzTrlCrc = s.gzTrlCrc ∧ (setRes1 v s).gzTrlIsize = s.gzTrlIsize ∧
    (setRes1 v s).tables = s.tables ∧ (setRes1 v s).tokens = s.tokens ∧
    (setRes1 v s).params = s.params ∧ (setRes1 v s).inPort = s.inPort ∧
    (setRes1 v s).inClosed = s.inClosed ∧ (setRes1 v s).outPort = s.outPort ∧
    (setRes1 v s).outRoom = s.outRoom ∧ (setRes1 v s).held = s.held ∧
    (setRes1 v s).sawEnd = s.sawEnd ∧ (setRes1 v s).draws = s.draws ∧
    (setRes1 v s).hostRead = s.hostRead ∧ (setRes1 v s).host = s.host := by
  and_intros <;> rfl

/-- The commit at the end of a block (45_deflate.md R281): what it writes. -/
@[simp] theorem commitOutput_writes (s : State) :
    (commitOutput s).outCommit = s.bytesOut := rfl

/-- The commit at the end of a block (45_deflate.md R281): what it keeps. -/
@[simp] theorem commitOutput_keeps (s : State) :
    (commitOutput s).engine = s.engine ∧ (commitOutput s).cmd = s.cmd ∧
    (commitOutput s).done = s.done ∧ (commitOutput s).cmdDropped = s.cmdDropped ∧
    (commitOutput s).bfinalSeen = s.bfinalSeen ∧ (commitOutput s).fnameTrunc = s.fnameTrunc ∧
    (commitOutput s).errinfo = s.errinfo ∧ (commitOutput s).cfg = s.cfg ∧
    (commitOutput s).arg0 = s.arg0 ∧ (commitOutput s).arg1 = s.arg1 ∧
    (commitOutput s).arg2 = s.arg2 ∧ (commitOutput s).res0 = s.res0 ∧
    (commitOutput s).res1 = s.res1 ∧ (commitOutput s).crcState = s.crcState ∧
    (commitOutput s).rawCount = s.rawCount ∧ (commitOutput s).bytesIn = s.bytesIn ∧
    (commitOutput s).bytesOut = s.bytesOut ∧ (commitOutput s).wcount = s.wcount ∧
    (commitOutput s).wbuf = s.wbuf ∧ (commitOutput s).rcount = s.rcount ∧
    (commitOutput s).rbuf = s.rbuf ∧ (commitOutput s).wcur = s.wcur ∧
    (commitOutput s).wvalid = s.wvalid ∧ (commitOutput s).gzFlg = s.gzFlg ∧
    (commitOutput s).gzMtime = s.gzMtime ∧ (commitOutput s).gzXfl = s.gzXfl ∧
    (commitOutput s).gzOs = s.gzOs ∧ (commitOutput s).gzFnameLen = s.gzFnameLen ∧
    (commitOutput s).gzTrlCrc = s.gzTrlCrc ∧ (commitOutput s).gzTrlIsize = s.gzTrlIsize ∧
    (commitOutput s).tables = s.tables ∧ (commitOutput s).tokens = s.tokens ∧
    (commitOutput s).params = s.params ∧ (commitOutput s).inPort = s.inPort ∧
    (commitOutput s).inClosed = s.inClosed ∧ (commitOutput s).outPort = s.outPort ∧
    (commitOutput s).outRoom = s.outRoom ∧ (commitOutput s).held = s.held ∧
    (commitOutput s).sawEnd = s.sawEnd ∧ (commitOutput s).draws = s.draws ∧
    (commitOutput s).hostRead = s.hostRead ∧ (commitOutput s).host = s.host := by
  and_intros <;> rfl

/-- CrcUpdate (42_crc.md R191): what it writes. -/
@[simp] theorem crcUpdate_writes (b : Byte) (s : State) :
    (crcUpdate b s).crcState = crcStep s.crcState b := rfl

/-- CrcUpdate (42_crc.md R191): what it keeps. -/
@[simp] theorem crcUpdate_keeps (b : Byte) (s : State) :
    (crcUpdate b s).engine = s.engine ∧ (crcUpdate b s).cmd = s.cmd ∧
    (crcUpdate b s).done = s.done ∧ (crcUpdate b s).cmdDropped = s.cmdDropped ∧
    (crcUpdate b s).bfinalSeen = s.bfinalSeen ∧ (crcUpdate b s).fnameTrunc = s.fnameTrunc ∧
    (crcUpdate b s).errinfo = s.errinfo ∧ (crcUpdate b s).cfg = s.cfg ∧
    (crcUpdate b s).arg0 = s.arg0 ∧ (crcUpdate b s).arg1 = s.arg1 ∧ (crcUpdate b s).arg2 = s.arg2 ∧
    (crcUpdate b s).res0 = s.res0 ∧ (crcUpdate b s).res1 = s.res1 ∧
    (crcUpdate b s).rawCount = s.rawCount ∧ (crcUpdate b s).bytesIn = s.bytesIn ∧
    (crcUpdate b s).bytesOut = s.bytesOut ∧ (crcUpdate b s).outCommit = s.outCommit ∧
    (crcUpdate b s).wcount = s.wcount ∧ (crcUpdate b s).wbuf = s.wbuf ∧
    (crcUpdate b s).rcount = s.rcount ∧ (crcUpdate b s).rbuf = s.rbuf ∧
    (crcUpdate b s).wcur = s.wcur ∧ (crcUpdate b s).wvalid = s.wvalid ∧
    (crcUpdate b s).gzFlg = s.gzFlg ∧ (crcUpdate b s).gzMtime = s.gzMtime ∧
    (crcUpdate b s).gzXfl = s.gzXfl ∧ (crcUpdate b s).gzOs = s.gzOs ∧
    (crcUpdate b s).gzFnameLen = s.gzFnameLen ∧ (crcUpdate b s).gzTrlCrc = s.gzTrlCrc ∧
    (crcUpdate b s).gzTrlIsize = s.gzTrlIsize ∧ (crcUpdate b s).tables = s.tables ∧
    (crcUpdate b s).tokens = s.tokens ∧ (crcUpdate b s).params = s.params ∧
    (crcUpdate b s).inPort = s.inPort ∧ (crcUpdate b s).inClosed = s.inClosed ∧
    (crcUpdate b s).outPort = s.outPort ∧ (crcUpdate b s).outRoom = s.outRoom ∧
    (crcUpdate b s).held = s.held ∧ (crcUpdate b s).sawEnd = s.sawEnd ∧
    (crcUpdate b s).draws = s.draws ∧ (crcUpdate b s).hostRead = s.hostRead ∧
    (crcUpdate b s).host = s.host := by
  and_intros <;> rfl

/-- WinAdd (43_window.md R200): what it writes. -/
@[simp] theorem winAdd_writes (b : Byte) (s : State) :
    (winAdd b s).tables = { s.tables with window := s.tables.window.write s.wcur.toNat b } ∧
    (winAdd b s).wcur = BitVec.ofNat 15 ((s.wcur.toNat + 1) % winCap s) ∧
    (winAdd b s).wvalid = BitVec.ofNat 16 (min (s.wvalid.toNat + 1) (winCap s)) := by
  and_intros <;> rfl

/-- WinAdd (43_window.md R200): what it keeps. -/
@[simp] theorem winAdd_keeps (b : Byte) (s : State) :
    (winAdd b s).engine = s.engine ∧ (winAdd b s).cmd = s.cmd ∧ (winAdd b s).done = s.done ∧
    (winAdd b s).cmdDropped = s.cmdDropped ∧ (winAdd b s).bfinalSeen = s.bfinalSeen ∧
    (winAdd b s).fnameTrunc = s.fnameTrunc ∧ (winAdd b s).errinfo = s.errinfo ∧
    (winAdd b s).cfg = s.cfg ∧ (winAdd b s).arg0 = s.arg0 ∧ (winAdd b s).arg1 = s.arg1 ∧
    (winAdd b s).arg2 = s.arg2 ∧ (winAdd b s).res0 = s.res0 ∧ (winAdd b s).res1 = s.res1 ∧
    (winAdd b s).crcState = s.crcState ∧ (winAdd b s).rawCount = s.rawCount ∧
    (winAdd b s).bytesIn = s.bytesIn ∧ (winAdd b s).bytesOut = s.bytesOut ∧
    (winAdd b s).outCommit = s.outCommit ∧ (winAdd b s).wcount = s.wcount ∧
    (winAdd b s).wbuf = s.wbuf ∧ (winAdd b s).rcount = s.rcount ∧ (winAdd b s).rbuf = s.rbuf ∧
    (winAdd b s).gzFlg = s.gzFlg ∧ (winAdd b s).gzMtime = s.gzMtime ∧ (winAdd b s).gzXfl = s.gzXfl ∧
    (winAdd b s).gzOs = s.gzOs ∧ (winAdd b s).gzFnameLen = s.gzFnameLen ∧
    (winAdd b s).gzTrlCrc = s.gzTrlCrc ∧ (winAdd b s).gzTrlIsize = s.gzTrlIsize ∧
    (winAdd b s).tokens = s.tokens ∧ (winAdd b s).params = s.params ∧
    (winAdd b s).inPort = s.inPort ∧ (winAdd b s).inClosed = s.inClosed ∧
    (winAdd b s).outPort = s.outPort ∧ (winAdd b s).outRoom = s.outRoom ∧
    (winAdd b s).held = s.held ∧ (winAdd b s).sawEnd = s.sawEnd ∧ (winAdd b s).draws = s.draws ∧
    (winAdd b s).hostRead = s.hostRead ∧ (winAdd b s).host = s.host := by
  and_intros <;> rfl

/-- The configuration reads CFG alone (10_state.md R24). -/
theorem config_congr {s t : State} (h : t.cfg = s.cfg) :
    btypeSel t = btypeSel s ∧ lz77En t = lz77En s ∧ winLog2 t = winLog2 s ∧ winCap t = winCap s := by
  simp [btypeSel, lz77En, winLog2, winCap, h]

end Sys2Proof.Machine
end

