-- ==== Sys2Proof/Laws/Window.lean ====
section
/-! SUPPORT. The window as the last bytes of a history (43_window.md R200, R201). -/

namespace Sys2Proof.Machine

theorem winCap_pos (s : State) : 0 < winCap s := Nat.two_pow_pos _

theorem winCap_le (s : State) : winCap s ≤ 32768 := by
  have : winLog2 s ≤ 15 := by
    have := (s.cfg.extractLsb' 4 4).isLt
    simp only [winLog2]; omega
  calc winCap s ≤ 2 ^ 15 := Nat.pow_le_pow_right (by omega) this
    _ = 32768 := rfl

/-- A window's contents depend on its cursor, its table and its capacity alone. -/
theorem winAt_congr {s t : State} (h1 : t.cfg = s.cfg) (h2 : t.wcur = s.wcur)
    (h3 : t.tables.window = s.tables.window) (d : Nat) : winAt t d = winAt s d := by
  simp only [winAt, winIndex, h2, h3, config_congr h1]

theorem Remembers.congr {s t : State} {h : List Byte} (hr : Remembers s h) (h1 : t.cfg = s.cfg)
    (h2 : t.wcur = s.wcur) (h3 : t.wvalid = s.wvalid) (h4 : t.tables.window = s.tables.window) :
    Remembers t h := by
  have hc : winCap t = winCap s := by simp [config_congr h1]
  refine ⟨?_, ?_, ?_⟩
  · have := hr.window
    simp only [WindowOk, h2, h3, hc] at this ⊢
    exact this
  · rw [h3, hc]; exact hr.valid
  · intro d hd1 hd2
    rw [winAt_congr h1 h2 h4, h3] at *
    exact hr.byte d hd1 hd2

theorem Remembers.valid_le {s : State} {h : List Byte} (hr : Remembers s h) : s.wvalid.toNat ≤ h.length := by
  rw [hr.valid]; exact Nat.min_le_left _ _

/-- An empty window remembers nothing. -/
theorem remembers_empty {s : State} (h1 : s.wcur = 0) (h2 : s.wvalid = 0) : Remembers s [] := by
  have := winCap_pos s
  refine ⟨⟨by rw [h2]; simp, by rw [h1]; simpa using this, fun _ => by rw [h1, h2]; rfl⟩, by rw [h2]; simp, ?_⟩
  intro d hd1 hd2
  rw [h2] at hd2
  simp at hd2
  omega

@[simp] theorem winCap_winAdd (b : Byte) (s : State) : winCap (winAdd b s) = winCap s := rfl

theorem winAdd_wcur (b : Byte) (s : State) : (winAdd b s).wcur.toNat = (s.wcur.toNat + 1) % winCap s := by
  have h1 := winCap_pos s
  have h2 := winCap_le s
  have : (s.wcur.toNat + 1) % winCap s < winCap s := Nat.mod_lt _ h1
  simp only [winAdd, BitVec.toNat_ofNat]
  exact Nat.mod_eq_of_lt (by omega)

theorem winAdd_wvalid (b : Byte) (s : State) :
    (winAdd b s).wvalid.toNat = min (s.wvalid.toNat + 1) (winCap s) := by
  have h2 := winCap_le s
  simp only [winAdd, BitVec.toNat_ofNat]
  exact Nat.mod_eq_of_lt (by omega)

theorem winAdd_window (b : Byte) (s : State) (k : Nat) :
    (winAdd b s).tables.window.read k = if k = s.wcur.toNat then b else s.tables.window.read k := by
  simp only [winAdd]
  split
  · subst_vars; exact read_write_same _ _ _
  · exact read_write_other _ _ ‹_›

theorem winAdd_windowOk {b : Byte} {s : State} (h : WindowOk s) : WindowOk (winAdd b s) := by
  obtain ⟨h1, h2, h3⟩ := h
  have hN := winCap_pos s
  refine ⟨?_, ?_, ?_⟩
  · rw [winAdd_wvalid, winCap_winAdd]; exact Nat.min_le_right _ _
  · rw [winAdd_wcur, winCap_winAdd]; exact Nat.mod_lt _ hN
  · rw [winAdd_wvalid, winCap_winAdd, winAdd_wcur]
    intro h
    have hlt : s.wvalid.toNat + 1 < winCap s := by omega
    rw [h3 (by omega), Nat.mod_eq_of_lt hlt, Nat.min_eq_left (by omega)]

/-- WinAdd appends a byte to the history (43_window.md R201). -/
theorem winAdd_remembers {s : State} {h : List Byte} (b : Byte) (hr : Remembers s h) :
    Remembers (winAdd b s) (h ++ [b]) := by
  have hN := winCap_pos s
  obtain ⟨hw1, hw2, hw3⟩ := hr.window
  refine ⟨winAdd_windowOk hr.window, ?_, ?_⟩
  · rw [winAdd_wvalid, winCap_winAdd, hr.valid, List.length_append, List.length_singleton]; omega
  · intro d hd1 hd2
    have hv := hr.valid
    rw [winAdd_wvalid] at hd2
    have hidx : winIndex (winAdd b s) d =
        if d = 1 then s.wcur.toNat else winIndex s (d - 1) := by
      simp only [winIndex, winCap_winAdd, winAdd_wcur]
      generalize hw : s.wcur.toNat = w at *
      generalize hn : winCap s = N at *
      have hdN : d ≤ N := by omega
      have e : ∀ w k, k ≤ N → 0 < k → w < N → (w + (N - k % N)) % N = if k ≤ w then w - k else w + N - k := by
        intro w k hk hk0 hw
        rcases Nat.lt_or_ge k N with hlt | hge
        · rw [Nat.mod_eq_of_lt hlt]
          split
          · rw [show w + (N - k) = (w - k) + N by omega, Nat.add_mod_right, Nat.mod_eq_of_lt (by omega)]
          · rw [show w + (N - k) = w + N - k by omega, Nat.mod_eq_of_lt (by omega)]
        · have : k = N := by omega
          subst this
          rw [Nat.mod_self, Nat.sub_zero, Nat.add_mod_right, Nat.mod_eq_of_lt hw, if_neg (by omega)]
          omega
      rcases Nat.lt_or_ge (w + 1) N with hlt | hge
      · rw [Nat.mod_eq_of_lt hlt, e _ d hdN (by omega) (by omega)]
        split_ifs with hA hB hB
        · omega
        · rw [e _ (d - 1) (by omega) (by omega) (by omega), if_pos (by omega)]; omega
        · omega
        · rw [e _ (d - 1) (by omega) (by omega) (by omega), if_neg (by omega)]; omega
      · have : w + 1 = N := by omega
        rw [this, Nat.mod_self, e _ d hdN (by omega) (by omega), if_neg (by omega)]
        split_ifs with hB
        · omega
        · rw [e _ (d - 1) (by omega) (by omega) (by omega)]
          split_ifs <;> omega
    rw [winAt, winAdd_window, hidx]
    by_cases hd : d = 1
    · subst hd
      rw [if_pos rfl, if_pos rfl]
      simp
    · rw [if_neg hd]
      have hne : winIndex s (d - 1) ≠ s.wcur.toNat := by
        simp only [winIndex]
        generalize hw : s.wcur.toNat = w at *
        generalize hn : winCap s = N at *
        have hlt : d - 1 < N := by omega
        rw [Nat.mod_eq_of_lt hlt]
        rcases Nat.lt_or_ge w (d - 1) with h' | h'
        · rw [Nat.mod_eq_of_lt (by omega)]; omega
        · rw [show w + (N - (d - 1)) = (w - (d - 1)) + N by omega, Nat.add_mod_right, Nat.mod_eq_of_lt (by omega)]
          omega
      rw [if_neg hne]
      have := hr.byte (d - 1) (by omega) (by omega)
      rw [winAt] at this
      rw [this, List.length_append, List.length_singleton, show h.length + 1 - d = h.length - (d - 1) by omega,
        List.getD_eq_getElem?_getD, List.getD_eq_getElem?_getD, List.getElem?_append_left (by omega)]

/-- Adding bytes changes the window alone, and appends them to the history. -/
theorem winAddAll_remembers {s : State} {h : List Byte} (l : List Byte) (hr : Remembers s h) :
    Remembers (winAddAll l s) (h ++ l) := by
  induction l generalizing s h with
  | nil => simpa [winAddAll] using hr
  | cons b l ih =>
    have := ih (winAdd_remembers b hr)
    simpa [winAddAll] using this

end Sys2Proof.Machine
end

