-- ==== Sys2Proof/Laws/Decoder.lean ====
section
/-! SUPPORT. What the decoder's parts do where their input is of the format (45_deflate.md R274 to R283). -/

namespace Sys2Proof.Machine

/-! ### Runs of the decoder -/

/-- What reading bits and giving output bytes may write. -/
def runFields : List Field :=
  [.reader, .inPort, .bytesIn, .outPort, .outRoom, .bytesOut, .crcState, .rawCount, .winCursor, .table .window]

/-- From `s` to `t` the decoder has read `n` bits and given `out`, and changed nothing else. -/
structure Ran (n : Nat) (out : List Byte) (s t : State) : Prop where
  fits : n ≤ (unreadBits s).length
  done : Decoded n out s t
  frame : Frames runFields s t
  window : ∀ h, Remembers s h → Remembers t (h ++ out)

theorem Took.refl {s : State} (h : ReaderOk s.toEngine) : Took 0 s s :=
  ⟨by simp, by simp [bytesFor_zero], by simp [bytesFor_zero], h⟩

theorem Took.trans {m n : Nat} {s t u : State} (h1 : Took m s t) (h2 : Took n t u)
    (hm : m ≤ (unreadBits s).length) : Took (m + n) s u := by
  have l1 := unread_length s
  have l2 := unread_length t
  have hlen : (unreadBits t).length = (unreadBits s).length - m := by rw [h1.unread, List.length_drop]
  have hp : t.inPort.length = s.inPort.length - bytesFor s m := by rw [h1.port, List.length_drop]
  have hs := s.rcount.isLt
  have ht := t.rcount.isLt
  have e : bytesFor s (m + n) = bytesFor s m + bytesFor t n := by
    simp only [bytesFor] at hp ⊢
    omega
  refine ⟨?_, ?_, ?_, h2.buffer⟩
  · rw [h2.unread, h1.unread, List.drop_drop]
  · rw [h2.port, h1.port, List.drop_drop, e]
  · rw [h2.count, h1.count, e, BitVec.ofNat_add, BitVec.add_assoc]

theorem crcOf_append (c : Word) (a b : List Byte) : crcOf c (a ++ b) = crcOf (crcOf c a) b := by
  simp [crcOf]

theorem Decoded.trans {m n : Nat} {a b : List Byte} {s t u : State} (h1 : Decoded m a s t) (h2 : Decoded n b t u)
    (hm : m ≤ (unreadBits s).length) : Decoded (m + n) (a ++ b) s u := by
  refine ⟨h1.read.trans h2.read hm, ?_, ?_, ?_, ?_, ?_⟩
  · rw [h2.output, h1.output, List.append_assoc]
  · rw [h2.count, h1.count, List.length_append, BitVec.ofNat_add, BitVec.add_assoc]
  · rw [h2.room, roomAfter, h1.room, roomAfter, roomAfter, List.length_append]
    cases s.outRoom <;> simp
    omega
  · rw [h2.crc, h1.crc, crcOf_append]
  · rw [h2.raw, h1.raw, List.length_append, BitVec.ofNat_add, BitVec.add_assoc]

theorem Ran.refl {s : State} (h : ReaderOk s.toEngine) : Ran 0 [] s s where
  fits := Nat.zero_le _
  done := ⟨Took.refl h, by simp, by simp, by cases hr : s.outRoom <;> simp [roomAfter, hr], rfl, by simp⟩
  frame := Frames.refl _ _
  window := fun h hr => by simpa using hr

theorem Ran.trans {m n : Nat} {a b : List Byte} {s t u : State} (h1 : Ran m a s t) (h2 : Ran n b t u) :
    Ran (m + n) (a ++ b) s u := by
  have hf := h1.fits
  have hlen : (unreadBits t).length = (unreadBits s).length - m := by rw [h1.done.read.unread, List.length_drop]
  refine ⟨by have := h2.fits; omega, h1.done.trans h2.done h1.fits, h1.frame.trans h2.frame, ?_⟩
  intro h hr
  rw [← List.append_assoc]
  exact h2.window _ (h1.window _ hr)

theorem Ran.cast {m n : Nat} {a b : List Byte} {s t : State} (h : Ran m a s t) (hn : m = n) (ho : a = b) : Ran n b s t := by
  subst hn ho
  exact h

theorem Ran.readerOk {n : Nat} {a : List Byte} {s t : State} (h : Ran n a s t) : ReaderOk t.toEngine :=
  h.done.read.buffer

theorem Ran.unread {a rest : List Bool} {out : List Byte} {s t : State} (h : Ran a.length out s t)
    (hu : unreadBits s = a ++ rest) : unreadBits t = rest := by
  rw [h.done.read.unread, hu, List.drop_left]

theorem Ran.room {n k : Nat} {out : List Byte} {s t : State} (h : Ran n out s t) (hr : hasRoom s (out.length + k)) :
    hasRoom t k := by
  intro r hk
  rw [h.done.room, roomAfter, Option.map_eq_some_iff] at hk
  obtain ⟨q, hq, rfl⟩ := hk
  have := hr q hq
  omega

/-- Reading bits is a run. -/
theorem ran_advance {n : Nat} {s : State} (h : ReaderOk s.toEngine) (hn : n ≤ (unreadBits s).length) :
    Ran n [] s (advance n s) where
  fits := hn
  done := by
    refine ⟨took_advance h hn, ?_, ?_, ?_, ?_, ?_⟩ <;> simp [roomAfter, crcOf]
  frame := by
    intro f hf
    rw [advance_eq]
    cases f with
    | table t => cases t <;> first | rfl | trivial
    | _ => first | rfl | exact ⟨rfl, rfl⟩ | exact ⟨rfl, rfl, rfl, rfl, rfl⟩ | exact absurd (by decide) hf
  window := fun h hr => by
    rw [List.append_nil]
    exact hr.congr (by simp) (by simp) (by simp) (by simp)

/-- The state after a byte has been given (45_deflate.md R277). -/
def emit (b : Byte) (s : State) : State :=
  { crcUpdate b (winAdd b
      { s with outPort := s.outPort ++ [b], bytesOut := s.bytesOut + 1, outRoom := s.outRoom.map (· - 1) }) with
    rawCount := s.rawCount + 1 }

theorem emitByte_ok {b : Byte} {s : State} (h : hasRoom s 1) : emitByte b s = .ok () (emit b s) := by
  rw [emitByte, bind_run, outWrite]
  cases hr : s.outRoom with
  | none => simp [emit, hr, change, crcUpdate, winAdd, winCap, winLog2]
  | some k =>
    cases k with
    | zero => have := h 0 hr; omega
    | succ k => simp [emit, hr, change, crcUpdate, winAdd, winCap, winLog2]

theorem ran_emit {b : Byte} {s : State} (h : ReaderOk s.toEngine) : Ran 0 [b] s (emit b s) where
  fits := Nat.zero_le _
  done := by
    refine ⟨⟨?_, ?_, ?_, h⟩, rfl, rfl, rfl, rfl, rfl⟩ <;> simp [bytesFor_zero, emit, crcUpdate, winAdd, unreadBits]
  frame := ((frames_give _ _ _ s).mono (by decide)).trans
    (((frames_winAdd b _).mono (by decide)).trans
      (((frames_crc _ _).mono (by decide)).trans ((frames_raw _ (crcUpdate b (winAdd b _))).mono (by decide))))
  window := fun h hr => by
    have h1 := winAdd_remembers b hr
    exact h1.congr rfl rfl rfl rfl

/-! ### Stored blocks (45_deflate.md R276) -/

theorem copyStored_ok {l : List Byte} {rest : List Bool} {s : State} (h : ReaderOk s.toEngine)
    (hu : unreadBits s = streamBits l ++ rest) (hr : hasRoom s l.length) :
    ∃ t, copyStored l.length s = .ok () t ∧ Ran (streamBits l).length l s t := by
  induction l generalizing s with
  | nil => exact ⟨s, rfl, Ran.refl h⟩
  | cons b l ih =>
    rw [streamBits_cons, List.append_assoc] at hu
    obtain ⟨h1, h2⟩ := readByte_ok hu
    have hn : 8 ≤ (unreadBits s).length := by rw [hu, List.length_append, bitsOf_length]; omega
    have r1 := ran_advance h hn
    have hr1 : hasRoom (advance 8 s) (1 + l.length) := r1.room (by
      rw [List.length_cons] at hr
      rwa [List.length_nil, Nat.zero_add, Nat.add_comm])
    have r2 := ran_emit (b := b) r1.readerOk
    have hr2 : hasRoom (emit b (advance 8 s)) l.length := r2.room (by simpa using hr1)
    have hu2 : unreadBits (emit b (advance 8 s)) = streamBits l ++ rest := by
      rw [r2.done.read.unread, h2]; rfl
    obtain ⟨t, e, r3⟩ := ih r2.readerOk hu2 hr2
    refine ⟨t, ?_, ?_⟩
    · rw [List.length_cons, copyStored, bind_ok h1, bind_ok (emitByte_ok (fun k hk => by have := hr1 k hk; omega))]
      exact e
    · have := (r1.trans r2).trans r3
      simpa [Nat.add_comm, Nat.mul_add] using this

/-! ### Copies (45_deflate.md R280, 43_window.md R208) -/

theorem copyOnto_append (k l : Nat) (h : List Byte) : ∃ out, copyOnto k l h = h ++ out ∧ out.length = l := by
  induction l generalizing h with
  | zero => exact ⟨[], by simp [copyOnto], rfl⟩
  | succ l ih =>
    obtain ⟨out, e, hl⟩ := ih (h ++ [h.getD (h.length - k) 0])
    refine ⟨h.getD (h.length - k) 0 :: out, ?_, by simp [hl]⟩
    rw [copyOnto, e]; simp

theorem wvalid_mono {n : Nat} {out : List Byte} {s t : State} {h : List Byte} (r : Ran n out s t)
    (hr : Remembers s h) : s.wvalid.toNat ≤ t.wvalid.toNat := by
  have h1 := hr.valid
  have h2 := (r.window h hr).valid
  have hc : winCap t = winCap s := (config_congr (r.frame .cfg (by decide))).2.2.2
  rw [h1, h2, hc, List.length_append]
  omega

theorem copyBytes_ok {dist l : Nat} {h out : List Byte} {s : State} (hR : ReaderOk s.toEngine) (hr : Remembers s h)
    (hd1 : 1 ≤ dist) (hd2 : dist ≤ s.wvalid.toNat) (hroom : hasRoom s l) (ho : copyOnto dist l h = h ++ out) :
    ∃ t, copyBytes dist l s = .ok () t ∧ Ran 0 out s t := by
  induction l generalizing s h out with
  | zero =>
    simp only [copyOnto] at ho
    have : out = [] := by simpa using ho
    subst this
    exact ⟨s, rfl, Ran.refl hR⟩
  | succ l ih =>
    rw [copyBytes, getState_bind]
    have hb : winAt s dist = h.getD (h.length - dist) 0 := hr.byte dist hd1 hd2
    have r1 := ran_emit (b := winAt s dist) hR
    have hr2 := r1.window h hr
    obtain ⟨out', e', -⟩ := copyOnto_append dist l (h ++ [winAt s dist])
    have hout : out = winAt s dist :: out' := by
      rw [copyOnto, ← hb, e', List.append_assoc] at ho
      simpa using ho.symm
    have hm := wvalid_mono r1 hr
    obtain ⟨t, e, r2⟩ := ih r1.readerOk hr2 (by omega) (r1.room (by
      rwa [List.length_singleton, Nat.add_comm])) e'
    refine ⟨t, ?_, ?_⟩
    · rw [bind_ok (emitByte_ok fun k hk => by have := hroom k hk; omega)]
      exact e
    · rw [hout]
      exact r1.trans r2

/-! ### Symbols (45_deflate.md R279, R280) -/

theorem HasCodes.ran {ll d : List Nat} {n : Nat} {out : List Byte} {s t : State} (h : HasCodes ll d s.tables)
    (r : Ran n out s t) : HasCodes ll d t.tables := by
  have h1 : t.tables.lenLL = s.tables.lenLL := r.frame (.table .lenLL) (by decide)
  have h2 : t.tables.lenD = s.tables.lenD := r.frame (.table .lenD) (by decide)
  have h3 : t.tables.codeLL = s.tables.codeLL := r.frame (.table .codeLL) (by decide)
  have h4 : t.tables.codeD = s.tables.codeD := r.frame (.table .codeD) (by decide)
  simp only [HasCodes, lensOf, codesOf, h1, h2, h3, h4] at h ⊢
  exact h

theorem symBits_pos {l : List Nat} {x : Nat} (h : Coded l x) : 0 < (symBits l x).length := by
  rw [symBits, bitsRev_length]; exact h.2.1

/-- A symbol of the literal/length code. -/
theorem decodeSym_ok {a : Alphabet} {l : List Nat} {x : Nat} {rest : List Bool} {s : State} (h : ReaderOk s.toEngine)
    (h1 : lensOf s.tables a = l) (h2 : codesOf s.tables a = hufCanon l) (hx : Coded l x)
    (hu : unreadBits s = symBits l x ++ rest) :
    ∃ t, hufDecode a s = .ok x t ∧ Ran (symBits l x).length [] s t ∧ unreadBits t = rest := by
  obtain ⟨e, hrest⟩ := hufDecode_sym h1 h2 hx hu
  exact ⟨_, e, ran_advance h (by rw [hu, List.length_append]; omega), hrest⟩

/-- A field after it. -/
theorem readField_ok {n v : Nat} {rest : List Bool} {s : State} (h : ReaderOk s.toEngine)
    (hu : unreadBits s = bitsOf n v ++ rest) (hv : v < 2 ^ n) :
    ∃ t, readBits n s = .ok v t ∧ Ran n [] s t ∧ unreadBits t = rest := by
  obtain ⟨e, hrest⟩ := readBits_field hu hv
  exact ⟨_, e, ran_advance h (by rw [hu, List.length_append, bitsOf_length]; omega), hrest⟩

theorem lenRange_spec : ∀ i, i < 29 → 3 ≤ (lenRange i).base ∧ (lenRange i).base + 2 ^ (lenRange i).extra ≤ 259 := by
  decide

theorem distRange_spec : ∀ i, i < 30 → 1 ≤ (distRange i).base ∧ (distRange i).base + 2 ^ (distRange i).extra ≤ 32769 := by
  decide

theorem copyMatch_ok {ll d : List Nat} {l j y : Nat} {rest : List Bool} {h out : List Byte} {s : State}
    (hR : ReaderOk s.toEngine) (hr : Remembers s h) (hc : HasCodes ll d s.tables)
    (hj : j < 30 ∧ y < 2 ^ (distRange j).extra ∧ Coded d j)
    (hd : (distRange j).base + y ≤ min h.length (winCap s))
    (hu : unreadBits s = symBits d j ++ bitsOf (distRange j).extra y ++ rest) (hroom : hasRoom s l)
    (ho : copyOnto ((distRange j).base + y) l h = h ++ out) :
    ∃ t, copyMatch l s = .ok () t ∧ Ran (symBits d j ++ bitsOf (distRange j).extra y).length out s t := by
  rw [List.append_assoc] at hu
  obtain ⟨t1, e1, r1, u1⟩ := decodeSym_ok hR hc.2.1 hc.2.2 hj.2.2 hu
  obtain ⟨t2, e2, r2, u2⟩ := readField_ok r1.readerOk u1 hj.2.1
  have r12 := r1.trans r2
  have hr2 := r12.window h hr
  rw [List.append_nil, List.append_nil] at hr2
  have hw : (distRange j).base + y ≤ t2.wvalid.toNat := by
    rw [hr2.valid, (config_congr (r12.frame .cfg (by decide))).2.2.2]; exact hd
  obtain ⟨t3, e3, r3⟩ := copyBytes_ok r12.readerOk hr2 (by have := (distRange_spec j hj.1).1; omega) hw
    (r12.room (by simpa using hroom)) ho
  refine ⟨t3, ?_, ?_⟩
  · rw [copyMatch, bind_ok e1, raiseIf_bind, if_neg (by omega), bind_ok e2, getState_bind, raiseIf_bind,
      if_neg (by omega)]
    exact e3
  · have := r12.trans r3
    simpa [Nat.add_assoc] using this

theorem tokensOnto_append {n : Nat} {toks : List Token} {h h' : List Byte} (ht : TokensOnto n toks h h') :
    ∃ out, h' = h ++ out := by
  induction toks generalizing h with
  | nil => exact ⟨[], by rw [List.append_nil]; exact ht⟩
  | cons t rest ih =>
    obtain ⟨out, e⟩ := ih ht.2
    cases t with
    | literal b => exact ⟨b :: out, by rw [e, tokenOnto]; simp⟩
    | copy l k =>
      obtain ⟨out1, e1, -⟩ := copyOnto_append k l h
      exact ⟨out1 ++ out, by rw [e, tokenOnto, e1]; simp⟩

/-- The tokens of a block's symbols, and the end-of-block symbol after them. -/
theorem tokensCoded_iff {ll d : List Nat} {toks : List Token} {bits : List Bool} :
    TokensCoded ll d toks bits ↔ ∃ a, TokensBegun ll d toks a ∧ Coded ll 256 ∧ bits = a ++ symBits ll 256 := by
  induction toks generalizing bits with
  | nil =>
    constructor
    · rintro ⟨h, rfl⟩
      exact ⟨[], rfl, h, rfl⟩
    · rintro ⟨_, rfl, h, rfl⟩
      exact ⟨h, rfl⟩
  | cons t toks ih =>
    constructor
    · rintro ⟨a, b, ha, hb, rfl⟩
      obtain ⟨c, hc, h, rfl⟩ := ih.1 hb
      exact ⟨a ++ c, ⟨a, c, ha, hc, rfl⟩, h, (List.append_assoc ..).symm⟩
    · rintro ⟨_, ⟨a, c, ha, hc, rfl⟩, h, rfl⟩
      exact ⟨a, c ++ symBits ll 256, ha, ih.2 ⟨c, hc, h, rfl⟩, List.append_assoc ..⟩

/-- The tokens at the start of a block's symbols, decoded in as many turns as there are tokens. -/
theorem decodeSymbolsFrom_begun {ll d : List Nat} {toks : List Token} {bits rest : List Bool} {h out : List Byte}
    {turns : Nat} {s : State} (hR : ReaderOk s.toEngine) (hr : Remembers s h) (hc : HasCodes ll d s.tables)
    (ht : TokensBegun ll d toks bits) (ho : TokensOnto (winCap s) toks h (h ++ out))
    (hu : unreadBits s = bits ++ rest) (hroom : hasRoom s out.length) :
    ∃ t, decodeSymbolsFrom (toks.length + turns) s = decodeSymbolsFrom turns t ∧ Ran bits.length out s t := by
  induction toks generalizing s bits h out with
  | nil =>
    obtain rfl : bits = [] := ht
    have hout : out = [] := by
      have : h ++ out = h := ho
      simpa using this
    exact ⟨s, by rw [List.length_nil, Nat.zero_add], hout ▸ Ran.refl hR⟩
  | cons tok toks ih =>
    rw [List.length_cons, Nat.succ_add]
    obtain ⟨a, b, hta, htb, rfl⟩ := ht
    obtain ⟨hdist, hrest⟩ := ho
    rw [List.append_assoc] at hu
    cases tok with
    | literal x =>
      obtain ⟨hx, rfl⟩ := hta
      obtain ⟨t1, e1, r1, u1⟩ := decodeSym_ok hR hc.1.1 hc.1.2 hx hu
      rw [tokenOnto] at hrest
      obtain ⟨out', e'⟩ := tokensOnto_append hrest
      have hout : out = x :: out' := by simpa [List.append_assoc] using e'
      subst hout
      have r2 := ran_emit (b := x) r1.readerOk
      have r12 := r1.trans r2
      have hcap : winCap (emit x t1) = winCap s := (config_congr (r12.frame .cfg (by decide))).2.2.2
      obtain ⟨t3, e3, r3⟩ := ih r12.readerOk (r12.window h hr) (hc.ran r12) htb
        (by rw [hcap]; simpa [List.append_assoc] using hrest) (by rw [r2.done.read.unread, u1]; rfl)
        (r12.room (by simpa [Nat.add_comm] using hroom))
      refine ⟨t3, ?_, ?_⟩
      · rw [decodeSymbolsFrom, bind_ok e1, if_pos x.isLt]
        have hx' : BitVec.ofNat 8 x.toNat = x := by simp
        have h1 : hasRoom t1 1 := r1.room (by intro k hk; have := hroom k hk; simp at this ⊢; omega)
        rw [hx', bind_ok (emitByte_ok h1)]
        exact e3
      · have := r12.trans r3
        simpa [Nat.add_assoc] using this
    | copy l k =>
      obtain ⟨i, x, j, y, hi, hj, rfl⟩ := hta
      rw [tokenOnto] at hrest
      obtain ⟨o1, e1, l1⟩ := copyOnto_append k l h
      rw [e1] at hrest
      obtain ⟨o2, e2⟩ := tokensOnto_append hrest
      have hout : out = o1 ++ o2 := by simpa [List.append_assoc] using e2
      subst hout
      rw [List.append_assoc, List.append_assoc, List.append_assoc] at hu
      obtain ⟨t1, f1, r1, u1⟩ := decodeSym_ok hR hc.1.1 hc.1.2 hi.2.2.2 hu
      obtain ⟨t2, f2, r2, u2⟩ := readField_ok r1.readerOk u1 hi.2.1
      have r12 := r1.trans r2
      have hr2 := r12.window h hr
      simp only [List.append_nil] at hr2
      have hcap : winCap t2 = winCap s := (config_congr (r12.frame .cfg (by decide))).2.2.2
      have hk := hdist l k rfl
      obtain ⟨t3, f3, r3⟩ := copyMatch_ok (l := l) (h := h) (out := o1) (j := j) (y := y) (rest := b ++ rest)
        r12.readerOk hr2 (hc.ran r12) ⟨hj.1, hj.2.1, hj.2.2.2⟩ (by rw [hcap, ← hj.2.2.1]; exact hk)
        (by rw [u2]; simp [List.append_assoc])
        (r12.room (by intro q hq; have := hroom q hq; simp [l1] at this ⊢; omega)) (by rw [← hj.2.2.1]; exact e1)
      have r123 := r12.trans r3
      have hcap3 : winCap t3 = winCap s := (config_congr (r123.frame .cfg (by decide))).2.2.2
      have u3 : unreadBits t3 = b ++ rest := r3.unread (by rw [u2]; simp [List.append_assoc])
      obtain ⟨t4, f4, r4⟩ := ih r123.readerOk (by simpa using r123.window h hr) (hc.ran r123) htb
        (by rw [hcap3]; simpa [List.append_assoc] using hrest) u3
        (r123.room (by intro q hq; have := hroom q hq; simp at this ⊢; omega))
      refine ⟨t4, ?_, ?_⟩
      · rw [decodeSymbolsFrom, bind_ok f1, if_neg (by omega), if_neg (by omega), if_pos (by omega)]
        simp only [Nat.add_sub_cancel_left]
        rw [bind_ok f2, ← hi.2.2.1, bind_ok f3]
        exact f4
      · have := r123.trans r4
        simpa [Nat.add_assoc] using this

/-- The symbols of a block, decoded in as many turns as there are tokens and one. -/
theorem decodeSymbolsFrom_ok {ll d : List Nat} {toks : List Token} {bits rest : List Bool} {h out : List Byte}
    {turns : Nat} {s : State} (hR : ReaderOk s.toEngine) (hr : Remembers s h) (hc : HasCodes ll d s.tables)
    (ht : TokensCoded ll d toks bits) (ho : TokensOnto (winCap s) toks h (h ++ out))
    (hu : unreadBits s = bits ++ rest) (hroom : hasRoom s out.length) (hturns : toks.length < turns) :
    ∃ t, decodeSymbolsFrom turns s = .ok () t ∧ Ran bits.length out s t := by
  obtain ⟨a, ha, h256, rfl⟩ := tokensCoded_iff.1 ht
  rw [List.append_assoc] at hu
  obtain ⟨t, e, r⟩ := decodeSymbolsFrom_begun (turns := turns - toks.length) hR hr hc ha ho hu hroom
  obtain ⟨t', e', r', -⟩ := decodeSym_ok r.readerOk (hc.ran r).1.1 (hc.ran r).1.2 h256 (r.unread hu)
  obtain ⟨k, hk⟩ : ∃ k, turns - toks.length = k + 1 := ⟨turns - toks.length - 1, by omega⟩
  refine ⟨t', ?_, ?_⟩
  · rw [show turns = toks.length + (turns - toks.length) by omega, e, hk, decodeSymbolsFrom, bind_ok e']
    rfl
  · rw [List.length_append]
    simpa using r.trans r'

/-- Every token has a bit at least. -/
theorem tokensBegun_length {ll d : List Nat} {toks : List Token} {bits : List Bool} (h : TokensBegun ll d toks bits) :
    toks.length ≤ bits.length := by
  induction toks generalizing bits with
  | nil => exact Nat.zero_le _
  | cons t toks ih =>
    obtain ⟨a, b, ha, hb, rfl⟩ := h
    have := ih hb
    have hpos : 0 < a.length := by
      cases t with
      | literal x => obtain ⟨h1, rfl⟩ := ha; exact symBits_pos h1
      | copy l k =>
        obtain ⟨i, x, j, y, hi, -, rfl⟩ := ha
        have := symBits_pos hi.2.2.2
        simp only [List.length_append]; omega
    simp only [List.length_cons, List.length_append]; omega

theorem tokensCoded_length {ll d : List Nat} {toks : List Token} {bits : List Bool} (h : TokensCoded ll d toks bits) :
    toks.length < bits.length := by
  obtain ⟨a, ha, h256, rfl⟩ := tokensCoded_iff.1 h
  have := tokensBegun_length ha
  have := symBits_pos h256
  rw [List.length_append]
  omega

theorem bitsLeft_eq (s : State) : bitsLeft s = (unreadBits s).length := (unread_length s).symm

theorem decodeSymbols_ok {ll d : List Nat} {toks : List Token} {bits rest : List Bool} {h out : List Byte} {s : State}
    (hR : ReaderOk s.toEngine) (hr : Remembers s h) (hc : HasCodes ll d s.tables)
    (ht : TokensCoded ll d toks bits) (ho : TokensOnto (winCap s) toks h (h ++ out))
    (hu : unreadBits s = bits ++ rest) (hroom : hasRoom s out.length) :
    ∃ t, decodeSymbols s = .ok () t ∧ Ran bits.length out s t := by
  have hl := tokensCoded_length ht
  obtain ⟨t, e, r⟩ := decodeSymbolsFrom_ok (turns := bitsLeft s + 1) hR hr hc ht ho hu hroom (by
    rw [bitsLeft_eq, hu, List.length_append]; omega)
  exact ⟨t, by rw [decodeSymbols, getState_bind]; exact e, r⟩

end Sys2Proof.Machine
end

