-- ==== Sys2Proof/Laws/Blocks.lean ====
section
/-! SUPPORT. The block and stream decoder on blocks and streams of the format (45_deflate.md R274 to R283). -/

namespace Sys2Proof.Machine

/-- From `s` to `t` the decoder has read `n` bits and given `out`, and has seen a final block where `f`; it may have
written its tables. -/
structure Read (f : Bool) (n : Nat) (out : List Byte) (s t : State) : Prop where
  fits : n ≤ (unreadBits s).length
  done : Decoded n out s t
  window : ∀ h, Remembers s h → Remembers t (h ++ out)
  cfg : t.cfg = s.cfg
  seen : t.bfinalSeen = (s.bfinalSeen || f)

theorem Ran.read {n : Nat} {out : List Byte} {s t : State} (h : Ran n out s t) : Read false n out s t :=
  ⟨h.fits, h.done, h.window, h.frame .cfg (by decide), by rw [Bool.or_false]; exact h.frame .bfinalSeen (by decide)⟩

theorem Read.trans {f g : Bool} {m n : Nat} {a b : List Byte} {s t u : State} (h1 : Read f m a s t)
    (h2 : Read g n b t u) : Read (f || g) (m + n) (a ++ b) s u := by
  have hf := h1.fits
  have hlen : (unreadBits t).length = (unreadBits s).length - m := by rw [h1.done.read.unread, List.length_drop]
  refine ⟨by have := h2.fits; omega, h1.done.trans h2.done h1.fits, ?_, h2.cfg.trans h1.cfg,
    by rw [h2.seen, h1.seen, Bool.or_assoc]⟩
  intro h hr
  rw [← List.append_assoc]
  exact h2.window _ (h1.window _ hr)

theorem Read.cast {f g : Bool} {m n : Nat} {a b : List Byte} {s t : State} (h : Read f m a s t) (hf : f = g)
    (hn : m = n) (ho : a = b) : Read g n b s t := by
  subst hf hn ho
  exact h

theorem Read.readerOk {f : Bool} {n : Nat} {a : List Byte} {s t : State} (h : Read f n a s t) : ReaderOk t.toEngine :=
  h.done.read.buffer

theorem Read.winCap {f : Bool} {n : Nat} {a : List Byte} {s t : State} (h : Read f n a s t) : winCap t = winCap s :=
  (config_congr h.cfg).2.2.2

theorem Read.unread {f : Bool} {a rest : List Bool} {out : List Byte} {s t : State} (h : Read f a.length out s t)
    (hu : unreadBits s = a ++ rest) : unreadBits t = rest := by
  rw [h.done.read.unread, hu, List.drop_left]

theorem Read.room {f : Bool} {n k : Nat} {out : List Byte} {s t : State} (h : Read f n out s t)
    (hr : hasRoom s (out.length + k)) :
    hasRoom t k := by
  intro r hk
  rw [h.done.room, roomAfter, Option.map_eq_some_iff] at hk
  obtain ⟨q, hq, rfl⟩ := hk
  have := hr q hq
  omega

/-- Writing tables other than the window reads and gives nothing. -/
theorem read_tables {t : Tables} {s : State} (h : ReaderOk s.toEngine) (hw : t.window = s.tables.window) :
    Read false 0 [] s { s with tables := t } where
  fits := Nat.zero_le _
  done := ⟨⟨rfl, by simp [bytesFor_zero], by simp [bytesFor_zero], h⟩, by simp, by simp,
    by cases hr : s.outRoom <;> simp [roomAfter, hr], rfl, by simp⟩
  window := fun h hr => by rw [List.append_nil]; exact hr.congr rfl rfl rfl hw
  cfg := rfl
  seen := by simp

/-- A flag or a counter of the block reads and gives nothing. -/
theorem read_flags {f : Bool} {c : BitVec 64} {s : State} (h : ReaderOk s.toEngine) :
    Read f 0 [] s { s with bfinalSeen := s.bfinalSeen || f, outCommit := c } where
  fits := Nat.zero_le _
  done := ⟨⟨rfl, by simp [bytesFor_zero], by simp [bytesFor_zero], h⟩, by simp, by simp,
    by cases hr : s.outRoom <;> simp [roomAfter, hr], rfl, by simp⟩
  window := fun h hr => by rw [List.append_nil]; exact hr.congr rfl rfl rfl rfl
  cfg := rfl
  seen := rfl

/-! ### Dynamic tables (45_deflate.md R278) -/

theorem readMetaLens_ok {cl l : List Nat} {rest : List Bool} {s : State} (hR : ReaderOk s.toEngine)
    (hcl : ∀ k, cl.getD k 0 < 8) (hu : unreadBits s = l.flatMap (fun k => bitsOf 3 (cl.getD k 0)) ++ rest) :
    ∃ t, readMetaLens l s = .ok () t ∧ Read false (l.flatMap (fun k => bitsOf 3 (cl.getD k 0))).length [] s t ∧
      ∀ k, t.tables.lenCL.read k = if k ∈ l then BitVec.ofNat 4 (cl.getD k 0) else s.tables.lenCL.read k := by
  induction l generalizing s with
  | nil => exact ⟨s, rfl, (Ran.refl hR).read, fun k => by simp⟩
  | cons x l ih =>
    rw [List.flatMap_cons, List.append_assoc] at hu
    obtain ⟨t1, e1, r1, u1⟩ := readField_ok hR hu (hcl x)
    have r2 := read_tables (t := { t1.tables with lenCL := t1.tables.lenCL.write x (BitVec.ofNat 4 (cl.getD x 0)) })
      r1.readerOk rfl
    obtain ⟨t3, e3, r3, k3⟩ := ih r2.readerOk (by rw [r2.done.read.unread, u1]; rfl)
    have h1 : t1.tables = s.tables := by
      have := advance_keeps
      rw [← (readBits_field hu (hcl x)).1.symm.trans e1 |> fun h => (EStateM.Result.ok.inj h).2]
      simp
    refine ⟨t3, ?_, ?_, ?_⟩
    · rw [readMetaLens, bind_ok e1, changeTables, change_bind]
      exact e3
    · have := (r1.read.trans r2).trans r3
      simpa [Nat.add_comm, Nat.mul_add, List.length_flatMap] using this
    · intro k
      rw [k3 k]
      by_cases hk : k ∈ l
      · rw [if_pos hk, if_pos (List.mem_cons_of_mem _ hk)]
      · rw [if_neg hk]
        by_cases hx : k = x
        · subst hx
          rw [if_pos List.mem_cons_self]
          exact read_write_same _ _ _
        · rw [if_neg (by simp [hx, hk])]
          simp only
          rw [read_write_other _ _ hx, h1]

/-- What a packed symbol adds (44_huffman.md R235). -/
theorem expandSymbol_ok {total : Nat} {seq seq' : List Nat} {sym x : Nat} (h : expandSymbol total seq sym x = .ok seq') :
    seq.length < seq'.length ∧ seq'.length ≤ total ∧ ¬ (sym = 16 ∧ seq = []) ∧
      ((∀ l ∈ seq, l ≤ 15) → ∀ l ∈ seq', l ≤ 15) := by
  have key : ∀ rep v, 0 < rep → ((∀ l ∈ seq, l ≤ 15) → v ≤ 15) → ¬ (sym = 16 ∧ seq = []) →
      (if seq.length + rep > total then Except.error ErrCode.badCodelengths
        else .ok (seq ++ List.replicate rep v)) = .ok seq' →
      seq.length < seq'.length ∧ seq'.length ≤ total ∧ ¬ (sym = 16 ∧ seq = []) ∧
        ((∀ l ∈ seq, l ≤ 15) → ∀ l ∈ seq', l ≤ 15) := by
    intro rep v hrep hv hne h
    split at h
    · cases h
    · cases h
      refine ⟨by simp; omega, by simp; omega, hne, fun hl l hm => ?_⟩
      rcases List.mem_append.1 hm with hm | hm
      · exact hl l hm
      · rw [(List.mem_replicate.1 hm).2]; exact hv hl
  unfold expandSymbol at h
  simp only at h
  split_ifs at h with h1 h2 h3 h4
  · exact key 1 sym (by omega) (fun _ => h1) (by omega) h
  · cases hg : seq.getLast? with
    | none => rw [hg] at h; cases h
    | some v =>
      rw [hg] at h
      have hne : seq ≠ [] := by rintro rfl; simp at hg
      exact key (3 + x) v (by omega) (fun hl => hl v (List.mem_of_getLast? hg)) (fun h => hne h.2) h
  · exact key (3 + x) 0 (by omega) (fun _ => by omega) (by omega) h
  · exact key (11 + x) 0 (by omega) (fun _ => by omega) (by omega) h

/-- Packed lengths at the start of the sequence, decoded in as many turns as there are symbols. -/
theorem readLens_begun {cl seq seq' : List Nat} {packed : List (Nat × Nat)} {rest : List Bool} {total turns : Nat}
    {s : State} (hR : ReaderOk s.toEngine) (h1 : lensOf s.tables .cl = cl) (h2 : codesOf s.tables .cl = hufCanon cl)
    (hp : ∀ p ∈ packed, p.1 < 19 ∧ p.2 < 2 ^ extraBits p.1 ∧ Coded cl p.1)
    (hx : unpackAll total seq packed = .ok seq')
    (hu : unreadBits s = packed.flatMap (fun p => symBits cl p.1 ++ bitsOf (extraBits p.1) p.2) ++ rest) :
    ∃ t, readLens total (packed.length + turns) seq s = readLens total turns seq' t ∧ packed.length + seq.length ≤ seq'.length ∧
      Ran (packed.flatMap (fun p => symBits cl p.1 ++ bitsOf (extraBits p.1) p.2)).length [] s t := by
  induction packed generalizing s seq with
  | nil =>
    have : seq = seq' := by simpa [unpackAll] using hx
    subst this
    exact ⟨s, by rw [List.length_nil, Nat.zero_add], by simp, Ran.refl hR⟩
  | cons p packed ih =>
    obtain ⟨hp1, hp2, hp3⟩ := hp p List.mem_cons_self
    rw [unpackAll] at hx
    cases he : expandSymbol total seq p.1 p.2 with
    | error e => rw [he] at hx; cases hx
    | ok seq1 =>
      rw [he] at hx
      obtain ⟨l1, l2, l3, -⟩ := expandSymbol_ok he
      rw [List.flatMap_cons, List.append_assoc, List.append_assoc] at hu
      obtain ⟨t1, e1, r1, u1⟩ := decodeSym_ok hR h1 h2 hp3 hu
      obtain ⟨t2, e2, r2, u2⟩ := readField_ok r1.readerOk u1 hp2
      have r12 := r1.trans r2
      have k1 : t2.tables.lenCL = s.tables.lenCL := r12.frame (.table .lenCL) (by decide)
      have k2 : t2.tables.codeCL = s.tables.codeCL := r12.frame (.table .codeCL) (by decide)
      obtain ⟨t3, e3, l4, r3⟩ := ih r12.readerOk (by rw [← h1]; simp only [lensOf, k1])
        (by rw [← h2]; simp only [codesOf, k2]) (fun q hq => hp q (List.mem_cons_of_mem _ hq)) hx u2
      refine ⟨t3, ?_, by rw [List.length_cons]; omega, ?_⟩
      · rw [List.length_cons, Nat.succ_add]
        conv_lhs => unfold readLens
        rw [if_pos (by omega)]
        simp only
        rw [bind_ok e1, if_neg l3, bind_ok e2, he]
        exact e3
      · have := r12.trans r3
        simpa [List.flatMap_cons, Nat.add_assoc] using this

theorem readLens_ok {cl seq seq' : List Nat} {packed : List (Nat × Nat)} {rest : List Bool} {total turns : Nat}
    {s : State} (hR : ReaderOk s.toEngine) (h1 : lensOf s.tables .cl = cl) (h2 : codesOf s.tables .cl = hufCanon cl)
    (hp : ∀ p ∈ packed, p.1 < 19 ∧ p.2 < 2 ^ extraBits p.1 ∧ Coded cl p.1)
    (hx : unpackAll total seq packed = .ok seq') (hl : seq'.length = total)
    (hu : unreadBits s = packed.flatMap (fun p => symBits cl p.1 ++ bitsOf (extraBits p.1) p.2) ++ rest)
    (ht : total ≤ seq.length + turns) :
    ∃ t, readLens total turns seq s = .ok seq' t ∧
      Ran (packed.flatMap (fun p => symBits cl p.1 ++ bitsOf (extraBits p.1) p.2)).length [] s t := by
  obtain ⟨t, e, l, r⟩ := readLens_begun (turns := turns - packed.length) hR h1 h2 hp hx hu
  refine ⟨t, ?_, r⟩
  rw [show turns = packed.length + (turns - packed.length) by omega, e]
  unfold readLens
  rw [if_neg (by omega)]
  rfl

theorem unpackAll_le {total : Nat} {seq seq' : List Nat} {packed : List (Nat × Nat)}
    (h : unpackAll total seq packed = .ok seq') (hl : ∀ l ∈ seq, l ≤ 15) : ∀ l ∈ seq', l ≤ 15 := by
  induction packed generalizing seq with
  | nil => have : seq = seq' := by simpa [unpackAll] using h
           exact this ▸ hl
  | cons p packed ih =>
    rw [unpackAll] at h
    cases he : expandSymbol total seq p.1 p.2 with
    | error e => rw [he] at h; cases h
    | ok seq1 =>
      rw [he] at h
      exact ih h ((expandSymbol_ok he).2.2.2 hl)

theorem getD_le {seq : List Nat} (h : ∀ l ∈ seq, l ≤ 15) (k : Nat) : seq.getD k 0 ≤ 15 := getD_mem_le h k

/-- The two length tables an expanded sequence fills (44_huffman.md R235, 45_deflate.md R278). -/
theorem splitLens_lens {nll nd : Nat} {seq : List Nat} (t : Tables) (h : ∀ l ∈ seq, l ≤ 15) :
    lensOf (splitLens nll nd seq t) .ll = (List.range 288).map (fun s => if s < nll then seq.getD s 0 else 0) ∧
      lensOf (splitLens nll nd seq t) .d = (List.range 32).map (fun s => if s < nd then seq.getD (nll + s) 0 else 0) := by
  constructor
  · rw [splitLens, lensOf_setLens_of_ne (by decide), lensOf_setLens (by simp [alphabetSize])]
    intro l hl
    obtain ⟨k, -, rfl⟩ := List.mem_map.1 hl
    split
    · exact getD_le h _
    · omega
  · rw [splitLens, lensOf_setLens (by simp [alphabetSize])]
    intro l hl
    obtain ⟨k, -, rfl⟩ := List.mem_map.1 hl
    split
    · exact getD_le h _
    · omega

/-- The counts and the meta lengths at the start of a dynamic block's tables; the packed lengths come next. -/
theorem decodeDynamicTables_begun {hlit hdist hclen : Nat} {cl : List Nat} {rest : List Bool} {s : State}
    (hR : ReaderOk s.toEngine) (hb : hlit ≤ 29 ∧ hdist ≤ 31 ∧ hclen ≤ 15)
    (hcl : cl.length = 19 ∧ (∀ s, cl.getD s 0 < 8) ∧ ∀ s, s ∉ clOrder.take (hclen + 4) → cl.getD s 0 = 0)
    (hu : unreadBits s = bitsOf 5 hlit ++ bitsOf 5 hdist ++ bitsOf 4 hclen
      ++ (clOrder.take (hclen + 4)).flatMap (fun s => bitsOf 3 (cl.getD s 0)) ++ rest) :
    ∃ t, decodeDynamicTables s =
        (readLens (hlit + 257 + (hdist + 1)) (hlit + 257 + (hdist + 1)) [] >>= fun seq =>
          changeTables fun t => canonTables .d (canonTables .ll (splitLens (hlit + 257) (hdist + 1) seq t))) t ∧
      Read false (14 + ((clOrder.take (hclen + 4)).flatMap (fun s => bitsOf 3 (cl.getD s 0))).length) [] s t ∧
      unreadBits t = rest ∧ lensOf t.tables .cl = cl ∧ codesOf t.tables .cl = hufCanon cl := by
  obtain ⟨b1, b2, b3⟩ := hb
  obtain ⟨c1, c2, c3⟩ := hcl
  simp only [List.append_assoc] at hu
  obtain ⟨t1, e1, r1, u1⟩ := readField_ok hR hu (by omega)
  obtain ⟨t2, e2, r2, u2⟩ := readField_ok r1.readerOk u1 (by omega)
  obtain ⟨t3, e3, r3, u3⟩ := readField_ok r2.readerOk u2 (by omega)
  have r4 := read_tables (t := { t3.tables with lenCL := .zeros 4 }) r3.readerOk rfl
  obtain ⟨t5, e5, r5, k5⟩ := readMetaLens_ok (cl := cl) r4.readerOk c2 (by rw [r4.done.read.unread]; exact u3)
  have u5 := r5.unread (by rw [r4.done.read.unread]; exact u3)
  have r6 := read_tables (t := canonTables .cl t5.tables) r5.readerOk rfl
  have hl5 : lensOf t5.tables .cl = cl := by
    apply list_ext_getD (by simp [alphabetSize, c1])
    intro k hk
    rw [lensOf_length] at hk
    rw [lensOf_getD hk]
    simp only [lenAt, k5]
    have := c2 k
    by_cases hm : k ∈ clOrder.take (hclen + 4)
    · rw [if_pos hm, BitVec.toNat_ofNat, Nat.mod_eq_of_lt (by omega)]
    · rw [if_neg hm, c3 k hm]
      simp
  refine ⟨{ t5 with tables := canonTables .cl t5.tables }, ?_, ?_, ?_, ?_, ?_⟩
  · rw [decodeDynamicTables, bind_ok e1, bind_ok e2, bind_ok e3, raiseIf_bind, if_neg (by omega), changeTables, change_bind,
      bind_ok e5, changeTables, change_bind]
  · have := ((((r1.read.trans r2.read).trans r3.read).trans r4).trans r5).trans r6
    exact this.cast rfl (by omega) rfl
  · rw [r6.done.read.unread]; exact u5
  · rw [lensOf_canonTables]; exact hl5
  · rw [codesOf_canonTables, hl5]

/-- Splitting the lengths into the two tables, and their codes, leaves the code-length tables alone. -/
theorem splitCodes_cl (nll nd : Nat) (seq : List Nat) (t : Tables) :
    lensOf (canonTables .d (canonTables .ll (splitLens nll nd seq t))) .cl = lensOf t .cl ∧
      codesOf (canonTables .d (canonTables .ll (splitLens nll nd seq t))) .cl = codesOf t .cl := ⟨rfl, rfl⟩

theorem decodeDynamicTables_ok {cl ll d : List Nat} {bits rest : List Bool} {s : State} (hR : ReaderOk s.toEngine)
    (ht : DynamicTables cl ll d bits) (hu : unreadBits s = bits ++ rest) :
    ∃ t, decodeDynamicTables s = .ok () t ∧ Read false bits.length [] s t ∧ HasCodes ll d t.tables ∧
      lensOf t.tables .cl = cl ∧ codesOf t.tables .cl = hufCanon cl := by
  obtain ⟨hlit, hdist, hclen, packed, seq, hb, hcl, hp, ⟨hx, hxl⟩, rfl, rfl, rfl⟩ := ht
  rw [List.append_assoc] at hu
  obtain ⟨t6, e6, r6, u6, l6, c6⟩ := decodeDynamicTables_begun hR hb hcl hu
  obtain ⟨t7, e7, r7⟩ := readLens_ok (cl := cl) (seq := []) (turns := hlit + 257 + (hdist + 1)) r6.readerOk l6 c6 hp hx hxl
    u6 (by simp)
  have hle := unpackAll_le hx (by simp)
  have r8 := read_tables
    (t := canonTables .d (canonTables .ll (splitLens (hlit + 257) (hdist + 1) seq t7.tables))) r7.readerOk rfl
  have kl : lensOf t7.tables .cl = lensOf t6.tables .cl := by
    simp only [lensOf, show t7.tables.lenCL = t6.tables.lenCL from r7.frame (.table .lenCL) (by decide)]
  have kc : codesOf t7.tables .cl = codesOf t6.tables .cl := by
    simp only [codesOf, show t7.tables.codeCL = t6.tables.codeCL from r7.frame (.table .codeCL) (by decide)]
  obtain ⟨k1, k2⟩ := splitCodes_cl (hlit + 257) (hdist + 1) seq t7.tables
  refine ⟨_, e6.trans (bind_ok e7), ?_, ?_, (k1.trans kl).trans l6, (k2.trans kc).trans c6⟩
  · refine ((r6.trans r7.read).trans r8).cast rfl ?_ rfl
    simp only [List.length_append, bitsOf_length, Nat.add_zero]
  · obtain ⟨s1, s2⟩ := splitLens_lens (nll := hlit + 257) (nd := hdist + 1) t7.tables hle
    refine ⟨⟨?_, ?_⟩, ?_, ?_⟩
    · rw [lensOf_canonTables, lensOf_canonTables, s1]
    · rw [codesOf_canonTables_of_ne (by decide), codesOf_canonTables, s1]
    · rw [lensOf_canonTables, lensOf_canonTables, s2]
    · rw [codesOf_canonTables, lensOf_canonTables, s2]

/-! ### Blocks (45_deflate.md R282) -/

theorem fixedTables_codes (t : Tables) : HasCodes fixedLensLL fixedLensD (fixedTables t) := by
  have h1 : ∀ l ∈ fixedLensLL, l ≤ 15 := by decide +kernel
  have h2 : ∀ l ∈ fixedLensD, l ≤ 15 := by decide +kernel
  have e1 : ∀ t, lensOf (setLens (setLens t .ll fixedLensLL) .d fixedLensD) .ll = fixedLensLL := fun t => by
    rw [lensOf_setLens_of_ne (by decide), lensOf_setLens (by simp [fixedLensLL, alphabetSize]) h1]
  have e2 : ∀ t, lensOf (setLens (setLens t .ll fixedLensLL) .d fixedLensD) .d = fixedLensD := fun t => by
    rw [lensOf_setLens (by simp [fixedLensD, alphabetSize]) h2]
  refine ⟨⟨?_, ?_⟩, ?_, ?_⟩ <;> rw [fixedTables]
  · rw [lensOf_canonTables, lensOf_canonTables]; exact e1 t
  · rw [codesOf_canonTables_of_ne (by decide), codesOf_canonTables]; exact congrArg hufCanon (e1 t)
  · rw [lensOf_canonTables, lensOf_canonTables]; exact e2 t
  · rw [codesOf_canonTables, lensOf_canonTables]; exact congrArg hufCanon (e2 t)

theorem readBlockHeader_ok {final : Bool} {btype : Nat} {rest : List Bool} {s : State} (hR : ReaderOk s.toEngine)
    (hb : btype < 4) (hu : unreadBits s = bitsOf 1 (bit final) ++ bitsOf 2 btype ++ rest) :
    ∃ t, readBlockHeader s = .ok (bit final, btype) t ∧ Read final 3 [] s t ∧ unreadBits t = rest ∧
      readerPos t = (readerPos s + 3) % 8 ∧ t.tables = s.tables := by
  rw [List.append_assoc] at hu
  have hf : bit final < 2 ^ 1 := by cases final <;> decide
  obtain ⟨e1, u1⟩ := readBits_field hu hf
  obtain ⟨e2, u2⟩ := readBits_field u1 hb
  have hn : 3 ≤ (unreadBits s).length := by rw [hu]; simp; omega
  have ha : advance 2 (advance 1 s) = advance 3 s := (advance_add 1 2 s).symm
  rw [ha] at e2 u2
  have r := ran_advance hR hn
  refine ⟨{ advance 3 s with bfinalSeen := s.bfinalSeen || final }, ?_, ?_, ?_, ?_, by simp⟩
  · rw [readBlockHeader, bind_ok e1, bind_ok e2, change_bind, pure_run]
    congr 1
    have : (bit final == 1) = final := by cases final <;> rfl
    simp [this]
  · have := r.read.trans (read_flags (f := final) (c := (advance 3 s).outCommit) r.readerOk)
    simpa using this
  · exact u2
  · exact readerPos_advance hn

theorem readerPos_lt (s : State) : readerPos s < 8 := Nat.mod_lt _ (by omega)

theorem decodeStored_ok {pad rest : List Bool} {bytes : List Byte} {s : State} (hR : ReaderOk s.toEngine)
    (hp : pad.length = s.rcount.toNat) (hl : bytes.length < 2 ^ 16) (hroom : hasRoom s bytes.length)
    (hu : unreadBits s =
      pad ++ bitsOf 16 bytes.length ++ bitsOf 16 (bytes.length ^^^ 0xFFFF) ++ streamBits bytes ++ rest) :
    ∃ t, decodeStored s = .ok () t ∧
      Ran (pad ++ bitsOf 16 bytes.length ++ bitsOf 16 (bytes.length ^^^ 0xFFFF) ++ streamBits bytes).length bytes s t := by
  simp only [List.append_assoc] at hu
  have hx : bytes.length ^^^ 0xFFFF < 2 ^ 16 := Nat.xor_lt_two_pow hl (by decide)
  have r1 := ran_advance (n := pad.length) hR (by rw [hu, List.length_append]; omega)
  have u1 := advance_unread hu
  obtain ⟨t2, e2, r2, u2⟩ := readField_ok r1.readerOk u1 hl
  obtain ⟨t3, e3, r3, u3⟩ := readField_ok r2.readerOk u2 hx
  have r123 := (r1.trans r2).trans r3
  obtain ⟨t4, e4, r4⟩ := copyStored_ok r123.readerOk u3 (r123.room (by simpa using hroom))
  refine ⟨t4, ?_, ?_⟩
  · rw [decodeStored, bind_ok (alignIn_ok hR), ← hp, bind_ok e2, bind_ok e3, raiseIf_bind, if_neg (by simp)]
    exact e4
  · have := r123.trans r4
    simp only [List.length_append, bitsOf_length, List.nil_append] at this ⊢
    exact this

/-- Steps that write no table but WINDOW. -/
theorem Ran.tables {n : Nat} {out : List Byte} {s t : State} (r : Ran n out s t) :
    t.tables = { s.tables with window := t.tables.window } := by
  have h0 : t.tables.chunk = s.tables.chunk := r.frame (.table .chunk) (by decide)
  have h1 : t.tables.freqLL = s.tables.freqLL := r.frame (.table .freqLL) (by decide)
  have h2 : t.tables.freqD = s.tables.freqD := r.frame (.table .freqD) (by decide)
  have h3 : t.tables.freqCL = s.tables.freqCL := r.frame (.table .freqCL) (by decide)
  have h4 : t.tables.lenLL = s.tables.lenLL := r.frame (.table .lenLL) (by decide)
  have h5 : t.tables.lenD = s.tables.lenD := r.frame (.table .lenD) (by decide)
  have h6 : t.tables.lenCL = s.tables.lenCL := r.frame (.table .lenCL) (by decide)
  have h7 : t.tables.codeLL = s.tables.codeLL := r.frame (.table .codeLL) (by decide)
  have h8 : t.tables.codeD = s.tables.codeD := r.frame (.table .codeD) (by decide)
  have h9 : t.tables.codeCL = s.tables.codeCL := r.frame (.table .codeCL) (by decide)
  have h10 : t.tables.packed = s.tables.packed := r.frame (.table .packed) (by decide)
  have h11 : t.tables.fname = s.tables.fname := r.frame (.table .fname) (by decide)
  simp only [← h0, ← h1, ← h2, ← h3, ← h4, ← h5, ← h6, ← h7, ← h8, ← h9, ← h10, ← h11]

/-- What a block leaves in the tables (45_deflate.md R278, R282); `payload` is its bits after BTYPE. -/
def BlockLeaves (btype : Nat) (payload : List Bool) (s t : Tables) : Prop :=
  (btype = 0 → t = { s with window := t.window }) ∧
  (btype = 1 → HasCodes fixedLensLL fixedLensD t ∧ t.lenCL = s.lenCL ∧ t.codeCL = s.codeCL) ∧
  (btype = 2 → ∀ (cl ll d : List Nat) (tables symbols : List Bool), DynamicTables cl ll d tables →
    payload = tables ++ symbols → HasCodes ll d t ∧ lensOf t .cl = cl ∧ codesOf t .cl = hufCanon cl)

theorem decBlock_ok {final : Bool} {btype : Nat} {bits rest : List Bool} {h out : List Byte} {s : State}
    (hR : ReaderOk s.toEngine) (hr : Remembers s h)
    (hb : BlockCoded (readerPos s) (winCap s) final btype bits h (h ++ out)) (hu : unreadBits s = bits ++ rest)
    (hroom : hasRoom s out.length) :
    ∃ t, decBlock s = .ok (bit final, btype) t ∧ Read final bits.length out s t ∧
      t.outCommit = t.bytesOut ∧ BlockLeaves btype (bits.drop 3) s.tables t.tables := by
  obtain ⟨payload, rfl, hb⟩ := hb
  rw [show (bitsOf 1 (bit final) ++ bitsOf 2 btype ++ payload).drop 3 = payload from rfl]
  have hb4 : btype < 4 := by rcases hb with ⟨h, -⟩ | ⟨h, -⟩ | ⟨h, -⟩ <;> omega
  rw [List.append_assoc] at hu
  obtain ⟨t1, e1, r1, u1, p1, k1⟩ := readBlockHeader_ok hR hb4 hu
  have hr1 := r1.window h hr
  rw [List.append_nil] at hr1
  have hroom1 : hasRoom t1 out.length := r1.room (by simpa using hroom)
  suffices hs : ∃ t2, blockPayload btype t1 = .ok () t2 ∧
      Read false payload.length out t1 t2 ∧ BlockLeaves btype payload t1.tables t2.tables by
    obtain ⟨t2, e2, r2, hl⟩ := hs
    rw [k1] at hl
    have r3 := read_flags (f := false) (c := t2.bytesOut) r2.readerOk
    refine ⟨commitOutput t2, ?_, ?_, rfl, hl⟩
    · rw [decBlock_run, bind_ok e1, bind_ok e2]
      rfl
    · have := (r1.trans r2).trans r3
      have hc : commitOutput t2 = { t2 with bfinalSeen := t2.bfinalSeen || false, outCommit := t2.bytesOut } := by simp [commitOutput]
      rw [hc]
      refine this.cast (by simp) (by simp; omega) (by simp)
  rcases hb with ⟨rfl, pad, bytes, hp, hl, rfl, ho⟩ | ⟨rfl, toks, ht, ho⟩ | ⟨rfl, ll, d, tb, sb, toks, htb, hts, rfl, ho⟩
  · have ho' : out = bytes := by simpa using ho
    subst ho'
    have hpad : pad.length = t1.rcount.toNat := by
      rw [← padBits_readerPos, p1, hp]
      simp only [padBits]
      omega
    obtain ⟨t2, e2, r2⟩ := decodeStored_ok r1.readerOk hpad hl hroom1 u1
    exact ⟨t2, e2, r2.read, fun _ => r2.tables, (fun h => nomatch h), (fun h => nomatch h)⟩
  · have r2 := read_tables (t := fixedTables t1.tables) r1.readerOk rfl
    obtain ⟨t3, e3, r3⟩ := decodeSymbols_ok (s := { t1 with tables := fixedTables t1.tables }) r2.readerOk
      (by simpa using r2.window h hr1) (fixedTables_codes _) ht
      (by rw [r2.winCap, r1.winCap]; exact ho) u1 hroom1
    refine ⟨t3, ?_, by simpa using r2.trans r3.read, (fun h => nomatch h), fun _ => ⟨(fixedTables_codes t1.tables).ran r3,
      r3.frame (.table .lenCL) (by decide), r3.frame (.table .codeCL) (by decide)⟩, (fun h => nomatch h)⟩
    rw [blockPayload_fixed]
    exact e3
  · have u0 := u1
    rw [List.append_assoc] at u1
    obtain ⟨cl, htb⟩ := htb
    obtain ⟨t2, e2, r2, hc, -⟩ := decodeDynamicTables_ok r1.readerOk htb u1
    have u2 := r2.unread u1
    obtain ⟨t3, e3, r3⟩ := decodeSymbols_ok r2.readerOk (by simpa using r2.window h hr1) hc hts
      (by rw [r2.winCap, r1.winCap]; exact ho) u2 (r2.room (by simpa using hroom1))
    refine ⟨t3, ?_, by simpa using r2.trans r3.read, (fun h => nomatch h), (fun h => nomatch h), fun _ cl' ll' d' tb' sb' ht he => ?_⟩
    · rw [blockPayload_dynamic, bind_ok e2]
      exact e3
    · -- the tables these bits code are those the same run leaves
      rw [he, List.append_assoc] at u0
      obtain ⟨t2', e2', -, hc', hl', hk'⟩ := decodeDynamicTables_ok r1.readerOk ht u0
      obtain rfl : t2' = t2 := by
        have := e2'.symm.trans e2
        injection this
      refine ⟨hc'.ran r3, ?_, ?_⟩
      · rw [← hl']
        simp only [lensOf, show t3.tables.lenCL = t2'.tables.lenCL from r3.frame (.table .lenCL) (by decide)]
      · rw [← hk']
        simp only [codesOf, show t3.tables.codeCL = t2'.tables.codeCL from r3.frame (.table .codeCL) (by decide)]

/-- The codes of a block with symbols, fixed or from its tables: the symbols come next (45_deflate.md R275). -/
theorem codes_ok {btype : Nat} {ll d : List Nat} {tables rest : List Bool} {s : State} (hR : ReaderOk s.toEngine)
    (hc : CodesCoded btype ll d tables) (hu : unreadBits s = tables ++ rest) :
    ∃ t, blockPayload btype s = decodeSymbols t ∧ Read false tables.length [] s t ∧ unreadBits t = rest ∧
      HasCodes ll d t.tables := by
  rcases hc with ⟨rfl, rfl, rfl, rfl⟩ | ⟨rfl, cl, hc⟩
  · exact ⟨_, blockPayload_fixed s, read_tables hR rfl, hu, fixedTables_codes _⟩
  · obtain ⟨t, e, r, hc, -⟩ := decodeDynamicTables_ok hR hc hu
    exact ⟨t, by rw [blockPayload_dynamic, bind_ok e], r, r.unread hu, hc⟩

theorem CodesCoded.lt {btype : Nat} {ll d : List Nat} {bits : List Bool} (h : CodesCoded btype ll d bits) : btype < 4 := by
  rcases h with h | h <;> omega

/-- A block whose payload stops has read its header and stops there (45_deflate.md R282). -/
theorem decBlock_stop {s t1 t2 : State} {b btype : Nat} {e : Stop} (h1 : readBlockHeader s = .ok (b, btype) t1)
    (h2 : blockPayload btype t1 = .error e t2) : decBlock s = .error e t2 := by
  rw [decBlock_run, bind_ok h1, bind_error h2]

/-! ### Streams (45_deflate.md R283) -/

theorem blockCoded_append {pos n btype : Nat} {final : Bool} {bits : List Bool} {h h' : List Byte}
    (hb : BlockCoded pos n final btype bits h h') : ∃ out, h' = h ++ out := by
  obtain ⟨payload, -, hb⟩ := hb
  rcases hb with ⟨-, pad, bytes, -, -, -, rfl⟩ | ⟨-, toks, -, ho⟩ | ⟨-, ll, d, tb, sb, toks, -, -, -, ho⟩
  · exact ⟨bytes, rfl⟩
  · exact tokensOnto_append ho
  · exact tokensOnto_append ho

theorem streamCoded_append {n pos count : Nat} {bits : List Bool} {h h' : List Byte}
    (hs : StreamCoded n pos count bits h h') : ∃ out, h' = h ++ out := by
  induction hs with
  | last hb => exact blockCoded_append hb
  | more hb _ ih =>
    obtain ⟨a, rfl⟩ := blockCoded_append hb
    obtain ⟨b, rfl⟩ := ih
    exact ⟨a ++ b, List.append_assoc ..⟩

/-- A stream has at most one block for each bit. -/
theorem streamCoded_count {n pos count : Nat} {bits : List Bool} {h h' : List Byte}
    (hs : StreamCoded n pos count bits h h') : count ≤ bits.length := by
  induction hs with
  | last hb =>
    obtain ⟨p, rfl, -⟩ := hb
    simp
  | more hb _ ih =>
    obtain ⟨p, rfl, -⟩ := hb
    simp at ih ⊢
    omega

/-- Where the reader stands after bits have been read. -/
theorem readerPos_took {n : Nat} {s t : State} (h : Took n s t) (hn : n ≤ (unreadBits s).length) :
    readerPos t = (readerPos s + n) % 8 := by
  have l1 := unread_length s
  have l2 := unread_length t
  have hlen : (unreadBits t).length = (unreadBits s).length - n := by rw [h.unread, List.length_drop]
  have hs := s.rcount.isLt
  have ht := t.rcount.isLt
  simp only [readerPos]
  omega

theorem decBlocks_ok {n pos count : Nat} {bits rest : List Bool} {h h' out : List Byte} {s : State} {turns k : Nat}
    (hs : StreamCoded n pos count bits h h') (hp : pos = readerPos s) (hn : n = winCap s) (ho : h' = h ++ out)
    (hR : ReaderOk s.toEngine) (hr : Remembers s h) (hu : unreadBits s = bits ++ rest) (hroom : hasRoom s out.length)
    (hturns : count ≤ turns) :
    ∃ t, decBlocks turns k s = .ok (k + count) t ∧ Read true bits.length out s t ∧ t.outCommit = t.bytesOut := by
  induction hs generalizing s turns k out with
  | last hb =>
    subst hp hn ho
    obtain ⟨turns, rfl⟩ : ∃ j, turns = j + 1 := ⟨turns - 1, by omega⟩
    obtain ⟨t, e, r, c, -⟩ := decBlock_ok hR hr hb hu hroom
    refine ⟨t, ?_, r, c⟩
    rw [decBlocks, bind_ok e, if_pos (by rfl)]
    rfl
  | @more pos count btype bits bits' h h1 h2 hb hs ih =>
    subst hp hn
    obtain ⟨a, rfl⟩ := blockCoded_append hb
    obtain ⟨b, hb'⟩ := streamCoded_append hs
    have hab : out = a ++ b := by
      rw [hb', List.append_assoc] at ho
      exact (List.append_cancel_left ho).symm
    subst hab
    obtain ⟨turns, rfl⟩ : ∃ j, turns = j + 1 := ⟨turns - 1, by omega⟩
    rw [List.append_assoc] at hu
    obtain ⟨t, e, r, -⟩ := decBlock_ok hR hr hb hu (fun q hq => by
      have := hroom q hq
      rw [List.length_append] at this
      omega)
    obtain ⟨t', e', r', c'⟩ := ih (s := t) (turns := turns) (k := k + 1) (out := b)
      (readerPos_took r.done.read r.fits).symm r.winCap.symm hb' r.readerOk (r.window h hr) (r.unread hu)
      (r.room (by simpa using hroom)) (by omega)
    refine ⟨t', ?_, (r.trans r').cast rfl (by simp) rfl, c'⟩
    rw [decBlocks, bind_ok e, if_neg (by simp [bit]), e']
    congr 1
    omega

theorem decStreamBody_ok {count : Nat} {bits rest : List Bool} {h out : List Byte} {s : State}
    (hs : StreamCoded (winCap s) (readerPos s) count bits h (h ++ out)) (hR : ReaderOk s.toEngine) (hr : Remembers s h)
    (hu : unreadBits s = bits ++ rest) (hroom : hasRoom s out.length) :
    ∃ t, decStreamBody s = .ok count t ∧ Read true bits.length out s t ∧ t.outCommit = t.bytesOut := by
  have hc := streamCoded_count hs
  obtain ⟨t, e, r⟩ := decBlocks_ok (turns := bitsLeft s + 1) (k := 0) hs rfl rfl rfl hR hr hu hroom
    (by rw [bitsLeft_eq, hu, List.length_append]; omega)
  refine ⟨t, ?_, r⟩
  rw [decStreamBody, getState_bind, e, Nat.zero_add]

end Sys2Proof.Machine
end

