-- ==== Sys2Proof/Laws/Build.lean ====
section
/-! SUPPORT. What a build of code lengths gives (44_huffman.md R221 to R226), in one structure. -/

namespace Sys2Proof.Machine

/-- What the lengths of a build are like. -/
structure Built (freq : List Nat) (limit : Nat) (lens : List Nat) : Prop where
  length : lens.length = freq.length
  used : ∀ k, 0 < freq.getD k 0 → 0 < lens.getD k 0
  bounded : ∀ l ∈ lens, l ≤ limit
  kraft : kraft limit lens = 2 ^ limit
  free : PrefixFree lens
  padding : ∀ k, 2 ≤ k → freq.getD k 0 = 0 → lens.getD k 0 = 0

theorem kraft_scale {limit m : Nat} {lens : List Nat} (h : ∀ l ∈ lens, l ≤ limit) :
    kraft (limit + m) lens = kraft limit lens * 2 ^ m := by
  induction lens with
  | nil => simp [kraft]
  | cons l lens ih =>
    have h1 := h l List.mem_cons_self
    have h2 := ih fun x hx => h x (List.mem_cons_of_mem _ hx)
    simp only [kraft, List.filter_cons] at h2 ⊢
    split
    · simp only [List.map_cons, List.sum_cons, h2, Nat.add_mul]
      rw [← Nat.pow_add]
      congr 2
      omega
    · exact h2

/-- A padding leaf is one of the two lowest symbols (44_huffman.md R221). -/
theorem hufLeaves_padding {freq : List Nat} {k : Nat} (hf : 2 ≤ freq.length) (hk : 2 ≤ k)
    (h0 : freq.getD k 0 = 0) : k ∉ (hufLeaves freq).map Prod.fst := by
  intro hm
  have hkl := hufLeaves_lt hm
  have hlen := (hufLeaves_length freq hf).2
  have hnd := hufLeaves_nodup freq
  rw [List.getD_eq_getElem?_getD, List.getElem?_eq_getElem hkl, Option.getD_some] at h0
  -- k is a padding leaf
  rw [hufLeaves_fst] at hm
  have hpad : k ∈ ((freq.zipIdx.filter (fun x => x.1 = 0)).map Prod.snd).take
      (2 - ((freq.zipIdx.filter (fun x => x.1 > 0)).map Prod.snd).length) := by
    rcases List.mem_append.1 hm with hm | hm
    · obtain ⟨x, hx, e⟩ := List.mem_map.1 hm
      have hx' := List.mem_filter.1 hx
      obtain ⟨h1, h2⟩ := List.mem_zipIdx' hx'.1
      have h3 : freq[k] = x.1 := by simp [h2, e]
      have h4 : 0 < x.1 := by simpa using hx'.2
      omega
    · exact hm
  have hused : ((freq.zipIdx.filter (fun x => x.1 > 0)).map Prod.snd).length < 2 := by
    by_contra hge
    rw [show 2 - ((freq.zipIdx.filter (fun x => x.1 > 0)).map Prod.snd).length = 0 by omega] at hpad
    simp at hpad
  -- every lower symbol is a leaf
  have hlow : ∀ r, r < k → r ∈ (hufLeaves freq).map Prod.fst := by
    intro r hr
    have hrl : r < freq.length := by omega
    by_cases hr0 : freq[r] = 0
    · rw [hufLeaves_fst]
      apply List.mem_append_right
      have hmem : r ∈ (freq.zipIdx.filter (fun x => x.1 = 0)).map Prod.snd := by
        refine List.mem_map.2 ⟨(freq[r], r), List.mem_filter.2 ⟨?_, by simpa using hr0⟩, rfl⟩
        exact List.mem_zipIdx_iff_getElem?.2 (by simp [hrl])
      have hsort : ((freq.zipIdx.filter (fun x => x.1 = 0)).map Prod.snd).Pairwise (· < ·) := by
        have : (freq.zipIdx.map Prod.snd).Pairwise (· < ·) := by
          rw [List.zipIdx_map_snd]
          exact List.pairwise_lt_range'
        exact this.sublist (List.filter_sublist.map Prod.snd)
      generalize (freq.zipIdx.filter (fun x => x.1 = 0)).map Prod.snd = l at *
      generalize 2 - ((freq.zipIdx.filter (fun x => x.1 > 0)).map Prod.snd).length = n at *
      rw [← List.take_append_drop n l] at hmem hsort
      rcases List.mem_append.1 hmem with h | h
      · exact h
      · have := (List.pairwise_append.1 hsort).2.2 k hpad r h
        omega
    · exact hufLeaves_of_used hrl (by omega)
  have h3 : [0, 1, k] ⊆ (hufLeaves freq).map Prod.fst := by
    intro x hx
    simp only [List.mem_cons, List.not_mem_nil, or_false] at hx
    rcases hx with rfl | rfl | rfl
    · exact hlow _ (by omega)
    · exact hlow _ (by omega)
    · rw [hufLeaves_fst]; exact hm
  have hsub : [0, 1, k].Nodup := by simp; omega
  have := (hsub.subperm h3).length_le
  have hu : ((freq.zipIdx.filter (fun x => x.1 > 0)).map Prod.snd).length = (freq.filter (fun f => f > 0)).length := by
    have : freq.filter (fun f => f > 0) = (freq.zipIdx.filter (fun x => x.1 > 0)).map Prod.fst := by
      conv_lhs => rw [← List.zipIdx_map_fst 0 freq, List.filter_map]
      rfl
    rw [this, List.length_map, List.length_map]
  simp only [List.length_cons, List.length_nil] at this
  omega

/-- A build that succeeds (44_huffman.md R226). -/
theorem hufBuild_built {freq lens : List Nat} {limit : Nat} (hf : 2 ≤ freq.length) (h1 : 1 ≤ limit) (h2 : limit ≤ 15)
    (h : hufBuild freq limit = .ok lens) : Built freq limit lens := by
  rcases hufBuild_cases hf h1 with ⟨t, ht, hp, hm⟩ | ⟨ht, -⟩
  · rw [ht] at h
    obtain rfl : treeLens freq.length t = lens := by injection h
    have hn : t.syms.Nodup := hp.nodup_iff.2 (hufLeaves_nodup freq)
    have h2s : 2 ≤ t.syms.length := by rw [hp.length_eq]; exact (hufLeaves_length freq hf).1
    have hlt : ∀ s ∈ t.syms, s < freq.length := fun s hs => hufLeaves_lt (hp.mem_iff.1 hs)
    have hb : ∀ l ∈ treeLens freq.length t, l ≤ limit := by
      intro l hl
      obtain ⟨s, hs, rfl⟩ := List.mem_map.1 hl
      by_cases hst : s ∈ t.syms
      · have := (treeLens_spec (n := freq.length) hn s (List.mem_range.1 hs)).1 hst
        rw [treeLens_getD t (List.mem_range.1 hs)] at this
        exact ((maxDepth_spec t).1 _ this).trans hm
      · rw [depthOf_of_not_mem (by rw [depths_syms]; exact hst)]
        omega
    have hk := treeLens_kraft hn hlt h2s hm
    refine ⟨treeLens_length _ _, fun k hk => ?_, hb, hk, ?_, fun k hk2 hk0 => ?_⟩
    · have hkl : k < freq.length := by
        by_contra hge
        rw [List.getD_eq_getElem?_getD, List.getElem?_eq_none (by omega)] at hk
        simp at hk
      rw [List.getD_eq_getElem?_getD, List.getElem?_eq_getElem hkl, Option.getD_some] at hk
      have hmem := hp.mem_iff.2 (hufLeaves_of_used hkl hk)
      exact depths_pos h2s ((treeLens_spec hn k hkl).1 hmem)
    · refine prefixFree_of_kraft (fun l hl => (hb l hl).trans h2) ?_
      have := kraft_scale (m := 15 - limit) hb
      rw [show limit + (15 - limit) = 15 by omega, hk, ← Nat.pow_add, show limit + (15 - limit) = 15 by omega] at this
      exact this.le
    · by_cases hkl : k < freq.length
      · exact (treeLens_spec hn k hkl).2 fun hmem => hufLeaves_padding hf hk2 hk0 (hp.mem_iff.1 hmem)
      · rw [List.getD_eq_getElem?_getD, List.getElem?_eq_none (by rw [treeLens_length]; omega)]
        rfl
  · rw [ht] at h
    cases h

end Sys2Proof.Machine
end

