-- ==== Sys2Proof/Laws/Pack.lean ====
section
/-! SUPPORT. Code-length packing and its inverse (44_huffman.md R234 to R236). -/

namespace Sys2Proof.Machine

theorem unpackAll_append {total : Nat} {pre seq : List Nat} {a b : List (Nat × Nat)}
    (h : unpackAll total pre a = .ok seq) : unpackAll total pre (a ++ b) = unpackAll total seq b := by
  induction a generalizing pre with
  | nil =>
    have : pre = seq := by simpa [unpackAll] using h
    subst this
    rfl
  | cons p a ih =>
    rw [unpackAll] at h
    rw [List.cons_append, unpackAll]
    cases he : expandSymbol total pre p.1 p.2 with
    | error e => rw [he] at h; cases h
    | ok s1 => rw [he] at h; exact ih h

/-- A length itself. -/
theorem expandSymbol_len {total v x : Nat} {seq : List Nat} (hv : v ≤ 15) (h : seq.length + 1 ≤ total) :
    expandSymbol total seq v x = .ok (seq ++ [v]) := by
  simp only [expandSymbol, if_pos hv]
  rw [if_neg (by omega)]
  rfl

/-- A repeat of the last length. -/
theorem expandSymbol_repeat {total v x : Nat} {seq : List Nat} (hg : seq.getLast? = some v)
    (h : seq.length + (3 + x) ≤ total) : expandSymbol total seq 16 x = .ok (seq ++ List.replicate (3 + x) v) := by
  simp only [expandSymbol, hg]
  simp only [show ¬ (16 ≤ 15) by omega, if_false, if_true]
  rw [if_neg (by omega)]

/-- A short run of zeros. -/
theorem expandSymbol_zeros {total x : Nat} {seq : List Nat} (h : seq.length + (3 + x) ≤ total) :
    expandSymbol total seq 17 x = .ok (seq ++ List.replicate (3 + x) 0) := by
  simp only [expandSymbol, show ¬ (17 ≤ 15) by omega, show ¬ (17 = 16) by omega, if_false, if_true]
  rw [if_neg (by omega)]

/-- A long run of zeros. -/
theorem expandSymbol_many {total x : Nat} {seq : List Nat} (h : seq.length + (11 + x) ≤ total) :
    expandSymbol total seq 18 x = .ok (seq ++ List.replicate (11 + x) 0) := by
  simp only [expandSymbol, show ¬ (18 ≤ 15) by omega, show ¬ (18 = 16) by omega, show ¬ (18 = 17) by omega,
    if_false, if_true]
  rw [if_neg (by omega)]

/-- The packed symbols of a sequence: legal, no more than its lengths, and they expand to it. -/
structure Packs (a : List (Nat × Nat)) (pre seq : List Nat) : Prop where
  legal : ∀ p ∈ a, p.1 < 19 ∧ p.2 < 2 ^ extraBits p.1
  short : a.length ≤ seq.length
  expands : ∀ total, pre.length + seq.length ≤ total → unpackAll total pre a = .ok (pre ++ seq)

theorem Packs.nil (pre : List Nat) : Packs [] pre [] := ⟨by simp, le_refl _, fun total _ => by simp [unpackAll]⟩

theorem Packs.append {a b : List (Nat × Nat)} {pre s t : List Nat} (h1 : Packs a pre s) (h2 : Packs b (pre ++ s) t) :
    Packs (a ++ b) pre (s ++ t) := by
  refine ⟨fun p hp => ?_, ?_, fun total ht => ?_⟩
  · rcases List.mem_append.1 hp with hp | hp
    · exact h1.legal p hp
    · exact h2.legal p hp
  · have := h1.short
    have := h2.short
    simp only [List.length_append]
    omega
  · rw [List.length_append] at ht
    rw [unpackAll_append (h1.expands total (by omega)), h2.expands total (by rw [List.length_append]; omega),
      List.append_assoc]

theorem packs_one {sym x : Nat} {pre seq : List Nat} (h1 : sym < 19) (h2 : x < 2 ^ extraBits sym) (h3 : 1 ≤ seq.length)
    (h : ∀ total, pre.length + seq.length ≤ total → expandSymbol total pre sym x = .ok (pre ++ seq)) :
    Packs [(sym, x)] pre seq := by
  refine ⟨fun p hp => ?_, h3, fun total ht => ?_⟩
  · rw [List.mem_singleton] at hp
    subst hp
    exact ⟨h1, h2⟩
  · simp only [unpackAll, h total ht]

theorem packs_len {v : Nat} (hv : v ≤ 15) (pre : List Nat) : Packs [(v, 0)] pre [v] :=
  packs_one (by omega) (Nat.two_pow_pos _) (le_refl _) fun _ ht => expandSymbol_len hv ht

theorem packs_lens {v : Nat} (hv : v ≤ 15) (n : Nat) (pre : List Nat) :
    Packs (List.replicate n (v, 0)) pre (List.replicate n v) := by
  induction n generalizing pre with
  | zero => exact Packs.nil pre
  | succ n ih =>
    rw [List.replicate_succ, List.replicate_succ]
    exact (packs_len hv pre).append (ih (pre ++ [v]))

theorem packZeros_packs {turns rem : Nat} (h : rem ≤ turns) (pre : List Nat) :
    Packs (packZeros turns rem) pre (List.replicate rem 0) := by
  induction turns generalizing rem pre with
  | zero =>
    obtain rfl : rem = 0 := by omega
    exact Packs.nil pre
  | succ turns ih =>
    unfold packZeros
    split
    · have hsplit : List.replicate rem (0 : Nat) = List.replicate (11 + (min rem 138 - 11)) 0
          ++ List.replicate (rem - min rem 138) 0 := by
        rw [List.replicate_append_replicate]
        congr 1
        omega
      rw [hsplit]
      refine Packs.append (a := [(18, min rem 138 - 11)]) ?_ (ih (by omega) _)
      refine packs_one (by omega) ?_ (by simp; omega) fun total ht => expandSymbol_many (by simpa using ht)
      simp [extraBits]
      omega
    · split
      · have hsplit : List.replicate rem (0 : Nat) = List.replicate (3 + (rem - 3)) 0 := by congr 1; omega
        rw [hsplit]
        refine packs_one (by omega) ?_ (by simp; omega) fun total ht => expandSymbol_zeros (by simpa using ht)
        simp [extraBits]
        omega
      · exact packs_lens (by omega) rem pre

theorem packRepeats_packs {v turns rem : Nat} (hv : v ≤ 15) (h : rem ≤ turns) {pre : List Nat}
    (hp : pre.getLast? = some v) : Packs (packRepeats v turns rem) pre (List.replicate rem v) := by
  induction turns generalizing rem pre with
  | zero =>
    obtain rfl : rem = 0 := by omega
    exact Packs.nil pre
  | succ turns ih =>
    unfold packRepeats
    split
    · have hsplit : List.replicate rem v = List.replicate (3 + (min rem 6 - 3)) v
          ++ List.replicate (rem - min rem 6) v := by
        rw [List.replicate_append_replicate]
        congr 1
        omega
      rw [hsplit]
      refine Packs.append (a := [(16, min rem 6 - 3)]) ?_ (ih (by omega) ?_)
      · refine packs_one (by omega) ?_ (by simp; omega) fun total ht => expandSymbol_repeat hp (by simpa using ht)
        simp [extraBits]
        omega
      · rw [List.getLast?_append, show 3 + (min rem 6 - 3) = (2 + (min rem 6 - 3)) + 1 by omega, List.replicate_succ']
        simp
    · exact packs_lens hv rem pre

theorem packRun_packs {v r : Nat} (hv : v ≤ 15) (hr : 1 ≤ r) (pre : List Nat) :
    Packs (packRun v r) pre (List.replicate r v) := by
  unfold packRun
  split
  · rename_i h0
    subst h0
    exact packZeros_packs (le_refl _) pre
  · have hsplit : List.replicate r v = [v] ++ List.replicate (r - 1) v := by
      obtain ⟨r, rfl⟩ : ∃ k, r = k + 1 := ⟨r - 1, by omega⟩
      rfl
    rw [hsplit]
    exact Packs.append (a := [(v, 0)]) (packs_len hv pre) (packRepeats_packs hv (by omega) (by simp))

theorem takeWhile_eq (v : Nat) (l : List Nat) :
    l.takeWhile (fun x => x = v) = List.replicate (l.takeWhile (fun x => x = v)).length v := by
  rw [List.eq_replicate_iff]
  exact ⟨rfl, fun x hx => by simpa using List.mem_takeWhile_imp hx⟩

theorem packRuns_packs {turns : Nat} {seq : List Nat} (h : seq.length ≤ turns) (hs : ∀ l ∈ seq, l ≤ 15)
    (pre : List Nat) : Packs (packRuns turns seq) pre seq := by
  induction turns generalizing seq pre with
  | zero =>
    obtain rfl : seq = [] := List.length_eq_zero_iff.1 (by omega)
    exact Packs.nil pre
  | succ turns ih =>
    cases seq with
    | nil => exact Packs.nil pre
    | cons v rest =>
      rw [packRuns]
      have hsplit : v :: rest = List.replicate ((rest.takeWhile (fun x => x = v)).length + 1) v
          ++ rest.drop (rest.takeWhile (fun x => x = v)).length := by
        rw [List.replicate_succ, List.cons_append, ← takeWhile_eq v rest,
          List.prefix_iff_eq_append.1 (List.takeWhile_prefix _)]
      conv => arg 3; rw [hsplit]
      rw [List.length_cons] at h
      refine (packRun_packs (hs v List.mem_cons_self) (by omega) pre).append (ih ?_ ?_ _)
      · rw [List.length_drop]; omega
      · exact fun l hl => hs l (List.mem_cons_of_mem _ (List.mem_of_mem_drop hl))

/-- Packing a sequence of lengths (44_huffman.md R234, R236). -/
theorem clPack_packs {seq : List Nat} (hs : ∀ l ∈ seq, l ≤ 15) (pre : List Nat) : Packs (clPack seq) pre seq :=
  packRuns_packs (le_refl _) hs pre

/-! ### Entries of PACKED (10_state.md R41) -/

theorem packed_bound {p : Nat × Nat} (h : p.1 < 19 ∧ p.2 < 2 ^ extraBits p.1) : p.1 < 2 ^ 5 ∧ p.2 < 2 ^ 7 := by
  refine ⟨by omega, ?_⟩
  have : extraBits p.1 ≤ 7 := by
    unfold extraBits
    split_ifs <;> omega
  exact lt_of_lt_of_le h.2 (Nat.pow_le_pow_right (by omega) this)

/-- The fields of a PACKED entry as numbers (10_state.md R41). -/
theorem packedSym_eq (e : BitVec 16) : packedSym e = e.toNat % 32 := by
  simp [packedSym, BitVec.extractLsb'_toNat]

theorem packedExtra_eq (e : BitVec 16) : packedExtra e = e.toNat / 256 % 128 := by
  simp [packedExtra, BitVec.extractLsb'_toNat, Nat.shiftRight_eq_div_pow]

theorem packedEntry_fields {p : Nat × Nat} (h : p.1 < 19 ∧ p.2 < 2 ^ extraBits p.1) :
    packedSym (packedEntry p) = p.1 ∧ packedExtra (packedEntry p) = p.2 := by
  obtain ⟨h1, h2⟩ := packed_bound h
  have e : (packedEntry p).toNat = p.2 * 2 ^ 8 + p.1 := by
    rw [packedEntry, BitVec.toNat_ofNat]
    exact Nat.mod_eq_of_lt (by omega)
  rw [packedSym_eq, packedExtra_eq, e]
  omega

/-- CL_UNPACK's expansion of the entries of packed symbols. -/
theorem clUnpack_entries {total : Nat} {pre : List Nat} {a : List (Nat × Nat)}
    (h : ∀ p ∈ a, p.1 < 19 ∧ p.2 < 2 ^ extraBits p.1) {seq : List Nat} (hu : unpackAll total pre a = .ok seq) :
    clUnpack total pre (a.map packedEntry) = if seq.length < total then .error .badCodelengths else .ok seq := by
  induction a generalizing pre with
  | nil =>
    have : pre = seq := by simpa [unpackAll] using hu
    subst this
    rfl
  | cons p a ih =>
    have hp := h p List.mem_cons_self
    obtain ⟨e1, e2⟩ := packedEntry_fields hp
    rw [unpackAll] at hu
    rw [List.map_cons, clUnpack, e1, e2, Nat.mod_eq_of_lt hp.2]
    cases he : expandSymbol total pre p.1 p.2 with
    | error e => rw [he] at hu; cases hu
    | ok s1 =>
      rw [he] at hu
      exact ih (fun q hq => h q (List.mem_cons_of_mem _ hq)) hu

/-! ### What a run is packed as (44_huffman.md R234) -/

/-- A run of zeros, in closed form (44_huffman.md R234). -/
theorem packZeros_eq {turns rem : Nat} (h : rem ≤ turns) :
    packZeros turns rem = List.replicate (rem / 138) (18, 127) ++
      (if 11 ≤ rem % 138 then [(18, rem % 138 - 11)]
       else if 3 ≤ rem % 138 then [(17, rem % 138 - 3)]
       else List.replicate (rem % 138) (0, 0)) := by
  induction turns generalizing rem with
  | zero =>
    obtain rfl : rem = 0 := by omega
    rfl
  | succ turns ih =>
    unfold packZeros
    by_cases h1 : 138 ≤ rem
    · have e1 : rem / 138 = (rem - 138) / 138 + 1 := by omega
      have e2 : rem % 138 = (rem - 138) % 138 := by omega
      rw [if_pos (by omega), min_eq_right h1, ih (by omega), e1, e2, List.replicate_succ, List.cons_append]
    · rw [Nat.div_eq_of_lt (by omega), Nat.mod_eq_of_lt (by omega), List.replicate_zero, List.nil_append]
      split
      · rw [min_eq_left (by omega), Nat.sub_self]
        cases turns <;> rfl
      · rfl

/-- Repeats of a nonzero length, in closed form (44_huffman.md R234). -/
theorem packRepeats_eq {v turns rem : Nat} (h : rem ≤ turns) :
    packRepeats v turns rem = List.replicate (rem / 6) (16, 3) ++
      (if 3 ≤ rem % 6 then [(16, rem % 6 - 3)] else List.replicate (rem % 6) (v, 0)) := by
  induction turns generalizing rem with
  | zero =>
    obtain rfl : rem = 0 := by omega
    rfl
  | succ turns ih =>
    unfold packRepeats
    by_cases h1 : 6 ≤ rem
    · have e1 : rem / 6 = (rem - 6) / 6 + 1 := by omega
      have e2 : rem % 6 = (rem - 6) % 6 := by omega
      rw [if_pos (by omega), min_eq_right h1, ih (by omega), e1, e2, List.replicate_succ, List.cons_append]
    · rw [Nat.div_eq_of_lt (by omega), Nat.mod_eq_of_lt (by omega), List.replicate_zero, List.nil_append]
      split
      · rw [min_eq_left (by omega), Nat.sub_self]
        cases turns <;> rfl
      · rfl

theorem packRun_eq {v r : Nat} (h : 1 ≤ r) : packRun v r = runSymbols v r := by
  unfold packRun runSymbols
  split
  · exact packZeros_eq (le_refl _)
  · rw [packRepeats_eq (by omega)]
    simp

theorem packRuns_turns {l : List Nat} {n m : Nat} (hn : l.length ≤ n) (hm : l.length ≤ m) : packRuns n l = packRuns m l := by
  induction n generalizing l m with
  | zero =>
    obtain rfl : l = [] := List.length_eq_zero_iff.1 (by omega)
    cases m <;> rfl
  | succ n ih =>
    cases l with
    | nil => cases m <;> rfl
    | cons v rest =>
      cases m with
      | zero => simp at hm
      | succ m =>
        simp only [List.length_cons] at hn hm
        simp only [packRuns]
        rw [ih (m := m) (by simp; omega) (by simp; omega)]

/-- Packing goes run by run (44_huffman.md R234). -/
theorem clPack_run {v r : Nat} {rest : List Nat} (h : 1 ≤ r) (hr : rest.head? ≠ some v) :
    clPack (List.replicate r v ++ rest) = runSymbols v r ++ clPack rest := by
  obtain ⟨r, rfl⟩ : ∃ k, r = k + 1 := ⟨r - 1, by omega⟩
  have ht : (List.replicate r v ++ rest).takeWhile (fun x => decide (x = v)) = List.replicate r v := by
    rw [List.takeWhile_append_of_pos (by simp)]
    cases rest with
    | nil => simp
    | cons x rest =>
      have : ¬ x = v := fun e => hr (by rw [e]; rfl)
      simp [this]
  unfold clPack
  rw [List.replicate_succ, List.cons_append, List.length_cons, packRuns]
  simp only [ht, List.length_replicate]
  rw [packRun_eq (by omega), List.drop_left' (by simp), packRuns_turns (m := rest.length) (by simp) (le_refl _)]

end Sys2Proof.Machine
end

