-- ==== Sys2Proof/Laws/Match.lean ====
section
/-! SUPPORT. The match finder (43_window.md R202, R207): the longest match, of the nearest distance where lengths
tie, and what copying it appends to the history. -/

namespace Sys2Proof.Machine

/-- How long the candidate `d` bytes back matches, up to `m` bytes. -/
def matchLen (s : State) (off m d : Nat) : Nat := matchRun s off d m 0

theorem matchRun_spec (s : State) (off d rem k : Nat) :
    k ≤ matchRun s off d rem k ∧ matchRun s off d rem k ≤ k + rem ∧
      (∀ j, k ≤ j → j < matchRun s off d rem k → matchByte s off d j = s.tables.chunk.read (off + j)) ∧
      (matchRun s off d rem k < k + rem →
        matchByte s off d (matchRun s off d rem k) ≠ s.tables.chunk.read (off + matchRun s off d rem k)) := by
  induction rem generalizing k with
  | zero => exact ⟨le_refl _, le_refl _, fun j h1 h2 => by simp only [matchRun] at h2; omega, fun h => by
      simp only [matchRun] at h; omega⟩
  | succ rem ih =>
    unfold matchRun
    split
    · rename_i he
      obtain ⟨h1, h2, h3, h4⟩ := ih (k + 1)
      refine ⟨by omega, by omega, fun j hj1 hj2 => ?_, fun h => h4 (by omega)⟩
      rcases Nat.eq_or_lt_of_le hj1 with rfl | hlt
      · exact he
      · exact h3 j hlt hj2
    · rename_i he
      exact ⟨le_refl _, by omega, fun j h1 h2 => by omega, fun _ => he⟩

/-- A candidate matches for exactly the lengths up to `matchLen`. -/
theorem matches_iff {s : State} {off m d k : Nat} (hk : k ≤ m) : Matches s off d k ↔ k ≤ matchLen s off m d := by
  obtain ⟨-, -, h3, h4⟩ := matchRun_spec s off d m 0
  constructor
  · intro h
    by_contra hlt
    exact h4 (by simp only [matchLen] at hlt; omega) (h _ (by simp only [matchLen] at hlt; omega))
  · intro h j hj
    exact h3 j (Nat.zero_le _) (by simp only [matchLen] at h; omega)

theorem matchLen_le (s : State) (off m d : Nat) : matchLen s off m d ≤ m := by
  have := (matchRun_spec s off d m 0).2.1
  simp only [matchLen]
  omega

/-- What the search knows after the distances below `d`: nothing matched, or the best pair. -/
def Best (s : State) (off m d : Nat) (b : Nat × Nat) : Prop :=
  (b = (0, 0) ∧ ∀ d', 1 ≤ d' → d' < d → matchLen s off m d' = 0) ∨
    (0 < b.1 ∧ 1 ≤ b.2 ∧ b.2 < d ∧ b.1 = matchLen s off m b.2 ∧
      ∀ d', 1 ≤ d' → d' < d → matchLen s off m d' ≤ b.1 ∧ (matchLen s off m d' = b.1 → b.2 ≤ d'))

theorem searchFrom_best {s : State} {off m rem d : Nat} {b : Nat × Nat} (h : Best s off m d b) (hd : 1 ≤ d) :
    Best s off m (d + rem) (searchFrom s off m rem d b) := by
  induction rem generalizing d b with
  | zero => exact h
  | succ rem ih =>
    rw [searchFrom, show d + (rem + 1) = d + 1 + rem by omega]
    refine ih ?_ (by omega)
    show Best s off m (d + 1) (if matchLen s off m d > b.1 then (matchLen s off m d, d) else b)
    rcases h with ⟨rfl, h0⟩ | ⟨h1, h2, h3, h4, h5⟩
    · by_cases hm : matchLen s off m d > 0
      · rw [if_pos hm]
        refine .inr ⟨hm, hd, Nat.lt_succ_self d, rfl, fun d' hd1 hd2 => ?_⟩
        rcases Nat.lt_or_ge d' d with hlt | hge
        · rw [h0 d' hd1 hlt]
          exact ⟨Nat.zero_le _, fun h => by simp only at h; omega⟩
        · have : d' = d := by omega
          subst this
          exact ⟨le_refl _, fun _ => le_refl _⟩
      · rw [if_neg hm]
        refine .inl ⟨rfl, fun d' hd1 hd2 => ?_⟩
        rcases Nat.lt_or_ge d' d with hlt | hge
        · exact h0 d' hd1 hlt
        · have : d' = d := by omega
          subst this
          omega
    · by_cases hm : matchLen s off m d > b.1
      · rw [if_pos hm]
        refine .inr ⟨by simp only; omega, hd, Nat.lt_succ_self d, rfl, fun d' hd1 hd2 => ?_⟩
        rcases Nat.lt_or_ge d' d with hlt | hge
        · have := (h5 d' hd1 hlt).1
          exact ⟨by simp only; omega, fun h => by simp only at h; omega⟩
        · have : d' = d := by omega
          subst this
          exact ⟨le_refl _, fun _ => le_refl _⟩
      · rw [if_neg hm]
        refine .inr ⟨h1, h2, by omega, h4, fun d' hd1 hd2 => ?_⟩
        rcases Nat.lt_or_ge d' d with hlt | hge
        · exact h5 d' hd1 hlt
        · have : d' = d := by omega
          subst this
          exact ⟨by omega, fun _ => by omega⟩

/-- The match finder: no candidate matches three bytes; or the longest match within the bounds, of the nearest
distance (43_window.md R202, R207). -/
theorem winFind_spec (s : State) (off len : Nat) :
    (winFind s off len = (0, 0) ∧ ∀ d k, 1 ≤ d → d ≤ s.wvalid.toNat → k ≤ min 258 (len - off) →
      Matches s off d k → k < 3) ∨
    (3 ≤ (winFind s off len).1 ∧ (winFind s off len).1 ≤ min 258 (len - off) ∧ 1 ≤ (winFind s off len).2 ∧
      (winFind s off len).2 ≤ s.wvalid.toNat ∧ Matches s off (winFind s off len).2 (winFind s off len).1 ∧
      ∀ d k, 1 ≤ d → d ≤ s.wvalid.toNat → k ≤ min 258 (len - off) → Matches s off d k →
        k ≤ (winFind s off len).1 ∧ (k = (winFind s off len).1 → (winFind s off len).2 ≤ d)) := by
  unfold winFind
  simp only [Config.maxMatch, Config.minMatch]
  generalize hm : min 258 (len - off) = m
  split
  · exact .inl ⟨rfl, fun d k _ _ hk _ => by omega⟩
  · have hb := searchFrom_best (s := s) (off := off) (m := m) (rem := s.wvalid.toNat) (d := 1) (b := (0, 0))
      (.inl ⟨rfl, fun d' h1 h2 => by omega⟩) (le_refl 1)
    generalize searchFrom s off m s.wvalid.toNat 1 (0, 0) = b at hb ⊢
    rcases hb with ⟨rfl, h0⟩ | ⟨h1, h2, h3, h4, h5⟩
    · refine .inl ⟨rfl, fun d k hd1 hd2 hk hmm => ?_⟩
      have := (matches_iff hk).1 hmm
      rw [h0 d hd1 (by omega)] at this
      omega
    · have hbm := matchLen_le s off m b.2
      split
      · rename_i hge
        refine .inr ⟨hge, by omega, h2, by omega, (matches_iff (m := m) (by omega)).2 (by omega),
          fun d k hd1 hd2 hk hmm => ?_⟩
        have hk' := (matches_iff hk).1 hmm
        obtain ⟨h6, h7⟩ := h5 d hd1 (by omega)
        exact ⟨by omega, fun he => h7 (by omega)⟩
      · refine .inl ⟨rfl, fun d k hd1 hd2 hk hmm => ?_⟩
        have hk' := (matches_iff hk).1 hmm
        have := (h5 d hd1 (by omega)).1
        omega

/-! ### Copying (43_window.md R208) -/

/-- Copying from `d` back appends the bytes that repeat with period `d`. -/
theorem copyOnto_of_period {d : Nat} {h a b : List Byte} (hd1 : 1 ≤ d) (hd : d ≤ h.length)
    (hp : ∀ j, j < (a ++ b).length →
      (a ++ b).getD j 0 = if j < d then h.getD (h.length + j - d) 0 else (a ++ b).getD (j - d) 0) :
    copyOnto d b.length (h ++ a) = h ++ a ++ b := by
  induction b generalizing a with
  | nil => simp [copyOnto]
  | cons x b ih =>
    rw [List.length_cons, copyOnto]
    have hx : (h ++ a).getD ((h ++ a).length - d) 0 = x := by
      have hj := hp a.length (by simp)
      have e1 : (a ++ x :: b).getD a.length 0 = x := by
        rw [List.getD_eq_getElem?_getD, List.getElem?_append_right (le_refl _)]
        simp
      rw [e1] at hj
      rw [hj, List.length_append]
      split
      · rename_i hlt
        rw [List.getD_eq_getElem?_getD, List.getD_eq_getElem?_getD, List.getElem?_append_left (by omega)]
      · rename_i hge
        rw [List.getD_eq_getElem?_getD, List.getD_eq_getElem?_getD, List.getElem?_append_right (by omega),
          List.getElem?_append_left (by omega)]
        congr 2
        omega
    rw [hx]
    have := ih (a := a ++ [x]) (by simpa [List.append_assoc] using hp)
    simpa [List.append_assoc] using this

theorem chunkBytes_length (t : Tables) (i n : Nat) : (chunkBytes t i n).length = n := by simp [chunkBytes]

theorem chunkBytes_getD (t : Tables) {i n j : Nat} (h : j < n) : (chunkBytes t i n).getD j 0 = t.chunk.read (i + j) := by
  simp [chunkBytes, List.getD_eq_getElem?_getD, h]

theorem chunkBytes_add (t : Tables) (i m n : Nat) : chunkBytes t i (m + n) = chunkBytes t i m ++ chunkBytes t (i + m) n := by
  simp [chunkBytes, ← List.range'_append_1]

theorem chunkBytes_toList (t : Tables) (n : Nat) : chunkBytes t 0 n = t.chunk.toList n := by
  simp [chunkBytes, Memory.toList, List.range_eq_range']

theorem chunkBytes_congr {t t' : Tables} (h : t'.chunk = t.chunk) (i n : Nat) : chunkBytes t' i n = chunkBytes t i n := by
  simp [chunkBytes, h]

/-- A match copied from the window appends the chunk's bytes to the history (43_window.md R208). -/
theorem copyOnto_match {s : State} {h : List Byte} {off d l : Nat} (hr : Remembers s h) (hd1 : 1 ≤ d)
    (hd : d ≤ s.wvalid.toNat) (hm : Matches s off d l) : copyOnto d l h = h ++ chunkBytes s.tables off l := by
  have hle := hr.valid_le
  have := copyOnto_of_period (d := d) (h := h) (a := []) (b := chunkBytes s.tables off l) hd1 (by omega) (by
    intro j hj
    rw [List.nil_append, chunkBytes_length] at hj
    rw [List.nil_append, chunkBytes_getD _ hj, ← hm j hj, matchByte]
    split
    · rename_i hlt
      rw [hr.byte (d - j) (by omega) (by omega)]
      congr 1
      omega
    · rw [chunkBytes_getD _ (by omega)]
      congr 1
      omega)
  rw [chunkBytes_length, List.append_nil] at this
  exact this

end Sys2Proof.Machine
end

