-- ==== Sys2Proof/Laws/Tokens.lean ====
section
/-! SUPPORT. Pass 1 of the encoder (45_deflate.md R261): the tokens code the chunk onto the history, their symbols are
counted, and the window takes the chunk in. -/

namespace Sys2Proof.Machine

/-! ### Range symbols (30_encoding.md R110, R111) -/

theorem takeWhile_spec {α : Type} (p : α → Bool) (l : List α) (d : α) :
    (∀ j, j < (l.takeWhile p).length → p (l.getD j d) = true) ∧
      ((l.takeWhile p).length < l.length → p (l.getD (l.takeWhile p).length d) = false) := by
  induction l with
  | nil => simp
  | cons x l ih =>
    by_cases hx : p x = true
    · rw [List.takeWhile_cons_of_pos hx]
      refine ⟨fun j hj => ?_, fun h => ?_⟩
      · cases j with
        | zero => simpa using hx
        | succ j => simpa using ih.1 j (by simpa using hj)
      · simpa using ih.2 (by simpa using h)
    · rw [List.takeWhile_cons_of_neg hx]
      exact ⟨fun j hj => by simp at hj, fun _ => by simpa using hx⟩

theorem lastRange_spec {l : List Range} {x : Nat} (h0 : (l.getD 0 ⟨0, 0⟩).base ≤ x) (hl : 0 < l.length) :
    lastRange l x < l.length ∧ (l.getD (lastRange l x) ⟨0, 0⟩).base ≤ x ∧
      (lastRange l x + 1 < l.length → x < (l.getD (lastRange l x + 1) ⟨0, 0⟩).base) := by
  obtain ⟨h1, h2⟩ := takeWhile_spec (fun r : Range => decide (r.base ≤ x)) l ⟨0, 0⟩
  have hle : (l.takeWhile (fun r : Range => decide (r.base ≤ x))).length ≤ l.length :=
    (List.takeWhile_prefix _).length_le
  have hpos : 0 < (l.takeWhile (fun r : Range => decide (r.base ≤ x))).length := by
    cases l with
    | nil => simp at hl
    | cons r l => rw [List.takeWhile_cons_of_pos (by simpa using h0)]; simp
  unfold lastRange
  generalize (l.takeWhile (fun r : Range => decide (r.base ≤ x))).length = n at *
  refine ⟨by omega, by simpa using h1 (n - 1) (by omega), fun h => ?_⟩
  rw [Nat.sub_add_cancel hpos] at h ⊢
  simpa using h2 h

theorem lenSym_spec {l : Nat} (h1 : 3 ≤ l) (h2 : l ≤ 258) :
    ∃ i, i < 29 ∧ lenSym l = 257 + i ∧ (lenRange i).base ≤ l ∧ l - (lenRange i).base < 2 ^ (lenRange i).extra := by
  unfold lenSym
  split
  · rename_i h
    subst h
    exact ⟨28, by decide⟩
  · obtain ⟨h3, h4, h5⟩ := lastRange_spec (l := lenRanges.take 28) (x := l) h1 (by decide)
    have e : ∀ i, i < 28 → (lenRanges.take 28).getD i ⟨0, 0⟩ = lenRange i ∧
        (i + 1 < 28 → ((lenRanges.take 28).getD (i + 1) ⟨0, 0⟩).base = (lenRange i).base + 2 ^ (lenRange i).extra) ∧
        (i = 27 → 259 ≤ (lenRange i).base + 2 ^ (lenRange i).extra) := by decide
    generalize lastRange (lenRanges.take 28) l = i at *
    have h3' : i < 28 := h3
    obtain ⟨e1, e2, e3⟩ := e i h3'
    rw [e1] at h4
    refine ⟨i, by omega, rfl, h4, ?_⟩
    by_cases hi : i = 27
    · have := e3 hi
      omega
    · have := h5 (show i + 1 < 28 by omega)
      rw [e2 (by omega)] at this
      omega

theorem distSym_spec {d : Nat} (h1 : 1 ≤ d) (h2 : d ≤ 32768) :
    distSym d < 30 ∧ (distRange (distSym d)).base ≤ d ∧
      d - (distRange (distSym d)).base < 2 ^ (distRange (distSym d)).extra := by
  unfold distSym
  obtain ⟨h3, h4, h5⟩ := lastRange_spec (l := distRanges) (x := d) h1 (by decide)
  have e : ∀ i, i < 30 → distRanges.getD i ⟨0, 0⟩ = distRange i ∧
      (i + 1 < 30 → (distRanges.getD (i + 1) ⟨0, 0⟩).base = (distRange i).base + 2 ^ (distRange i).extra) ∧
      (i = 29 → 32769 ≤ (distRange i).base + 2 ^ (distRange i).extra) := by decide
  generalize lastRange distRanges d = i at *
  have h3' : i < 30 := h3
  obtain ⟨e1, e2, e3⟩ := e i h3'
  rw [e1] at h4
  refine ⟨h3', h4, ?_⟩
  by_cases hi : i = 29
  · have := e3 hi
    omega
  · have := h5 (show i + 1 < 30 by omega)
    rw [e2 (by omega)] at this
    omega

/-! ### Tokens -/

/-- A token the encoder makes. -/
def Token.legal : Token → Prop
  | .literal _ => True
  | .copy l d => (3 ≤ l ∧ l ≤ 258) ∧ 1 ≤ d ∧ d ≤ 32768

theorem tokensOnto_snoc {n : Nat} {toks : List Token} {t : Token} {h h' : List Byte} (h1 : TokensOnto n toks h h')
    (h2 : ∀ l k, t = .copy l k → k ≤ min h'.length n) : TokensOnto n (toks ++ [t]) h (tokenOnto h' t) := by
  induction toks generalizing h with
  | nil =>
    have : h' = h := h1
    subst this
    exact ⟨h2, rfl⟩
  | cons x toks ih => exact ⟨h1.1, ih h1.2⟩

/-- The loop's state after the first `i` of the `n` bytes of the chunk in the tables `c`, from the history `h`. -/
structure Tokenized (c : Tables) (h : List Byte) (lz : Bool) (cap n i : Nat) (s : State) : Prop where
  chunk : s.tables.chunk = c.chunk
  lz77 : lz77En s = lz
  capacity : winCap s = cap
  window : Remembers s (h ++ chunkBytes c 0 i)
  onto : TokensOnto cap s.tokens h (h ++ chunkBytes c 0 i)
  legal : ∀ t ∈ s.tokens, t.legal
  parsed : ∀ toks, Parsed lz cap (h ++ chunkBytes c 0 i) (chunkBytes c i (n - i)) toks →
    Parsed lz cap h (chunkBytes c 0 n) (s.tokens ++ toks)
  short : s.tokens.length ≤ i
  countLL : ∀ k, (s.tables.freqLL.read k).toNat = (s.tokens.map Token.symbol).count k
  countD : ∀ k, (s.tables.freqD.read k).toNat = (s.tokens.filterMap Token.distance).count k

/-- One more on a counter that is small. -/
theorem count_succ {v : Word} {i : Nat} (h : v.toNat ≤ i) (hi : i < 65536) : (v + 1).toNat = v.toNat + 1 := by
  rw [BitVec.toNat_add]
  simp
  omega

/-- Counting one more symbol. -/
theorem read_count {m : Memory 32} {l : List Nat} {i : Nat} (h : ∀ k, (m.read k).toNat = l.count k) (hl : l.length ≤ i)
    (hi : i < 65536) (x k : Nat) : ((m.write x (m.read x + 1)).read k).toNat = (l ++ [x]).count k := by
  have hx : (m.read x).toNat ≤ i := by
    rw [h]
    exact List.count_le_length.trans hl
  rw [List.count_append, List.count_singleton]
  by_cases hk : k = x
  · subst hk
    rw [read_write_same, count_succ hx hi, h, if_pos (by simp)]
  · rw [read_write_other _ _ hk, h, if_neg (by simpa using fun e => hk e.symm), Nat.add_zero]

theorem winAddAll_keeps (l : List Byte) (s : State) :
    winCap (winAddAll l s) = winCap s ∧ (winAddAll l s).tokens = s.tokens ∧
      (winAddAll l s).tables = { s.tables with window := (winAddAll l s).tables.window } := by
  induction l generalizing s with
  | nil => exact ⟨rfl, rfl, rfl⟩
  | cons b l ih =>
    obtain ⟨h1, h2, h3⟩ := ih (winAdd b s)
    refine ⟨h1, h2, ?_⟩
    rw [winAddAll, h3]
    rfl

/-- A candidate in the window repeats the history, and the reverse (43_window.md R202). -/
theorem matches_iff_repeats {c : Tables} {h : List Byte} {n i d k : Nat} {s : State} (hc : s.tables.chunk = c.chunk)
    (hr : Remembers s h) (hd1 : 1 ≤ d) (hd2 : d ≤ s.wvalid.toNat) (hk : k ≤ n - i) :
    Matches s i d k ↔ Repeats h (chunkBytes c i (n - i)) d k := by
  have hle := hr.valid_le
  refine forall_congr' fun j => forall_congr' fun hj => ?_
  have e : matchByte s i d j = (h ++ chunkBytes c i (n - i)).getD (h.length + j - d) 0 := by
    rw [matchByte]
    split
    · rw [hr.byte (d - j) (by omega) (by omega), List.getD_eq_getElem?_getD, List.getD_eq_getElem?_getD,
        List.getElem?_append_left (by omega), show h.length - (d - j) = h.length + j - d by omega]
    · rw [hc, List.getD_eq_getElem?_getD, List.getElem?_append_right (by omega), ← List.getD_eq_getElem?_getD,
        chunkBytes_getD _ (by omega), show i + (h.length + j - d - h.length) = i + j - d by omega]
  rw [e, chunkBytes_getD _ (by omega), hc]

/-- The match finder over the history (43_window.md R202, R207). -/
theorem winFind_longest {c : Tables} {h : List Byte} {n i : Nat} {s : State} (hc : s.tables.chunk = c.chunk)
    (hr : Remembers s h) :
    (winFind s i n = (0, 0) ∧ NoMatch (winCap s) h (chunkBytes c i (n - i))) ∨
      LongestMatch (winCap s) h (chunkBytes c i (n - i)) (winFind s i n).1 (winFind s i n).2 := by
  have hv := hr.valid
  rcases winFind_spec s i n with ⟨h0, h1⟩ | ⟨h1, h2, h3, h4, h5, h6⟩
  · refine .inl ⟨h0, fun d k hd1 hd2 hk hm => ?_⟩
    rw [chunkBytes_length] at hk
    exact h1 d k hd1 (by omega) hk ((matches_iff_repeats hc hr hd1 (by omega) (by omega)).2 hm)
  · refine .inr ⟨⟨h1, by rw [chunkBytes_length]; exact h2⟩, ⟨h3, by omega⟩,
      (matches_iff_repeats hc hr h3 h4 (by omega)).1 h5, fun d k hd1 hd2 hk hm => ?_⟩
    rw [chunkBytes_length] at hk
    exact h6 d k hd1 (by omega) hk ((matches_iff_repeats hc hr hd1 (by omega) (by omega)).2 hm)

theorem addLiteral_tokenized {c : Tables} {h : List Byte} {lz : Bool} {cap n i : Nat} {s : State}
    (ht : Tokenized c h lz cap n i s) (hi : i < n) (hn : n ≤ 65535)
    (hno : lz = true → NoMatch cap (h ++ chunkBytes c 0 i) (chunkBytes c i (n - i))) :
    Tokenized c h lz cap n (i + 1) (addLiteral i s) := by
  have e1 : chunkBytes c i 1 = [s.tables.chunk.read i] := by rw [ht.chunk]; rfl
  have hb : h ++ chunkBytes c 0 (i + 1) = h ++ chunkBytes c 0 i ++ [s.tables.chunk.read i] := by
    rw [chunkBytes_add, Nat.zero_add, e1, List.append_assoc]
  have hrest : chunkBytes c i (n - i) = s.tables.chunk.read i :: chunkBytes c (i + 1) (n - (i + 1)) := by
    rw [show n - i = 1 + (n - (i + 1)) by omega, chunkBytes_add, e1]
    rfl
  have hc := read_count (i := i) ht.countLL (by rw [List.length_map]; exact ht.short) (by omega) (s.tables.chunk.read i).toNat
  refine ⟨ht.chunk, ht.lz77, ht.capacity, ?_, ?_, ?_, fun toks hp => ?_, ?_, fun k => ?_, fun k => ?_⟩
  · rw [hb]
    exact winAdd_remembers _ (ht.window.congr rfl rfl rfl rfl)
  · rw [hb]
    exact tokensOnto_snoc ht.onto (t := .literal (s.tables.chunk.read i)) (by simp)
  · intro t hm
    rcases List.mem_append.1 hm with hm | hm
    · exact ht.legal t hm
    · rw [List.mem_singleton.1 hm]
      trivial
  · rw [hb] at hp
    show Parsed lz cap h _ (s.tokens ++ [.literal (s.tables.chunk.read i)] ++ toks)
    rw [List.append_assoc]
    rw [hrest] at hno
    have := ht.parsed (.literal (s.tables.chunk.read i) :: toks)
    rw [hrest] at this
    exact this (.literal hno hp)
  · show (s.tokens ++ [_]).length ≤ _
    have := ht.short
    simp only [List.length_append, List.length_singleton]
    omega
  · show ((s.tables.freqLL.write _ _).read k).toNat = ((s.tokens ++ [_]).map Token.symbol).count k
    rw [hc k, List.map_append]
    rfl
  · show (s.tables.freqD.read k).toNat = ((s.tokens ++ [_]).filterMap Token.distance).count k
    rw [ht.countD k, List.filterMap_append, show [Token.literal (s.tables.chunk.read i)].filterMap Token.distance = [] from rfl,
      List.append_nil]

theorem addMatch_tokenized {c : Tables} {h : List Byte} {cap n i l d : Nat} {s : State}
    (ht : Tokenized c h true cap n i s) (hi : i + l ≤ n) (hn : n ≤ 65535)
    (hm : LongestMatch cap (h ++ chunkBytes c 0 i) (chunkBytes c i (n - i)) l d) :
    Tokenized c h true cap n (i + l) (addMatch i l d s) := by
  obtain ⟨⟨hl3, hl258⟩, ⟨hd1, hd2⟩, hrep, -⟩ := id hm
  have hv := ht.window.valid
  rw [ht.capacity] at hv
  have hmatch := (matches_iff_repeats (n := n) ht.chunk ht.window hd1 (by omega) (by omega)).2 hrep
  have hcap := winCap_le s
  rw [ht.capacity] at hcap
  have hb : h ++ chunkBytes c 0 (i + l) = h ++ chunkBytes c 0 i ++ chunkBytes s.tables i l := by
    rw [chunkBytes_add, chunkBytes_congr ht.chunk, List.append_assoc, Nat.zero_add]
  have hrest : chunkBytes c i (n - i) = chunkBytes c i l ++ chunkBytes c (i + l) (n - (i + l)) := by
    rw [← chunkBytes_add]
    congr 1
    omega
  have hc := read_count (i := i) ht.countLL (by rw [List.length_map]; exact ht.short) (by omega) (lenSym l)
  have hc' := read_count ht.countD ((List.length_filterMap_le _ _).trans ht.short) (by omega) (distSym d)
  obtain ⟨k1, k2, k3⟩ := winAddAll_keeps (chunkBytes s.tables i l)
    { s with
      tokens := s.tokens ++ [.copy l d]
      tables := countD (distSym d) (countLL (lenSym l) s.tables) }
  have e1 : (addMatch i l d s).tables.freqLL = s.tables.freqLL.write (lenSym l) (s.tables.freqLL.read (lenSym l) + 1) := by
    rw [addMatch, k3]
    rfl
  have e2 : (addMatch i l d s).tables.freqD = s.tables.freqD.write (distSym d) (s.tables.freqD.read (distSym d) + 1) := by
    rw [addMatch, k3]
    rfl
  have e3 : (addMatch i l d s).tokens = s.tokens ++ [.copy l d] := k2
  have e4 : (addMatch i l d s).cfg = s.cfg := (winAddAll_frames _ _) .cfg (by decide)
  refine ⟨?_, ?_, ?_, ?_, ?_, ?_, fun toks hp => ?_, ?_, fun k => ?_, fun k => ?_⟩
  · rw [addMatch, k3]
    exact ht.chunk
  · rw [← ht.lz77, lz77En, lz77En, e4]
  · rw [← ht.capacity]
    exact (config_congr e4).2.2.2
  · rw [hb]
    exact winAddAll_remembers _ (ht.window.congr rfl rfl rfl rfl)
  · rw [hb, e3, ← copyOnto_match ht.window hd1 (by omega) hmatch]
    refine tokensOnto_snoc ht.onto (t := .copy l d) fun l' d' e => ?_
    cases e
    exact hd2
  · intro t hm
    rw [e3] at hm
    rcases List.mem_append.1 hm with hm | hm
    · exact ht.legal t hm
    · rw [List.mem_singleton.1 hm]
      exact ⟨⟨hl3, by omega⟩, hd1, by omega⟩
  · rw [e3, List.append_assoc]
    refine ht.parsed _ (.copy rfl hm ?_)
    rw [hrest, List.take_left' (chunkBytes_length _ _ _), List.drop_left' (chunkBytes_length _ _ _)]
    rw [hb, chunkBytes_congr ht.chunk] at hp
    exact hp
  · rw [e3, List.length_append, List.length_singleton]
    have := ht.short
    omega
  · rw [e1, e3, hc k, List.map_append]
    rfl
  · rw [e2, e3, hc' k, List.filterMap_append]
    rfl

theorem tokenizeFrom_tokenized {c : Tables} {h : List Byte} {lz : Bool} {cap n turns i : Nat} {s : State}
    (ht : Tokenized c h lz cap n i s) (hn : n ≤ 65535) (hi : i ≤ n) (hturns : n ≤ i + turns) :
    Tokenized c h lz cap n n (tokenizeFrom n turns i s) := by
  induction turns generalizing i s with
  | zero =>
    obtain rfl : i = n := by omega
    exact ht
  | succ turns ih =>
    unfold tokenizeFrom
    split
    · rename_i hin
      simp only
      have hfind := winFind_longest (n := n) (i := i) ht.chunk ht.window
      rw [ht.capacity] at hfind
      unfold matchAt
      rw [ht.lz77]
      cases lz with
      | false => exact ih (addLiteral_tokenized ht hin hn fun e => nomatch e) (by omega) (by omega)
      | true =>
        rw [if_pos rfl]
        rcases hfind with ⟨h0, hno⟩ | hm
        · rw [h0, if_neg (by decide)]
          exact ih (addLiteral_tokenized ht hin hn fun _ => hno) (by omega) (by omega)
        · have h3 := hm.1
          rw [chunkBytes_length] at h3
          rw [if_pos (show (winFind s i n).1 ≥ Config.minMatch from h3.1)]
          exact ih (addMatch_tokenized ht (by omega) hn hm) (by omega) (by omega)
    · obtain rfl : i = n := by omega
      exact ht

/-- What pass 1 leaves (45_deflate.md R261). -/
structure Pass1 (c : Tables) (h bytes : List Byte) (lz : Bool) (cap : Nat) (s : State) : Prop where
  chunk : s.tables.chunk = c.chunk
  window : Remembers s (h ++ bytes)
  onto : TokensOnto cap s.tokens h (h ++ bytes)
  legal : ∀ t ∈ s.tokens, t.legal
  parsed : Parsed lz cap h bytes s.tokens
  countsLL : freqsOf s.tables .ll = countsLL s.tokens
  countsD : freqsOf s.tables .d = countsD s.tokens

theorem Token.symbol_lt {t : Token} (h : t.legal) : t.symbol < 286 := by
  cases t with
  | literal b => have := b.isLt; simp only [Token.symbol]; omega
  | copy l k =>
    obtain ⟨i, hi, e, -⟩ := lenSym_spec h.1.1 h.1.2
    simp only [Token.symbol]
    omega

theorem countsOf_getD {n k : Nat} (h : k < n) (l : List Nat) : (countsOf n l).getD k 0 = l.count k := by
  rw [countsOf, List.getD_eq_getElem?_getD, List.getElem?_map, List.getElem?_range h]
  rfl

/-- A table of counters that counts symbols. -/
theorem counts_eq {m : Memory 32} {l : List Nat} {n : Nat} (h : ∀ k, k < n → (m.read k).toNat = l.count k) :
    (m.toList n).map BitVec.toNat = countsOf n l := by
  simp only [Memory.toList, List.map_map, countsOf]
  exact List.map_congr_left fun k hk => h k (List.mem_range.1 hk)

/-- Every token's symbols are counted, and no others. -/
theorem countsLL_used {toks : List Token} : (∀ t ∈ toks, t.legal → 0 < (countsLL toks).getD t.symbol 0) ∧
    0 < (countsLL toks).getD 256 0 := by
  have key : ∀ x, x ∈ toks.map Token.symbol ++ [256] → x < 288 → 0 < (countsLL toks).getD x 0 := fun x hx hlt => by
    rw [countsLL, countsOf_getD hlt]
    exact List.count_pos_iff.2 hx
  refine ⟨fun t ht hl => key _ (List.mem_append_left _ (List.mem_map_of_mem ht)) ?_, key 256 (by simp) (by omega)⟩
  have := Token.symbol_lt hl
  omega

theorem countsLL_none {toks : List Token} {k : Nat} (hl : ∀ t ∈ toks, t.legal) (hk : 286 ≤ k) :
    (countsLL toks).getD k 0 = 0 := by
  rcases lt_or_ge k 288 with h | h
  · rw [countsLL, countsOf_getD h, List.count_eq_zero]
    intro hm
    rcases List.mem_append.1 hm with hm | hm
    · obtain ⟨t, ht, e⟩ := List.mem_map.1 hm
      have := Token.symbol_lt (hl t ht)
      omega
    · have := List.mem_singleton.1 hm
      omega
  · rw [List.getD_eq_default]
    simp only [countsLL, countsOf, List.length_map, List.length_range, Config.llSize]
    exact h

theorem countsD_used {toks : List Token} {l d : Nat} (h : .copy l d ∈ toks) (hl : (Token.copy l d).legal) :
    0 < (countsD toks).getD (distSym d) 0 := by
  have := (distSym_spec hl.2.1 hl.2.2).1
  rw [countsD, countsOf_getD (show distSym d < 32 by omega), List.count_pos_iff]
  exact List.mem_filterMap.2 ⟨_, h, rfl⟩

theorem countsD_none {toks : List Token} {k : Nat} (hl : ∀ t ∈ toks, t.legal) (hk : 30 ≤ k) :
    (countsD toks).getD k 0 = 0 := by
  rcases lt_or_ge k 32 with h | h
  · rw [countsD, countsOf_getD h, List.count_eq_zero]
    intro hm
    obtain ⟨t, ht, e⟩ := List.mem_filterMap.1 hm
    cases t with
    | literal b => cases e
    | copy l d =>
      have := (distSym_spec (hl _ ht).2.1 (hl _ ht).2.2).1
      have : distSym d = k := by simpa [Token.distance] using e
      omega
  · rw [List.getD_eq_default]
    simp only [countsD, countsOf, List.length_map, List.length_range, Config.dSize]
    exact h

theorem tokenize_pass1 {h : List Byte} {n : Nat} {s : State} (hr : Remembers s h) (hn : n ≤ 65535) :
    Pass1 s.tables h (chunkBytes s.tables 0 n) (lz77En s) (winCap s) (tokenize n s) := by
  have h0 : Tokenized s.tables h (lz77En s) (winCap s) n 0
      { s with tokens := [], tables := { s.tables with freqLL := .zeros 32, freqD := .zeros 32 } } := by
    refine ⟨rfl, rfl, rfl, ?_, ?_, by simp, fun toks hp => ?_, by simp, fun k => by simp, fun k => by simp⟩
    · show Remembers _ (h ++ [])
      rw [List.append_nil]
      exact hr.congr rfl rfl rfl rfl
    · simp [chunkBytes, TokensOnto]
    · simpa [chunkBytes] using hp
  have ht := tokenizeFrom_tokenized (turns := n) h0 hn (Nat.zero_le _) (by omega)
  have hc := read_count (i := n) ht.countLL (by rw [List.length_map]; exact ht.short) (by omega) 256
  unfold tokenize
  simp only
  generalize tokenizeFrom n n 0 _ = t at ht hc ⊢
  refine ⟨ht.chunk, ht.window.congr rfl rfl rfl rfl, ht.onto, ht.legal, ?_, counts_eq fun k _ => hc k,
    counts_eq fun k _ => ht.countD k⟩
  have := ht.parsed [] (by rw [Nat.sub_self]; exact .done)
  rwa [List.append_nil] at this

end Sys2Proof.Machine
end

