-- ==== Sys2Proof/Laws/Writer.lean ====
section
/-! SUPPORT. What the bit writer does (41_bitio.md R160, R163), as a function on states: the primitives give it
where the host has room, and hold where it has not. -/

namespace Sys2Proof.Machine

/-- The state after `PutBit(b)` that the host accepts. -/
def putOne (b : Bool) (s : State) : State :=
  if s.wcount = 7 then
    { s with
      outPort := s.outPort ++ [pushBit s.wbuf s.wcount b]
      bytesOut := s.bytesOut + 1
      outRoom := s.outRoom.map (· - 1)
      wbuf := 0
      wcount := 0 }
  else { s with wbuf := pushBit s.wbuf s.wcount b, wcount := s.wcount + 1 }

/-- The state after bits that the host accepts. -/
def putAll : List Bool → State → State
  | [], s => s
  | b :: rest, s => putAll rest (putOne b s)

/-- The host has room for the bytes that `n` more bits fill up. -/
def Room (s : State) (n : Nat) : Prop := hasRoom s ((s.wcount.toNat + n) / 8)

@[simp] theorem putAll_nil (s : State) : putAll [] s = s := rfl

theorem putAll_append (a b : List Bool) (s : State) : putAll (a ++ b) s = putAll b (putAll a s) := by
  induction a generalizing s with
  | nil => rfl
  | cons x a ih => exact ih _

/-- Putting bits changes the writer and the output port alone. -/
theorem putAll_eq (bits : List Bool) (s : State) :
    putAll bits s =
      { s with
        wcount := (putAll bits s).wcount, wbuf := (putAll bits s).wbuf, outPort := (putAll bits s).outPort
        bytesOut := (putAll bits s).bytesOut, outRoom := (putAll bits s).outRoom } := by
  induction bits generalizing s with
  | nil => rfl
  | cons b rest ih =>
    rw [putAll]
    have h : putAll rest (putOne b s) = _ := ih (putOne b s)
    generalize putAll rest (putOne b s) = t at h ⊢
    rw [h]
    simp only [putOne]
    split <;> rfl

/-- What putting bits keeps. -/
@[simp] theorem putAll_keeps (bits : List Bool) (s : State) :
    (putAll bits s).engine = s.engine ∧ (putAll bits s).cmd = s.cmd ∧
    (putAll bits s).done = s.done ∧ (putAll bits s).cmdDropped = s.cmdDropped ∧
    (putAll bits s).bfinalSeen = s.bfinalSeen ∧ (putAll bits s).fnameTrunc = s.fnameTrunc ∧
    (putAll bits s).errinfo = s.errinfo ∧ (putAll bits s).cfg = s.cfg ∧
    (putAll bits s).arg0 = s.arg0 ∧ (putAll bits s).arg1 = s.arg1 ∧ (putAll bits s).arg2 = s.arg2 ∧
    (putAll bits s).res0 = s.res0 ∧ (putAll bits s).res1 = s.res1 ∧
    (putAll bits s).crcState = s.crcState ∧ (putAll bits s).rawCount = s.rawCount ∧
    (putAll bits s).bytesIn = s.bytesIn ∧ (putAll bits s).outCommit = s.outCommit ∧
    (putAll bits s).rcount = s.rcount ∧ (putAll bits s).rbuf = s.rbuf ∧
    (putAll bits s).wcur = s.wcur ∧ (putAll bits s).wvalid = s.wvalid ∧
    (putAll bits s).gzFlg = s.gzFlg ∧ (putAll bits s).gzMtime = s.gzMtime ∧
    (putAll bits s).gzXfl = s.gzXfl ∧ (putAll bits s).gzOs = s.gzOs ∧
    (putAll bits s).gzFnameLen = s.gzFnameLen ∧ (putAll bits s).gzTrlCrc = s.gzTrlCrc ∧
    (putAll bits s).gzTrlIsize = s.gzTrlIsize ∧ (putAll bits s).tables = s.tables ∧
    (putAll bits s).tokens = s.tokens ∧ (putAll bits s).params = s.params ∧
    (putAll bits s).inPort = s.inPort ∧ (putAll bits s).inClosed = s.inClosed ∧
    (putAll bits s).held = s.held ∧ (putAll bits s).sawEnd = s.sawEnd ∧ (putAll bits s).draws = s.draws ∧
    (putAll bits s).hostRead = s.hostRead ∧ (putAll bits s).host = s.host := by
  rw [putAll_eq]
  and_intros <;> rfl

theorem wcount_succ {c : BitVec 3} (h : c ≠ 7) : (c + 1).toNat = c.toNat + 1 := by
  revert c; decide

theorem putOne_wcount (b : Bool) (s : State) : (putOne b s).wcount.toNat = (s.wcount.toNat + 1) % 8 := by
  unfold putOne
  split
  · rename_i h; simp [h]
  · rename_i h
    have := wcount_succ h
    have := (s.wcount + 1).isLt
    simp only
    omega

theorem putAll_wcount (bits : List Bool) (s : State) :
    (putAll bits s).wcount.toNat = (s.wcount.toNat + bits.length) % 8 := by
  induction bits generalizing s with
  | nil => have := s.wcount.isLt; simp only [putAll_nil, List.length_nil]; omega
  | cons b rest ih => rw [putAll, ih, putOne_wcount, List.length_cons]; omega

theorem Room.step {s : State} {n : Nat} {b : Bool} (h : Room s (n + 1)) :
    (s.wcount = 7 → hasRoom s 1) ∧ Room (putOne b s) n := by
  constructor
  · intro h7 k hk
    have := h k hk
    simp only [h7] at this
    simp at this
    omega
  · intro k hk
    have hw := putOne_wcount b s
    unfold putOne at hk
    split at hk
    · rename_i h7
      simp only [Option.map_eq_some_iff] at hk
      obtain ⟨r, hr, rfl⟩ := hk
      have := h r hr
      simp only [h7] at this hw
      simp at this hw
      rw [hw]
      omega
    · rename_i h7
      have := h k hk
      have h1 : s.wcount.toNat < 7 := by
        have := s.wcount.isLt
        have : s.wcount.toNat ≠ 7 := fun e => h7 (BitVec.eq_of_toNat_eq e)
        omega
      have : (s.wcount.toNat + 1) % 8 = s.wcount.toNat + 1 := Nat.mod_eq_of_lt (by omega)
      rw [hw, this]
      omega

theorem Room.of_none {s : State} {n : Nat} (h : s.outRoom = none) : Room s n := by
  intro k hk; rw [h] at hk; cases hk

theorem Room.mono {s : State} {m n : Nat} (h : Room s n) (hm : m ≤ n) : Room s m := by
  intro k hk
  have := h k hk
  omega

theorem Room.append {s : State} {n : Nat} (bits : List Bool) (h : Room s (bits.length + n)) :
    Room (putAll bits s) n := by
  induction bits generalizing s with
  | nil => simpa using h
  | cons b rest ih =>
    exact ih (Room.step (n := rest.length + n) (by
      have : (b :: rest).length + n = rest.length + n + 1 := by simp; omega
      rwa [this] at h)).2

theorem putBit_ok {s : State} {b : Bool} (h : s.wcount = 7 → hasRoom s 1) :
    putBit b s = .ok () (putOne b s) := by
  simp only [putBit, getState_bind, putOne]
  split
  · rename_i h7
    have hr := h h7
    simp only [bind_run, outWrite]
    cases hk : s.outRoom with
    | none => simp [change]
    | some k =>
      cases k with
      | zero => have := hr 0 hk; omega
      | succ k => simp [change]
  · rfl

theorem writeBits_ok {s : State} {v n : Nat} (h : Room s n) :
    writeBits v n s = .ok () (putAll (bitsOf n v) s) := by
  induction n generalizing s v with
  | zero => rfl
  | succ n ih =>
    obtain ⟨h1, h2⟩ := h.step
    rw [writeBits, bind_run, putBit_ok h1]
    rw [bitsOf_succ]
    exact ih h2

theorem writeBitsR_ok {s : State} {v n : Nat} (h : Room s n) :
    writeBitsR v n s = .ok () (putAll (bitsRev n v) s) := by
  induction n generalizing s with
  | zero => rfl
  | succ n ih =>
    obtain ⟨h1, h2⟩ := h.step
    rw [writeBitsR, bind_run, putBit_ok h1]
    rw [bitsRev_succ]
    exact ih h2

theorem putOnes_ok {s : State} {n : Nat} (h : Room s n) :
    putOnes n s = .ok () (putAll (List.replicate n true) s) := by
  induction n generalizing s with
  | zero => rfl
  | succ n ih =>
    obtain ⟨h1, h2⟩ := h.step
    rw [putOnes, bind_run, putBit_ok h1]
    exact ih h2

theorem flush_ok {s : State} (h : Room s (padBits s.wcount.toNat)) :
    flush s = .ok () (putAll (List.replicate (padBits s.wcount.toNat) true) s) := by
  have hp : (8 - s.wcount.toNat) % 8 = padBits s.wcount.toNat := by
    rw [padBits, Nat.mod_eq_of_lt s.wcount.isLt]
  rw [flush, getState_bind]
  simp only [hp]
  exact putOnes_ok h

theorem writeByte_ok {s : State} {v : Byte} (h : Room s 8) :
    writeByte v s = .ok () (putAll (bitsOf 8 v.toNat) s) := writeBits_ok h

theorem writeInt_ok {s : State} {v : Word} (h : Room s 32) :
    writeInt v s = .ok () (putAll (bitsOf 32 v.toNat) s) := writeBits_ok h

theorem writeBytes_ok {s : State} {l : List Byte} (h : Room s (8 * l.length)) :
    writeBytes l s = .ok () (putAll (streamBits l) s) := by
  induction l generalizing s with
  | nil => rfl
  | cons b rest ih =>
    have h8 : Room s 8 := h.mono (by simp only [List.length_cons]; omega)
    rw [writeBytes, bind_run, writeByte_ok h8, streamBits_cons, putAll_append]
    apply ih
    refine Room.append _ ?_
    have : (bitsOf 8 b.toNat).length + 8 * rest.length = 8 * (b :: rest).length := by
      simp only [bitsOf_length, List.length_cons]; omega
    rwa [this]

/-! ### Where the host accepts no more (00_scope.md R15) -/

/-- The host accepts `k` more bytes, and `n` more bits would fill more than those. -/
def Full (s : State) (n k : Nat) : Prop := s.outRoom = some k ∧ k < (s.wcount.toNat + n) / 8

/-- One bit of a write the host has no room for: the hold is here, or it comes after this bit. -/
theorem Full.step {s : State} {n k : Nat} (b : Bool) (h : Full s (n + 1) k) :
    (putBit b s = .error .hold s ∧ 8 * k + 7 - s.wcount.toNat = 0) ∨
      (putBit b s = .ok () (putOne b s) ∧ ∃ k', Full (putOne b s) n k' ∧
        8 * k + 7 - s.wcount.toNat = 8 * k' + 7 - (putOne b s).wcount.toNat + 1) := by
  obtain ⟨hk, hlt⟩ := h
  have hw := putOne_wcount b s
  have hs := s.wcount.isLt
  by_cases h7 : s.wcount = 7
  · have h8 : s.wcount.toNat = 7 := by rw [h7]; rfl
    cases k with
    | zero =>
      refine .inl ⟨?_, by omega⟩
      rw [putBit, getState_bind, if_pos h7, bind_run, outWrite, hk]
    | succ k =>
      refine .inr ⟨putBit_ok fun _ r hr => by rw [hk] at hr; cases hr; omega, k, ⟨?_, ?_⟩, ?_⟩
      · rw [putOne, if_pos h7]
        simp [hk]
      · omega
      · omega
  · have h8 : s.wcount.toNat ≠ 7 := fun e => h7 (BitVec.eq_of_toNat_eq e)
    refine .inr ⟨putBit_ok fun e => absurd e h7, k, ⟨?_, ?_⟩, ?_⟩
    · rw [putOne, if_neg h7]
      exact hk
    · omega
    · omega

theorem Full.pos {s : State} {k : Nat} : ¬ Full s 0 k := fun h => by
  have := s.wcount.isLt
  have := h.2
  omega

theorem writeBits_full {s : State} {v n k : Nat} (h : Full s n k) :
    writeBits v n s = .error .hold (putAll ((bitsOf n v).take (8 * k + 7 - s.wcount.toNat)) s) := by
  induction n generalizing s v k with
  | zero => exact absurd h Full.pos
  | succ n ih =>
    rcases h.step (v.testBit 0) with ⟨e, hm⟩ | ⟨e, k', h', hm⟩
    · rw [writeBits, bind_error e, hm]
      rfl
    · rw [writeBits, bind_ok e, ih h', hm, bitsOf_succ]
      rfl

theorem writeBitsR_full {s : State} {v n k : Nat} (h : Full s n k) :
    writeBitsR v n s = .error .hold (putAll ((bitsRev n v).take (8 * k + 7 - s.wcount.toNat)) s) := by
  induction n generalizing s k with
  | zero => exact absurd h Full.pos
  | succ n ih =>
    rcases h.step (v.testBit n) with ⟨e, hm⟩ | ⟨e, k', h', hm⟩
    · rw [writeBitsR, bind_error e, hm]
      rfl
    · rw [writeBitsR, bind_ok e, ih h', hm, bitsRev_succ]
      rfl

theorem putOnes_full {s : State} {n k : Nat} (h : Full s n k) :
    putOnes n s = .error .hold (putAll ((List.replicate n true).take (8 * k + 7 - s.wcount.toNat)) s) := by
  induction n generalizing s k with
  | zero => exact absurd h Full.pos
  | succ n ih =>
    rcases h.step true with ⟨e, hm⟩ | ⟨e, k', h', hm⟩
    · rw [putOnes, bind_error e, hm]
      rfl
    · rw [putOnes, bind_ok e, ih h', hm, List.replicate_succ]
      rfl

/-! ### What has reached the output -/

theorem pushBit_toNat {buf : Byte} {c : BitVec 3} (b : Bool) (h : buf >>> c.toNat = 0) :
    (pushBit buf c b).toNat = buf.toNat + bit b * 2 ^ c.toNat ∧ buf.toNat < 2 ^ c.toNat := by
  revert buf c b
  decide +kernel

theorem putOne_writerOk {s : State} (b : Bool) (h : WriterOk s.toEngine) : WriterOk (putOne b s).toEngine := by
  unfold putOne
  split
  · simp [WriterOk]
  · rename_i h7
    have hp := pushBit_toNat b h
    have hc := wcount_succ h7
    simp only [WriterOk]
    apply BitVec.eq_of_toNat_eq
    rw [BitVec.toNat_ushiftRight, Nat.shiftRight_eq_div_pow, hc]
    have : (pushBit s.wbuf s.wcount b).toNat < 2 ^ (s.wcount.toNat + 1) := by
      rw [hp.1, Nat.pow_succ]
      cases b <;> simp <;> omega
    simpa using Nat.div_eq_of_lt this

theorem putOne_stream {s : State} (b : Bool) (h : WriterOk s.toEngine) :
    streamBits (putOne b s).outPort ++ pendingBits (putOne b s)
      = streamBits s.outPort ++ pendingBits s ++ [b] := by
  have hp := pushBit_toNat b h
  have key : bitsOf (s.wcount.toNat + 1) (pushBit s.wbuf s.wcount b).toNat = pendingBits s ++ [b] := by
    rw [hp.1, bitsOf_pack hp.2, pendingBits]
    cases b <;> rfl
  unfold putOne
  split
  · rename_i h7
    have h8 : s.wcount.toNat + 1 = 8 := by rw [h7]; rfl
    rw [h8] at key
    simp only [pendingBits, streamBits_append, streamBits_cons, streamBits_nil, List.append_nil, key,
      List.append_assoc]
    simp
  · rename_i h7
    simp only [pendingBits] at key ⊢
    rw [wcount_succ h7, key, List.append_assoc]

theorem Wrote.refl {s : State} (h : WriterOk s.toEngine) : Wrote [] s s := by
  have := s.wcount.isLt
  have h0 : (s.wcount.toNat + ([] : List Bool).length) / 8 = 0 := by
    simp only [List.length_nil]; omega
  refine ⟨by simp, by rw [h0]; rfl, by rw [h0]; simp, ?_, ?_, h⟩
  · rw [h0]; cases hr : s.outRoom <;> simp [roomAfter, hr]
  · simp only [List.length_nil]; omega

/-- One write after another writes the bits of both. -/
theorem Wrote.trans {a b : List Bool} {s t u : State} (h1 : Wrote a s t) (h2 : Wrote b t u) :
    Wrote (a ++ b) s u := by
  have e : (s.wcount.toNat + (a ++ b).length) / 8
      = (s.wcount.toNat + a.length) / 8 + (t.wcount.toNat + b.length) / 8 := by
    rw [h1.pending.1, List.length_append]; omega
  refine ⟨?_, ?_, ?_, ?_, ?_, h2.pending.2⟩
  · rw [h2.stream, h1.stream]; simp
  · rw [h2.given, h1.given, e]; omega
  · rw [h2.count, h1.count, e, BitVec.ofNat_add, BitVec.add_assoc]
  · rw [h2.room, roomAfter, h1.room, e]
    cases hr : s.outRoom <;> simp [roomAfter, hr]
    omega
  · rw [h2.pending.1, h1.pending.1, List.length_append]; omega

theorem wrote_putOne {s : State} (b : Bool) (h : WriterOk s.toEngine) : Wrote [b] s (putOne b s) := by
  have hw := putOne_wcount b s
  have hs := s.wcount.isLt
  by_cases h7 : s.wcount = 7
  · have h8 : s.wcount.toNat = 7 := by rw [h7]; rfl
    refine ⟨putOne_stream b h, ?_, ?_, ?_, hw, putOne_writerOk b h⟩ <;> rw [h8] <;>
      (rw [putOne, if_pos h7]; simp [roomAfter])
  · have h8 : s.wcount.toNat ≠ 7 := fun e => h7 (BitVec.eq_of_toNat_eq e)
    have e : (s.wcount.toNat + [b].length) / 8 = 0 := by simp only [List.length_singleton]; omega
    refine ⟨putOne_stream b h, ?_, ?_, ?_, hw, putOne_writerOk b h⟩ <;> rw [e]
    · rw [putOne, if_neg h7]; rfl
    · rw [putOne, if_neg h7]; simp
    · rw [putOne, if_neg h7]; cases hr : s.outRoom <;> simp [roomAfter, hr]

/-- The relation of the statements holds of the function (41_bitio.md R160). -/
theorem wrote_putAll {s : State} (bits : List Bool) (h : WriterOk s.toEngine) : Wrote bits s (putAll bits s) := by
  induction bits generalizing s with
  | nil => exact .refl h
  | cons b rest ih => exact (wrote_putOne b h).trans (ih (putOne_writerOk b h))

end Sys2Proof.Machine
end

