-- ==== Sys2Proof/Laws/Encoder.lean ====
section
/-! SUPPORT. What the encoder writes for one chunk (45_deflate.md R261 to R269): where the host accepts without limit, a
block of the format that decodes to the chunk. -/

namespace Sys2Proof.Machine

/-! ### Pass 2 (45_deflate.md R264) -/

theorem putAll_outRoom {s : State} (bits : List Bool) (h : s.outRoom = none) : (putAll bits s).outRoom = none := by
  induction bits generalizing s with
  | nil => exact h
  | cons b bits ih =>
    refine ih ?_
    unfold putOne
    split
    · simp [h]
    · exact h

/-- The host accepts without limit; steps that write bits give the state with the bits put. -/
def Puts {α : Type} (x : Exec α) (a : α) (bits : List Bool) (s : State) : Prop := x s = .ok a (putAll bits s)

theorem Puts.bind {α β : Type} {x : Exec α} {f : α → Exec β} {a : α} {b : β} {l r : List Bool} {s : State}
    (h1 : Puts x a l s) (h2 : Puts (f a) b r (putAll l s)) : Puts (x >>= f) b (l ++ r) s := by
  rw [Puts, bind_ok h1, h2, putAll_append]

theorem puts_bits {s : State} (h : s.outRoom = none) (v n : Nat) : Puts (writeBits v n) () (bitsOf n v) s :=
  writeBits_ok (Room.of_none h)

theorem Puts.seq {β : Type} {x : Exec Unit} {f : Unit → Exec β} {b : β} {l r : List Bool} {s : State}
    (h1 : Puts x () l s) (h2 : Puts (f ()) b r (putAll l s)) : Puts (x >>= f) b (l ++ r) s := h1.bind h2

/-- A symbol's code (30_encoding.md R114). -/
theorem puts_code {a : Alphabet} {l : List Nat} {x : Nat} {s : State} (h : s.outRoom = none)
    (h1 : lensOf s.tables a = l) (h2 : codesOf s.tables a = hufCanon l) (hx : Coded l x) :
    Puts (writeCode a x) () (symBits l x) s := by
  have hxa : x < alphabetSize a := by
    have := hx.1
    rwa [← h1, lensOf_length] at this
  rw [Puts, writeCode, getState_bind, symBits, ← h2, ← h1, lensOf_getD hxa, codesOf_getD hxa]
  exact writeBitsR_ok (Room.of_none h)

theorem puts_token {ll d : List Nat} {t : Token} {s : State} (h : s.outRoom = none) (hc : HasCodes ll d s.tables)
    (hl : t.legal) (h1 : Coded ll t.symbol) (h2 : ∀ l k, t = .copy l k → Coded d (distSym k)) :
    TokenCoded ll d t (tokenBits ll d t) ∧ Puts (emitToken t) () (tokenBits ll d t) s := by
  cases t with
  | literal b => exact ⟨⟨h1, rfl⟩, puts_code h hc.1.1 hc.1.2 h1⟩
  | copy l k =>
    obtain ⟨⟨hl1, hl2⟩, hk1, hk2⟩ := hl
    obtain ⟨i, hi, e, hb, hx⟩ := lenSym_spec hl1 hl2
    obtain ⟨hj, hb', hy⟩ := distSym_spec hk1 hk2
    have h1' : Coded ll (257 + i) := by rw [← e]; exact h1
    have h2' := h2 l k rfl
    rw [emitToken]
    simp only [tokenBits, e, Nat.add_sub_cancel_left]
    refine ⟨⟨i, l - (lenRange i).base, distSym k, k - (distRange (distSym k)).base,
        ⟨hi, hx, by omega, h1'⟩, ⟨hj, hy, by omega, h2'⟩, rfl⟩, ?_⟩
    simp only [List.append_assoc]
    have k1 : ∀ b, (putAll b s).outRoom = none := fun b => putAll_outRoom b h
    refine (puts_code h hc.1.1 hc.1.2 h1').seq ((puts_bits (k1 _) _ _).seq (Puts.seq ?_ ?_))
    · rw [← putAll_append]
      exact puts_code (k1 _) (by simpa using hc.2.1) (by simpa using hc.2.2) h2'
    · rw [← putAll_append, ← putAll_append]
      exact puts_bits (k1 _) _ _

theorem tokensBits_cons (ll d : List Nat) (t : Token) (toks : List Token) :
    tokensBits ll d (t :: toks) = tokenBits ll d t ++ tokensBits ll d toks := by
  rw [tokensBits, List.flatMap_cons, List.append_assoc, tokensBits]

theorem puts_tokens {ll d : List Nat} {toks : List Token} {s : State} (h : s.outRoom = none)
    (hc : HasCodes ll d s.tables) (hl : ∀ t ∈ toks, t.legal) (h1 : ∀ t ∈ toks, Coded ll t.symbol)
    (h2 : ∀ l k, .copy l k ∈ toks → Coded d (distSym k)) (he : Coded ll 256) :
    TokensCoded ll d toks (tokensBits ll d toks) ∧
      Puts (do emitEach toks; writeCode .ll 256) () (tokensBits ll d toks) s := by
  induction toks generalizing s with
  | nil => exact ⟨⟨he, rfl⟩, puts_code h hc.1.1 hc.1.2 he⟩
  | cons t toks ih =>
    obtain ⟨ha, ea⟩ := puts_token h hc (hl t List.mem_cons_self) (h1 t List.mem_cons_self)
      (fun l k e => h2 l k (by rw [e]; exact List.mem_cons_self))
    obtain ⟨hb, eb⟩ := ih (s := putAll (tokenBits ll d t) s) (putAll_outRoom _ h) (by simpa using hc)
      (fun t ht => hl t (List.mem_cons_of_mem _ ht)) (fun t ht => h1 t (List.mem_cons_of_mem _ ht))
      (fun l k ht => h2 l k (List.mem_cons_of_mem _ ht))
    rw [tokensBits_cons]
    refine ⟨⟨_, _, ha, hb, rfl⟩, ?_⟩
    have := ea.bind (f := fun _ => do emitEach toks; writeCode .ll 256) eb
    rw [Puts] at this ⊢
    rw [← this, emitEach, bind_assoc_run]

theorem puts_emitTokens {ll d : List Nat} {toks : List Token} {s : State} (h : s.outRoom = none)
    (hc : HasCodes ll d s.tables) (ht : s.tokens = toks) (hl : ∀ t ∈ toks, t.legal) (h1 : ∀ t ∈ toks, Coded ll t.symbol)
    (h2 : ∀ l k, .copy l k ∈ toks → Coded d (distSym k)) (he : Coded ll 256) :
    TokensCoded ll d toks (tokensBits ll d toks) ∧ Puts emitTokens () (tokensBits ll d toks) s := by
  subst ht
  exact puts_tokens h hc hl h1 h2 he

theorem puts_header {s : State} (h : s.outRoom = none) (final : Bool) (btype : Nat) :
    Puts (writeBlockHeader final btype) () (bitsOf 1 (bit final) ++ bitsOf 2 btype) s :=
  (puts_bits h _ _).seq (puts_bits (putAll_outRoom _ h) _ _)

/-! ### Blocks -/

/-- What passes 1 and 2 write besides the bits. -/
def blockFields : List Field := tokenFields ++ buildFields

/-- The bits of a chunk coded as one block, and the state but for them. -/
structure CodedBlock (final : Bool) (btype : Nat) (h bytes : List Byte) (bits : List Bool) (s t : State) : Prop where
  block : BlockCoded s.wcount.toNat (winCap s) final btype bits h (h ++ bytes)
  bits : ChunkBits (lz77En s) (winCap s) s.wcount.toNat final btype h bytes bits
  tables : ChunkTables (lz77En s) (winCap s) btype h bytes t.tables
  stored : btype = 0 → t.tables = { s.tables with window := t.tables.window }
  fixed : btype = 1 → t.tables.freqCL = s.tables.freqCL ∧ t.tables.lenCL = s.tables.lenCL ∧
    t.tables.codeCL = s.tables.codeCL ∧ t.tables.packed = s.tables.packed
  packed : btype = 2 → ∀ k, (clPack ((lensOf t.tables .ll).take 286 ++ (lensOf t.tables .d).take 30)).length ≤ k →
    t.tables.packed.read k = s.tables.packed.read k
  window : Remembers t (h ++ bytes)

/-- Steps that code the chunk's bytes as one block. -/
def CodesBlock (x : Exec Unit) (final : Bool) (btype : Nat) (bytes : List Byte) (s : State) : Prop :=
  ∀ h, Remembers s h → ∃ t bits, x s = .ok () (putAll bits t) ∧ Frames blockFields s t ∧
    CodedBlock final btype h bytes bits s t

/-- The bits of a stored block written from `pos` bits past a byte boundary (45_deflate.md R266). -/
def storedBits (pos : Nat) (final : Bool) (bytes : List Byte) : List Bool :=
  (bitsOf 1 (bit final) ++ bitsOf 2 0) ++ (List.replicate (padBits (pos + 3)) true
    ++ (bitsOf 16 bytes.length ++ (bitsOf 16 (bytes.length ^^^ 0xFFFF) ++ streamBits bytes)))

theorem encodeStored_ok {n : Nat} {final : Bool} {s : State} (h0 : s.outRoom = none) :
    encodeStored n final s = .ok () (putAll (storedBits s.wcount.toNat final (chunkBytes s.tables 0 n))
      (winAddAll (chunkBytes s.tables 0 n) s)) := by
  have hf := winAddAll_frames (chunkBytes s.tables 0 n) s
  have hw : (winAddAll (chunkBytes s.tables 0 n) s).wcount = s.wcount := (hf .writer (by decide)).1
  have ho : (winAddAll (chunkBytes s.tables 0 n) s).outRoom = none := (hf .outRoom (by decide)).trans h0
  generalize ht : winAddAll (chunkBytes s.tables 0 n) s = t at *
  have k1 : ∀ b, (putAll b t).outRoom = none := fun b => putAll_outRoom b ho
  have e : Puts (do
      writeBlockHeader final 0
      flush
      writeBits n 16
      writeBits (n ^^^ 0xFFFF) 16
      writeBytes (chunkBytes s.tables 0 n)) () (storedBits s.wcount.toNat final (chunkBytes s.tables 0 n)) t := by
    rw [storedBits, chunkBytes_length]
    refine (puts_header ho _ _).seq (Puts.seq ?_ (Puts.seq ?_ (Puts.seq ?_ ?_)))
    · have hp : padBits (putAll (bitsOf 1 (bit final) ++ bitsOf 2 0) t).wcount.toNat = padBits (s.wcount.toNat + 3) := by
        rw [putAll_wcount, hw]
        simp [padBits]
      rw [← hp]
      exact flush_ok (Room.of_none (k1 _))
    · rw [← putAll_append]
      exact puts_bits (k1 _) _ _
    · rw [← putAll_append, ← putAll_append]
      exact puts_bits (k1 _) _ _
    · rw [← putAll_append, ← putAll_append, ← putAll_append]
      exact writeBytes_ok (Room.of_none (k1 _))
  rw [encodeStored, getState_bind]
  simp only [change_bind, ht]
  exact e

theorem codesBlock_stored {n : Nat} {final : Bool} {s : State} (h0 : s.outRoom = none) (hn : n ≤ 65535) :
    CodesBlock (encodeStored n final) final 0 (chunkBytes s.tables 0 n) s := by
  intro h hr
  have hlen := chunkBytes_length s.tables 0 n
  refine ⟨_, _, encodeStored_ok h0, (winAddAll_frames _ s).mono (by decide), ⟨⟨_, rfl, .inl ⟨rfl,
    List.replicate (padBits (s.wcount.toNat + 3)) true, chunkBytes s.tables 0 n, ?_, ?_, ?_, rfl⟩⟩,
    ⟨_, rfl, .inl ⟨rfl, ?_⟩⟩, fun h => absurd rfl h, fun _ => (winAddAll_keeps _ s).2.2, by simp, by simp,
    winAddAll_remembers _ hr⟩⟩
  · rw [List.length_replicate, padBits]
  · omega
  · simp only [List.append_assoc]
  · simp only [List.append_assoc]

theorem fixedLens_coded : (∀ x, x < 286 → 0 < fixedLensLL.getD x 0) ∧ (∀ x, x < 30 → 0 < fixedLensD.getD x 0) := by
  decide +kernel

theorem fixed_prefixFree : PrefixFree fixedLensLL ∧ PrefixFree fixedLensD :=
  ⟨prefixFree_of_kraft (by decide +kernel) (by decide +kernel), prefixFree_of_kraft (by decide +kernel) (by decide +kernel)⟩

theorem Remembers.of_frames {F : List Field} {s t : State} {h : List Byte} (hr : Remembers s h) (hf : Frames F s t)
    (h1 : Field.cfg ∉ F) (h2 : Field.winCursor ∉ F) (h3 : Field.table .window ∉ F) : Remembers t h :=
  hr.congr (hf .cfg h1) (hf .winCursor h2).1 (hf .winCursor h2).2 (hf (.table .window) h3)

theorem codesBlock_fixed {n : Nat} {final : Bool} {s : State} (h0 : s.outRoom = none) (hn : n ≤ 65535) :
    CodesBlock (encodeFixed n final) final 1 (chunkBytes s.tables 0 n) s := by
  intro h hr
  have hp := tokenize_pass1 hr hn
  have hf1 := tokenize_frames n s
  have hf2 := fixedTables_frames (tokenize n s)
  generalize ht : tokenize n s = t1 at *
  have hf : Frames blockFields s { t1 with tables := fixedTables t1.tables } :=
    (hf1.mono (by decide)).trans (hf2.mono (by decide))
  have ho : t1.outRoom = none := (hf1 .outRoom (by decide)).trans h0
  have hc := fixedTables_codes t1.tables
  have e1 := puts_header (s := { t1 with tables := fixedTables t1.tables }) ho final 1
  obtain ⟨hb, e2⟩ := puts_emitTokens (ll := fixedLensLL) (d := fixedLensD) (toks := t1.tokens)
    (s := putAll (bitsOf 1 (bit final) ++ bitsOf 2 1) { t1 with tables := fixedTables t1.tables })
    (putAll_outRoom _ ho) (by simpa using hc) (by simp) hp.legal
    (fun t ht => fixed_prefixFree.1 _ (by
      have := Token.symbol_lt (hp.legal t ht)
      have e : fixedLensLL.length = 288 := by simp [fixedLensLL]
      omega) (fixedLens_coded.1 _ (Token.symbol_lt (hp.legal t ht))))
    (fun l k ht => by
      obtain ⟨-, hk1, hk2⟩ := hp.legal _ ht
      have := (distSym_spec hk1 hk2).1
      have e : fixedLensD.length = 32 := by simp [fixedLensD]
      exact fixed_prefixFree.2 _ (by omega) (fixedLens_coded.2 _ this))
    (fixed_prefixFree.1 _ (by simp [fixedLensLL, Config.llSize]) (fixedLens_coded.1 _ (by omega)))
  have hk : ∀ f ∉ tokenFields ++ [.table .lenLL, .table .lenD, .table .codeLL, .table .codeD],
      kept s { t1 with tables := fixedTables t1.tables } f :=
    (hf1.mono (by decide)).trans (hf2.mono (by decide))
  refine ⟨{ t1 with tables := fixedTables t1.tables }, _, ?_, hf, ⟨⟨_, rfl, .inr (.inl ⟨rfl, _, hb, hp.onto⟩)⟩,
    ⟨_, rfl, .inr ⟨_, hp.parsed, .inl ⟨rfl, rfl⟩⟩⟩,
    fun _ => ⟨_, hp.parsed, hp.countsLL, hp.countsD, fun _ => hc, by simp⟩, by simp,
    fun _ => ⟨hk (.table .freqCL) (by decide), hk (.table .lenCL) (by decide), hk (.table .codeCL) (by decide),
      hk (.table .packed) (by decide)⟩, by simp, hp.window.of_frames hf2 (by decide) (by decide) (by decide)⟩⟩
  rw [encodeFixed, change_bind, ht, changeTables, change_bind]
  exact e1.bind (f := fun _ => emitTokens) e2

/-! ### Dynamic tables (45_deflate.md R262, R263) -/

theorem freqsOf_getD {t : Tables} {a : Alphabet} {k : Nat} (h : k < alphabetSize a) :
    (freqsOf t a).getD k 0 = match a with
      | .ll => (t.freqLL.read k).toNat
      | .d => (t.freqD.read k).toNat
      | .cl => (t.freqCL.read k).toNat := by
  cases a <;> exact getD_toList _ _ _ h _

theorem buildCodes_ok {a : Alphabet} {limit : Nat} {s : State} (h1 : 1 ≤ limit) (h2 : limit ≤ 15)
    (h : alphabetSize a ≤ 2 ^ (limit - 1)) :
    ∃ lens, Built (freqsOf s.tables a) limit lens ∧ hufBuild (freqsOf s.tables a) limit = .ok lens ∧
      buildCodes a limit s = .ok () { s with tables := canonTables a (setLens s.tables a lens) } := by
  have hf : 2 ≤ (freqsOf s.tables a).length := by rw [freqsOf_length]; cases a <;> decide
  have hle := hufLeaves_le hf
  rw [freqsOf_length] at hle
  obtain ⟨t, ht, -⟩ := hufBuild_ok hf h1 (hle.trans h)
  refine ⟨_, hufBuild_built hf h1 h2 ht, ht, ?_⟩
  rw [buildCodes, bind_run, buildLens, ht]
  rfl

/-- FREQ_CL after packing (44_huffman.md R234). -/
theorem packTables_freqs {nll nd : Nat} {t : Tables} {p : List (Nat × Nat)}
    (hp : p = clPack ((lensOf t .ll).take nll ++ (lensOf t .d).take nd)) (hl : p.length ≤ 320) :
    freqsOf (packTables nll nd t).1 .cl = countsCL p := by
  subst hp
  refine counts_eq fun k hk => ?_
  have e : ∀ l : List (Nat × Nat), (l.filter (fun x => x.1 = k)).length = (l.map Prod.fst).count k := fun l => by
    rw [List.count, List.countP_map, List.countP_eq_length_filter]
    congr 2
  have hle := (List.length_filter_le (fun x => decide (x.1 = k)) (clPack ((lensOf t .ll).take nll ++ (lensOf t .d).take nd))).trans hl
  simp only [packTables, read_ofList]
  rw [List.getD_eq_getElem?_getD, List.getElem?_map, List.getElem?_map, List.getElem?_range (show k < Config.clSize from hk)]
  simp only [Option.map_some, Option.getD_some, BitVec.toNat_ofNat]
  rw [Nat.mod_eq_of_lt (by omega)]
  exact e _

theorem toList_writeList {w : Nat} (l : List (BitVec w)) (m : Memory w) : (m.writeList 0 l).toList l.length = l := by
  apply List.ext_getElem (by simp)
  intro k h1 h2
  have := read_writeList l m (k := 0) h2
  rw [Nat.zero_add] at this
  simp only [Memory.toList, List.getElem_map, List.getElem_range, this]
  simp [List.getD_eq_getElem?_getD, List.getElem?_eq_getElem h2]

/-- The tables a dynamic block is coded with. -/
structure Dynamic (t : Tables) (ll d cl : List Nat) (p : List (Nat × Nat)) : Prop where
  codes : HasCodes ll d t
  clCodes : lensOf t .cl = cl ∧ codesOf t .cl = hufCanon cl
  packed : t.packed.toList p.length = p.map packedEntry
  counts : freqsOf t .cl = countsCL p

/-- BuildDynamic (45_deflate.md R262). -/
theorem buildDynamic_ok (s : State) : ∃ ll d cl p t, buildDynamic s = .ok p.length { s with tables := t } ∧
    Dynamic t ll d cl p ∧ Built (freqsOf s.tables .ll) 15 ll ∧ Built (freqsOf s.tables .d) 15 d ∧
    Built (countsCL p) 7 cl ∧ (∀ toks, freqsOf s.tables .ll = countsLL toks → freqsOf s.tables .d = countsD toks →
      DynamicCodes toks ll d cl p) ∧ (∀ x ∈ p, Coded cl x.1) ∧
    ∀ k, p.length ≤ k → t.packed.read k = s.tables.packed.read k := by
  obtain ⟨ll, b1, u1, e1⟩ := buildCodes_ok (a := .ll) (limit := 15) (s := s) (by omega) (by omega) (by decide)
  generalize ht1 : canonTables .ll (setLens s.tables .ll ll) = t1 at e1
  obtain ⟨d, b2, u2, e2⟩ := buildCodes_ok (a := .d) (limit := 15) (s := { s with tables := t1 }) (by omega) (by omega)
    (by decide)
  have hfd : freqsOf t1 .d = freqsOf s.tables .d := by rw [← ht1]; rfl
  simp only [hfd] at b2 u2
  have hpk1 : t1.packed = s.tables.packed := by rw [← ht1]; rfl
  generalize ht2 : canonTables .d (setLens t1 .d d) = t2 at e2
  have l1 : ll.length = 288 := by rw [b1.length, freqsOf_length]; rfl
  have l2 : d.length = 32 := by rw [b2.length, freqsOf_length]; rfl
  have hll : lensOf t2 .ll = ll := by
    rw [← ht2, lensOf_canonTables, lensOf_setLens_of_ne (by decide), ← ht1, lensOf_canonTables,
      lensOf_setLens (by rw [l1]; rfl) b1.bounded]
  have hd : lensOf t2 .d = d := by
    rw [← ht2, lensOf_canonTables, lensOf_setLens (by rw [l2]; rfl) b2.bounded]
  have hcll : codesOf t2 .ll = hufCanon ll := by
    rw [← ht2, codesOf_canonTables_of_ne (by decide), codesOf_setLens, ← ht1, codesOf_canonTables,
      lensOf_setLens (by rw [l1]; rfl) b1.bounded]
  have hcd : codesOf t2 .d = hufCanon d := by
    rw [← ht2, codesOf_canonTables, lensOf_setLens (by rw [l2]; rfl) b2.bounded]
  have hseq : ∀ l ∈ ll.take 286 ++ d.take 30, l ≤ 15 := by
    intro l hl
    rcases List.mem_append.1 hl with hl | hl
    · exact b1.bounded l (List.mem_of_mem_take hl)
    · exact b2.bounded l (List.mem_of_mem_take hl)
  have hpk := clPack_packs hseq []
  generalize hp : clPack (ll.take 286 ++ d.take 30) = p at hpk
  have hp' : p = clPack ((lensOf t2 .ll).take 286 ++ (lensOf t2 .d).take 30) := by rw [hll, hd, hp]
  have hpl : p.length ≤ 316 := by
    have := hpk.short
    simp only [List.length_append, List.length_take] at this
    omega
  have e3 : packTables 286 30 t2 = ((packTables 286 30 t2).1, p.length) := by rw [hp']; rfl
  have hcount := packTables_freqs hp' (by omega)
  have hpk2 : t2.packed = s.tables.packed := by rw [← hpk1, ← ht2]; rfl
  have hpacked : (packTables 286 30 t2).1.packed = t2.packed.writeList 0 (p.map packedEntry) := by rw [hp']; rfl
  have hk1 : ∀ a, lensOf (packTables 286 30 t2).1 a = lensOf t2 a := fun a => by cases a <;> rfl
  have hk2 : ∀ a, codesOf (packTables 286 30 t2).1 a = codesOf t2 a := fun a => by cases a <;> rfl
  generalize ht3 : (packTables 286 30 t2).1 = t3 at *
  obtain ⟨cl, b3, u3, e4⟩ := buildCodes_ok (a := .cl) (limit := 7) (s := { s with tables := t3 }) (by omega) (by omega)
    (by decide)
  have l3 : cl.length = 19 := by rw [b3.length, freqsOf_length]; rfl
  simp only [hcount] at b3 u3
  have hb15 : ∀ l ∈ cl, l ≤ 15 := fun l hl => (b3.bounded l hl).trans (by omega)
  refine ⟨ll, d, cl, p, canonTables .cl (setLens t3 .cl cl), ?_, ⟨⟨⟨?_, ?_⟩, ?_, ?_⟩, ⟨?_, ?_⟩, ?_, ?_⟩, b1, b2, b3,
    fun toks h1 h2 => ⟨h1 ▸ u1, h2 ▸ u2, hp.symm, u3⟩, fun x hx => ?_, fun k hk => ?_⟩
  · rw [buildDynamic, bind_ok e1, bind_ok e2, getState_bind]
    simp only [e3]
    rw [changeTables, change_bind, bind_ok e4]
    rfl
  · rw [lensOf_canonTables, lensOf_setLens_of_ne (by decide), hk1, hll]
  · rw [codesOf_canonTables_of_ne (by decide), codesOf_setLens, hk2, hcll]
  · rw [lensOf_canonTables, lensOf_setLens_of_ne (by decide), hk1, hd]
  · rw [codesOf_canonTables_of_ne (by decide), codesOf_setLens, hk2, hcd]
  · rw [lensOf_canonTables, lensOf_setLens (by rw [l3]; rfl) hb15]
  · rw [codesOf_canonTables, lensOf_setLens (by rw [l3]; rfl) hb15]
  · show t3.packed.toList p.length = _
    rw [hpacked]
    have := toList_writeList (p.map packedEntry) t2.packed
    rwa [List.length_map] at this
  · exact hcount
  · have hx19 := (hpk.legal x hx).1
    refine b3.free _ (by omega) (b3.used _ ?_)
    rw [countsCL, countsOf_getD hx19, List.count_pos_iff]
    exact List.mem_map_of_mem hx
  · show t3.packed.read k = _
    rw [hpacked, hpk2]
    exact read_writeList_other _ _ (.inr (by simpa using hk))

theorem puts_metaLens {cl l : List Nat} {s : State} (h : s.outRoom = none) (hcl : lensOf s.tables .cl = cl)
    (hl : ∀ k ∈ l, k < 19) :
    Puts (writeMetaLens l) () (l.flatMap (fun k => bitsOf 3 (cl.getD k 0))) s := by
  induction l generalizing s with
  | nil => rfl
  | cons k l ih =>
    have hk : lenAt s.tables .cl k = cl.getD k 0 := by
      rw [← hcl, lensOf_getD (show k < alphabetSize .cl from hl k List.mem_cons_self)]
    rw [List.flatMap_cons, writeMetaLens]
    have e : Puts (writeBits (lenAt s.tables .cl k) 3) () (bitsOf 3 (cl.getD k 0)) s := by
      rw [hk]
      exact puts_bits h _ _
    have := e.seq (f := fun _ => writeMetaLens l)
      (ih (putAll_outRoom _ h) (by simpa using hcl) fun x hx => hl x (List.mem_cons_of_mem _ hx))
    exact this

theorem puts_packed {cl : List Nat} {p : List (Nat × Nat)} {s : State} (h : s.outRoom = none)
    (hcl : lensOf s.tables .cl = cl) (hcc : codesOf s.tables .cl = hufCanon cl)
    (hp : ∀ x ∈ p, (x.1 < 19 ∧ x.2 < 2 ^ extraBits x.1) ∧ Coded cl x.1) :
    Puts (writePacked (p.map packedEntry)) ()
      (p.flatMap (fun x => symBits cl x.1 ++ bitsOf (extraBits x.1) x.2)) s := by
  induction p generalizing s with
  | nil => rfl
  | cons x p ih =>
    obtain ⟨hx1, hx2⟩ := hp x List.mem_cons_self
    obtain ⟨e1, e2⟩ := packedEntry_fields hx1
    rw [List.flatMap_cons, List.map_cons, writePacked, e1, e2, List.append_assoc]
    refine (puts_code h hcl hcc hx2).seq (Puts.seq (puts_bits (putAll_outRoom _ h) _ _) ?_)
    rw [← putAll_append]
    exact ih (putAll_outRoom _ h) (by simpa using hcl) (by simpa using hcc) fun y hy => hp y (List.mem_cons_of_mem _ hy)

theorem clOrder_covers : ∀ k, k < 19 → k ∈ clOrder := by decide

theorem take_getD {l : List Nat} {n k : Nat} (h : k < n) : (l.take n).getD k 0 = l.getD k 0 := by
  simp [List.getD_eq_getElem?_getD, h]

theorem codesBlock_dynamic {n : Nat} {final : Bool} {s : State} (h0 : s.outRoom = none) (hn : n ≤ 65535) :
    CodesBlock (encodeDynamic n final) final 2 (chunkBytes s.tables 0 n) s := by
  intro h hr
  have hp := tokenize_pass1 hr hn
  have hf1 := tokenize_frames n s
  generalize ht : tokenize n s = t1 at *
  obtain ⟨ll, d, cl, p, T, e1, hD, b1, b2, b3, hdyn, hcoded, hpast⟩ := buildDynamic_ok t1
  have hdyn := hdyn _ hp.countsLL hp.countsD
  have hpk := hdyn.pack
  rw [hp.countsLL] at b1
  rw [hp.countsD] at b2
  have l3 : cl.length = 19 := by rw [b3.length]; rfl
  have hf2 := (buildDynamic_frames (F := buildFields) (fun f hf => hf) t1).ok (Frames.refl _ _) e1
  have hf : Frames blockFields s { t1 with tables := T } := (hf1.mono (by decide)).trans (hf2.mono (by decide))
  have ho : t1.outRoom = none := (hf1 .outRoom (by decide)).trans h0
  have l1 : ll.length = 288 := by rw [b1.length]; simp [countsLL, countsOf, Config.llSize]
  have l2 : d.length = 32 := by rw [b2.length]; simp [countsD, countsOf, Config.dSize]
  have hseq : ∀ l ∈ ll.take 286 ++ d.take 30, l ≤ 15 := by
    intro l hl
    rcases List.mem_append.1 hl with hl | hl
    · exact b1.bounded l (List.mem_of_mem_take hl)
    · exact b2.bounded l (List.mem_of_mem_take hl)
  have hpacks := clPack_packs hseq []
  rw [← hpk] at hpacks
  have hll : ∀ k, 0 < (countsLL t1.tokens).getD k 0 → Coded ll k := by
    intro k hk
    have hk288 : k < 286 := by
      by_contra hge
      rw [countsLL_none hp.legal (by omega)] at hk
      exact absurd hk (by omega)
    exact b1.free k (by omega) (b1.used k hk)
  have hd : ∀ k, 0 < (countsD t1.tokens).getD k 0 → Coded d k := by
    intro k hk
    have hk32 : k < 30 := by
      by_contra hge
      rw [countsD_none hp.legal (by omega)] at hk
      exact absurd hk (by omega)
    exact b2.free k (by omega) (b2.used k hk)
  have k1 : ∀ b, (putAll b { t1 with tables := T }).outRoom = none := fun b => putAll_outRoom b ho
  have k2 : ∀ b, (putAll b { t1 with tables := T }).tables = T := fun b => by simp
  have k3 : ∀ b, (putAll b { t1 with tables := T }).tokens = t1.tokens := fun b => by simp
  -- the header
  have eh : Puts (writeDynamicHeader final p.length) () ((bitsOf 1 (bit final) ++ bitsOf 2 2) ++ dynamicHeader cl p)
      { t1 with tables := T } := by
    simp only [dynamicHeader, List.append_assoc (bitsOf 5 29), List.append_assoc (bitsOf 4 15)]
    refine (puts_header (s := { t1 with tables := T }) ho final 2).seq
      (Puts.seq ?_ (Puts.seq ?_ (Puts.seq ?_ (Puts.seq ?_ ?_))))
    · exact puts_bits (k1 _) _ _
    · rw [← putAll_append]
      exact puts_bits (k1 _) _ _
    · rw [← putAll_append, ← putAll_append]
      exact puts_bits (k1 _) _ _
    · rw [← putAll_append, ← putAll_append, ← putAll_append]
      exact puts_metaLens (k1 _) (by rw [k2]; exact hD.clCodes.1) clOrder_lt
    · rw [← putAll_append, ← putAll_append, ← putAll_append, ← putAll_append, Puts, getState_bind, k2, hD.packed]
      exact puts_packed (k1 _) (by rw [k2]; exact hD.clCodes.1) (by rw [k2]; exact hD.clCodes.2)
        fun x hx => ⟨hpacks.legal x hx, hcoded x hx⟩
  -- the symbols
  obtain ⟨hb, es⟩ := puts_emitTokens (ll := ll) (d := d) (toks := t1.tokens)
    (s := putAll ((bitsOf 1 (bit final) ++ bitsOf 2 2) ++ dynamicHeader cl p) { t1 with tables := T })
    (k1 _) (by rw [k2]; exact hD.codes) (k3 _) hp.legal
    (fun t ht => hll _ (countsLL_used.1 t ht (hp.legal t ht)))
    (fun l k ht => hd _ (countsD_used ht (hp.legal _ ht))) (hll 256 countsLL_used.2)
  have e := eh.seq (f := fun _ => emitTokens) es
  rw [List.append_assoc] at e
  refine ⟨{ t1 with tables := T }, _, ?_, hf, ⟨⟨_, rfl, .inr (.inr ⟨rfl, ll, d, dynamicHeader cl p, _, t1.tokens, ⟨cl, ?_⟩, hb,
      rfl, hp.onto⟩)⟩, ⟨_, rfl, .inr ⟨_, hp.parsed, .inr ⟨rfl, ll, d, cl, p, hdyn, rfl⟩⟩⟩, fun _ => ⟨_, hp.parsed, ?_, ?_,
      by simp, fun _ => ⟨ll, d, cl, p, hdyn, hD.codes, hD.clCodes, hD.counts, hD.packed⟩⟩, by simp, by simp,
    fun _ k hk => ?_, hp.window.of_frames hf2 (by decide) (by decide) (by decide)⟩⟩
  · rw [encodeDynamic, change_bind, ht, bind_ok e1]
    exact e
  · have hsplit : (ll.take 286).length = 286 := by rw [List.length_take]; omega
    refine ⟨29, 29, 15, p, ll.take 286 ++ d.take 30, by omega, ⟨l3, fun k => ?_, fun k hk => ?_⟩,
      fun x hx => ⟨(hpacks.legal x hx).1, (hpacks.legal x hx).2, hcoded x hx⟩, ⟨?_, ?_⟩, ?_, ?_, rfl⟩
    · rw [List.getD_eq_getElem?_getD]
      cases hk : cl[k]? with
      | none => simp
      | some v =>
        have := b3.bounded v (List.mem_of_getElem? hk)
        simp only [Option.getD_some]
        omega
    · have : 19 ≤ k := by
        by_contra hlt
        exact hk (clOrder_covers k (by omega))
      rw [List.getD_eq_getElem?_getD, List.getElem?_eq_none (by omega)]
      rfl
    · have := hpacks.expands 316 (by simp only [List.length_append, List.length_take, List.length_nil]; omega)
      simpa using this
    · simp only [List.length_append, List.length_take]
      omega
    · apply list_ext_getD (by simp [l1])
      intro k hk
      rw [l1] at hk
      rw [List.getD_eq_getElem?_getD (l := List.map _ _), List.getElem?_map, List.getElem?_range hk]
      simp only [Option.map_some, Option.getD_some]
      split
      · rw [List.getD_eq_getElem?_getD (l := _ ++ _), List.getElem?_append_left (by omega),
          ← List.getD_eq_getElem?_getD, take_getD (by omega)]
      · exact b1.padding k (by omega) (countsLL_none hp.legal (by omega))
    · apply list_ext_getD (by simp [l2])
      intro k hk
      rw [l2] at hk
      rw [List.getD_eq_getElem?_getD (l := List.map _ _), List.getElem?_map, List.getElem?_range hk]
      simp only [Option.map_some, Option.getD_some]
      split
      · rw [List.getD_eq_getElem?_getD (l := _ ++ _), List.getElem?_append_right (by omega), hsplit,
          show 29 + 257 + k - 286 = k by omega, ← List.getD_eq_getElem?_getD, take_getD (by omega)]
      · exact b2.padding k (by omega) (countsD_none hp.legal (by omega))
  · have : T.freqLL = t1.tables.freqLL := hf2 (.table .freqLL) (by decide)
    rw [← hp.countsLL]
    simp only [freqsOf, this]
  · have : T.freqD = t1.tables.freqD := hf2 (.table .freqD) (by decide)
    rw [← hp.countsD]
    simp only [freqsOf, this]
  · have : t1.tables.packed = s.tables.packed := hf1 (.table .packed) (by decide)
    simp only [hD.codes.1.1, hD.codes.2.1, ← hpk] at hk
    rw [hpast k hk, this]

/-! ### Chunks (45_deflate.md R269) -/

theorem crcAll_eq (l : List Byte) (s : State) : crcAll l s = { s with crcState := crcOf s.crcState l } := by
  induction l generalizing s with
  | nil => rfl
  | cons b l ih =>
    rw [crcAll, ih]
    rfl

/-- What coding a chunk writes besides the bits. -/
def codeFields : List Field := .crcState :: .rawCount :: blockFields

/-- EncChunk, where the host accepts without limit: one block of the selected type that codes the chunk. -/
theorem encChunk_ok {n : Nat} {final : Bool} {h : List Byte} {s : State} (h0 : s.outRoom = none) (hn : n ≤ 65535)
    (hb : btypeSel s ≠ 3) (hr : Remembers s h) :
    ∃ t bits, encChunk n final s = .ok () (putAll bits t) ∧ Frames codeFields s t ∧
      CodedBlock final (btypeSel s) h (chunkBytes s.tables 0 n) bits s t ∧
      t.crcState = crcOf s.crcState (chunkBytes s.tables 0 n) ∧ t.rawCount = s.rawCount + BitVec.ofNat 32 n := by
  have hbt : btypeSel s < 4 := (s.cfg.extractLsb' 0 2).isLt
  have hf0 := frames_count (chunkBytes s.tables 0 n) (s.rawCount + BitVec.ofNat 32 n) s
  rw [crcAll_eq] at hf0
  have key : ∀ u : State, u.outRoom = none → u.tables = s.tables →
      CodesBlock (if btypeSel s = 0 then encodeStored n final else if btypeSel s = 1 then encodeFixed n final
        else encodeDynamic n final) final (btypeSel s) (chunkBytes s.tables 0 n) u := by
    intro u hu0 hut
    rw [← hut]
    by_cases e0 : btypeSel s = 0
    · rw [if_pos e0, e0]
      exact codesBlock_stored hu0 hn
    · rw [if_neg e0]
      by_cases e1 : btypeSel s = 1
      · rw [if_pos e1, e1]
        exact codesBlock_fixed hu0 hn
      · rw [if_neg e1, show btypeSel s = 2 by omega]
        exact codesBlock_dynamic hu0 hn
  obtain ⟨t, bits, e, hf, hc⟩ := key { s with
      crcState := crcOf s.crcState (chunkBytes s.tables 0 n), rawCount := s.rawCount + BitVec.ofNat 32 n }
    h0 rfl h (hr.congr rfl rfl rfl rfl)
  refine ⟨t, bits, ?_, (hf0.mono (by decide)).trans (hf.mono (by decide)),
    ⟨hc.block, hc.bits, hc.tables, hc.stored, hc.fixed, hc.packed, hc.window⟩, hf .crcState (by decide),
    hf .rawCount (by decide)⟩
  rw [encChunk, getState_bind]
  simp only [change_bind, crcAll_eq]
  exact e

end Sys2Proof.Machine
end

