-- ==== Sys2Proof/Laws/Streams.lean ====
section
/-! SUPPORT. Whole streams (45_deflate.md R271, R272): what DEF_ENC_STREAM writes is a stream of the format that decodes to
its input, and a decoder with a larger window decodes it too. -/

namespace Sys2Proof.Machine

/-! ### Filling a chunk -/

/-- What filling a chunk writes. -/
def chunkInFields : List Field := [.inPort, .bytesIn, .table .chunk, .sawEnd]

/-- `InAtEnd` on a closed port: whether it is empty; only the note of it changes. -/
theorem inAtEnd_ok {s : State} (hc : s.inClosed = true) :
    ∃ t, inAtEnd s = .ok s.inPort.isEmpty t ∧ Frames [.sawEnd] s t := by
  cases hp : s.inPort with
  | nil => exact ⟨{ s with sawEnd := true }, by simp [inAtEnd, hp, hc], frames_sawEnd _ _⟩
  | cons b rest => exact ⟨s, by simp [inAtEnd, hp], Frames.refl _ _⟩

theorem fillChunk_ok {room n : Nat} {s : State} (hc : s.inClosed = true) :
    ∃ t, fillChunk room n s = .ok (n + min room s.inPort.length) t ∧ Frames chunkInFields s t ∧
      t.inPort = s.inPort.drop room ∧ t.bytesIn = s.bytesIn + BitVec.ofNat 64 (min room s.inPort.length) ∧
      chunkBytes t.tables 0 (n + min room s.inPort.length) = chunkBytes s.tables 0 n ++ s.inPort.take room := by
  induction room generalizing n s with
  | zero => exact ⟨s, by simp [fillChunk], Frames.refl _ _, by simp, by simp, by simp⟩
  | succ room ih =>
    cases hp : s.inPort with
    | nil =>
      refine ⟨{ s with sawEnd := true }, ?_, (frames_sawEnd _ _).mono (by decide), by simp [hp], by simp, by simp⟩
      rw [fillChunk, bind_run, inAtEnd, hp]
      simp [hc]
    | cons b rest =>
      obtain ⟨t, e, hf, h1, h2, h3⟩ := ih (n := n + 1)
        (s := { s with
          inPort := rest, bytesIn := s.bytesIn + 1
          tables := { s.tables with chunk := s.tables.chunk.write n b } }) hc
      have hk : n + 1 + min room rest.length = n + min (room + 1) (b :: rest).length := by
        rw [List.length_cons]
        omega
      refine ⟨t, ?_, ?_, ?_, ?_, ?_⟩
      · rw [← hk, ← e, fillChunk, bind_run, inAtEnd, hp]
        simp only
        rw [if_neg (by simp), bind_run, inRead, hp]
        rfl
      · refine Frames.trans ?_ hf
        exact ((frames_take rest s).mono (by decide)).trans
          ((frames_chunk (s.tables.chunk.write n b) { s with inPort := rest, bytesIn := s.bytesIn + 1 }).mono (by decide))
      · rw [h1]
        rfl
      · rw [h2, List.length_cons, BitVec.add_assoc]
        congr 1
        rw [Nat.add_min_add_right, Nat.add_comm, BitVec.ofNat_add]
        rfl
      · rw [← hk, h3]
        have : chunkBytes { s.tables with chunk := s.tables.chunk.write n b } 0 (n + 1) = chunkBytes s.tables 0 n ++ [b] := by
          rw [chunkBytes_add]
          congr 1
          · simp only [chunkBytes]
            apply List.map_congr_left
            intro k hk
            rw [List.mem_range'] at hk
            exact read_write_other _ _ (by omega)
          · simp [chunkBytes, read_write_same]
        simp only [this, List.take_succ_cons, List.append_assoc, List.singleton_append]

/-! ### Chunks -/

/-- What coding a stream writes, whatever the block type. -/
def encodeAllFields : List Field := chunkInFields ++ (codeFields ++ writerFields)

theorem frames_putAll (bits : List Bool) (s : State) : Frames writerFields s (putAll bits s) := by
  intro f hf
  rw [putAll_eq]
  cases f with
  | table t => cases t <;> first | rfl | trivial
  | _ => first | rfl | exact ⟨rfl, rfl⟩ | exact ⟨rfl, rfl, rfl, rfl, rfl⟩ | exact absurd (by decide) hf

theorem chunkCount_last {c n : Nat} (hc : 1 ≤ c) (h : n ≤ c) : chunkCount c n = 1 := by
  unfold chunkCount
  have : (n + c - 1) / c ≤ 1 := by
    rw [Nat.div_le_iff_le_mul_add_pred (by omega)]
    omega
  omega

theorem chunkCount_more {c n : Nat} (hc : 1 ≤ c) (h : c < n) : chunkCount c n = chunkCount c (n - c) + 1 := by
  unfold chunkCount
  have e : (n + c - 1) / c = (n - c + c - 1) / c + 1 := by
    rw [show n + c - 1 = (n - c + c - 1) + c by omega, Nat.add_div_right _ (by omega)]
  have : 1 ≤ (n - c + c - 1) / c := by
    rw [Nat.one_le_div_iff (by omega)]
    omega
  omega

theorem lastChunk_last {c n : Nat} (hc : 1 ≤ c) (h : n ≤ c) : lastChunk c n = 0 := by
  rw [lastChunk, chunkCount_last hc h, Nat.sub_self, Nat.zero_mul]

theorem lastChunk_more {c n : Nat} (hc : 1 ≤ c) (h : c < n) : lastChunk c n = c + lastChunk c (n - c) := by
  have : 1 ≤ chunkCount c (n - c) := le_max_left _ _
  rw [lastChunk, lastChunk, chunkCount_more hc h, Nat.add_sub_cancel, Nat.sub_mul, Nat.one_mul]
  have := Nat.le_mul_of_pos_left c this
  omega

theorem wrote_of_putAll {bits : List Bool} {s t : State} (hw : WriterOk s.toEngine)
    (hf : Frames codeFields s t) : Wrote bits s (putAll bits t) := by
  have h1 := hf .writer (by decide)
  have h2 : t.outPort = s.outPort := hf .outPort (by decide)
  have h3 : t.bytesOut = s.bytesOut := hf .bytesOut (by decide)
  have h4 : t.outRoom = s.outRoom := hf .outRoom (by decide)
  have h := wrote_putAll (s := t) bits (by simp only [WriterOk, h1.1, h1.2]; exact hw)
  refine ⟨?_, ?_, ?_, ?_, ?_⟩
  · have := h.stream
    rw [h2] at this
    simp only [pendingBits, h1.1, h1.2] at this ⊢
    exact this
  · rw [h.given, h2, h1.1]
  · rw [h.count, h3, h1.1]
  · rw [h.room, roomAfter, h4, h1.1]
    rfl
  · rw [← h1.1]
    exact h.pending

theorem encChunks_ok {turns c : Nat} {h : List Byte} {s : State} (hcl : s.inClosed = true) (h0 : s.outRoom = none)
    (hw : WriterOk s.toEngine) (hc : s.params.chunkSize = c) (hc1 : 1 ≤ c) (hc2 : c ≤ 65535) (hb : btypeSel s ≠ 3)
    (hr : Remembers s h) (ht : s.inPort.length < turns) :
    ∃ t bits, encChunks turns s = .ok () t ∧
      StreamCoded (winCap s) s.wcount.toNat (chunkCount c s.inPort.length) bits h (h ++ s.inPort) ∧
      ChunksBits (lz77En s) (winCap s) (btypeSel s) c s.wcount.toNat h s.inPort bits ∧
      ChunkTables (lz77En s) (winCap s) (btypeSel s) (h ++ s.inPort.take (lastChunk c s.inPort.length))
        (s.inPort.drop (lastChunk c s.inPort.length)) t.tables ∧
      Wrote bits s t ∧ Frames encodeAllFields s t ∧ t.inPort = [] ∧
      t.bytesIn = s.bytesIn + BitVec.ofNat 64 s.inPort.length ∧ t.crcState = crcOf s.crcState s.inPort ∧
      t.rawCount = s.rawCount + BitVec.ofNat 32 s.inPort.length ∧ Remembers t (h ++ s.inPort) := by
  induction turns generalizing s h with
  | zero => omega
  | succ turns ih =>
    obtain ⟨t0, e1, f0, p0, b0, c0⟩ := fillChunk_ok (room := c) (n := 0) hcl
    rw [Nat.zero_add] at e1 c0
    -- the end of the input
    obtain ⟨t1, e1', fe⟩ := inAtEnd_ok (s := t0) ((f0 .inClosed (by decide)).trans hcl)
    have f1 : Frames chunkInFields s t1 := f0.trans (fe.mono (by decide))
    have p1 : t1.inPort = s.inPort.drop c := (fe .inPort (by decide)).trans p0
    have b1 : t1.bytesIn = s.bytesIn + BitVec.ofNat 64 (min c s.inPort.length) := (fe .bytesIn (by decide)).trans b0
    have c1 : chunkBytes t1.tables 0 (min c s.inPort.length) = chunkBytes s.tables 0 0 ++ s.inPort.take c := by
      rw [← c0]
      simp only [chunkBytes, show t1.tables.chunk = t0.tables.chunk from fe (.table .chunk) (by decide)]
    have hend : inAtEnd t0 = .ok (decide (s.inPort.length ≤ c)) t1 := by
      rw [e1', p0]
      congr 1
      rw [Bool.eq_iff_iff, List.isEmpty_iff, List.drop_eq_nil_iff, decide_eq_true_iff]
    have c1' : chunkBytes t1.tables 0 (min c s.inPort.length) = s.inPort.take c := by simpa [chunkBytes] using c1
    have hcfg : t1.cfg = s.cfg := f1 .cfg (by decide)
    have hcap1 : winCap t1 = winCap s := (config_congr hcfg).2.2.2
    have hbt1 : btypeSel t1 = btypeSel s := (config_congr hcfg).1
    have hlz1 : lz77En t1 = lz77En s := by rw [lz77En, lz77En, hcfg]
    have hcl1 : t1.inClosed = true := (f1 .inClosed (by decide)).trans hcl
    have ho1 : t1.outRoom = none := (f1 .outRoom (by decide)).trans h0
    have hwr1 := f1 .writer (by decide)
    have hw1 : WriterOk t1.toEngine := by simp only [WriterOk, hwr1.1, hwr1.2]; exact hw
    have hr1 : Remembers t1 h := hr.of_frames f1 (by decide) (by decide) (by decide)
    have hcrc1 : t1.crcState = s.crcState := f1 .crcState (by decide)
    have hraw1 : t1.rawCount = s.rawCount := f1 .rawCount (by decide)
    have hout1 : t1.outPort = s.outPort := f1 .outPort (by decide)
    have hbo1 : t1.bytesOut = s.bytesOut := f1 .bytesOut (by decide)
    have hwrote : ∀ bits u, Wrote bits t1 u → Wrote bits s u := by
      intro bits u hu
      refine ⟨?_, ?_, ?_, ?_, ?_⟩
      · have := hu.stream
        rw [hout1] at this
        simp only [pendingBits, hwr1.1, hwr1.2] at this ⊢
        exact this
      · rw [hu.given, hout1, hwr1.1]
      · rw [hu.count, hbo1, hwr1.1]
      · rw [hu.room, roomAfter, ho1, roomAfter, h0]
        rfl
      · rw [← hwr1.1]
        exact hu.pending
    have hlen : (s.inPort.take c).length = min c s.inPort.length := List.length_take
    obtain ⟨t2, bits, e2, f2, ⟨bl, cb, ct, -, -, -, r2⟩, crc2, raw2⟩ := encChunk_ok (n := min c s.inPort.length)
      (final := decide (s.inPort.length ≤ c)) (h := h) ho1 (by omega) (by rw [hbt1]; exact hb) hr1
    rw [c1'] at bl cb ct r2 crc2
    rw [hwr1.1, hcap1, hbt1] at bl
    rw [hwr1.1, hcap1, hbt1, hlz1] at cb
    rw [hcap1, hbt1, hlz1] at ct
    have w2 : Wrote bits s (putAll bits t2) := hwrote _ _ (wrote_of_putAll hw1 f2)
    have f3 : Frames encodeAllFields s (putAll bits t2) :=
      ((f1.mono (by decide)).trans (f2.mono (by decide))).trans ((frames_putAll bits t2).mono (by decide))
    have r3 : Remembers (putAll bits t2) (h ++ s.inPort.take c) := r2.of_frames (frames_putAll bits t2) (by decide) (by decide)
      (by decide)
    have p2 : (putAll bits t2).inPort = s.inPort.drop c := by
      rw [(frames_putAll bits t2) .inPort (by decide), f2 .inPort (by decide), p1]
    have b2 : (putAll bits t2).bytesIn = s.bytesIn + BitVec.ofNat 64 (min c s.inPort.length) := by
      rw [(frames_putAll bits t2) .bytesIn (by decide), f2 .bytesIn (by decide), b1]
    have crc3 : (putAll bits t2).crcState = crcOf s.crcState (s.inPort.take c) := by
      rw [(frames_putAll bits t2) .crcState (by decide), crc2, hcrc1]
    have raw3 : (putAll bits t2).rawCount = s.rawCount + BitVec.ofNat 32 (min c s.inPort.length) := by
      rw [(frames_putAll bits t2) .rawCount (by decide), raw2, hraw1]
    by_cases hfin : s.inPort.length ≤ c
    · have hm : min c s.inPort.length = s.inPort.length := by omega
      have htake : s.inPort.take c = s.inPort := List.take_of_length_le hfin
      refine ⟨putAll bits t2, bits, ?_, ?_, ?_, ?_, w2, f3, ?_, ?_, ?_, ?_, ?_⟩
      · rw [encChunks, getState_bind, hc, bind_ok e1, bind_ok hend, bind_ok e2, if_pos (by simpa using hfin)]
        rfl
      · rw [chunkCount_last hc1 hfin]
        simp only [hfin, decide_true, htake] at bl
        exact .last bl
      · simp only [hfin, decide_true, htake] at cb
        exact .last hfin cb
      · rw [lastChunk_last hc1 hfin, List.take_zero, List.append_nil, List.drop_zero]
        simpa [htake] using ct
      · rw [p2, List.drop_eq_nil_of_le hfin]
      · rw [b2, hm]
      · rw [crc3, htake]
      · rw [raw3, hm]
      · rw [htake] at r3
        exact r3
    · have hm : min c s.inPort.length = c := by omega
      have hcfg2 : (putAll bits t2).cfg = s.cfg := f3 .cfg (by decide)
      obtain ⟨t, bits', e, st, cs, ct', w, f, p, b, crc, raw, r⟩ := ih (h := h ++ s.inPort.take c) (s := putAll bits t2)
        ((f3 .inClosed (by decide)).trans hcl) (by rw [w2.room, roomAfter, h0]; rfl) w2.pending.2
        (by rw [show (putAll bits t2).params = s.params from f3 .params (by decide)]; exact hc)
        (by rw [(config_congr hcfg2).1]; exact hb) r3 (by rw [p2, List.length_drop]; omega)
      have hlz2 : lz77En (putAll bits t2) = lz77En s := by rw [lz77En, lz77En, hcfg2]
      rw [p2] at st cs ct' b crc raw r
      rw [(config_congr hcfg2).2.2.2, w2.pending.1] at st
      rw [(config_congr hcfg2).2.2.2, (config_congr hcfg2).1, hlz2, w2.pending.1] at cs
      rw [(config_congr hcfg2).2.2.2, (config_congr hcfg2).1, hlz2] at ct'
      have hdl : (s.inPort.drop c).length = s.inPort.length - c := List.length_drop
      have happ : h ++ s.inPort.take c ++ s.inPort.drop c = h ++ s.inPort := by
        rw [List.append_assoc, List.take_append_drop]
      rw [happ] at st r
      refine ⟨t, bits ++ bits', ?_, ?_, ?_, ?_, w2.trans w, f3.trans f, p, ?_, ?_, ?_, r⟩
      · rw [encChunks, getState_bind, hc, bind_ok e1, bind_ok hend, bind_ok e2, if_neg (by simpa using hfin)]
        exact e
      · rw [chunkCount_more hc1 (by omega), ← hdl]
        simp only [hfin, decide_false] at bl
        exact .more bl st
      · simp only [hfin, decide_false] at cb
        exact .more (by omega) cb cs
      · rw [lastChunk_more hc1 (by omega), List.take_add, ← List.append_assoc, ← List.drop_drop, ← hdl]
        exact ct'
      · rw [b, b2, BitVec.add_assoc, ← BitVec.ofNat_add, hm, hdl]
        congr 2
        omega
      · rw [crc, crc3, ← crcOf_append, List.take_append_drop]
      · rw [raw, raw3, BitVec.add_assoc, ← BitVec.ofNat_add, hm, hdl]
        congr 2
        omega

/-- The steps of DEF_ENC_STREAM from a fresh window (45_deflate.md R271). -/
theorem encStreamBody_ok {s : State} (hcl : s.inClosed = true) (h0 : s.outRoom = none) (hw : WriterOk s.toEngine)
    (hp : s.params.wf) (hb : btypeSel s ≠ 3) (hr : Remembers s []) :
    ∃ t bits, encStreamBody s = .ok () t ∧
      StreamCoded (winCap s) s.wcount.toNat (chunkCount s.params.chunkSize s.inPort.length) bits [] s.inPort ∧
      ChunksBits (lz77En s) (winCap s) (btypeSel s) s.params.chunkSize s.wcount.toNat [] s.inPort bits ∧
      ChunkTables (lz77En s) (winCap s) (btypeSel s) (s.inPort.take (lastChunk s.params.chunkSize s.inPort.length))
        (s.inPort.drop (lastChunk s.params.chunkSize s.inPort.length)) t.tables ∧
      Wrote (bits ++ List.replicate (padBits (s.wcount.toNat + bits.length)) true) s t ∧ Frames encodeAllFields s t ∧
      t.inPort = [] ∧ t.bytesIn = s.bytesIn + BitVec.ofNat 64 s.inPort.length ∧
      t.crcState = crcOf s.crcState s.inPort ∧ t.rawCount = s.rawCount + BitVec.ofNat 32 s.inPort.length ∧
      Remembers t s.inPort := by
  obtain ⟨t, bits, e, st, cs, ct, w, f, p, b, crc, raw, r⟩ := encChunks_ok (turns := s.inPort.length + 1) (h := []) hcl h0 hw rfl
    hp.1.1 hp.1.2 hb hr (by omega)
  have ho : t.outRoom = none := by rw [w.room, roomAfter, h0]; rfl
  have hpad : padBits t.wcount.toNat = padBits (s.wcount.toNat + bits.length) := by
    rw [w.pending.1]
    simp [padBits]
  have hf := frames_putAll (List.replicate (padBits t.wcount.toNat) true) t
  refine ⟨putAll (List.replicate (padBits t.wcount.toNat) true) t, bits, ?_, st, cs, ?_, ?_, f.trans (hf.mono (by decide)), ?_, ?_, ?_,
    ?_, ?_⟩
  · rw [encStreamBody, getState_bind, bind_ok e]
    exact flush_ok (Room.of_none ho)
  · simpa using ct
  · rw [← hpad]
    exact w.trans (wrote_putAll _ w.pending.2)
  · rw [hf .inPort (by decide), p]
  · rw [hf .bytesIn (by decide), b]
  · rw [hf .crcState (by decide), crc]
  · rw [hf .rawCount (by decide), raw]
  · exact r.of_frames hf (by decide) (by decide) (by decide)

/-! ### A larger window (45_deflate.md R272) -/

theorem tokensOnto_mono {m n : Nat} {toks : List Token} {h h' : List Byte} (hmn : m ≤ n) (ht : TokensOnto m toks h h') :
    TokensOnto n toks h h' := by
  induction toks generalizing h with
  | nil => exact ht
  | cons t toks ih => exact ⟨fun l k e => (ht.1 l k e).trans (by omega), ih ht.2⟩

theorem blockCoded_mono {pos m n btype : Nat} {final : Bool} {bits : List Bool} {h h' : List Byte} (hmn : m ≤ n)
    (hb : BlockCoded pos m final btype bits h h') : BlockCoded pos n final btype bits h h' := by
  obtain ⟨p, hp, hb⟩ := hb
  refine ⟨p, hp, ?_⟩
  rcases hb with hb | ⟨h1, toks, h2, h3⟩ | ⟨h1, ll, d, tb, sb, toks, h2, h3, h4, h5⟩
  · exact .inl hb
  · exact .inr (.inl ⟨h1, toks, h2, tokensOnto_mono hmn h3⟩)
  · exact .inr (.inr ⟨h1, ll, d, tb, sb, toks, h2, h3, h4, tokensOnto_mono hmn h5⟩)

theorem streamCoded_mono {m n pos count : Nat} {bits : List Bool} {h h' : List Byte} (hmn : m ≤ n)
    (hs : StreamCoded m pos count bits h h') : StreamCoded n pos count bits h h' := by
  induction hs with
  | last hb => exact .last (blockCoded_mono hmn hb)
  | more hb _ ih => exact .more (blockCoded_mono hmn hb) ih

end Sys2Proof.Machine
end

