-- ==== Sys2Proof/Laws/Container.lean ====
section
/-! SUPPORT. The gzip container's parts (46_container.md R300 to R303) on members of the format. -/

namespace Sys2Proof.Machine

/-! ### Writing -/

theorem headerBytes_eq (fn : Bool) (name : List Byte) :
    headerBytes fn name = gzipHeader (if fn then 0x08#8 else 0x00#8) 0 0 0 name := by
  cases fn <;> simp [headerBytes, gzipHeader, flgFname, wordBytes, List.replicate]

theorem headerBytes_length (fn : Bool) (name : List Byte) :
    (headerBytes fn name).length = 10 + if fn then name.length + 1 else 0 := by
  cases fn <;> simp [headerBytes]; omega

theorem writeHeader_ok {fn : Bool} {n : Nat} {s : State} (h : hasRoom s (10 + if fn then n + 1 else 0)) :
    writeHeader fn n s =
      .ok () (putAll (streamBits (gzipHeader (if fn then 0x08#8 else 0x00#8) 0 0 0 (s.tables.fname.toList n))) s) := by
  rw [writeHeader, getState_bind, ← headerBytes_eq]
  have e : headerBytes fn (s.tables.fname.toList (if fn then n else 0)) = headerBytes fn (s.tables.fname.toList n) := by
    cases fn <;> rfl
  rw [e]
  apply writeBytes_ok
  intro k hk
  have := h k hk
  have hl := s.wcount.isLt
  rw [headerBytes_length, toList_length]
  omega

theorem writeTrailer_ok {s : State} (h : hasRoom s 9) :
    writeTrailer s = .ok () (putAll (List.replicate (padBits s.wcount.toNat) true ++ bitsOf 32 (~~~s.crcState).toNat
      ++ bitsOf 32 s.rawCount.toNat) s) := by
  have hl := s.wcount.isLt
  have hp : padBits s.wcount.toNat ≤ 7 := by simp only [padBits]; omega
  have hroom : ∀ m, m + s.wcount.toNat ≤ 79 → Room s m := by
    intro m hm k hk
    have := h k hk
    omega
  have hpad : s.wcount.toNat + padBits s.wcount.toNat ≤ 8 := by simp only [padBits]; omega
  rw [writeTrailer, bind_ok (flush_ok (hroom _ (by omega))), getState_bind]
  have k1 : crcValue (putAll (List.replicate (padBits s.wcount.toNat) true) s) = ~~~s.crcState := by simp [crcValue]
  rw [k1, bind_ok (writeInt_ok (Room.append _ (hroom _ (by rw [List.length_replicate]; omega)))), ← putAll_append]
  have k2 : (putAll (List.replicate (padBits s.wcount.toNat) true) s).rawCount = s.rawCount := by simp
  rw [k2, writeInt_ok (Room.append _ (hroom _ (by rw [List.length_append, List.length_replicate, bitsOf_length]; omega))),
    ← putAll_append]

/-! ### Reading -/

theorem readByteAt {b : Byte} {rest : List Bool} {s : State} (hR : ReaderOk s.toEngine)
    (hu : unreadBits s = bitsOf 8 b.toNat ++ rest) :
    ∃ t, readByte s = .ok b t ∧ Ran 8 [] s t ∧ unreadBits t = rest ∧ Frames readerFields s t := by
  obtain ⟨e, u⟩ := readByte_ok hu
  exact ⟨_, e, ran_advance hR (by rw [hu]; simp), u,
    (readByte_good (frames_readerGood (F := readerFields) (fun f hf => hf) s)).ok (Frames.refl _ _) e⟩

theorem readIntAt {v : Word} {rest : List Bool} {s : State} (hR : ReaderOk s.toEngine)
    (hu : unreadBits s = bitsOf 32 v.toNat ++ rest) :
    ∃ t, readInt s = .ok v t ∧ Ran 32 [] s t ∧ unreadBits t = rest ∧ Frames readerFields s t := by
  obtain ⟨e, u⟩ := readInt_ok hu
  exact ⟨_, e, ran_advance hR (by rw [hu]; simp), u,
    (readInt_good (frames_readerGood (F := readerFields) (fun f hf => hf) s)).ok (Frames.refl _ _) e⟩

/-- A name's count, which stays at its largest value (46_container.md R301). -/
def nameCount (n : Nat) : Nat := min n (2 ^ 32 - 1)

theorem nameCount_lt {n m : Nat} (h : m ≤ 65535) : nameCount n < m ↔ n < m := by
  unfold nameCount
  omega

theorem nameCount_eq {n : Nat} (h : n ≤ 65535) : nameCount n = n := by
  unfold nameCount
  omega

theorem readName_end {turns n : Nat} {tr : Bool} {s t : State} (h : readByte s = .ok 0x00#8 t) :
    readName (turns + 1) n tr s = .ok (n, tr) t := by
  rw [readName, bind_ok h, if_pos rfl, pure_run]

theorem readName_step {turns n : Nat} {tr : Bool} {b : Byte} {s t : State} (h : readByte s = .ok b t) (hb : b ≠ 0x00#8) :
    readName (turns + 1) (nameCount n) tr s =
      if nameCount n < t.params.fnameMax then
        readName turns (nameCount (n + 1)) tr
          { t with tables := { t.tables with fname := t.tables.fname.write (nameCount n) b } }
      else readName turns (nameCount (n + 1)) true t := by
  have hc : nameCount (n + 1) = if nameCount n < 2 ^ 32 - 1 then nameCount n + 1 else nameCount n := by
    unfold nameCount
    split <;> omega
  rw [hc]
  generalize nameCount n = m
  rw [readName, bind_ok h, if_neg hb, getState_bind]
  split <;> rfl

theorem readName_ok {turns n : Nat} {name : List Byte} {rest : List Bool} {s : State} (hp : s.params.wf)
    (hR : ReaderOk s.toEngine) (hn : ∀ b ∈ name, b ≠ 0x00#8) (hu : unreadBits s = streamBits (name ++ [0x00#8]) ++ rest)
    (ht : name.length < turns) :
    ∃ t, readName turns (nameCount n) (decide (s.params.fnameMax < n)) s =
        .ok (nameCount (n + name.length), decide (s.params.fnameMax < n + name.length)) t ∧
      Read false (8 * (name.length + 1)) [] s t ∧ Frames nameFields s t ∧
      ∀ k, t.tables.fname.read k = if n ≤ k ∧ k < min (n + name.length) s.params.fnameMax then name.getD (k - n) 0
        else s.tables.fname.read k := by
  have hmax := hp.2.2
  induction name generalizing turns n s with
  | nil =>
    obtain ⟨turns, rfl⟩ : ∃ k, turns = k + 1 := ⟨turns - 1, by omega⟩
    rw [List.nil_append, streamBits_cons, streamBits_nil, List.append_nil] at hu
    obtain ⟨t1, e1, r, -, f1⟩ := readByteAt hR hu
    have hn1 : t1.tables.fname = s.tables.fname := f1 (.table .fname) (by decide)
    refine ⟨t1, ?_, r.read, f1.mono (by decide), fun k => ?_⟩
    · rw [readName_end e1]
      rfl
    · rw [if_neg (by simp; omega), hn1]
  | cons b name ih =>
    obtain ⟨turns, rfl⟩ : ∃ k, turns = k + 1 := ⟨turns - 1, by omega⟩
    rw [List.cons_append, streamBits_cons, List.append_assoc] at hu
    obtain ⟨t1, e1, ran1, u1, f1'⟩ := readByteAt hR hu
    have r1 := ran1.read
    have f1 : Frames nameFields s t1 := f1'.mono (by decide)
    have hb := hn b List.mem_cons_self
    have hpar : t1.params = s.params := f1 .params (by decide)
    have htab : t1.tables.fname = s.tables.fname := f1' (.table .fname) (by decide)
    rw [List.length_cons] at ht ⊢
    -- the state in which the loop goes on
    have step : ∃ u, readName (turns + 1) (nameCount n) (decide (s.params.fnameMax < n)) s =
          readName turns (nameCount (n + 1)) (decide (s.params.fnameMax < n + 1)) u ∧
        Read false 8 [] s u ∧ Frames nameFields s u ∧
        ∀ k, u.tables.fname.read k = if k = n ∧ n < s.params.fnameMax then b else s.tables.fname.read k := by
      by_cases hlt : n < s.params.fnameMax
      · have r2 := read_tables (t := { t1.tables with fname := t1.tables.fname.write n b })
          r1.readerOk rfl
        refine ⟨{ t1 with
          tables := { t1.tables with fname := t1.tables.fname.write n b } }, ?_, ?_, ?_, ?_⟩
        · rw [readName_step e1 hb, hpar, if_pos ((nameCount_lt hmax).2 hlt), nameCount_eq (n := n) (by omega),
            show decide (s.params.fnameMax < n) = decide (s.params.fnameMax < n + 1) by
              rw [decide_eq_decide]; omega]
        · exact (r1.trans r2).cast rfl rfl rfl
        · exact f1.trans ((frames_fname _ _).mono (by decide))
        · intro k
          simp only [htab]
          by_cases hk : k = n
          · subst hk
            rw [if_pos ⟨rfl, hlt⟩, read_write_same]
          · rw [if_neg (by omega), read_write_other _ _ hk]
      · refine ⟨t1, ?_, r1, f1, fun k => ?_⟩
        · have hd : decide (s.params.fnameMax < n + 1) = true := by rw [decide_eq_true_eq]; omega
          rw [readName_step e1 hb, hpar, if_neg (fun h => hlt ((nameCount_lt hmax).1 h)), hd]
        · rw [if_neg (by omega), htab]
    obtain ⟨u, e, r, f, hu'⟩ := step
    have hpu : u.params = s.params := f .params (by decide)
    obtain ⟨t, e', r', f', hk⟩ := ih (turns := turns) (n := n + 1) (s := u) (by rw [hpu]; exact hp) r.readerOk
      (fun x hx => hn x (List.mem_cons_of_mem _ hx))
      (by
        have := r.done.read.unread
        rw [hu] at this
        rw [this]
        exact List.drop_left' (by simp))
      (by omega) (by rw [hpu]; exact hmax)
    rw [hpu] at e' hk
    refine ⟨t, ?_, (r.trans r').cast rfl (by omega) rfl, f.trans f', fun k => ?_⟩
    · rw [e, e', show n + 1 + name.length = n + (name.length + 1) by omega]
    · rw [hk k, hu' k]
      by_cases h1 : n + 1 ≤ k ∧ k < min (n + 1 + name.length) s.params.fnameMax
      · rw [if_pos h1, if_pos (by omega)]
        rw [show k - n = (k - (n + 1)) + 1 by omega, List.getD_cons_succ]
      · rw [if_neg h1]
        by_cases h2 : k = n ∧ n < s.params.fnameMax
        · rw [if_pos h2, if_pos (by omega), show k - n = 0 by omega]
          rfl
        · rw [if_neg h2, if_neg (by omega)]

/-- What reading a header writes besides its results. -/
def headerReadFields : List Field := [.gzHeader, .fnameTrunc, .reader, .inPort, .bytesIn, .table .fname]

theorem flgName (flg : Byte) : (flg &&& flgFname ≠ 0) ↔ flg.getLsbD 3 = true := by
  revert flg
  decide +kernel

theorem read_header {flg xfl os : Byte} {mtime len : Word} {trunc : Bool} {s : State} (h : ReaderOk s.toEngine) :
    Read false 0 [] s { s with
      gzFlg := flg, gzMtime := mtime, gzXfl := xfl, gzOs := os, gzFnameLen := len, fnameTrunc := trunc } where
  fits := Nat.zero_le _
  done := ⟨⟨rfl, by simp [bytesFor_zero], by simp [bytesFor_zero], h⟩, by simp, by simp,
    by cases hr : s.outRoom <;> simp [roomAfter, hr], rfl, by simp⟩
  window := fun h hr => by rw [List.append_nil]; exact hr.congr rfl rfl rfl rfl
  cfg := rfl
  seen := by simp

/-- A header the reader accepts is read (46_container.md R301). -/
theorem readHeader_ok {flg xfl os : Byte} {mtime : Word} {name : List Byte} {rest : List Bool} {s : State}
    (hp : s.params.wf) (hR : ReaderOk s.toEngine) (hh : HeaderOk flg name)
    (hu : unreadBits s = streamBits (gzipHeader flg mtime xfl os name) ++ rest) :
    ∃ t, readHeader s = .ok (flg, nameCount name.length) t ∧
      Read false (8 * (gzipHeader flg mtime xfl os name).length) [] s t ∧ Frames headerReadFields s t ∧
      (t.gzFlg = flg ∧ t.gzMtime = mtime ∧ t.gzXfl = xfl ∧ t.gzOs = os) ∧
      t.gzFnameLen = BitVec.ofNat 32 (nameCount name.length) ∧
      t.fnameTrunc = decide (s.params.fnameMax < name.length) ∧
      ∀ k, t.tables.fname.read k =
        if k < min name.length s.params.fnameMax then name.getD k 0 else s.tables.fname.read k := by
  obtain ⟨hf, hn, hno⟩ := hh
  have hlen : (gzipHeader flg mtime xfl os name).length = 10 + if flg.getLsbD 3 then name.length + 1 else 0 := by
    unfold gzipHeader
    split <;> simp [wordBytes]
    omega
  rw [gzipHeader] at hu
  simp only [streamBits_append, streamBits_wordBytes, streamBits_cons, streamBits_nil, List.append_nil, List.append_assoc] at hu
  obtain ⟨t1, e1, r1, u1, f1⟩ := readByteAt hR hu
  obtain ⟨t2, e2, r2, u2, f2⟩ := readByteAt r1.readerOk u1
  obtain ⟨t3, e3, r3, u3, f3⟩ := readByteAt r2.readerOk u2
  obtain ⟨t4, e4, r4, u4, f4⟩ := readByteAt r3.readerOk u3
  obtain ⟨t5, e5, r5, u5, f5⟩ := readIntAt r4.readerOk u4
  obtain ⟨t6, e6, r6, u6, f6⟩ := readByteAt r5.readerOk u5
  obtain ⟨t7, e7, r7, u7, f7⟩ := readByteAt r6.readerOk u6
  have r17 := (((((r1.trans r2).trans r3).trans r4).trans r5).trans r6).trans r7
  have f17 := (((((f1.trans f2).trans f3).trans f4).trans f5).trans f6).trans f7
  have hp7 : t7.params = s.params := f17 .params (by decide)
  have hn7 : t7.tables.fname = s.tables.fname := f17 (.table .fname) (by decide)
  have name_ok : ∃ t8, readNameField flg t7 = .ok (nameCount name.length, decide (s.params.fnameMax < name.length)) t8 ∧
      Read false (8 * if flg.getLsbD 3 then name.length + 1 else 0) [] t7 t8 ∧ Frames nameFields t7 t8 ∧
      ∀ k, t8.tables.fname.read k =
        if k < min name.length s.params.fnameMax then name.getD k 0 else s.tables.fname.read k := by
    by_cases h3 : flg.getLsbD 3 = true
    · rw [if_pos h3] at u7 ⊢
      obtain ⟨t8, e8, r8, f8, k8⟩ := readName_ok (turns := bitsLeft t7 + 1) (n := 0) (by rw [hp7]; exact hp) r17.readerOk hn u7
        (by rw [bitsLeft_eq, u7]; simp; omega)
      rw [hp7] at e8 k8
      refine ⟨t8, ?_, r8, f8, fun k => ?_⟩
      · rw [readNameField, getState_bind, if_pos ((flgName flg).2 h3)]
        simpa [nameCount] using e8
      · rw [k8 k, hn7]
        simp
    · have h3' : flg.getLsbD 3 = false := by simpa using h3
      obtain rfl := hno h3'
      rw [if_neg h3]
      refine ⟨t7, ?_, (Ran.refl r17.readerOk).read, Frames.refl _ _, fun k => by rw [hn7]; simp⟩
      rw [readNameField, getState_bind, if_neg (fun h => h3 ((flgName flg).1 h))]
      simp [nameCount]
  obtain ⟨t8, e8, r8, f8, k8⟩ := name_ok
  refine ⟨{ t8 with
    gzFlg := flg, gzMtime := mtime, gzXfl := xfl, gzOs := os
    gzFnameLen := BitVec.ofNat 32 (nameCount name.length)
    fnameTrunc := decide (s.params.fnameMax < name.length) }, ?_, ?_, ?_, ⟨rfl, rfl, rfl, rfl⟩, rfl, rfl, k8⟩
  · rw [readHeader, bind_ok e1, raiseIf_bind, if_neg (by simp), bind_ok e2, raiseIf_bind, if_neg (by simp), bind_ok e3,
      raiseIf_bind, if_neg (by simp), bind_ok e4, raiseIf_bind, if_neg (by simpa [flgRefused] using hf), bind_ok e5, bind_ok e6,
      bind_ok e7, bind_ok e8, change_bind]
    rfl
  · refine ((r17.read.trans r8).trans (read_header r8.readerOk)).cast rfl ?_ rfl
    rw [hlen]
    omega
  · exact ((f17.mono (by decide)).trans (f8.mono (by decide))).trans
      ((frames_header flg mtime xfl os (BitVec.ofNat 32 (nameCount name.length))
        (decide (s.params.fnameMax < name.length)) t8).mono (by decide))

/-- The trailer's fields are read, whatever they hold (46_container.md R303). -/
theorem readTrailer_run {crc isize : Word} {rest : List Bool} {s : State} (hR : ReaderOk s.toEngine)
    (hu : (unreadBits s).drop s.rcount.toNat = bitsOf 32 crc.toNat ++ bitsOf 32 isize.toNat ++ rest) :
    ∃ t, Ran (s.rcount.toNat + 64) [] s t ∧ Frames readerFields s t ∧
      readTrailer s = if crc ≠ ~~~s.crcState then .error (.raise .crcMismatch) { t with gzTrlCrc := crc, gzTrlIsize := isize }
        else if isize ≠ s.rawCount then .error (.raise .isizeMismatch) { t with gzTrlCrc := crc, gzTrlIsize := isize }
        else .ok () { t with gzTrlCrc := crc, gzTrlIsize := isize } := by
  have ea := alignIn_ok hR
  have hl := unread_length s
  have r0 := ran_advance hR (n := s.rcount.toNat) (by omega)
  have f0 := (alignIn_frames s)
  rw [ea] at f0
  have f0' : Frames readerFields s (advance s.rcount.toNat s) := f0.mono (by decide)
  rw [← r0.done.read.unread, List.append_assoc] at hu
  obtain ⟨t1, e1, r1, u1, f1⟩ := readIntAt r0.readerOk hu
  obtain ⟨t2, e2, r2, u2, f2⟩ := readIntAt r1.readerOk u1
  have f := (f0'.trans f1).trans f2
  have hc : t2.crcState = s.crcState := f .crcState (by decide)
  have hw : t2.rawCount = s.rawCount := f .rawCount (by decide)
  refine ⟨t2, (r0.trans r1).trans r2, f, ?_⟩
  rw [readTrailer, bind_ok ea, bind_ok e1, bind_ok e2, change_bind, getState_bind, raiseIf_bind]
  simp only [crcValue, hc, raiseIf_run, hw]

end Sys2Proof.Machine
end

