-- ==== Sys2Proof/Laws/Bounds.lean ====
section
/-! SUPPORT. No loop outruns its bound (log 19): every turn of a decoder's loop uses up bits of the input, every turn of
the stream encoder's loop bytes, and the other loops are bounded by what they count. -/

namespace Sys2Proof.Machine

/-- Steps that use up at least `k` bits of the input where they end, and do not outrun a bound. -/
structure Drains {α : Type} (k : Nat) (x : Exec α) : Prop where
  run : ∀ s, match x s with
    | .ok _ t => bitsLeft t + k ≤ bitsLeft s
    | .error e _ => e ≠ .bound

variable {α β : Type}

theorem Drains.ok {k : Nat} {x : Exec α} (h : Drains k x) {s t : State} {a : α} (hx : x s = .ok a t) :
    bitsLeft t + k ≤ bitsLeft s := by
  have := h.run s
  rwa [hx] at this

theorem Drains.error {k : Nat} {x : Exec α} (h : Drains k x) {s t : State} {e : Stop} (hx : x s = .error e t) :
    e ≠ .bound := by
  have := h.run s
  rwa [hx] at this

theorem Drains.mono {j k : Nat} {x : Exec α} (h : Drains k x) (hj : j ≤ k) : Drains j x := by
  refine ⟨fun s => ?_⟩
  cases hx : x s with
  | ok a t => have := h.ok hx; simp only; omega
  | error e t => exact h.error hx

theorem Drains.bind {j k : Nat} {x : Exec α} {f : α → Exec β} (hx : Drains j x) (hf : ∀ a, Drains k (f a)) :
    Drains (j + k) (x >>= f) := by
  refine ⟨fun s => ?_⟩
  rcases bind_cases x f s with ⟨a, t, h, h'⟩ | ⟨e, t, h, h'⟩
  · rw [h']
    have h1 := hx.ok h
    cases hy : f a t with
    | ok b u => have := (hf a).ok hy; simp only; omega
    | error e u => exact (hf a).error hy
  · rw [h']
    exact hx.error h

theorem Drains.pure (a : α) : Drains 0 (Pure.pure a : Exec α) := ⟨fun s => by simp⟩

theorem Drains.raise (e : ErrCode) (k : Nat) : Drains k (Machine.raise e : Exec α) := ⟨fun s => by simp⟩

theorem Drains.raiseIf (c : Prop) [Decidable c] (e : ErrCode) : Drains 0 (Machine.raiseIf c e) := by
  refine ⟨fun s => ?_⟩
  rw [raiseIf_run]
  by_cases hc : c <;> simp [hc]

theorem Drains.change {f : State → State} (h : ∀ s, bitsLeft (f s) = bitsLeft s) : Drains 0 (Machine.change f) :=
  ⟨fun s => by simp [h]⟩

theorem Drains.tables (f : Tables → Tables) : Drains 0 (changeTables f) := Drains.change (by intro _; rfl)

theorem Drains.look {k : Nat} {f : State → Exec β} (h : ∀ a, Drains k (f a)) : Drains k (getState >>= f) :=
  ⟨fun s => (h s).run s⟩

theorem Drains.ite {k : Nat} {c : Prop} [Decidable c] {x y : Exec α} (hx : Drains k x) (hy : Drains k y) :
    Drains k (if c then x else y) := by
  split
  · exact hx
  · exact hy

theorem Drains.leaving {k : Nat} {x : Exec α} {f : State → State} (h : Drains k x) : Drains k (leavingUnspecified f x) := by
  refine ⟨fun s => ?_⟩
  unfold leavingUnspecified
  cases hx : x s with
  | ok a t => exact h.ok hx
  | error e t =>
    have := h.error hx
    cases e <;> simp_all

/-! ### The decoder -/

theorem getBit_drains : Drains 1 getBit := by
  refine ⟨fun s => ?_⟩
  cases hu : unreadBits s with
  | nil =>
    rw [getBit_dry hu]
    simp only [dryStop]
    split <;> simp
  | cons b rest =>
    rw [getBit_ok hu]
    have h1 := takeOne_unread hu
    simp only [bitsLeft_eq, h1, hu, List.length_cons]
    omega

theorem alignIn_drains : Drains 0 alignIn := ⟨fun s => by simp [alignIn, bitsLeft]⟩

theorem readBits_drains (n : Nat) : Drains n (readBits n) := by
  induction n with
  | zero => exact Drains.pure 0
  | succ n ih => exact (getBit_drains.bind fun _ => ih.bind fun _ => Drains.pure _).mono (by omega)

theorem readByte_drains : Drains 8 readByte := (readBits_drains 8).bind fun _ => Drains.pure _

theorem readInt_drains : Drains 32 readInt := (readBits_drains 32).bind fun _ => Drains.pure _

theorem decodeFrom_drains (table : List (Nat × Nat)) (rem len v : Nat) : Drains 1 (decodeFrom table rem len v) := by
  induction rem generalizing len v with
  | zero => exact Drains.raise _ _
  | succ rem ih =>
    refine (getBit_drains.bind (k := 0) fun b => ?_).mono (by omega)
    dsimp only
    split
    · exact Drains.pure _
    · exact (ih _ _).mono (by omega)

/-- A symbol takes at least one bit. -/
theorem hufDecode_drains (a : Alphabet) : Drains 1 (hufDecode a) := Drains.look fun _ => decodeFrom_drains _ _ _ _

theorem outWrite_drains (b : Byte) : Drains 0 (outWrite b) := by
  refine ⟨fun s => ?_⟩
  unfold outWrite
  cases s.outRoom with
  | none => simp [bitsLeft]
  | some k => cases k <;> simp [bitsLeft]

theorem emitByte_drains (b : Byte) : Drains 0 (emitByte b) :=
  (outWrite_drains b).bind fun _ => Drains.change (by intro _; rfl)

theorem copyStored_drains (n : Nat) : Drains 0 (copyStored n) := by
  induction n with
  | zero => exact Drains.pure ()
  | succ n ih => exact (readByte_drains.bind fun b => (emitByte_drains b).bind fun _ => ih).mono (by omega)

theorem decodeStored_drains : Drains 0 decodeStored :=
  (alignIn_drains.bind fun _ => (readBits_drains 16).bind fun _ => (readBits_drains 16).bind fun _ =>
    (Drains.raiseIf _ _).bind fun _ => copyStored_drains _).mono (by omega)

theorem readMetaLens_drains (l : List Nat) : Drains 0 (readMetaLens l) := by
  induction l with
  | nil => exact Drains.pure ()
  | cons k l ih => exact ((readBits_drains 3).bind fun _ => (Drains.tables _).bind fun _ => ih).mono (by omega)

theorem readLens_drains {total turns : Nat} {seq : List Nat} (h : total ≤ seq.length + turns) :
    Drains 0 (readLens total turns seq) := by
  induction turns generalizing seq with
  | zero =>
    unfold readLens
    rw [if_neg (by omega)]
    exact Drains.pure _
  | succ turns ih =>
    unfold readLens
    refine Drains.ite ?_ (Drains.pure _)
    refine ((hufDecode_drains .cl).bind (k := 0) fun sym => ?_).mono (by omega)
    refine Drains.ite (Drains.raise _ _) (((readBits_drains _).bind (k := 0) fun x => ?_).mono (by omega))
    cases he : expandSymbol total seq sym x with
    | error e => exact Drains.raise _ _
    | ok seq' =>
      have := (expandSymbol_ok he).1
      exact ih (by omega)

theorem decodeDynamicTables_drains : Drains 0 decodeDynamicTables :=
  ((readBits_drains 5).bind fun _ => (readBits_drains 5).bind fun _ => (readBits_drains 4).bind fun _ =>
    (Drains.raiseIf _ _).bind fun _ => (Drains.tables _).bind fun _ => (readMetaLens_drains _).bind fun _ =>
      (Drains.tables _).bind fun _ => (readLens_drains (by simp)).bind fun _ => Drains.tables _).mono (by omega)

theorem copyBytes_drains (d n : Nat) : Drains 0 (copyBytes d n) := by
  induction n with
  | zero => exact Drains.pure ()
  | succ n ih => exact Drains.look fun _ => (emitByte_drains _).bind fun _ => ih

theorem copyMatch_drains (l : Nat) : Drains 0 (copyMatch l) := by
  unfold copyMatch
  refine ((hufDecode_drains .d).bind (k := 0) fun ds => ?_).mono (by omega)
  refine Drains.bind (j := 0) (k := 0) (Drains.raiseIf _ _) fun _ => ?_
  refine ((readBits_drains (distRange ds).extra).bind (k := 0) fun x => ?_).mono (by omega)
  exact Drains.look fun _ => Drains.bind (j := 0) (k := 0) (Drains.raiseIf _ _) fun _ => copyBytes_drains _ _

/-- Steps from one state that do not outrun a bound and use up at least `k` bits. -/
def DrainsAt (k : Nat) (x : Exec α) (s : State) : Prop :=
  match x s with
  | .ok _ t => bitsLeft t + k ≤ bitsLeft s
  | .error e _ => e ≠ .bound

theorem DrainsAt.of_drains {k : Nat} {x : Exec α} (h : Drains k x) (s : State) : DrainsAt k x s := h.run s

/-- After steps that use up bits, the next ones may rely on there being fewer. -/
theorem DrainsAt.bind {j k : Nat} {x : Exec α} {f : α → Exec β} {s : State} (hx : Drains j x)
    (hf : ∀ a t, bitsLeft t + j ≤ bitsLeft s → DrainsAt k (f a) t) : DrainsAt (j + k) (x >>= f) s := by
  unfold DrainsAt
  rcases bind_cases x f s with ⟨a, t, h, h'⟩ | ⟨e, t, h, h'⟩
  · rw [h']
    have h1 := hx.ok h
    have h2 := hf a t h1
    unfold DrainsAt at h2
    cases hy : f a t with
    | ok b u => rw [hy] at h2; simp only at h2 ⊢; omega
    | error e u => rw [hy] at h2; exact h2
  · rw [h']
    exact hx.error h

theorem DrainsAt.mono {j k : Nat} {x : Exec α} {s : State} (h : DrainsAt k x s) (hj : j ≤ k) : DrainsAt j x s := by
  unfold DrainsAt at h ⊢
  cases hx : x s with
  | ok a t => rw [hx] at h; simp only at h ⊢; omega
  | error e t => rw [hx] at h; exact h

theorem decodeSymbolsFrom_drains {turns : Nat} {s : State} (h : bitsLeft s < turns) :
    DrainsAt 0 (decodeSymbolsFrom turns) s := by
  induction turns generalizing s with
  | zero => omega
  | succ turns ih =>
    unfold decodeSymbolsFrom
    refine (DrainsAt.bind (k := 0) (hufDecode_drains .ll) fun sym t ht => ?_).mono (by omega)
    split
    · exact DrainsAt.bind (k := 0) (emitByte_drains _) fun _ u hu => ih (by omega)
    · split
      · exact DrainsAt.of_drains (Drains.pure _) _
      · split
        · generalize lenRange (sym - 257) = r
          refine (DrainsAt.bind (k := 0) (readBits_drains r.extra) fun x u hu => ?_).mono (Nat.zero_le _)
          exact DrainsAt.bind (k := 0) (copyMatch_drains _) fun _ v hv => ih (by omega)
        · exact DrainsAt.of_drains (Drains.raise _ _) _

theorem decodeSymbols_drains : Drains 0 decodeSymbols :=
  ⟨fun s => decodeSymbolsFrom_drains (turns := bitsLeft s + 1) (by omega)⟩

theorem readBlockHeader_drains : Drains 3 readBlockHeader :=
  (readBits_drains 1).bind fun _ => (readBits_drains 2).bind fun _ =>
    (Drains.change (by intro _; rfl)).bind fun _ => Drains.pure _

/-- A block takes at least three bits. -/
theorem decBlock_drains : Drains 3 decBlock := by
  unfold decBlock
  refine (readBlockHeader_drains.bind (k := 0) fun h => ?_).mono (by omega)
  have hend : Drains 0 (do change commitOutput; pure h : Exec (Nat × Nat)) :=
    (Drains.change (by intro _; rfl)).bind fun _ => Drains.pure _
  split
  · exact decodeStored_drains.bind fun _ => hend
  · split
    · exact (Drains.tables _).bind fun _ => decodeSymbols_drains.bind fun _ => hend
    · split
      · exact decodeDynamicTables_drains.bind fun _ => decodeSymbols_drains.bind fun _ => hend
      · exact (Drains.raise _ 0).bind fun _ => hend

theorem decBlocks_drains {turns count : Nat} {s : State} (h : bitsLeft s < turns) : DrainsAt 0 (decBlocks turns count) s := by
  induction turns generalizing count s with
  | zero => omega
  | succ turns ih =>
    refine (DrainsAt.bind (k := 0) decBlock_drains fun r t ht => ?_).mono (by omega)
    split
    · exact DrainsAt.of_drains (Drains.pure _) _
    · exact ih (by omega)

/-- The stream decoder does not outrun its bounds. -/
theorem decStreamBody_drains : Drains 0 decStreamBody := ⟨fun s => decBlocks_drains (turns := bitsLeft s + 1) (by omega)⟩

/-! ### The container's readers -/

theorem readName_drains {turns n : Nat} {tr : Bool} {s : State} (h : bitsLeft s < turns) : DrainsAt 0 (readName turns n tr) s := by
  induction turns generalizing n tr s with
  | zero => omega
  | succ turns ih =>
    unfold readName
    refine (DrainsAt.bind (k := 0) readByte_drains fun b t ht => ?_).mono (by omega)
    split
    · exact DrainsAt.of_drains (Drains.pure _) _
    · generalize (if n < 2 ^ 32 - 1 then n + 1 else n) = c
      show DrainsAt 0 (if n < t.params.fnameMax then
          changeTables (fun u => { u with fname := u.fname.write n b }) >>= fun _ => readName turns c tr
        else readName turns c true) t
      split
      · exact DrainsAt.bind (k := 0) (Drains.tables _) fun _ u hu => ih (by omega)
      · exact ih (by omega)

theorem readNameField_drains (flg : Byte) : Drains 0 (readNameField flg) := by
  refine ⟨fun s => ?_⟩
  show DrainsAt 0 (if flg &&& flgFname ≠ 0 then readName (bitsLeft s + 1) 0 false else pure (0, false)) s
  split
  · exact readName_drains (by omega)
  · exact DrainsAt.of_drains (Drains.pure _) _

theorem Drains.then {j : Nat} {x : Exec α} {f : α → Exec β} (hx : Drains j x) (hf : ∀ a, Drains 0 (f a)) :
    Drains 0 (x >>= f) := (hx.bind hf).mono (Nat.zero_le _)

theorem readHeader_drains : Drains 0 readHeader := by
  unfold readHeader
  refine readByte_drains.then fun id1 => (Drains.raiseIf _ _).then fun _ => readByte_drains.then fun id2 => ?_
  refine (Drains.raiseIf _ _).then fun _ => readByte_drains.then fun cm => (Drains.raiseIf _ _).then fun _ => ?_
  refine readByte_drains.then fun flg => (Drains.raiseIf _ _).then fun _ => readInt_drains.then fun mtime => ?_
  refine readByte_drains.then fun xfl => readByte_drains.then fun os => (readNameField_drains flg).then fun name => ?_
  exact (Drains.change (by intro _; rfl)).then fun _ => Drains.pure _

theorem headerToRes_drains : Drains 0 headerToRes :=
  Drains.leaving (readHeader_drains.bind fun _ => Drains.change (by intro _; rfl))

theorem readTrailer_drains : Drains 0 readTrailer := by
  unfold readTrailer
  refine alignIn_drains.then fun _ => readInt_drains.then fun crc => readInt_drains.then fun isize => ?_
  refine (Drains.change (by intro _; rfl)).then fun _ => Drains.look fun s => ?_
  exact (Drains.raiseIf _ _).then fun _ => Drains.raiseIf _ _

/-! ### The encoder -/

/-- Every stop but outrunning a bound. -/
def boundedStop (e : Stop) : Prop := e ≠ .bound

theorem outWrite_bounded {I : State → Prop} (b : Byte)
    (h : ∀ p n r s, I s → I { s with outPort := p, bytesOut := n, outRoom := r }) : Good I boundedStop (outWrite b) := by
  refine ⟨fun s hs => ?_⟩
  unfold outWrite
  cases hr : s.outRoom with
  | none => exact h (s.outPort ++ [b]) (s.bytesOut + 1) none s hs
  | some k =>
    cases k with
    | zero => exact ⟨hs, by simp [boundedStop]⟩
    | succ k => exact h _ _ _ s hs

/-- What an encoder command's steps keep: the parameters, the block type, and the input. -/
def EncKeeps (p : Config.Params) (b : Nat) (l : List Byte) (closed : Bool) (s : State) : Prop :=
  s.params = p ∧ btypeSel s = b ∧ s.inPort = l ∧ s.inClosed = closed

theorem EncKeeps.of_frames {p : Config.Params} {b : Nat} {l : List Byte} {c : Bool} {F : List Field} {s t : State}
    (h : EncKeeps p b l c s) (hf : Frames F s t) (h1 : .params ∉ F) (h2 : .cfg ∉ F) (h3 : .inPort ∉ F) (h4 : .inClosed ∉ F) :
    EncKeeps p b l c t :=
  ⟨(hf .params h1).trans h.1, (btype_of_frames hf h2).trans h.2.1, (hf .inPort h3).trans h.2.2.1,
    (hf .inClosed h4).trans h.2.2.2⟩

theorem buildDynamic_bounded {I : State → Prop} (h : ∀ s t, I s → I { s with tables := t }) :
    Good I boundedStop buildDynamic := by
  refine ⟨fun s hs => ?_⟩
  obtain ⟨ll, d, cl, p, t, e, -⟩ := buildDynamic_ok s
  rw [e]
  exact h s t hs

theorem encoderBounded (p : Config.Params) (b : Nat) (l : List Byte) (c : Bool) :
    EncoderGood p b (EncKeeps p b l c) boundedStop where
  params := fun _ h => h.1
  btype := fun _ h => h.2.1
  put := fun v => by
    refine Good.look' fun s => Good.ite (fun _ => ?_) (fun _ => ?_)
    · exact (outWrite_bounded _ fun _ _ _ _ h => h).bind fun _ => Good.change fun _ h => h
    · exact Good.change fun _ h => h
  count := fun bytes n s h => h.of_frames (frames_count bytes n s) (by decide) (by decide) (by decide) (by decide)
  window := fun bytes s h => h.of_frames (winAddAll_frames bytes s) (by decide) (by decide) (by decide) (by decide)
  tokenize := fun _ n s _ h => h.of_frames (tokenize_frames n s) (by decide) (by decide) (by decide) (by decide)
  fixed := fun _ _ h => h
  build := fun _ _ => buildDynamic_bounded fun _ _ h => h

/-- What filling a chunk leaves in the port: everything taken, or a full chunk. -/
theorem fillChunk_takes {room n k : Nat} {s t : State} (h : fillChunk room n s = .ok k t) :
    t.params = s.params ∧ btypeSel t = btypeSel s ∧ t.inClosed = s.inClosed ∧ t.inPort.length ≤ s.inPort.length ∧
      (t.inPort ≠ [] → t.inPort.length + room = s.inPort.length) := by
  induction room generalizing n s with
  | zero =>
    simp only [fillChunk, pure_run, EStateM.Result.ok.injEq] at h
    obtain ⟨-, rfl⟩ := h
    exact ⟨rfl, rfl, rfl, le_refl _, fun _ => rfl⟩
  | succ room ih =>
    cases hp : s.inPort with
    | nil =>
      cases hc : s.inClosed
      · rw [fillChunk, bind_run, inAtEnd_open hp hc] at h
        cases h
      · rw [fillChunk, bind_run, inAtEnd_end hp hc] at h
        simp only [if_true, pure_run, EStateM.Result.ok.injEq] at h
        obtain ⟨-, rfl⟩ := h
        exact ⟨rfl, rfl, hc, by simp [hp], fun hne => absurd hp hne⟩
    | cons b rest =>
      rw [fillChunk, bind_run, inAtEnd_more hp] at h
      simp only at h
      rw [if_neg (by simp), bind_run, inRead_more hp] at h
      obtain ⟨h1, h2, h3, h4, h5⟩ := ih h
      refine ⟨h1, h2, h3, h4.trans ?_, fun hne => ?_⟩
      · simp
      · have := h5 hne
        simp only [List.length_cons] at this ⊢
        omega

theorem fillChunk_bounded {room n : Nat} : Good (fun _ => True) boundedStop (fillChunk room n) := by
  have h1 : Good (fun _ => True) boundedStop inAtEnd := by
    refine ⟨fun s _ => ?_⟩
    unfold inAtEnd
    cases s.inPort with
    | cons x xs => trivial
    | nil => cases s.inClosed <;> simp [boundedStop]
  have h2 : Good (fun _ => True) boundedStop inRead := by
    refine ⟨fun s _ => ?_⟩
    unfold inRead
    cases s.inPort with
    | cons x xs => trivial
    | nil => cases s.inClosed <;> simp [boundedStop]
  induction room generalizing n with
  | zero => exact Good.pure _
  | succ room ih =>
    exact h1.bind fun _ => Good.ite (fun _ => Good.pure _) fun _ => h2.bind fun _ =>
      (Good.tables fun _ _ => trivial).bind fun _ => ih

theorem encChunks_bounded {p : Config.Params} {turns : Nat} {s : State} (hp : 1 ≤ p.chunkSize) (hs : s.params = p)
    (ht : s.inPort.length < turns) : ∀ t, encChunks turns s ≠ .error .bound t := by
  induction turns generalizing s with
  | zero => omega
  | succ turns ih =>
    intro t h
    rw [encChunks, getState_bind] at h
    rcases bind_cases (fillChunk s.params.chunkSize 0) _ s with ⟨n, t1, h1, h'⟩ | ⟨e, t1, h1, h'⟩
    · rw [h'] at h
      obtain ⟨p1, p2, p3, p4, p5⟩ := fillChunk_takes h1
      have hn := (fillChunk_count h1).2
      have hk : EncKeeps p (btypeSel t1) t1.inPort t1.inClosed t1 := ⟨p1.trans hs, rfl, rfl, rfl⟩
      have hgood := fun final => (encChunk_good (encoderBounded p (btypeSel t1) t1.inPort t1.inClosed) n final (by
        rw [hs] at hn; omega)).run
      cases hd : t1.inPort with
      | nil =>
        cases hc : t1.inClosed
        · rw [bind_run, inAtEnd_open hd hc] at h
          cases h
        · rw [bind_run, inAtEnd_end hd hc] at h
          simp only at h
          have := hgood true { t1 with sawEnd := true } ⟨p1.trans hs, rfl, rfl, rfl⟩
          rw [bind_run] at h
          cases hy : encChunk n true { t1 with sawEnd := true } with
          | ok a v => rw [hy] at h; cases h
          | error e v =>
            rw [hy] at h this
            injection h with h1 h2
            exact this.2 h1
      | cons x xs =>
        rw [bind_run, inAtEnd_more hd] at h
        simp only at h
        have := hgood false t1 hk
        rw [bind_run] at h
        cases hy : encChunk n false t1 with
        | ok a v =>
          rw [hy] at h this
          simp only at h
          rw [if_neg (by simp)] at h
          have hlen := p5 (by rw [hd]; simp)
          rw [hs] at hlen
          exact ih (s := v) this.1 (by rw [this.2.2.1]; omega) t h
        | error e v =>
          rw [hy] at h this
          injection h with h1 h2
          exact this.2 h1
    · rw [h'] at h
      have := (fillChunk_bounded (room := s.params.chunkSize) (n := 0)).run s trivial
      rw [h1] at this
      injection h with h2 h3
      exact this.2 h2

/-- The stream encoder does not outrun its bound. -/
theorem encStreamBody_bounded {s : State} (hp : s.params.wf) : ∀ t, encStreamBody s ≠ .error .bound t := by
  intro t h
  rw [encStreamBody, getState_bind] at h
  rcases bind_cases (encChunks (s.inPort.length + 1)) _ s with ⟨n, t1, h1, h'⟩ | ⟨e, t1, h1, h'⟩
  · rw [h'] at h
    have := (flush_good (I := fun _ => True) (E := boundedStop) fun v => by
      refine Good.look' fun s => Good.ite (fun _ => ?_) (fun _ => ?_)
      · exact (outWrite_bounded _ fun _ _ _ _ h => h).bind fun _ => Good.change fun _ h => h
      · exact Good.change fun _ h => h).run t1 trivial
    rw [h] at this
    exact this.2 rfl
  · rw [h'] at h
    injection h with h2 h3
    exact encChunks_bounded (turns := s.inPort.length + 1) hp.1.1 rfl (by omega) t1 (by rw [h1, h2])

end Sys2Proof.Machine
end

