-- ==== Sys2Proof/Laws/Reject.lean ====
section
/-! SUPPORT. Where the block decoder raises (45_deflate.md R275 to R280): what it has read and given by then. -/

namespace Sys2Proof.Machine

/-! ### Symbols -/

/-- The longest code is as long as the bits that match none (44_huffman.md R229). -/
theorem noCode_max {t : Tables} {a : Alphabet} {l : List Nat} {bits : List Bool} (h1 : lensOf t a = l)
    (hn : NoCode l bits) : maxOf (lensOf t a) = bits.length := by
  obtain ⟨n1, n2, -⟩ := hn
  rw [h1]
  apply Nat.le_antisymm
  · by_cases hl : l = []
    · rw [hl]; exact Nat.zero_le _
    · obtain ⟨k, hk, e⟩ := List.mem_iff_getElem.1 (maxOf_mem hl)
      rw [← e]
      have := n1 k
      rwa [List.getD_eq_getElem?_getD, List.getElem?_eq_getElem hk] at this
  · rcases n2 with rfl | ⟨x, hx⟩
    · exact Nat.zero_le _
    · rw [← hx, List.getD_eq_getElem?_getD]
      cases he : l[x]? with
      | none => exact Nat.zero_le _
      | some v => exact le_maxOf (List.mem_of_getElem? he)

/-- Where no code matches, BAD_SYMBOL after the bits of the longest (44_huffman.md R229). -/
theorem hufDecode_noCode {a : Alphabet} {l : List Nat} {bits rest : List Bool} {s : State} (hR : ReaderOk s.toEngine)
    (h1 : lensOf s.tables a = l) (h2 : codesOf s.tables a = hufCanon l) (hn : NoCode l bits)
    (hu : unreadBits s = bits ++ rest) :
    ∃ t, hufDecode a s = .error (.raise .badSymbol) t ∧ Ran bits.length [] s t := by
  have hmax := noCode_max h1 hn
  have hlen : bits.length ≤ (unreadBits s).length := by rw [hu, List.length_append]; omega
  refine ⟨_, ?_, ran_advance hR hlen⟩
  rw [hufDecode_none, hmax, if_pos hlen]
  intro m hm1 hm2 hm3 y hy hly
  rw [hmax] at hm3
  have := hn.2.2 m y hm1 hm3 (by rw [← h1, lensOf_getD hy, hly])
  rw [← h2, codesOf_getD hy] at this
  rwa [hu, List.take_append_of_le_length hm3]

/-- The distance part of a copy that is an error (45_deflate.md R280). -/
theorem copyMatch_bad {d : List Nat} {l valid : Nat} {e : ErrCode} {last rest : List Bool} {s : State}
    (hR : ReaderOk s.toEngine) (h1 : lensOf s.tables .d = d) (h2 : codesOf s.tables .d = hufCanon d)
    (hv : s.wvalid.toNat = valid) (hu : unreadBits s = last ++ rest)
    (hb : (e = .badSymbol ∧ NoCode d last) ∨
      (e = .badSymbol ∧ ∃ y, (y = 30 ∨ y = 31) ∧ Coded d y ∧ last = symBits d y) ∨
      (e = .badDistance ∧ ∃ j y, j < 30 ∧ y < 2 ^ (distRange j).extra ∧ Coded d j ∧
        valid < (distRange j).base + y ∧ last = symBits d j ++ bitsOf (distRange j).extra y)) :
    ∃ t, copyMatch l s = .error (.raise e) t ∧ Ran last.length [] s t := by
  rcases hb with ⟨rfl, hn⟩ | ⟨rfl, y, hy, hc, rfl⟩ | ⟨rfl, j, y, hj, hy, hc, hlt, rfl⟩
  · obtain ⟨t, e, r⟩ := hufDecode_noCode hR h1 h2 hn hu
    exact ⟨t, by rw [copyMatch, bind_error e], r⟩
  · obtain ⟨t, e, r, -⟩ := decodeSym_ok hR h1 h2 hc hu
    exact ⟨t, by rw [copyMatch, bind_ok e, raiseIf_bind, if_pos (by omega)], r⟩
  · rw [List.append_assoc] at hu
    obtain ⟨t1, e1, r1, u1⟩ := decodeSym_ok hR h1 h2 hc hu
    obtain ⟨t2, e2, r2, -⟩ := readField_ok r1.readerOk u1 hy
    have r12 := r1.trans r2
    have hw : t2.wvalid = s.wvalid := by
      rw [(readBits_field u1 hy).1] at e2
      rw [(hufDecode_sym h1 h2 hc hu).1] at e1
      cases e2
      cases e1
      simp
    refine ⟨t2, ?_, r12.cast (by simp) rfl⟩
    rw [copyMatch, bind_ok e1, raiseIf_bind, if_neg (by omega), bind_ok e2, getState_bind, raiseIf_bind,
      if_pos (by rw [hw, hv]; exact hlt)]

/-- A symbol or token that is an error (45_deflate.md R279, R280). -/
theorem decodeSymbolsFrom_bad {ll d : List Nat} {turns valid : Nat} {e : ErrCode} {bad rest : List Bool} {s : State}
    (hR : ReaderOk s.toEngine) (hc : HasCodes ll d s.tables) (hv : s.wvalid.toNat = valid)
    (hu : unreadBits s = bad ++ rest) (hb : BadToken ll d valid e bad) :
    ∃ t, decodeSymbolsFrom (turns + 1) s = .error (.raise e) t ∧ Ran bad.length [] s t := by
  rcases hb with ⟨rfl, hn⟩ | ⟨rfl, x, hx, hcx, rfl⟩ | ⟨i, x, last, ⟨hi, hx, hcx⟩, rfl, hb⟩
  · obtain ⟨t, e, r⟩ := hufDecode_noCode hR hc.1.1 hc.1.2 hn hu
    exact ⟨t, by rw [decodeSymbolsFrom, bind_error e], r⟩
  · obtain ⟨t, e, r, -⟩ := decodeSym_ok hR hc.1.1 hc.1.2 hcx hu
    exact ⟨t, by rw [decodeSymbolsFrom, bind_ok e, if_neg (by omega), if_neg (by omega), if_neg (by omega)]; rfl, r⟩
  · rw [List.append_assoc, List.append_assoc] at hu
    obtain ⟨t1, e1, r1, u1⟩ := decodeSym_ok hR hc.1.1 hc.1.2 hcx hu
    obtain ⟨t2, e2, r2, u2⟩ := readField_ok r1.readerOk u1 hx
    have r12 := r1.trans r2
    have hw : t2.wvalid = s.wvalid := by
      rw [(readBits_field u1 hx).1] at e2
      rw [(hufDecode_sym hc.1.1 hc.1.2 hcx hu).1] at e1
      cases e2
      cases e1
      simp
    obtain ⟨t3, e3, r3⟩ := copyMatch_bad (l := (lenRange i).base + x) r12.readerOk (hc.ran r12).2.1 (hc.ran r12).2.2
      (by rw [hw, hv]) u2 hb
    refine ⟨t3, ?_, (r12.trans r3).cast (by simp [Nat.add_assoc]) rfl⟩
    rw [decodeSymbolsFrom, bind_ok e1, if_neg (by omega), if_neg (by omega), if_pos (by omega)]
    simp only [Nat.add_sub_cancel_left]
    rw [bind_ok e2, bind_error e3]

/-- Tokens, and then an error. -/
theorem decodeSymbols_bad {ll d : List Nat} {e : ErrCode} {toks : List Token} {begun bad rest : List Bool}
    {h out : List Byte} {s : State} (hR : ReaderOk s.toEngine) (hr : Remembers s h) (hc : HasCodes ll d s.tables)
    (ht : TokensBegun ll d toks begun) (ho : TokensOnto (winCap s) toks h (h ++ out)) (hroom : hasRoom s out.length)
    (hb : BadToken ll d (min (h ++ out).length (winCap s)) e bad) (hu : unreadBits s = begun ++ bad ++ rest) :
    ∃ t, decodeSymbols s = .error (.raise e) t ∧ Ran (begun.length + bad.length) out s t := by
  have hl := tokensBegun_length ht
  rw [List.append_assoc] at hu
  obtain ⟨k, hk⟩ : ∃ k, bitsLeft s + 1 = toks.length + (k + 1) :=
    ⟨bitsLeft s - toks.length, by rw [bitsLeft_eq, hu, List.length_append]; omega⟩
  obtain ⟨t, e, r⟩ := decodeSymbolsFrom_begun (turns := k + 1) hR hr hc ht ho hu hroom
  have hcap : winCap t = winCap s := (config_congr (r.frame .cfg (by decide))).2.2.2
  obtain ⟨t', e', r'⟩ := decodeSymbolsFrom_bad (turns := k) r.readerOk (hc.ran r)
    (by rw [(r.window h hr).valid, hcap]) (r.unread hu) hb
  exact ⟨t', by rw [decodeSymbols, getState_bind, hk, e, e'], (r.trans r').cast rfl (by simp)⟩

/-! ### Dynamic tables (45_deflate.md R278) -/

theorem expandSymbol_over {total sym x : Nat} {seq : List Nat} (hs : sym < 19)
    (h : total < seq.length + runLength sym x) : expandSymbol total seq sym x = .error .badCodelengths := by
  unfold expandSymbol runLength at *
  simp only
  split_ifs with h1 h2 h3 h4
  · rw [if_neg (by omega), if_neg (by omega)] at h
    exact if_pos (by omega)
  · cases hg : seq.getLast? with
    | none => rfl
    | some v => exact if_pos (by rw [if_pos (by omega)] at h; omega)
  · exact if_pos (by rw [if_pos (by omega)] at h; omega)
  · exact if_pos (by rw [if_neg (by omega), if_pos h4] at h; omega)
  · omega

theorem decodeDynamicTables_bad {e : ErrCode} {bits rest : List Bool} {s : State} (hR : ReaderOk s.toEngine)
    (hb : BadTables e bits) (hu : unreadBits s = bits ++ rest) :
    ∃ t, decodeDynamicTables s = .error (.raise e) t ∧ Read false bits.length [] s t := by
  rcases hb with ⟨rfl, hlit, hdist, hclen, g1, g2, g3, g4, rfl⟩ |
    ⟨hlit, hdist, hclen, cl, packed, seq, last, hb, hcl, hp, ⟨hx, hxl⟩, rfl, hlast⟩
  · simp only [List.append_assoc] at hu
    obtain ⟨t1, e1, r1, u1⟩ := readField_ok hR hu (by omega)
    obtain ⟨t2, e2, r2, u2⟩ := readField_ok r1.readerOk u1 (by omega)
    obtain ⟨t3, e3, r3, u3⟩ := readField_ok r2.readerOk u2 (by omega)
    refine ⟨t3, ?_, ((r1.trans r2).trans r3).read.cast rfl (by simp) rfl⟩
    rw [decodeDynamicTables, bind_ok e1, bind_ok e2, bind_ok e3, raiseIf_bind, if_pos (by omega)]
  · rw [List.append_assoc _ last, List.append_assoc _ (List.flatMap _ packed)] at hu
    obtain ⟨t6, e6, r6, u6, l6, c6⟩ := decodeDynamicTables_begun hR hb hcl hu
    have hturns : packed.length + 0 ≤ seq.length := by
      obtain ⟨t, -, h, -⟩ := readLens_begun (turns := 0) r6.readerOk l6 c6 hp hx u6
      exact h
    obtain ⟨k, hk⟩ : ∃ k, hlit + 257 + (hdist + 1) = packed.length + (k + 1) :=
      ⟨hlit + 257 + (hdist + 1) - packed.length - 1, by omega⟩
    obtain ⟨t7, e7, -, r7⟩ := readLens_begun (turns := k + 1) r6.readerOk l6 c6 hp hx u6
    have k1 : t7.tables.lenCL = t6.tables.lenCL := r7.frame (.table .lenCL) (by decide)
    have k2 : t7.tables.codeCL = t6.tables.codeCL := r7.frame (.table .codeCL) (by decide)
    have l7 : lensOf t7.tables .cl = cl := by rw [← l6]; simp only [lensOf, k1]
    have c7 : codesOf t7.tables .cl = hufCanon cl := by rw [← c6]; simp only [codesOf, k2]
    have u7 := r7.unread u6
    suffices hs : ∃ t, readLens (hlit + 257 + (hdist + 1)) (k + 1) seq t7 = .error (.raise e) t ∧ Ran last.length [] t7 t by
      obtain ⟨t, e8, r8⟩ := hs
      refine ⟨t, e6.trans (bind_error ?_), ((r6.trans r7.read).trans r8.read).cast rfl ?_ rfl⟩
      · rw [← e8, ← e7, ← hk]
      · simp only [List.length_append, bitsOf_length]
    unfold readLens
    rw [if_pos hxl]
    simp only
    rcases hlast with ⟨rfl, rfl, hc, rfl⟩ | ⟨rfl, sym, x, hs, hxx, hc, h16, hlt, rfl⟩ | ⟨rfl, hn⟩
    · obtain ⟨t, e8, r8, -⟩ := decodeSym_ok r7.readerOk l7 c7 hc u7
      exact ⟨t, by rw [bind_ok e8, if_pos ⟨rfl, rfl⟩]; rfl, r8⟩
    · rw [List.append_assoc] at u7
      obtain ⟨t8, e8, r8, u8⟩ := decodeSym_ok r7.readerOk l7 c7 hc u7
      obtain ⟨t9, e9, r9, -⟩ := readField_ok r8.readerOk u8 hxx
      refine ⟨t9, ?_, (r8.trans r9).cast (by simp) rfl⟩
      rw [bind_ok e8, if_neg (fun h => h16 h.1 h.2), bind_ok e9, expandSymbol_over hs hlt]
      rfl
    · obtain ⟨t, e8, r8⟩ := hufDecode_noCode r7.readerOk l7 c7 hn u7
      exact ⟨t, bind_error e8, r8⟩

/-! ### Blocks (45_deflate.md R274 to R282) -/

theorem headerBits (final b1 b2 : Bool) : [final, b1, b2] = bitsOf 1 (bit final) ++ bitsOf 2 (bit b1 + 2 * bit b2) := by
  revert final b1 b2
  decide

theorem decBlock_badStart {final : Bool} {e : ErrCode} {bits rest : List Bool} {s : State} (hR : ReaderOk s.toEngine)
    (hb : BadStart (readerPos s) final e bits) (hu : unreadBits s = bits ++ rest) :
    ∃ t, decBlock s = .error (.raise e) t ∧ Read final bits.length [] s t := by
  rcases hb with ⟨rfl, rfl⟩ | ⟨rfl, pad, len, nlen, hp, hl, hn, hne, rfl⟩ | ⟨tables, hb, rfl⟩
  · rw [headerBits] at hu
    obtain ⟨t1, e1, r1, -⟩ := readBlockHeader_ok (btype := 3) hR (by omega) hu
    exact ⟨t1, decBlock_stop e1 rfl, r1⟩
  · simp only [headerBits, List.append_assoc] at hu
    rw [← List.append_assoc] at hu
    obtain ⟨t1, e1, r1, u1, p1, -⟩ := readBlockHeader_ok (btype := 0) hR (by omega) hu
    have hpad : pad.length = t1.rcount.toNat := by
      rw [← padBits_readerPos, p1, hp]
      simp only [padBits]
      omega
    have r2 := ran_advance (n := pad.length) r1.readerOk (by rw [u1, List.length_append]; omega)
    obtain ⟨t3, e3, r3, u3⟩ := readField_ok r2.readerOk (advance_unread u1) hl
    obtain ⟨t4, e4, r4, -⟩ := readField_ok r3.readerOk u3 hn
    refine ⟨t4, decBlock_stop e1 ?_, (((r1.trans r2.read).trans r3.read).trans r4.read).cast (by simp) (by simp; omega) rfl⟩
    rw [blockPayload_stored, decodeStored, bind_ok (alignIn_ok r1.readerOk), ← hpad, bind_ok e3, bind_ok e4, raiseIf_bind,
      if_pos hne]
  · rw [headerBits, List.append_assoc] at hu
    obtain ⟨t1, e1, r1, u1, -⟩ := readBlockHeader_ok (btype := 2) hR (by omega) hu
    obtain ⟨t2, e2, r2⟩ := decodeDynamicTables_bad r1.readerOk hb u1
    exact ⟨t2, decBlock_stop e1 (by rw [blockPayload_dynamic, bind_error e2]), (r1.trans r2).cast (by simp) (by simp; omega) rfl⟩

theorem decBlock_badSymbols {final : Bool} {e : ErrCode} {bits rest : List Bool} {h out : List Byte} {s : State}
    (hR : ReaderOk s.toEngine) (hr : Remembers s h) (hb : BadSymbols (winCap s) final e bits h (h ++ out))
    (hu : unreadBits s = bits ++ rest) (hroom : hasRoom s out.length) :
    ∃ t, decBlock s = .error (.raise e) t ∧ Read final bits.length out s t := by
  obtain ⟨btype, ll, d, tables, begun, bad, toks, hc, ht, ho, hb, rfl⟩ := hb
  simp only [List.append_assoc] at hu
  rw [← List.append_assoc] at hu
  obtain ⟨t1, e1, r1, u1, -⟩ := readBlockHeader_ok hR hc.lt hu
  obtain ⟨t2, e2, r2, u2, c2⟩ := codes_ok r1.readerOk hc u1
  have r12 := r1.trans r2
  obtain ⟨t3, e3, r3⟩ := decodeSymbols_bad r12.readerOk (by simpa using r12.window h hr) c2 ht (by rw [r12.winCap]; exact ho)
    (r12.room (by simpa using hroom)) (by rw [r12.winCap]; exact hb) (rest := rest) (by rw [u2, List.append_assoc])
  exact ⟨t3, decBlock_stop e1 (e2.trans e3), (r12.trans r3.read).cast (by simp) (by simp; omega) (by simp)⟩

/-- Where the decoder rejects a block: what it has read and given (45_deflate.md R275 to R281). -/
theorem decBlock_bad {final : Bool} {e : ErrCode} {bits rest : List Bool} {h out : List Byte} {s : State}
    (hR : ReaderOk s.toEngine) (hr : Remembers s h) (hb : BadBlock (readerPos s) (winCap s) final e bits h (h ++ out))
    (hu : unreadBits s = bits ++ rest) (hroom : hasRoom s out.length) :
    ∃ t, decBlock s = .error (.raise e) t ∧ Read final bits.length out s t := by
  rcases hb with ⟨hb, ho⟩ | hb
  · obtain rfl : out = [] := by simpa using ho
    exact decBlock_badStart hR hb hu
  · exact decBlock_badSymbols hR hr hb hu hroom

end Sys2Proof.Machine
end

