-- ==== Sys2Proof/Laws/Cut.lean ====
section
/-! SUPPORT. Where the input ends early (41_bitio.md R172): what the decoders have read and given by then. -/

namespace Sys2Proof.Machine

variable {α β : Type} {f g : Bool} {a b : List Byte} {s t : State}

/-- The steps take every bit there is and give `out`, and stop for want of more (41_bitio.md R172). -/
def Dry (f : Bool) (out : List Byte) (x : Exec α) (s : State) : Prop :=
  ∃ t, x s = .error (dryStop t) t ∧ Read f (unreadBits s).length out s t

theorem Dry.bind {x : Exec α} (h : Dry f a x s) (y : α → Exec β) : Dry f a (x >>= y) s := by
  obtain ⟨t, e, r⟩ := h
  exact ⟨t, bind_error e, r⟩

/-- Steps that come to a point where they run dry. -/
theorem Dry.after {x y : Exec α} {n : Nat} (h : Dry g b y t) (r : Read f n a s t) (e : x s = y t) :
    Dry (f || g) (a ++ b) x s := by
  obtain ⟨u, e', r'⟩ := h
  refine ⟨u, e.trans e', (r.trans r').cast rfl ?_ rfl⟩
  have := r.fits
  rw [r.done.read.unread, List.length_drop]
  omega

/-- The same, where the steps before give nothing. -/
theorem Dry.afterRan {x y : Exec α} {n : Nat} (h : Dry g b y t) (r : Ran n [] s t) (e : x s = y t) : Dry g b x s := by
  simpa using h.after r.read e

/-- Bits that end within two pieces end within the first, or with it and within the second. -/
theorem cut_append {u more x y : List Bool} (h : u ++ more = x ++ y) :
    (∃ m, m ≠ [] ∧ u ++ m = x) ∨ ∃ v, u = x ++ v ∧ v ++ more = y := by
  rcases List.append_eq_append_iff.1 h with ⟨m, rfl, rfl⟩ | ⟨v, rfl, rfl⟩
  · by_cases hm : m = []
    · subst hm
      exact .inr ⟨[], by simp, by simp⟩
    · exact .inl ⟨m, hm, rfl⟩
  · exact .inr ⟨v, rfl, rfl⟩

theorem cut_length {u more x : List Bool} (h : u ++ more = x) (hm : more ≠ []) : u.length < x.length := by
  have := List.length_pos_iff.2 hm
  rw [← h, List.length_append]
  omega

/-- Bits that end within a list of pieces end within one of them. -/
theorem cut_flatMap {γ : Type} {p : γ → List Bool} {l : List γ} {u more : List Bool} (h : u ++ more = l.flatMap p)
    (hm : more ≠ []) :
    ∃ l1 x l2 v m, l = l1 ++ x :: l2 ∧ u = l1.flatMap p ++ v ∧ v ++ m = p x ∧ m ≠ [] := by
  induction l generalizing u with
  | nil => simp at h; exact absurd h.2 hm
  | cons x l ih =>
    rw [List.flatMap_cons] at h
    rcases cut_append h with ⟨m, hm', e⟩ | ⟨v, rfl, e⟩
    · exact ⟨[], x, l, u, m, rfl, rfl, e, hm'⟩
    · obtain ⟨l1, y, l2, w, m, rfl, rfl, e', hm'⟩ := ih e
      exact ⟨x :: l1, y, l2, w, m, rfl, by simp, e', hm'⟩

/-! ### Fields and symbols -/

@[simp] theorem dryStop_advance (n : Nat) (s : State) : dryStop (advance n s) = dryStop s := by simp [dryStop]

theorem dry_advance {x : Exec α} (hR : ReaderOk s.toEngine)
    (h : x s = .error (dryStop s) (advance (unreadBits s).length s)) : Dry false [] x s :=
  ⟨_, by rw [h, dryStop_advance], (ran_advance hR (Nat.le_refl _)).read⟩

theorem readBits_short {n : Nat} (hR : ReaderOk s.toEngine) (h : (unreadBits s).length < n) :
    Dry false [] (readBits n) s := dry_advance hR (readBits_dry h)

theorem readByte_short (hR : ReaderOk s.toEngine) (h : (unreadBits s).length < 8) : Dry false [] readByte s :=
  (readBits_short hR h).bind _

theorem readInt_short (hR : ReaderOk s.toEngine) (h : (unreadBits s).length < 32) : Dry false [] readInt s :=
  (readBits_short hR h).bind _

/-- Bits that are there are read, whatever they are. -/
theorem readAny_ok {n : Nat} (hR : ReaderOk s.toEngine) (h : n ≤ (unreadBits s).length) :
    ∃ v t, readBits n s = .ok v t ∧ Ran n [] s t ∧ unreadBits t = (unreadBits s).drop n := by
  have hl : ((unreadBits s).take n).length = n := by rw [List.length_take]; omega
  have e := readBits_ok (s := s) (a := (unreadBits s).take n) (rest := (unreadBits s).drop n) (by simp)
  rw [hl] at e
  have r := ran_advance hR h
  exact ⟨_, _, e, r, r.done.read.unread⟩

/-- A symbol that is cut short (44_huffman.md R229). -/
theorem hufDecode_cut {c : Alphabet} {l : List Nat} {x : Nat} {more : List Bool} (hR : ReaderOk s.toEngine)
    (h1 : lensOf s.tables c = l) (h2 : codesOf s.tables c = hufCanon l) (hx : Coded l x)
    (hu : unreadBits s ++ more = symBits l x) (hm : more ≠ []) : Dry false [] (hufDecode c) s := by
  have hn : l.length = alphabetSize c := by rw [← h1, lensOf_length]
  obtain ⟨x1, x2, x3, x4⟩ := hx
  have hk : (unreadBits s).length < l.getD x 0 := by simpa [symBits] using cut_length hu hm
  refine dry_advance hR ?_
  rw [hufDecode_none, if_neg]
  · have := lenAt_le_max (t := s.tables) (a := c) (x := x) (by omega)
    rw [← lensOf_getD (by omega), h1] at this
    rw [h1]
    omega
  · intro m hm1 hm2 _ y hy hly
    rw [← lensOf_getD hy, h1] at hly
    rw [← codesOf_getD hy, h2]
    have hyx : y ≠ x := by rintro rfl; omega
    have := x4 y (by omega) hyx (by omega) (by omega)
    rw [hly] at this
    have ht : (unreadBits s).take m = bitsRev m ((hufCanon l).getD x 0 / 2 ^ (l.getD x 0 - m)) := by
      rw [← bitsRev_take _ (by omega), ← symBits, ← hu, List.take_append_of_le_length hm2]
    rw [ht, codeOfBits_bitsRev, Nat.mod_eq_of_lt]
    · exact fun h => this h.symm
    · rw [Nat.div_lt_iff_lt_mul (by positivity), ← Nat.pow_add, Nat.add_sub_cancel' (by omega)]
      exact x3

/-- Bits that match no code, cut short (44_huffman.md R229). -/
theorem hufDecode_noCode_cut {c : Alphabet} {l : List Nat} {bits more : List Bool} (hR : ReaderOk s.toEngine)
    (h1 : lensOf s.tables c = l) (h2 : codesOf s.tables c = hufCanon l) (hn : NoCode l bits)
    (hu : unreadBits s ++ more = bits) (hm : more ≠ []) : Dry false [] (hufDecode c) s := by
  have hk := cut_length hu hm
  refine dry_advance hR ?_
  rw [hufDecode_none, if_neg]
  · rw [noCode_max h1 hn]
    omega
  · intro m hm1 hm2 _ y hy hly
    have := hn.2.2 m y hm1 (by omega) (by rw [← h1, lensOf_getD hy, hly])
    rwa [← hu, List.take_append_of_le_length hm2, ← h2, codesOf_getD hy] at this

/-! ### Dynamic tables (45_deflate.md R278) -/

theorem readMetaLens_short {l : List Nat} (hR : ReaderOk s.toEngine) (h : (unreadBits s).length < 3 * l.length) :
    Dry false [] (readMetaLens l) s := by
  induction l generalizing s with
  | nil => simp at h
  | cons x l ih =>
    rw [List.length_cons] at h
    rw [readMetaLens]
    by_cases h3 : (unreadBits s).length < 3
    · exact (readBits_short hR h3).bind _
    · obtain ⟨v, t1, e1, r1, u1⟩ := readAny_ok hR (Nat.not_lt.1 h3)
      have r2 := read_tables (t := { t1.tables with lenCL := t1.tables.lenCL.write x (BitVec.ofNat 4 v) }) r1.readerOk rfl
      have hd := ih (s := { t1 with tables := { t1.tables with lenCL := t1.tables.lenCL.write x (BitVec.ofNat 4 v) } })
        r1.readerOk (by rw [r2.done.read.unread, u1]; simp; omega)
      exact hd.after (r1.read.trans r2) (by rw [bind_ok e1, changeTables, change_bind])

/-- A packed length that is cut short. -/
theorem readLens_cut {cl seq : List Nat} {sym x total turns : Nat} {more : List Bool} (hR : ReaderOk s.toEngine)
    (h1 : lensOf s.tables .cl = cl) (h2 : codesOf s.tables .cl = hufCanon cl) (hc : Coded cl sym)
    (h16 : ¬ (sym = 16 ∧ seq = [])) (hl : seq.length < total)
    (hu : unreadBits s ++ more = symBits cl sym ++ bitsOf (extraBits sym) x) (hm : more ≠ []) :
    Dry false [] (readLens total (turns + 1) seq) s := by
  unfold readLens
  rw [if_pos hl]
  simp only
  rcases cut_append hu with ⟨m, hm', e⟩ | ⟨v, hv, e⟩
  · exact (hufDecode_cut hR h1 h2 hc e hm').bind _
  · obtain ⟨t1, e1, r1, u1⟩ := decodeSym_ok hR h1 h2 hc hv
    have hd := readBits_short (n := extraBits sym) r1.readerOk (by rw [u1]; simpa using cut_length e hm)
    exact (hd.bind _).afterRan r1 (by rw [bind_ok e1, if_neg h16])

/-- Packed lengths that expand have a part that expands first. -/
theorem unpackAll_split {total : Nat} {seq seq' : List Nat} {l1 l2 : List (Nat × Nat)}
    (h : unpackAll total seq (l1 ++ l2) = .ok seq') :
    ∃ mid, unpackAll total seq l1 = .ok mid ∧ unpackAll total mid l2 = .ok seq' := by
  induction l1 generalizing seq with
  | nil => exact ⟨seq, rfl, h⟩
  | cons p l1 ih =>
    rw [List.cons_append, unpackAll] at h
    rw [unpackAll]
    cases he : expandSymbol total seq p.1 p.2 with
    | error e => rw [he] at h; cases h
    | ok seq1 =>
      rw [he] at h
      exact ih h

/-- Packed lengths that are cut short. -/
theorem readLens_cutAll {cl seq' : List Nat} {packed : List (Nat × Nat)} {total : Nat} {more : List Bool}
    (hR : ReaderOk s.toEngine) (h1 : lensOf s.tables .cl = cl) (h2 : codesOf s.tables .cl = hufCanon cl)
    (hp : ∀ p ∈ packed, p.1 < 19 ∧ p.2 < 2 ^ extraBits p.1 ∧ Coded cl p.1)
    (hx : unpackAll total [] packed = .ok seq')
    (hu : unreadBits s ++ more = packed.flatMap (fun p => symBits cl p.1 ++ bitsOf (extraBits p.1) p.2)) (hm : more ≠ []) :
    Dry false [] (readLens total total []) s := by
  obtain ⟨l1, p, l2, v, m, rfl, hv, e, hm'⟩ := cut_flatMap hu hm
  obtain ⟨mid, hx1, hx2⟩ := unpackAll_split hx
  rw [unpackAll] at hx2
  cases he : expandSymbol total mid p.1 p.2 with
  | error e => rw [he] at hx2; cases hx2
  | ok seq1 =>
    obtain ⟨l3, l4, l5, -⟩ := expandSymbol_ok he
    have hp1 := fun q hq => hp q (List.mem_append_left _ hq)
    have hpp := hp p (by simp)
    obtain ⟨_, -, hle, -⟩ := readLens_begun (turns := 0) hR h1 h2 hp1 hx1 hv
    obtain ⟨k, hk⟩ : ∃ k, total = l1.length + (k + 1) := ⟨total - l1.length - 1, by rw [List.length_nil] at hle; omega⟩
    obtain ⟨t, e', -, r⟩ := readLens_begun (turns := k + 1) hR h1 h2 hp1 hx1 hv
    rw [← hk] at e'
    have k1 : t.tables.lenCL = s.tables.lenCL := r.frame (.table .lenCL) (by decide)
    have k2 : t.tables.codeCL = s.tables.codeCL := r.frame (.table .codeCL) (by decide)
    have hd := readLens_cut (turns := k) (total := total) r.readerOk (by rw [← h1]; simp only [lensOf, k1])
      (by rw [← h2]; simp only [codesOf, k2]) hpp.2.2 l5 (by omega) (by rw [r.unread hv]; exact e) hm'
    exact hd.afterRan r e'

/-- The counts of a dynamic block, cut short. -/
theorem decodeDynamicTables_short (hR : ReaderOk s.toEngine) (h : (unreadBits s).length < 14) :
    Dry false [] decodeDynamicTables s := by
  rw [decodeDynamicTables]
  by_cases h5 : (unreadBits s).length < 5
  · exact (readBits_short hR h5).bind _
  obtain ⟨v1, t1, e1, r1, u1⟩ := readAny_ok hR (Nat.not_lt.1 h5)
  have l1 : (unreadBits t1).length = (unreadBits s).length - 5 := by rw [u1, List.length_drop]
  refine Dry.afterRan ?_ r1 (bind_ok e1)
  by_cases h10 : (unreadBits t1).length < 5
  · exact (readBits_short r1.readerOk h10).bind _
  obtain ⟨v2, t2, e2, r2, u2⟩ := readAny_ok r1.readerOk (Nat.not_lt.1 h10)
  have l2 : (unreadBits t2).length = (unreadBits t1).length - 5 := by rw [u2, List.length_drop]
  exact ((readBits_short r2.readerOk (by omega)).bind _).afterRan r2 (bind_ok e2)

/-- The counts and the meta lengths of a dynamic block, cut short. -/
theorem decodeDynamicTables_cutMeta {hlit hdist hclen : Nat} {cl : List Nat} {more : List Bool} (hR : ReaderOk s.toEngine)
    (hb : hlit ≤ 29 ∧ hdist ≤ 31 ∧ hclen ≤ 15)
    (hu : unreadBits s ++ more = bitsOf 5 hlit ++ bitsOf 5 hdist ++ bitsOf 4 hclen
      ++ (clOrder.take (hclen + 4)).flatMap (fun s => bitsOf 3 (cl.getD s 0))) (hm : more ≠ []) :
    Dry false [] decodeDynamicTables s := by
  rcases cut_append hu with ⟨m, hm', e⟩ | ⟨v, hv, e⟩
  · exact decodeDynamicTables_short hR (by simpa using cut_length e hm')
  · obtain ⟨b1, b2, b3⟩ := hb
    simp only [List.append_assoc] at hv
    obtain ⟨t1, e1, r1, u1⟩ := readField_ok hR hv (by omega)
    obtain ⟨t2, e2, r2, u2⟩ := readField_ok r1.readerOk u1 (by omega)
    obtain ⟨t3, e3, r3, u3⟩ := readField_ok r2.readerOk u2 (by omega)
    have r4 := read_tables (t := { t3.tables with lenCL := .zeros 4 }) r3.readerOk rfl
    have hd := readMetaLens_short (s := { t3 with tables := { t3.tables with lenCL := .zeros 4 } })
      (l := clOrder.take (hclen + 4)) r3.readerOk (by
        rw [r4.done.read.unread, u3]
        have := cut_length e hm
        rw [List.length_flatMap] at this
        simpa [Nat.mul_comm] using this)
    apply (hd.bind _).after ((r1.trans r2).trans r3 |>.read.trans r4)
    rw [decodeDynamicTables, bind_ok e1, bind_ok e2, bind_ok e3, raiseIf_bind, if_neg (by omega), changeTables, change_bind]

theorem decodeDynamicTables_cut {cl ll d : List Nat} {bits more : List Bool} (hR : ReaderOk s.toEngine)
    (ht : DynamicTables cl ll d bits) (hu : unreadBits s ++ more = bits) (hm : more ≠ []) :
    Dry false [] decodeDynamicTables s := by
  obtain ⟨hlit, hdist, hclen, packed, seq, hb, hcl, hp, ⟨hx, -⟩, rfl, rfl, rfl⟩ := ht
  rcases cut_append hu with ⟨m, hm', e⟩ | ⟨v, hv, e⟩
  · exact decodeDynamicTables_cutMeta hR hb e hm'
  · obtain ⟨t6, e6, r6, u6, l6, c6⟩ := decodeDynamicTables_begun hR hb hcl hv
    have hd := readLens_cutAll r6.readerOk l6 c6 hp hx (by rw [u6]; exact e) hm
    exact (hd.bind _).after r6 e6

theorem decodeDynamicTables_badCut {e : ErrCode} {bits more : List Bool} (hR : ReaderOk s.toEngine)
    (hb : BadTables e bits) (hu : unreadBits s ++ more = bits) (hm : more ≠ []) : Dry false [] decodeDynamicTables s := by
  rcases hb with ⟨-, hlit, hdist, hclen, -, -, -, -, rfl⟩ |
    ⟨hlit, hdist, hclen, cl, packed, seq, last, hb, hcl, hp, ⟨hx, hxl⟩, rfl, hlast⟩
  · exact decodeDynamicTables_short hR (by simpa using cut_length hu hm)
  · rw [List.append_assoc] at hu
    rcases cut_append hu with ⟨m, hm', e⟩ | ⟨v, hv, e⟩
    · exact decodeDynamicTables_cutMeta hR hb e hm'
    · obtain ⟨t6, e6, r6, u6, l6, c6⟩ := decodeDynamicTables_begun hR hb hcl hv
      refine Dry.after (Dry.bind ?_ _) r6 e6
      rcases cut_append e with ⟨m, hm', e'⟩ | ⟨w, hw, e'⟩
      · exact readLens_cutAll r6.readerOk l6 c6 hp hx (by rw [u6]; exact e') hm'
      · rw [hw] at u6
        obtain ⟨_, -, hle, -⟩ := readLens_begun (turns := 0) r6.readerOk l6 c6 hp hx u6
        obtain ⟨k, hk⟩ : ∃ k, hlit + 257 + (hdist + 1) = packed.length + (k + 1) :=
          ⟨hlit + 257 + (hdist + 1) - packed.length - 1, by rw [List.length_nil] at hle; omega⟩
        obtain ⟨t7, e7, -, r7⟩ := readLens_begun (turns := k + 1) r6.readerOk l6 c6 hp hx u6
        rw [← hk] at e7
        have k1 : t7.tables.lenCL = t6.tables.lenCL := r7.frame (.table .lenCL) (by decide)
        have k2 : t7.tables.codeCL = t6.tables.codeCL := r7.frame (.table .codeCL) (by decide)
        have l7 : lensOf t7.tables .cl = cl := by rw [← l6]; simp only [lensOf, k1]
        have c7 : codesOf t7.tables .cl = hufCanon cl := by rw [← c6]; simp only [codesOf, k2]
        rw [← r7.unread u6] at e'
        refine Dry.afterRan ?_ r7 e7
        rcases hlast with ⟨-, -, hc, rfl⟩ | ⟨-, sym, x, -, -, hc, h16, -, rfl⟩ | ⟨-, hn⟩
        · unfold readLens
          rw [if_pos hxl]
          exact (hufDecode_cut r7.readerOk l7 c7 hc e' hm).bind _
        · exact readLens_cut r7.readerOk l7 c7 hc (fun h => h16 h.1 h.2) hxl e' hm
        · unfold readLens
          rw [if_pos hxl]
          exact (hufDecode_noCode_cut r7.readerOk l7 c7 hn e' hm).bind _

/-! ### Symbols (45_deflate.md R279, R280) -/

/-- The distance of a copy, cut short. -/
theorem copyMatch_cut {d : List Nat} {l j y : Nat} {more : List Bool} (hR : ReaderOk s.toEngine)
    (h1 : lensOf s.tables .d = d) (h2 : codesOf s.tables .d = hufCanon d) (hj : j < 30) (hc : Coded d j)
    (hu : unreadBits s ++ more = symBits d j ++ bitsOf (distRange j).extra y) (hm : more ≠ []) :
    Dry false [] (copyMatch l) s := by
  rw [copyMatch]
  rcases cut_append hu with ⟨m, hm', e⟩ | ⟨v, hv, e⟩
  · exact (hufDecode_cut hR h1 h2 hc e hm').bind _
  · obtain ⟨t1, e1, r1, u1⟩ := decodeSym_ok hR h1 h2 hc hv
    have hd := readBits_short (n := (distRange j).extra) r1.readerOk (by rw [u1]; simpa using cut_length e hm)
    exact (hd.bind _).afterRan r1 (by rw [bind_ok e1, raiseIf_bind, if_neg (by omega)])

/-- A copy's length is read, and its distance is cut short. -/
theorem decodeSymbolsFrom_cutCopy {ll d : List Nat} {turns i x : Nat} {dist more : List Bool} (hR : ReaderOk s.toEngine)
    (hc : HasCodes ll d s.tables) (hi : i < 29 ∧ x < 2 ^ (lenRange i).extra ∧ Coded ll (257 + i))
    (hd : ∀ t l v m, Ran v [] s t → unreadBits t ++ m = dist → m ≠ [] → Dry false [] (copyMatch l) t)
    (hu : unreadBits s ++ more = symBits ll (257 + i) ++ bitsOf (lenRange i).extra x ++ dist) (hm : more ≠ []) :
    Dry false [] (decodeSymbolsFrom (turns + 1)) s := by
  rw [decodeSymbolsFrom, List.append_assoc] at *
  rcases cut_append hu with ⟨m, hm', e⟩ | ⟨v, hv, e⟩
  · exact (hufDecode_cut hR hc.1.1 hc.1.2 hi.2.2 e hm').bind _
  obtain ⟨t1, e1, r1, u1⟩ := decodeSym_ok hR hc.1.1 hc.1.2 hi.2.2 hv
  rcases cut_append e with ⟨m, hm', e'⟩ | ⟨w, hw, e'⟩
  · have hs := readBits_short (n := (lenRange i).extra) r1.readerOk (by rw [u1]; simpa using cut_length e' hm')
    apply (hs.bind _).afterRan r1
    rw [bind_ok e1, if_neg (by omega), if_neg (by omega), if_pos (by omega)]
    simp only [Nat.add_sub_cancel_left]
    rfl
  · obtain ⟨t2, e2, r2, u2⟩ := readField_ok r1.readerOk (by rw [u1]; exact hw) hi.2.1
    have r12 := r1.trans r2
    have hs := hd t2 ((lenRange i).base + x) _ more r12 (by rw [u2]; exact e') hm
    apply (hs.bind _).afterRan r12
    rw [bind_ok e1, if_neg (by omega), if_neg (by omega), if_pos (by omega)]
    simp only [Nat.add_sub_cancel_left]
    rw [bind_ok e2]

/-- A symbol or token that is cut short: the end of the block, a token, or one that is an error. -/
theorem decodeSymbolsFrom_cut {ll d : List Nat} {turns : Nat} {more : List Bool} (hR : ReaderOk s.toEngine)
    (hc : HasCodes ll d s.tables) (hm : more ≠ [])
    (hb : (Coded ll 256 ∧ unreadBits s ++ more = symBits ll 256) ∨ (∃ t, TokenCoded ll d t (unreadBits s ++ more)) ∨
      ∃ valid e, BadToken ll d valid e (unreadBits s ++ more)) :
    Dry false [] (decodeSymbolsFrom (turns + 1)) s := by
  have sym : ∀ {x}, Coded ll x → unreadBits s ++ more = symBits ll x → Dry false [] (decodeSymbolsFrom (turns + 1)) s := by
    intro x hx e
    rw [decodeSymbolsFrom]
    exact (hufDecode_cut hR hc.1.1 hc.1.2 hx e hm).bind _
  have codes : ∀ {t : State} {v : Nat}, Ran v [] s t → lensOf t.tables .d = d ∧ codesOf t.tables .d = hufCanon d :=
    fun r => (hc.ran r).2
  rcases hb with ⟨hx, e⟩ | ⟨t, ht⟩ | ⟨valid, e, hb⟩
  · exact sym hx e
  · cases t with
    | literal b => exact sym ht.1 ht.2
    | copy l k =>
      obtain ⟨i, x, j, y, ⟨h1, h2, -, h3⟩, ⟨h4, -, -, h5⟩, e⟩ := ht
      exact decodeSymbolsFrom_cutCopy hR hc ⟨h1, h2, h3⟩
        (fun t l v m r e' hm' => copyMatch_cut r.readerOk (codes r).1 (codes r).2 h4 h5 e' hm') e hm
  · rcases hb with ⟨-, hn⟩ | ⟨-, x, -, hx, e⟩ | ⟨i, x, last, hi, e, hl⟩
    · rw [decodeSymbolsFrom]
      exact (hufDecode_noCode_cut hR hc.1.1 hc.1.2 hn rfl hm).bind _
    · exact sym hx e
    · refine decodeSymbolsFrom_cutCopy hR hc hi (fun t l v m r e' hm' => ?_) e hm
      rcases hl with ⟨-, hn⟩ | ⟨-, y, -, hy, rfl⟩ | ⟨-, j, y, hj, -, hcj, -, rfl⟩
      · rw [copyMatch]
        exact (hufDecode_noCode_cut r.readerOk (codes r).1 (codes r).2 hn e' hm').bind _
      · rw [copyMatch]
        exact (hufDecode_cut r.readerOk (codes r).1 (codes r).2 hy e' hm').bind _
      · exact copyMatch_cut r.readerOk (codes r).1 (codes r).2 hj hcj e' hm'

/-- Tokens, and then one that is cut short: the bytes of those before it have been given (45_deflate.md R281). -/
theorem decodeSymbols_cut {ll d : List Nat} {toks : List Token} {begun part more : List Bool} {h out : List Byte}
    (hR : ReaderOk s.toEngine) (hr : Remembers s h) (hc : HasCodes ll d s.tables) (ht : TokensBegun ll d toks begun)
    (ho : TokensOnto (winCap s) toks h (h ++ out)) (hroom : hasRoom s out.length) (hu : unreadBits s = begun ++ part)
    (hm : more ≠ [])
    (hb : (Coded ll 256 ∧ part ++ more = symBits ll 256) ∨ (∃ t, TokenCoded ll d t (part ++ more)) ∨
      ∃ valid e, BadToken ll d valid e (part ++ more)) : Dry false out decodeSymbols s := by
  have hl := tokensBegun_length ht
  obtain ⟨k, hk⟩ : ∃ k, bitsLeft s + 1 = toks.length + (k + 1) :=
    ⟨bitsLeft s - toks.length, by rw [bitsLeft_eq, hu, List.length_append]; omega⟩
  obtain ⟨t, e, r⟩ := decodeSymbolsFrom_begun (turns := k + 1) hR hr hc ht ho hu hroom
  rw [← r.unread hu] at hb
  have hd := (decodeSymbolsFrom_cut (turns := k) r.readerOk (hc.ran r) hm hb).after r.read
    (x := decodeSymbols) (by rw [decodeSymbols, getState_bind, hk, e])
  simpa using hd

/-! ### Stored blocks (45_deflate.md R276) -/

/-- Stored bytes that are cut short: those that are whole have been given. -/
theorem copyStored_cut {l : List Byte} {more : List Bool} (hR : ReaderOk s.toEngine)
    (hu : unreadBits s ++ more = streamBits l) (hm : more ≠ []) (hroom : hasRoom s ((unreadBits s).length / 8)) :
    Dry false (l.take ((unreadBits s).length / 8)) (copyStored l.length) s := by
  induction l generalizing s with
  | nil => simp at hu; exact absurd hu.2 hm
  | cons b l ih =>
    rw [streamBits_cons] at hu
    rw [List.length_cons, copyStored]
    rcases cut_append hu with ⟨m, hm', e⟩ | ⟨v, hv, e⟩
    · have h8 : (unreadBits s).length < 8 := by simpa using cut_length e hm'
      rw [Nat.div_eq_of_lt h8]
      exact (readByte_short hR h8).bind _
    · obtain ⟨t1, e1, r1, u1, -⟩ := readByteAt hR hv
      have hl : (unreadBits s).length / 8 = v.length / 8 + 1 := by
        rw [hv, List.length_append, bitsOf_length]
        omega
      rw [hl] at hroom ⊢
      have hroom1 : hasRoom t1 (1 + v.length / 8) := r1.room (by simpa [Nat.add_comm] using hroom)
      have r2 := ran_emit (b := b) r1.readerOk
      have u2 : unreadBits (emit b t1) = v := by rw [r2.done.read.unread, u1]; rfl
      have hd := ih r2.readerOk (by rw [u2]; exact e) (by rw [u2]; exact r2.room hroom1)
      rw [u2] at hd
      have r12 := r1.trans r2
      exact hd.after r12.read (by rw [bind_ok e1, bind_ok (emitByte_ok (fun k hk => by have := hroom1 k hk; omega))])

/-- The length fields of a stored block, cut short. -/
theorem decodeStored_short {pad v : List Bool} (hR : ReaderOk s.toEngine) (hp : pad.length = s.rcount.toNat)
    (hu : unreadBits s = pad ++ v) (h : v.length < 32) : Dry false [] decodeStored s := by
  have r1 := ran_advance (n := pad.length) hR (by rw [hu, List.length_append]; omega)
  have u1 := advance_unread hu
  rw [decodeStored]
  refine Dry.afterRan ?_ r1 (by rw [bind_ok (alignIn_ok hR), ← hp])
  by_cases h16 : v.length < 16
  · exact (readBits_short r1.readerOk (by rw [u1]; exact h16)).bind _
  · obtain ⟨w, t2, e2, r2, u2⟩ := readAny_ok (n := 16) r1.readerOk (by rw [u1]; omega)
    exact ((readBits_short r2.readerOk (by rw [u2, u1, List.length_drop]; omega)).bind _).afterRan r2 (bind_ok e2)

theorem decodeStored_cut {pad more : List Bool} {bytes : List Byte} (hR : ReaderOk s.toEngine)
    (hp : pad.length = s.rcount.toNat) (hl : bytes.length < 2 ^ 16)
    (hroom : hasRoom s (((unreadBits s).length - (pad.length + 32)) / 8))
    (hu : unreadBits s ++ more =
      pad ++ (bitsOf 16 bytes.length ++ (bitsOf 16 (bytes.length ^^^ 0xFFFF) ++ streamBits bytes))) (hm : more ≠ []) :
    Dry false (bytes.take (((unreadBits s).length - (pad.length + 32)) / 8)) decodeStored s := by
  have hx : bytes.length ^^^ 0xFFFF < 2 ^ 16 := Nat.xor_lt_two_pow hl (by decide)
  have hul := unread_length s
  rcases cut_append hu with ⟨m, hm', e⟩ | ⟨v, hv, e⟩
  · have := cut_length e hm'
    omega
  have lv : (unreadBits s).length = pad.length + v.length := by rw [hv, List.length_append]
  by_cases h32 : v.length < 32
  · rw [show ((unreadBits s).length - (pad.length + 32)) / 8 = 0 by omega]
    exact decodeStored_short hR hp hv h32
  rw [← List.append_assoc] at e
  rcases cut_append e with ⟨m, hm', e'⟩ | ⟨w, rfl, e'⟩
  · have := cut_length e' hm'
    simp at this
    omega
  have r1 := ran_advance (n := pad.length) hR (by omega)
  rw [List.append_assoc] at hv
  obtain ⟨t2, e2, r2, u2⟩ := readField_ok r1.readerOk (advance_unread hv) hl
  obtain ⟨t3, e3, r3, u3⟩ := readField_ok r2.readerOk u2 hx
  have r13 := (r1.trans r2).trans r3
  rw [show ((unreadBits s).length - (pad.length + 32)) / 8 = (unreadBits t3).length / 8 by
    rw [u3]; simp at lv; omega] at hroom ⊢
  have hd := copyStored_cut r13.readerOk (by rw [u3]; exact e') hm (r13.room (by simpa using hroom))
  exact hd.after r13.read (x := decodeStored)
    (by rw [decodeStored, bind_ok (alignIn_ok hR), ← hp, bind_ok e2, bind_ok e3, raiseIf_bind, if_neg (by simp)])

/-! ### Blocks (45_deflate.md R282) -/

theorem readBlockHeader_short (hR : ReaderOk s.toEngine) (h : (unreadBits s).length < 3) :
    Dry false [] readBlockHeader s := by
  rw [readBlockHeader]
  by_cases h1 : (unreadBits s).length < 1
  · exact (readBits_short hR h1).bind _
  · obtain ⟨v, t1, e1, r1, u1⟩ := readAny_ok hR (Nat.not_lt.1 h1)
    exact ((readBits_short r1.readerOk (by rw [u1, List.length_drop]; omega)).bind _).afterRan r1 (bind_ok e1)

theorem decBlock_short {final : Bool} (hR : ReaderOk s.toEngine) (h : (unreadBits s).length < 3) :
    Dry (final && decide (3 ≤ (unreadBits s).length)) [] decBlock s := by
  rw [decide_eq_false (by omega), Bool.and_false]
  obtain ⟨t, e, r⟩ := readBlockHeader_short hR h
  exact ⟨t, by rw [decBlock_run, bind_error e], r⟩

/-- A block that goes on past its header, and whose payload runs dry. -/
theorem decBlock_dry {final : Bool} {btype : Nat} {v : List Bool} (hR : ReaderOk s.toEngine) (hb : btype < 4)
    (hu : unreadBits s = bitsOf 1 (bit final) ++ bitsOf 2 btype ++ v)
    (hp : ∀ t, Read final 3 [] s t → unreadBits t = v → readerPos t = (readerPos s + 3) % 8 →
      Dry false b (blockPayload btype) t) :
    Dry (final && decide (3 ≤ (unreadBits s).length)) b decBlock s := by
  obtain ⟨t1, e1, r1, u1, p1, -⟩ := readBlockHeader_ok hR hb hu
  rw [decide_eq_true (by have := r1.fits; omega), Bool.and_true]
  have := ((hp t1 r1 u1 p1).bind _).after r1 (x := decBlock) (by rw [decBlock_run, bind_ok e1])
  simpa using this

/-- Where the input ends in a block: the decoder has read every bit and given the bytes whose bits are all there. -/
theorem decBlock_cut {final : Bool} {btype : Nat} {h out : List Byte} (hR : ReaderOk s.toEngine) (hr : Remembers s h)
    (hb : BlockCut (readerPos s) (winCap s) final btype (unreadBits s) h (h ++ out)) (hroom : hasRoom s out.length) :
    Dry (final && decide (3 ≤ (unreadBits s).length)) out decBlock s := by
  obtain ⟨more, hm, hb⟩ := hb
  have hdr : ∀ (final : Bool) (b : Nat), (bitsOf 1 (bit final) ++ bitsOf 2 b).length = 3 := fun _ _ => by simp
  have padOf : ∀ {t : State} {pad : List Bool}, readerPos t = (readerPos s + 3) % 8 →
      pad.length = padBits (readerPos s + 3) → pad.length = t.rcount.toNat := by
    intro t pad p1 hp
    rw [← padBits_readerPos, p1, hp]
    simp only [padBits]
    omega
  rcases hb with ⟨rfl, pad, bytes, hp, hl, hu, ho⟩ | ⟨ho, e, hb⟩ | ⟨ll, d, tables, hc, hb⟩
  · obtain rfl : out = bytes.take (((unreadBits s).length - (pad.length + 35)) / 8) := by simpa using ho
    simp only [List.append_assoc] at hu
    rw [← List.append_assoc] at hu
    rcases cut_append hu with ⟨m, hm', e⟩ | ⟨v, hv, e⟩
    · have h3 : (unreadBits s).length < 3 := by simpa using cut_length e hm'
      rw [show ((unreadBits s).length - (pad.length + 35)) / 8 = 0 by omega]
      exact decBlock_short hR h3
    · have lv : (unreadBits s).length = 3 + v.length := by rw [hv, List.length_append, hdr]
      refine decBlock_dry hR (by omega) hv fun t r u p => ?_
      rw [show ((unreadBits s).length - (pad.length + 35)) / 8 = ((unreadBits t).length - (pad.length + 32)) / 8 by
        rw [u]; omega] at hroom ⊢
      have hlt : ((unreadBits t).length - (pad.length + 32)) / 8 ≤ bytes.length := by
        have := cut_length e hm
        simp at this
        rw [u]
        omega
      rw [List.length_take, Nat.min_eq_left hlt] at hroom
      exact decodeStored_cut r.readerOk (padOf p hp) hl (r.room (by simpa using hroom)) (by rw [u]; exact e) hm
  · obtain rfl : out = [] := by simpa using ho
    rcases hb with ⟨-, hu⟩ | ⟨-, pad, len, nlen, hp, hl, hn, hne, hu⟩ | ⟨tables, hb, hu⟩
    · exact decBlock_short hR (cut_length hu hm)
    · simp only [headerBits, List.append_assoc] at hu
      rw [← List.append_assoc] at hu
      rcases cut_append hu with ⟨m, hm', e⟩ | ⟨v, hv, e⟩
      · exact decBlock_short hR (by simpa using cut_length e hm')
      · refine decBlock_dry (btype := 0) hR (by omega) hv fun t r u p => ?_
        rw [← u] at e
        have ht := unread_length t
        have hpt := padOf p hp
        rcases cut_append e with ⟨m, hm', e⟩ | ⟨w, hw, e⟩
        · have := cut_length e hm'
          omega
        rw [blockPayload_stored]
        exact decodeStored_short r.readerOk hpt hw (by simpa using cut_length e hm)
    · rw [headerBits] at hu
      rcases cut_append hu with ⟨m, hm', e⟩ | ⟨v, hv, e⟩
      · exact decBlock_short hR (by simpa using cut_length e hm')
      · refine decBlock_dry (btype := 2) hR (by omega) hv fun t r u p => ?_
        rw [blockPayload_dynamic]
        exact (decodeDynamicTables_badCut r.readerOk hb (by rw [u]; exact e) hm).bind _
  · rcases hb with ⟨hu, ho⟩ | ⟨toks, begun, part, ht, ho, hu, hb⟩
    · obtain rfl : out = [] := by simpa using ho
      rcases cut_append hu with ⟨m, hm', e⟩ | ⟨v, hv, e⟩
      · exact decBlock_short hR (by simpa using cut_length e hm')
      · refine decBlock_dry hR hc.lt hv fun t r u p => ?_
        rcases hc with ⟨rfl, rfl, rfl, rfl⟩ | ⟨rfl, cl, hc⟩
        · simp at e
          exact absurd e.2 hm
        · rw [blockPayload_dynamic]
          exact (decodeDynamicTables_cut r.readerOk hc (by rw [u]; exact e) hm).bind _
    · simp only [List.append_assoc] at hu
      rw [← List.append_assoc] at hu
      refine decBlock_dry hR hc.lt hu fun t r u p => ?_
      obtain ⟨t2, e2, r2, u2, c2⟩ := codes_ok r.readerOk hc u
      have r12 := r.trans r2
      have hd := decodeSymbols_cut r12.readerOk (by simpa using r12.window h hr) c2 ht (by rw [r12.winCap]; exact ho)
        (r12.room (by simpa using hroom)) u2 hm hb
      simpa using hd.after r2 e2

theorem tokenOnto_append (h : List Byte) (t : Token) : ∃ out, tokenOnto h t = h ++ out := by
  cases t with
  | literal b => exact ⟨[b], rfl⟩
  | copy l k =>
    obtain ⟨out, e, -⟩ := copyOnto_append k l h
    exact ⟨out, e⟩

/-- A proper prefix of a block's symbols: tokens, and then one, or the end of the block, that is cut short. -/
theorem tokensCoded_cut {n : Nat} {ll d : List Nat} {toks : List Token} {u more : List Bool} {h out : List Byte}
    (hc : TokensCoded ll d toks (u ++ more)) (ho : TokensOnto n toks h (h ++ out)) (hm : more ≠ []) :
    ∃ k m toks' begun part, m ≠ [] ∧ TokensBegun ll d toks' begun ∧ TokensOnto n toks' h (h ++ out.take k) ∧
      u = begun ++ part ∧ ((Coded ll 256 ∧ part ++ m = symBits ll 256) ∨ ∃ t, TokenCoded ll d t (part ++ m)) := by
  induction toks generalizing u h out with
  | nil => exact ⟨0, more, [], [], u, hm, rfl, by simp [TokensOnto], rfl, .inl hc⟩
  | cons t toks ih =>
    obtain ⟨a, b, ha, hb, e⟩ := hc
    rcases cut_append e with ⟨m, hm', rfl⟩ | ⟨v, rfl, rfl⟩
    · exact ⟨0, m, [], [], u, hm', rfl, by simp [TokensOnto], rfl, .inr ⟨t, ha⟩⟩
    · obtain ⟨hd, ho⟩ := ho
      obtain ⟨o1, e1⟩ := tokenOnto_append h t
      rw [e1] at ho
      obtain ⟨o2, e2⟩ := tokensOnto_append ho
      obtain rfl : out = o1 ++ o2 := by simpa using e2
      obtain ⟨k, m, toks', begun, part, hm', hb', ho', rfl, hp⟩ := ih (out := o2) hb (by rwa [← List.append_assoc] at ho)
      refine ⟨o1.length + k, m, t :: toks', a ++ begun, part, hm', ⟨a, begun, ha, hb', rfl⟩, ⟨hd, ?_⟩, by simp, hp⟩
      rw [e1, List.take_length_add_append, ← List.append_assoc]
      exact ho'

/-- A proper prefix of a block is a block that is cut short, with the bytes whose bits are all there. -/
theorem blockCoded_cut {pos n btype : Nat} {final : Bool} {u more : List Bool} {h out : List Byte}
    (hb : BlockCoded pos n final btype (u ++ more) h (h ++ out)) (hm : more ≠ []) :
    ∃ k, BlockCut pos n final btype u h (h ++ out.take k) := by
  obtain ⟨payload, hu, hb⟩ := hb
  have symbols : ∀ {ll d : List Nat} {tables symbols : List Bool} {toks : List Token}, CodesCoded btype ll d tables →
      TokensCoded ll d toks symbols → TokensOnto n toks h (h ++ out) →
      u ++ more = bitsOf 1 (bit final) ++ bitsOf 2 btype ++ tables ++ symbols →
      ∃ k, BlockCut pos n final btype u h (h ++ out.take k) := by
    intro ll d tables symbols toks hc ht ho hu
    rcases cut_append hu with ⟨m, hm', e⟩ | ⟨v, rfl, rfl⟩
    · exact ⟨0, m, hm', .inr (.inr ⟨ll, d, tables, hc, .inl ⟨e, by simp⟩⟩)⟩
    · obtain ⟨k, m, toks', begun, part, hm', hb', ho', rfl, hp⟩ := tokensCoded_cut ht ho hm
      refine ⟨k, m, hm', .inr (.inr ⟨ll, d, tables, hc, .inr ⟨toks', begun, part, hb', ho', by simp, ?_⟩⟩)⟩
      exact hp.imp_right .inl
  rcases hb with ⟨rfl, pad, bytes, hp, hl, rfl, ho⟩ | ⟨rfl, toks, ht, ho⟩ | ⟨rfl, ll, d, tb, sb, toks, htb, hts, rfl, ho⟩
  · obtain rfl : out = bytes := by simpa using ho
    exact ⟨_, more, hm, .inl ⟨rfl, pad, out, hp, hl, by simpa using hu, rfl⟩⟩
  · exact symbols (tables := []) (.inl ⟨rfl, rfl, rfl, rfl⟩) ht ho (by simpa using hu)
  · exact symbols (.inr ⟨rfl, htb⟩) hts ho (by simpa using hu)

/-! ### Streams (45_deflate.md R283) -/

theorem blocksBegun_append {n pos count : Nat} {bits : List Bool} {h h' : List Byte}
    (hs : BlocksBegun n pos count bits h h') : ∃ out, h' = h ++ out := by
  induction hs with
  | none => exact ⟨[], by simp⟩
  | more hb _ ih =>
    obtain ⟨a, rfl⟩ := blockCoded_append hb
    obtain ⟨b, rfl⟩ := ih
    exact ⟨a ++ b, List.append_assoc ..⟩

theorem blocksBegun_zero {n pos : Nat} {bits : List Bool} {h h' : List Byte} (hs : BlocksBegun n pos 0 bits h h') :
    h' = h := by
  cases hs
  rfl

theorem blocksBegun_count {n pos count : Nat} {bits : List Bool} {h h' : List Byte}
    (hs : BlocksBegun n pos count bits h h') : count ≤ bits.length := by
  induction hs with
  | none => exact Nat.zero_le _
  | more hb _ ih =>
    obtain ⟨p, rfl, -⟩ := hb
    simp at ih ⊢
    omega

/-- The blocks at the start of a stream, decoded and committed in as many turns as there are blocks. -/
theorem decBlocks_begun {n pos count : Nat} {bits rest : List Bool} {h h' out : List Byte} {s : State} {turns k : Nat}
    (hs : BlocksBegun n pos count bits h h') (hp : pos = readerPos s) (hn : n = winCap s) (ho : h' = h ++ out)
    (hR : ReaderOk s.toEngine) (hr : Remembers s h) (hu : unreadBits s = bits ++ rest) (hroom : hasRoom s out.length) :
    ∃ t, decBlocks (count + turns) k s = decBlocks turns (k + count) t ∧ Read false bits.length out s t ∧
      t.outCommit = commitAfter s count out := by
  induction hs generalizing s k out with
  | none =>
    obtain rfl : out = [] := by simpa using ho
    exact ⟨s, by simp, (Ran.refl hR).read, by simp [commitAfter]⟩
  | @more pos count btype bits bits' h h1 h2 hb hs ih =>
    subst hp hn
    obtain ⟨a, rfl⟩ := blockCoded_append hb
    obtain ⟨b, hb'⟩ := blocksBegun_append hs
    have hab : out = a ++ b := by
      rw [hb', List.append_assoc] at ho
      exact (List.append_cancel_left ho).symm
    subst hab
    rw [List.append_assoc] at hu
    obtain ⟨t, e, r, c, -⟩ := decBlock_ok hR hr hb hu (fun q hq => by
      have := hroom q hq
      rw [List.length_append] at this
      omega)
    obtain ⟨t', e', r', c'⟩ := ih (s := t) (k := k + 1) (out := b)
      (readerPos_took r.done.read r.fits).symm r.winCap.symm hb' r.readerOk (r.window h hr) (r.unread hu)
      (r.room (by simpa using hroom))
    refine ⟨t', ?_, (r.trans r').cast rfl (by simp) rfl, ?_⟩
    · rw [show count + 1 + turns = count + turns + 1 by omega, decBlocks, bind_ok e, if_neg (by simp [bit]), e']
      congr 1
      omega
    · rw [c', commitAfter, commitAfter, if_neg (Nat.succ_ne_zero _), c, r.done.count, List.length_append, BitVec.ofNat_add,
        BitVec.add_assoc]
      split
      · rename_i h0
        obtain rfl : b = [] := by
          rw [h0] at hs
          simpa using hb'.symm.trans (blocksBegun_zero hs)
        simp
      · rfl

theorem badSymbols_append {n : Nat} {final : Bool} {e : ErrCode} {bits : List Bool} {h h' : List Byte}
    (hb : BadSymbols n final e bits h h') : ∃ out, h' = h ++ out := by
  obtain ⟨_, _, _, _, _, _, _, -, -, ho, -⟩ := hb
  exact tokensOnto_append ho

theorem badBlock_append {pos n : Nat} {final : Bool} {e : ErrCode} {bits : List Bool} {h h' : List Byte}
    (hb : BadBlock pos n final e bits h h') : ∃ out, h' = h ++ out := by
  rcases hb with ⟨-, rfl⟩ | hb
  · exact ⟨[], by simp⟩
  · exact badSymbols_append hb

theorem blockCut_append {pos n btype : Nat} {final : Bool} {bits : List Bool} {h h' : List Byte}
    (hb : BlockCut pos n final btype bits h h') : ∃ out, h' = h ++ out := by
  obtain ⟨_, -, ⟨-, _, _, -, -, -, rfl⟩ | ⟨rfl, -⟩ | ⟨_, _, _, -, ⟨-, rfl⟩ | ⟨_, _, _, -, ho, -⟩⟩⟩ := hb
  · exact ⟨_, rfl⟩
  · exact ⟨[], by simp⟩
  · exact ⟨[], by simp⟩
  · exact tokensOnto_append ho

/-- A stream whose block after the first ones stops has committed those (45_deflate.md R281, R283). -/
theorem decStreamBody_stop {count : Nat} {blocks last : List Bool} {h done out : List Byte} {e : State → Stop}
    (hs : BlocksBegun (winCap s) (readerPos s) count blocks h (h ++ done)) (hR : ReaderOk s.toEngine) (hr : Remembers s h)
    (hu : unreadBits s = blocks ++ last) (hroom : hasRoom s (done.length + out.length)) (f : Bool) (n : Nat)
    (hb : ∀ t, Read false blocks.length done s t → unreadBits t = last → Remembers t (h ++ done) →
      readerPos t = (readerPos s + blocks.length) % 8 → hasRoom t out.length →
      ∃ u, decBlock t = .error (e u) u ∧ Read f n out t u) :
    ∃ u, decStreamBody s = .error (e u) u ∧ Read f (blocks.length + n) (done ++ out) s u ∧
      u.outCommit = commitAfter s count done := by
  have hc := blocksBegun_count hs
  obtain ⟨k, hk⟩ : ∃ k, bitsLeft s + 1 = count + (k + 1) :=
    ⟨bitsLeft s - count, by rw [bitsLeft_eq, hu, List.length_append]; omega⟩
  obtain ⟨t, e1, r1, c1⟩ := decBlocks_begun (turns := k + 1) (k := 0) hs rfl rfl rfl hR hr hu
    (fun q hq => by have := hroom q hq; omega)
  obtain ⟨u, e2, r2⟩ := hb t r1 (r1.unread hu) (r1.window h hr) (readerPos_took r1.done.read r1.fits) (r1.room hroom)
  refine ⟨u, ?_, (r1.trans r2).cast (Bool.false_or f) rfl rfl, ?_⟩
  · rw [decStreamBody, getState_bind, hk, e1, decBlocks, bind_error e2]
  · rw [decBlock_error_frames e2 .outCommit (by decide), c1]

/-- A stream that is rejected (45_deflate.md R284). -/
theorem decStreamBody_bad {count : Nat} {final : Bool} {e : ErrCode} {bits rest : List Bool} {done out : List Byte}
    (hs : BadStream (winCap s) (readerPos s) count final e bits done out) (hR : ReaderOk s.toEngine)
    (hr : Remembers s []) (hu : unreadBits s = bits ++ rest) (hroom : hasRoom s out.length) :
    ∃ t, decStreamBody s = .error (.raise e) t ∧ Read final bits.length out s t ∧
      t.outCommit = commitAfter s count done := by
  obtain ⟨blocks, last, hb, hbad, rfl⟩ := hs
  obtain ⟨out', rfl⟩ := badBlock_append hbad
  rw [List.append_assoc] at hu
  obtain ⟨t, e1, r, c⟩ := decStreamBody_stop (h := []) (last := last ++ rest) (out := out') hb hR hr hu (by simpa using hroom)
    final last.length (e := fun _ => .raise e) fun t r u w p q => by
      rw [List.nil_append] at w
      exact decBlock_bad r.readerOk w (by rw [p, r.winCap]; exact hbad) u q
  exact ⟨t, e1, r.cast rfl (by simp) rfl, c⟩

/-- A stream that ends early (41_bitio.md R172). -/
theorem decStreamBody_cut {count : Nat} {done out : List Byte}
    (hs : StreamCut (winCap s) (readerPos s) count (unreadBits s) done out) (hR : ReaderOk s.toEngine)
    (hr : Remembers s []) (hroom : hasRoom s out.length) :
    ∃ f t, decStreamBody s = .error (dryStop t) t ∧ Read f (unreadBits s).length out s t ∧
      t.outCommit = commitAfter s count done := by
  obtain ⟨blocks, last, final, btype, hb, hcut, hu⟩ := hs
  obtain ⟨out', rfl⟩ := blockCut_append hcut
  obtain ⟨t, e1, r, c⟩ := decStreamBody_stop (h := []) (out := out') hb hR hr hu (by simpa using hroom)
    (final && decide (3 ≤ last.length)) last.length (e := dryStop) fun t r u w p q => by
      rw [List.nil_append] at w
      have hd := decBlock_cut r.readerOk w (by rw [p, r.winCap, u]; exact hcut) q
      rwa [Dry, u] at hd
  exact ⟨_, t, e1, r.cast rfl (by rw [hu, List.length_append]) rfl, c⟩

/-! ### Headers and trailers (46_container.md R301, R303, R306) -/

/-- The next byte is there, or is cut short. -/
theorem readByte_cut {c : Byte} {x more : List Bool} (hR : ReaderOk s.toEngine)
    (hu : unreadBits s ++ more = bitsOf 8 c.toNat ++ x) :
    Dry false [] readByte s ∨ ∃ t, readByte s = .ok c t ∧ Ran 8 [] s t ∧ unreadBits t ++ more = x := by
  rcases cut_append hu with ⟨m, hm', e⟩ | ⟨v, hv, e⟩
  · exact .inl (readByte_short hR (by simpa using cut_length e hm'))
  · obtain ⟨t, e1, r, u, -⟩ := readByteAt hR hv
    exact .inr ⟨t, e1, r, by rw [u]; exact e⟩

theorem readInt_cut {c : Word} {x more : List Bool} (hR : ReaderOk s.toEngine)
    (hu : unreadBits s ++ more = bitsOf 32 c.toNat ++ x) :
    Dry false [] readInt s ∨ ∃ t, readInt s = .ok c t ∧ Ran 32 [] s t ∧ unreadBits t ++ more = x := by
  rcases cut_append hu with ⟨m, hm', e⟩ | ⟨v, hv, e⟩
  · exact .inl (readInt_short hR (by simpa using cut_length e hm'))
  · obtain ⟨t, e1, r, u, -⟩ := readIntAt hR hv
    exact .inr ⟨t, e1, r, by rw [u]; exact e⟩

/-- A name that is cut short. -/
theorem readName_cut {turns n : Nat} {tr : Bool} {name : List Byte} {more : List Bool} (hR : ReaderOk s.toEngine)
    (hn : ∀ b ∈ name, b ≠ 0x00#8) (hu : unreadBits s ++ more = streamBits (name ++ [0x00#8])) (hm : more ≠ [])
    (ht : (unreadBits s).length < 8 * turns) : Dry false [] (readName turns n tr) s := by
  induction name generalizing turns n tr s with
  | nil =>
    obtain ⟨turns, rfl⟩ : ∃ k, turns = k + 1 := ⟨turns - 1, by omega⟩
    exact (readByte_short hR (by simpa using cut_length hu hm)).bind _
  | cons b name ih =>
    obtain ⟨turns, rfl⟩ : ∃ k, turns = k + 1 := ⟨turns - 1, by omega⟩
    have hb := hn b List.mem_cons_self
    have hn' : ∀ c ∈ name, c ≠ 0x00#8 := fun c hc => hn c (List.mem_cons_of_mem _ hc)
    rw [List.cons_append, streamBits_cons] at hu
    rcases readByte_cut hR hu with hd | ⟨t, e, r, u⟩
    · exact hd.bind _
    · have hl : (unreadBits t).length < 8 * turns := by
        have := r.fits
        rw [r.done.read.unread, List.length_drop]
        omega
      by_cases hk : n < t.params.fnameMax
      · have r2 := read_tables (t := { t.tables with fname := t.tables.fname.write n b }) r.readerOk rfl
        have hd := ih (s := { t with tables := { t.tables with fname := t.tables.fname.write n b } }) (turns := turns)
          (n := if n < 2 ^ 32 - 1 then n + 1 else n) (tr := tr) r.readerOk hn' u hl
        exact hd.after (r.read.trans r2) (by rw [readName, bind_ok e, if_neg hb, getState_bind, if_pos hk]; rfl)
      · exact (ih (n := if n < 2 ^ 32 - 1 then n + 1 else n) (tr := true) r.readerOk hn' u hl).afterRan r
          (by rw [readName, bind_ok e, if_neg hb, getState_bind, if_neg hk])

/-- A header that is cut short (46_container.md R311). -/
theorem readHeader_cut {flg xfl os : Byte} {mtime : Word} {name : List Byte} {more : List Bool}
    (hR : ReaderOk s.toEngine) (hh : HeaderOk flg name)
    (hu : unreadBits s ++ more = streamBits (gzipHeader flg mtime xfl os name)) (hm : more ≠ []) :
    Dry false [] readHeader s := by
  obtain ⟨hf, hn, -⟩ := hh
  rw [gzipHeader] at hu
  simp only [streamBits_append, streamBits_wordBytes, streamBits_cons, streamBits_nil, List.append_nil, List.append_assoc] at hu
  rw [readHeader]
  rcases readByte_cut hR hu with hd | ⟨t1, e1, r1, u1⟩
  · exact hd.bind _
  refine Dry.afterRan ?_ r1 (by rw [bind_ok e1, raiseIf_bind, if_neg (by simp)])
  rcases readByte_cut r1.readerOk u1 with hd | ⟨t2, e2, r2, u2⟩
  · exact hd.bind _
  refine Dry.afterRan ?_ r2 (by rw [bind_ok e2, raiseIf_bind, if_neg (by simp)])
  rcases readByte_cut r2.readerOk u2 with hd | ⟨t3, e3, r3, u3⟩
  · exact hd.bind _
  refine Dry.afterRan ?_ r3 (by rw [bind_ok e3, raiseIf_bind, if_neg (by simp)])
  rcases readByte_cut r3.readerOk u3 with hd | ⟨t4, e4, r4, u4⟩
  · exact hd.bind _
  refine Dry.afterRan ?_ r4 (by rw [bind_ok e4, raiseIf_bind, if_neg (by simpa [flgRefused] using hf)])
  rcases readInt_cut r4.readerOk u4 with hd | ⟨t5, e5, r5, u5⟩
  · exact hd.bind _
  refine Dry.afterRan ?_ r5 (bind_ok e5)
  rcases readByte_cut r5.readerOk u5 with hd | ⟨t6, e6, r6, u6⟩
  · exact hd.bind _
  refine Dry.afterRan ?_ r6 (bind_ok e6)
  rcases readByte_cut r6.readerOk u6 with hd | ⟨t7, e7, r7, u7⟩
  · exact hd.bind _
  refine Dry.afterRan (Dry.bind ?_ _) r7 (bind_ok e7)
  by_cases h3 : flg.getLsbD 3 = true
  · rw [if_pos h3] at u7
    have hd := readName_cut (turns := bitsLeft t7 + 1) (n := 0) (tr := false) r7.readerOk hn u7 hm (by rw [bitsLeft_eq]; omega)
    exact hd.afterRan (Ran.refl r7.readerOk) (by rw [readNameField, getState_bind, if_pos ((flgName flg).2 h3)])
  · rw [if_neg h3] at u7
    simp at u7
    exact absurd u7.2 hm

/-- A header that is rejected, as soon as the byte is read (46_container.md R306). -/
theorem readHeader_bad {e : ErrCode} {bytes : List Byte} {rest : List Bool} (hR : ReaderOk s.toEngine)
    (hb : BadHeader e bytes) (hu : unreadBits s = streamBits bytes ++ rest) :
    ∃ t, readHeader s = .error (.raise e) t ∧ Ran (8 * bytes.length) [] s t := by
  rw [readHeader]
  rcases hb with ⟨rfl, c, rfl, hc⟩ | ⟨rfl, c, rfl, hc⟩ | ⟨rfl, c, rfl, hc⟩ | ⟨rfl, c, rfl, hc⟩ <;>
    simp only [streamBits_cons, streamBits_nil, List.append_nil, List.append_assoc] at hu <;>
    obtain ⟨t1, e1, r1, u1, -⟩ := readByteAt hR hu
  · exact ⟨t1, by rw [bind_ok e1, raiseIf_bind, if_pos hc], r1⟩
  · obtain ⟨t2, e2, r2, u2, -⟩ := readByteAt r1.readerOk u1
    exact ⟨t2, by rw [bind_ok e1, raiseIf_bind, if_neg (by simp), bind_ok e2, raiseIf_bind, if_pos hc], r1.trans r2⟩
  · obtain ⟨t2, e2, r2, u2, -⟩ := readByteAt r1.readerOk u1
    obtain ⟨t3, e3, r3, u3, -⟩ := readByteAt r2.readerOk u2
    exact ⟨t3, by rw [bind_ok e1, raiseIf_bind, if_neg (by simp), bind_ok e2, raiseIf_bind, if_neg (by simp), bind_ok e3,
      raiseIf_bind, if_pos hc], (r1.trans r2).trans r3⟩
  · obtain ⟨t2, e2, r2, u2, -⟩ := readByteAt r1.readerOk u1
    obtain ⟨t3, e3, r3, u3, -⟩ := readByteAt r2.readerOk u2
    obtain ⟨t4, e4, r4, u4, -⟩ := readByteAt r3.readerOk u3
    exact ⟨t4, by rw [bind_ok e1, raiseIf_bind, if_neg (by simp), bind_ok e2, raiseIf_bind, if_neg (by simp), bind_ok e3,
      raiseIf_bind, if_neg (by simp), bind_ok e4, raiseIf_bind, if_pos (by simpa [flgRefused] using hc)],
      ((r1.trans r2).trans r3).trans r4⟩

/-- A trailer that is cut short (46_container.md R313). -/
theorem readTrailer_short (hR : ReaderOk s.toEngine) (h : ((unreadBits s).drop s.rcount.toNat).length < 64) :
    Dry false [] readTrailer s := by
  have hl := unread_length s
  have r0 := ran_advance hR (n := s.rcount.toNat) (by omega)
  rw [← r0.done.read.unread] at h
  rw [readTrailer]
  refine Dry.afterRan ?_ r0 (bind_ok (alignIn_ok hR))
  by_cases h32 : (unreadBits (advance s.rcount.toNat s)).length < 32
  · exact (readInt_short r0.readerOk h32).bind _
  · obtain ⟨v, t, e, r, u⟩ := readAny_ok r0.readerOk (Nat.not_lt.1 h32)
    exact ((readInt_short r.readerOk (by rw [u, List.length_drop]; omega)).bind _).afterRan r
      (bind_ok (by rw [readInt, bind_ok e]; rfl))

/-! ### Commands that run dry (41_bitio.md R172) -/

/-- Where steps run dry, an error leaves what it leaves unspecified, and a hold the state (60_exceptions.md R336). -/
theorem leaving_dry {x : Exec α} (g : State → State) (h : x s = .error (dryStop t) t) :
    leavingUnspecified g x s = .error (dryStop t) (if t.inClosed then g t else t) := by
  unfold leavingUnspecified
  rw [h]
  by_cases hc : t.inClosed = true <;> simp [dryStop, hc]

/-- A command whose steps run dry raises IO_EOF where the port is closed, and holds where it is open. -/
theorem runCommand_dry {i : Instr} {steps : Exec Unit} (h : steps s = .error (dryStop s) t) :
    runCommand i steps s = .next (if s.inClosed then enterError .ioEof t else suspend i s t) := by
  rw [dryStop] at h
  by_cases hc : s.inClosed = true
  · rw [if_pos hc] at h ⊢
    exact runCommand_raise h
  · rw [if_neg hc] at h ⊢
    exact runCommand_hold h

theorem ranDry_end {F : List Field} (i : Instr) (hT : Took (unreadBits s).length s t) (h : Frames F s t)
    (h1 : Field.cmd ∉ F) (h2 : Field.errinfo ∉ F) : RanDry s (if s.inClosed then enterError .ioEof t else suspend i s t) := by
  by_cases hc : s.inClosed = true
  · rw [if_pos hc]
    exact ⟨⟨hT.unread, hT.port, hT.count, hT.buffer⟩, fun _ => raised_of_frames h h1, fun h0 => by simp [hc] at h0⟩
  · rw [if_neg hc]
    exact ⟨⟨hT.unread, hT.port, hT.count, hT.buffer⟩, fun h0 => absurd h0 hc, fun _ => ⟨rfl, rfl, rfl, rfl, h .errinfo h2, rfl⟩⟩

end Sys2Proof.Machine
end

