-- ==== Sys2Proof/Laws/Merge.lean ====
section
/-! SUPPORT. The build of a code as the relations of Safety.lean: the leaves (44_huffman.md R221), the merging
(R222) and the depth limiting (R224). -/

namespace Sys2Proof.Machine

open List (Perm)

/-! ### The leaves (44_huffman.md R221) -/

/-- What the first few of a list's entries with a property are: those with few such entries before them. -/
theorem mem_take_filter_zipIdx {l : List Nat} {p : Nat → Bool} {n k : Nat} {x : Nat × Nat} :
    x ∈ ((l.zipIdx k).filter (fun y => p y.1)).take n ↔
      ∃ s, s < l.length ∧ p (l.getD s 0) = true ∧ ((l.take s).filter p).length < n ∧ x = (l.getD s 0, k + s) := by
  induction l generalizing n k with
  | nil => simp
  | cons a l ih =>
    rw [List.zipIdx_cons, List.filter_cons]
    cases ha : p a with
    | false =>
      simp only [Bool.false_eq_true, if_false, ih]
      constructor
      · rintro ⟨s, h1, h2, h3, rfl⟩
        exact ⟨s + 1, by simpa using h1, h2, by simpa [ha] using h3, by simp; omega⟩
      · rintro ⟨s, h1, h2, h3, rfl⟩
        cases s with
        | zero => rw [List.getD_cons_zero, ha] at h2; cases h2
        | succ s => exact ⟨s, by simpa using h1, h2, by simpa [ha] using h3, by simp; omega⟩
    | true =>
      simp only [if_true]
      cases n with
      | zero => simp
      | succ n =>
        rw [List.take_succ_cons, List.mem_cons, ih]
        constructor
        · rintro (rfl | ⟨s, h1, h2, h3, rfl⟩)
          · exact ⟨0, by simp, ha, by simp, by simp⟩
          · exact ⟨s + 1, by simpa using h1, h2, by simpa [ha] using h3, by simp; omega⟩
        · rintro ⟨s, h1, h2, h3, rfl⟩
          cases s with
          | zero => exact .inl (by simp)
          | succ s => exact .inr ⟨s, by simpa using h1, h2, by simpa [ha] using h3, by simp; omega⟩

/-- The leaves of a build (44_huffman.md R221). -/
theorem mem_hufLeaves {freq : List Nat} {x : Nat × Nat} :
    x ∈ hufLeaves freq ↔ ∃ s, HasLeaf freq s ∧ x = (s, max 1 (freq.getD s 0)) := by
  have hu : (freq.zipIdx.filter (fun x => x.1 > 0)).length = (freq.filter (fun f => f > 0)).length := by
    have : freq.filter (fun f => f > 0) = (freq.zipIdx.filter (fun x => x.1 > 0)).map Prod.fst := by
      conv_lhs => rw [← List.zipIdx_map_fst 0 freq, List.filter_map]
      rfl
    rw [this, List.length_map]
  have hused : x ∈ (freq.zipIdx.filter (fun x => x.1 > 0)).map (fun x => (x.2, x.1)) ↔
      ∃ s, s < freq.length ∧ 0 < freq.getD s 0 ∧ x = (s, freq.getD s 0) := by
    have h := fun y => mem_take_filter_zipIdx (l := freq) (p := fun f => decide (f > 0)) (n := freq.length) (k := 0) (x := y)
    rw [List.take_of_length_le (by simpa using List.length_filter_le (fun y : Nat × Nat => decide (y.1 > 0)) freq.zipIdx)] at h
    rw [List.mem_map]
    constructor
    · rintro ⟨y, hy, rfl⟩
      obtain ⟨s, h1, h2, -, rfl⟩ := (h y).1 hy
      exact ⟨s, h1, by simpa using h2, by simp⟩
    · rintro ⟨s, h1, h2, rfl⟩
      refine ⟨(freq.getD s 0, s), (h _).2 ⟨s, h1, by simpa using h2, ?_, by simp⟩, rfl⟩
      exact (List.length_filter_le _ _).trans_lt (by rw [List.length_take]; omega)
  have hpad : x ∈ ((freq.zipIdx.filter (fun x => x.1 = 0)).map (fun x => (x.2, 1))).take
        (2 - ((freq.zipIdx.filter (fun x => x.1 > 0)).map (fun x => (x.2, x.1))).length) ↔
      ∃ s, s < freq.length ∧ freq.getD s 0 = 0 ∧
        (freq.filter (fun f => f > 0)).length + ((freq.take s).filter (fun f => f = 0)).length < 2 ∧ x = (s, 1) := by
    rw [← List.map_take, List.mem_map, List.length_map, hu]
    have h := fun y => mem_take_filter_zipIdx (l := freq) (p := fun f => decide (f = 0))
      (n := 2 - (freq.filter (fun f => f > 0)).length) (k := 0) (x := y)
    constructor
    · rintro ⟨y, hy, rfl⟩
      obtain ⟨s, h1, h2, h3, rfl⟩ := (h y).1 hy
      exact ⟨s, h1, by simpa using h2, by omega, by simp⟩
    · rintro ⟨s, h1, h2, h3, rfl⟩
      exact ⟨(freq.getD s 0, s), (h _).2 ⟨s, h1, by simpa using h2, by omega, by simp⟩, rfl⟩
  rw [hufLeaves, List.mem_append, hused, hpad]
  constructor
  · rintro (⟨s, h1, h2, rfl⟩ | ⟨s, h1, h2, h3, rfl⟩)
    · exact ⟨s, ⟨h1, .inl h2⟩, by rw [max_eq_right h2]⟩
    · exact ⟨s, ⟨h1, .inr h3⟩, by rw [h2]; rfl⟩
  · rintro ⟨s, ⟨h1, h2⟩, rfl⟩
    rcases Nat.eq_zero_or_pos (freq.getD s 0) with h0 | h0
    · refine .inr ⟨s, h1, h0, ?_, by rw [h0]; rfl⟩
      rcases h2 with h2 | h2
      · omega
      · exact h2
    · exact .inl ⟨s, h1, h0, by rw [max_eq_right h0]⟩

theorem leafQueue_spec (freq : List Nat) : LeafQueue freq (leafQueue (hufLeaves freq)) := by
  have hp := leafQueue_perm (hufLeaves freq)
  refine ⟨?_, fun x => ?_⟩
  · rw [hp.nodup_iff]
    have := hufLeaves_nodup freq
    refine List.Nodup.of_map (f := QNode.order) ?_
    simpa [List.map_map, Function.comp_def] using this
  · rw [hp.mem_iff, List.mem_map]
    constructor
    · rintro ⟨y, hy, rfl⟩
      obtain ⟨s, hs, rfl⟩ := mem_hufLeaves.1 hy
      exact ⟨s, hs, rfl⟩
    · rintro ⟨s, hs, rfl⟩
      exact ⟨_, mem_hufLeaves.2 ⟨s, hs, rfl⟩, rfl⟩

/-! ### The merging (44_huffman.md R222) -/

theorem before_iff {x y : QNode} : x.before y = true ↔ PopsBefore x y := by simp [QNode.before, PopsBefore]

theorem PopsBefore.trans {x y z : QNode} (h1 : PopsBefore x y) (h2 : PopsBefore y z) : PopsBefore x z := by
  unfold PopsBefore at *
  omega

/-- A queue in the order in which its nodes pop. -/
def InOrder (q : List QNode) : Prop := q.Pairwise PopsBefore

theorem enqueue_inOrder {x : QNode} {q : List QNode} (h : InOrder q) (hx : ∀ y ∈ q, y.order ≠ x.order) :
    InOrder (enqueue x q) := by
  induction q with
  | nil => exact List.pairwise_singleton _ _
  | cons y rest ih =>
    have hr := List.pairwise_cons.1 h
    unfold enqueue
    split
    · rename_i hb
      have hxy := before_iff.1 hb
      refine List.pairwise_cons.2 ⟨fun z hz => ?_, h⟩
      rcases List.mem_cons.1 hz with rfl | hz
      · exact hxy
      · exact hxy.trans (hr.1 z hz)
    · rename_i hb
      refine List.pairwise_cons.2 ⟨fun z hz => ?_, ih hr.2 fun z hz => hx z (List.mem_cons_of_mem _ hz)⟩
      rcases List.mem_cons.1 ((enqueue_perm x rest).mem_iff.1 hz) with rfl | hz
      · have hne := hx y List.mem_cons_self
        have : ¬ PopsBefore z y := fun h => hb (before_iff.2 h)
        unfold PopsBefore at *
        omega
      · exact hr.1 z hz

theorem leafQueue_inOrder {l : List (Nat × Nat)} (h : (l.map Prod.fst).Nodup) : InOrder (leafQueue l) := by
  induction l with
  | nil => exact List.Pairwise.nil
  | cons x rest ih =>
    rw [List.map_cons, List.nodup_cons] at h
    refine enqueue_inOrder (ih h.2) fun y hy => ?_
    obtain ⟨z, hz, rfl⟩ := List.mem_map.1 ((leafQueue_perm rest).mem_iff.1 hy)
    exact fun e => h.1 (List.mem_map.2 ⟨z, hz, e⟩)

/-- The order in which a queue is listed does not matter. -/
theorem Merged.perm {order : Nat} {q q' : List QNode} {t : HufTree} (h : Merged order q t) (hp : Perm q q') :
    Merged order q' t := by
  cases h with
  | root => obtain rfl := List.perm_singleton.1 hp.symm; exact .root
  | merge hq hx hy ht => exact .merge (hp.symm.trans hq) hx hy ht

/-- The merging loop merges as R222 says. -/
theorem mergeQueue_merged {turns order : Nat} {q : List QNode} {t : HufTree} (hs : InOrder q)
    (ho : ∀ x ∈ q, x.order < order) (h : mergeQueue turns order q = .ok t) : Merged order q t := by
  induction turns generalizing order q with
  | zero =>
    match q with
    | [x] => obtain rfl : x.tree = t := by simpa [mergeQueue] using h
             exact .root
    | [] => simp [mergeQueue] at h
    | x :: y :: rest => simp [mergeQueue] at h
  | succ turns ih =>
    match q with
    | [x] => obtain rfl : x.tree = t := by simpa [mergeQueue] using h
             exact .root
    | [] => simp [mergeQueue] at h
    | x :: y :: rest =>
      rw [mergeQueue] at h
      have h1 := List.pairwise_cons.1 hs
      have h2 := List.pairwise_cons.1 h1.2
      have hp := enqueue_perm ⟨x.weight + y.weight, order, .node x.tree y.tree⟩ rest
      have hr : ∀ z ∈ rest, z.order < order := fun z hz => ho z (by simp [hz])
      have := ih (enqueue_inOrder h2.2 fun z hz => (hr z hz).ne)
        (fun z hz => by
          rcases List.mem_cons.1 (hp.mem_iff.1 hz) with rfl | hz
          · exact Nat.lt_succ_self _
          · exact (hr z hz).trans (Nat.lt_succ_self _)) h
      exact .merge (.refl _) h1.1 h2.1 (this.perm hp)

/-! ### The depth limiting (44_huffman.md R224) -/

theorem detach_replaced {t : HufTree} {a : Nat} (hn : t.syms.Nodup) (ha : a ∈ t.syms) (ht : t ≠ .leaf a) :
    ∃ b, Replaced (.node (.leaf a) b) b t (t.detach a) ∨ Replaced (.node b (.leaf a)) b t (t.detach a) := by
  induction t with
  | leaf s => exact absurd (congrArg HufTree.leaf (List.mem_singleton.1 ha).symm) ht
  | node l r ihl ihr =>
    simp only [HufTree.syms] at hn ha
    have hdis := (List.nodup_append.1 hn).2.2
    by_cases hl : l.isLeaf a = true
    · obtain rfl := isLeaf_iff.1 hl
      refine ⟨r, .inl ?_⟩
      rw [HufTree.detach, if_pos hl]
      exact .here
    · by_cases hr : r.isLeaf a = true
      · obtain rfl := isLeaf_iff.1 hr
        refine ⟨l, .inr ?_⟩
        rw [HufTree.detach, if_neg hl, if_pos hr]
        exact .here
      · rw [HufTree.detach, if_neg hl, if_neg hr]
        rcases List.mem_append.1 ha with ha | ha
        · rw [detach_of_not_mem (t := r) fun h => hdis a ha a h rfl]
          obtain ⟨b, h⟩ := ihl (List.nodup_append.1 hn).1 ha fun e => hl (isLeaf_iff.2 e)
          exact ⟨b, h.imp .left .left⟩
        · rw [detach_of_not_mem (t := l) fun h => hdis a h a ha rfl]
          obtain ⟨b, h⟩ := ihr (List.nodup_append.1 hn).2.1 ha fun e => hr (isLeaf_iff.2 e)
          exact ⟨b, h.imp .right .right⟩

theorem attach_replaced {t : HufTree} {a c : Nat} (hn : t.syms.Nodup) (hc : c ∈ t.syms) :
    Replaced (.leaf c) (.node (.leaf c) (.leaf a)) t (t.attach c a) := by
  induction t with
  | leaf s =>
    obtain rfl : c = s := by simpa [HufTree.syms] using hc
    rw [HufTree.attach, if_pos rfl]
    exact .here
  | node l r ihl ihr =>
    simp only [HufTree.syms] at hn hc
    have hdis := (List.nodup_append.1 hn).2.2
    rw [HufTree.attach]
    rcases List.mem_append.1 hc with hc | hc
    · rw [attach_of_not_mem (t := r) fun h => hdis c hc c h rfl]
      exact .left (ihl (List.nodup_append.1 hn).1 hc)
    · rw [attach_of_not_mem (t := l) fun h => hdis c h c hc rfl]
      exact .right (ihr (List.nodup_append.1 hn).2.1 hc)

theorem minOf_le {l : List Nat} {x : Nat} (h : x ∈ l) : minOf l ≤ x := by
  match l with
  | [] => simp at h
  | [y] => obtain rfl : x = y := by simpa using h
           exact le_refl _
  | y :: z :: rest =>
    rw [minOf]
    rcases List.mem_cons.1 h with rfl | h
    · exact min_le_left _ _
    · exact (min_le_right _ _).trans (minOf_le h)

theorem lowestAt_le {l : List (Nat × Nat)} {x : Nat × Nat} {d : Nat} (h : x ∈ l) (hd : x.2 = d) : lowestAt l d ≤ x.1 :=
  minOf_le (List.mem_map_of_mem (List.mem_filter.2 ⟨h, by simp [hd]⟩))

/-- The leaf a turn detaches (44_huffman.md R224). -/
theorem detach_detached {t : HufTree} {limit : Nat} (hn : t.syms.Nodup) (hd : limit < t.maxDepth) :
    Detached limit (lowestAt (t.depths 0) t.maxDepth) t (t.detach (lowestAt (t.depths 0) t.maxDepth)) := by
  obtain ⟨hmax, hex⟩ := maxDepth_spec t
  have ha := lowestAt_mem hex
  obtain ⟨b, hb⟩ := detach_replaced hn (mem_syms_of_mem_depths ha) fun e => by
    have : t.maxDepth = 0 := by rw [e]; simp [HufTree.maxDepth, HufTree.depths, maxOf]
    omega
  exact ⟨b, _, hd, ha, fun x hx => ⟨hmax x hx, fun e => lowestAt_le hx e⟩, hb⟩

/-- A turn of the depth limiting is that of R224; where it finds no place, there is none. -/
theorem rebalance_turn {t : HufTree} {limit : Nat} (hn : t.syms.Nodup) (hd : limit < t.maxDepth) :
    (∃ t', rebalance limit t = some t' ∧ LimitTurn limit t t') ∨
      (rebalance limit t = none ∧ LimitStuck limit t) := by
  have hdet := detach_detached hn hd
  obtain ⟨hmax, hex⟩ := maxDepth_spec t
  obtain ⟨b, rest, p1, p2⟩ := detach_depths hn hmax (lowestAt_mem hex) (by omega)
  have hn1 : (t.detach (lowestAt (t.depths 0) t.maxDepth)).syms.Nodup := by
    have ps := (p1.map Prod.fst).nodup_iff
    have ps1 := (p2.map Prod.fst).nodup_iff
    rw [depths_syms] at ps ps1
    exact ps1.2 (List.nodup_cons.1 (ps.1 hn)).2
  generalize hu : t.detach (lowestAt (t.depths 0) t.maxDepth) = u at *
  have hm : ∀ x, x ∈ (u.depths 0).filter (fun x => x.2 + 2 ≤ limit) ↔ x ∈ u.depths 0 ∧ x.2 + 2 ≤ limit :=
    fun x => by rw [List.mem_filter, decide_eq_true_eq]
  by_cases hc : (u.depths 0).filter (fun x => x.2 + 2 ≤ limit) = []
  · refine .inr ⟨by simp [rebalance, hu, hc], _, _, hdet, fun x hx => ?_⟩
    by_contra h
    exact absurd ((hm x).2 ⟨hx, by omega⟩) (by rw [hc]; simp)
  · refine .inl ⟨_, by simp only [rebalance, hu, List.isEmpty_iff, if_neg hc]; rfl, ?_⟩
    have hk := maxOf_mem (l := ((u.depths 0).filter (fun x => x.2 + 2 ≤ limit)).map Prod.snd) (by simpa using hc)
    obtain ⟨x, hx, e⟩ := List.mem_map.1 hk
    have hlow := lowestAt_mem ⟨x, hx, e⟩
    have hlow' := (hm _).1 hlow
    refine ⟨_, _, _, u, hdet, hlow', fun y hy hy2 => ?_, attach_replaced hn1 (mem_syms_of_mem_depths hlow'.1)⟩
    have hy' := (hm y).2 ⟨hy, hy2⟩
    have hle := le_maxOf (List.mem_map_of_mem (f := Prod.snd) hy')
    rcases Nat.lt_or_eq_of_le hle with h | h
    · exact .inl h
    · exact .inr ⟨h, lowestAt_le hy' h⟩

/-- What the depth-limiting loop comes to (44_huffman.md R224). -/
theorem limitDepth_turns {limit : Nat} (hL : 1 ≤ limit) {turns : Nat} {t : HufTree} (hn : t.syms.Nodup) :
    (∀ t', limitDepth limit turns t = .ok t' → LimitTurns limit t t' ∧ t'.maxDepth ≤ limit ∧ Perm t'.syms t.syms) ∧
      (limitDepth limit turns t = .error (.raise .hufConstruct) → ∃ t', LimitTurns limit t t' ∧ LimitStuck limit t') := by
  induction turns generalizing t with
  | zero =>
    unfold limitDepth
    split
    · exact ⟨fun t' h => by cases h; exact ⟨.none, ‹_›, .refl _⟩, fun h => by cases h⟩
    · exact ⟨fun t' h => (by cases h), fun h => by cases h⟩
  | succ turns ih =>
    unfold limitDepth
    split
    · exact ⟨fun t' h => by cases h; exact ⟨.none, ‹_›, .refl _⟩, fun h => by cases h⟩
    · rename_i hd
      rcases rebalance_turn hn (Nat.lt_of_not_le hd) with ⟨u, hu, hturn⟩ | ⟨hu, hstuck⟩
      · rcases rebalance_cases hn hL (Nat.lt_of_not_le hd) with ⟨h0, -⟩ | ⟨u', hu', hp, -⟩
        · rw [h0] at hu; cases hu
        · obtain rfl : u' = u := by rw [hu'] at hu; injection hu
          simp only [hu]
          obtain ⟨i1, i2⟩ := ih (t := u') (hp.nodup_iff.2 hn)
          refine ⟨fun t' h => ?_, fun h => ?_⟩
          · obtain ⟨h1, h2, h3⟩ := i1 t' h
            exact ⟨.turn hturn h1, h2, h3.trans hp⟩
          · obtain ⟨t', h1, h2⟩ := i2 h
            exact ⟨t', .turn hturn h1, h2⟩
      · simp only [hu]
        exact ⟨fun t' h => (by cases h), fun _ => ⟨t, .none, hstuck⟩⟩

/-- A build as R221 to R224 have it, for the provers: the leaves merge, the tree is limited, and the lengths are the
depths of its leaves; or a turn of the limiting finds no place. -/
theorem hufBuild_relates {freq : List Nat} {limit : Nat} (hf : 2 ≤ freq.length) (hL : 1 ≤ limit) :
    ∃ queue tree tree', LeafQueue freq queue ∧ Merged freq.length queue tree ∧ LimitTurns limit tree tree' ∧
      ((hufBuild freq limit = .ok (treeLens freq.length tree') ∧ tree'.syms.Nodup ∧ tree'.maxDepth ≤ limit ∧
          ∀ s, s ∈ tree'.syms ↔ HasLeaf freq s) ∨
        (hufBuild freq limit = .error (.raise .hufConstruct) ∧ LimitStuck limit tree')) := by
  have hlen := hufLeaves_length freq hf
  have hq := leafQueue_perm (hufLeaves freq)
  have hqlen : (leafQueue (hufLeaves freq)).length = (hufLeaves freq).length := by simpa using hq.length_eq
  have hle := hufLeaves_le hf
  simp only [List.length_map] at hlen
  obtain ⟨t, ht, hp⟩ := mergeQueue_ok freq.length freq.length (leafQueue (hufLeaves freq))
    (fun e => by rw [e] at hqlen; simp at hqlen; omega) (by rw [hqlen]; omega)
  have hp' := hp.trans (leafQueue_syms _)
  have hn : t.syms.Nodup := hp'.nodup_iff.2 (hufLeaves_nodup freq)
  have hmerged : Merged freq.length (leafQueue (hufLeaves freq)) t :=
    mergeQueue_merged (leafQueue_inOrder (hufLeaves_nodup freq)) (fun x hx => by
      obtain ⟨y, hy, rfl⟩ := List.mem_map.1 (hq.mem_iff.1 hx)
      exact hufLeaves_lt (List.mem_map_of_mem hy)) ht
  have hsyms : ∀ s, s ∈ (hufLeaves freq).map Prod.fst ↔ HasLeaf freq s := fun s => by
    rw [List.mem_map]
    constructor
    · rintro ⟨x, hx, rfl⟩
      obtain ⟨r, hr, rfl⟩ := mem_hufLeaves.1 hx
      exact hr
    · exact fun h => ⟨_, mem_hufLeaves.2 ⟨s, h, rfl⟩, rfl⟩
  obtain ⟨hok, herr⟩ := limitDepth_turns hL (turns := excessDepth limit t) hn
  have hb : hufBuild freq limit = match limitDepth limit (excessDepth limit t) t with
      | .error e => .error e
      | .ok t' => .ok (treeLens freq.length t') := by
    unfold hufBuild
    rw [ht]
    rfl
  rcases limitDepth_cases hL _ t hn (le_refl _) with ⟨t', h', -⟩ | ⟨h', -⟩
  · obtain ⟨h1, h2, h3⟩ := hok t' h'
    rw [h'] at hb
    exact ⟨_, t, t', leafQueue_spec freq, hmerged, h1,
      .inl ⟨hb, h3.nodup_iff.2 hn, h2, fun s => (h3.trans hp').mem_iff.trans (hsyms s)⟩⟩
  · obtain ⟨t', h1, h2⟩ := herr h'
    rw [h'] at hb
    exact ⟨_, t, t', leafQueue_spec freq, hmerged, h1, .inr ⟨hb, h2⟩⟩

end Sys2Proof.Machine
end

