-- ==== Sys2Proof/Laws/PerInstr.lean ====
section
/-! SUPPORT. Two laws about commands as syntax, one lemma per constructor: the opcode of an encoded command
stands in OPC, whatever its fields hold; and the fields of a well-formed command fit its word
(30_encoding.md R90, R93). -/

namespace Sys2Proof.Laws

theorem opcField_ofNat (a k : Nat) : opcField (BitVec.ofNat 32 (a + 256 * k)) = BitVec.ofNat 8 a := by
  apply BitVec.eq_of_toNat_eq
  simp only [opcField, BitVec.extractLsb'_toNat, BitVec.toNat_ofNat, Nat.shiftRight_zero]
  omega

namespace OpcodeField

/-- OPC of the encoded word is the command's opcode. -/
def Statement (i : Instr) : Prop := opcField (encode i) = BitVec.ofNat 8 i.opcode

theorem of_fields {i : Instr} (k : Nat) (h : i.fieldBits = 256 * k) : Statement i := by
  rw [Statement, encode, h]; exact opcField_ofNat _ k
theorem nop : Statement .nop := of_fields 0 rfl
theorem reset : Statement .reset := of_fields 0 rfl
theorem clearErr : Statement .clearErr := of_fields 0 rfl
theorem streamInit : Statement .streamInit := of_fields 0 rfl
theorem tblRead (t : TableId) : Statement (.tblRead t) := of_fields (tableIdOf t) (by simp only [Instr.fieldBits]; omega)
theorem tblWrite (t : TableId) : Statement (.tblWrite t) := of_fields (tableIdOf t) (by simp only [Instr.fieldBits]; omega)
theorem bwBits (n : Nat) : Statement (.bwBits n) := of_fields (n) (by simp only [Instr.fieldBits]; omega)
theorem bwBitsR (n : Nat) : Statement (.bwBitsR n) := of_fields (n) (by simp only [Instr.fieldBits]; omega)
theorem bwFlush : Statement .bwFlush := of_fields 0 rfl
theorem bwByte : Statement .bwByte := of_fields 0 rfl
theorem bwShort : Statement .bwShort := of_fields 0 rfl
theorem bwInt : Statement .bwInt := of_fields 0 rfl
theorem brBits (n : Nat) : Statement (.brBits n) := of_fields (n) (by simp only [Instr.fieldBits]; omega)
theorem brByte : Statement .brByte := of_fields 0 rfl
theorem brShort : Statement .brShort := of_fields 0 rfl
theorem brInt : Statement .brInt := of_fields 0 rfl
theorem brAlign : Statement .brAlign := of_fields 0 rfl
theorem crcInit : Statement .crcInit := of_fields 0 rfl
theorem crcUpdate : Statement .crcUpdate := of_fields 0 rfl
theorem winReset : Statement .winReset := of_fields 0 rfl
theorem winAdd : Statement .winAdd := of_fields 0 rfl
theorem winFind : Statement .winFind := of_fields 0 rfl
theorem hufBuild (sel : Sel) (limit : Nat) : Statement (.hufBuild sel limit) := of_fields (selBits sel + 256 * limit) (by simp only [Instr.fieldBits]; omega)
theorem hufCanon (sel : Sel) : Statement (.hufCanon sel) := of_fields (selBits sel) (by simp only [Instr.fieldBits]; omega)
theorem hufFixed : Statement .hufFixed := of_fields 0 rfl
theorem hufDecode (sel : Sel) : Statement (.hufDecode sel) := of_fields (selBits sel) (by simp only [Instr.fieldBits]; omega)
theorem clPack : Statement .clPack := of_fields 0 rfl
theorem clUnpack : Statement .clUnpack := of_fields 0 rfl
theorem defEncChunk (f : Bool) : Statement (.defEncChunk f) := of_fields (65536 * bit f) (by simp only [Instr.fieldBits]; omega)
theorem defEncStream : Statement .defEncStream := of_fields 0 rfl
theorem defDecBlock : Statement .defDecBlock := of_fields 0 rfl
theorem defDecStream : Statement .defDecStream := of_fields 0 rfl
theorem gzWrHeader (f : Bool) : Statement (.gzWrHeader f) := of_fields (131072 * bit f) (by simp only [Instr.fieldBits]; omega)
theorem gzRdHeader : Statement .gzRdHeader := of_fields 0 rfl
theorem gzWrTrailer : Statement .gzWrTrailer := of_fields 0 rfl
theorem gzRdTrailer : Statement .gzRdTrailer := of_fields 0 rfl
theorem gzCompress (f : Bool) : Statement (.gzCompress f) := of_fields (131072 * bit f) (by simp only [Instr.fieldBits]; omega)
theorem gzDecompress : Statement .gzDecompress := of_fields 0 rfl

end OpcodeField

namespace FieldsFit

/-- A well-formed command's opcode and fields fit 32 bits. -/
def Statement (i : Instr) : Prop := i.wellFormed = true → i.opcode + i.fieldBits < 2 ^ 32

theorem tableIdOf_lt (t : TableId) : tableIdOf t < 16 := by cases t <;> decide

theorem selBits_lt (sel : Sel) : selBits sel < 4 := by cases sel <;> decide

theorem bit_lt (b : Bool) : bit b < 2 := by cases b <;> decide

theorem nop : Statement .nop := fun _ => by decide
theorem reset : Statement .reset := fun _ => by decide
theorem clearErr : Statement .clearErr := fun _ => by decide
theorem streamInit : Statement .streamInit := fun _ => by decide
theorem tblRead (t : TableId) : Statement (.tblRead t) := by
  intro _; have := tableIdOf_lt t; simp only [Instr.opcode, Instr.fieldBits]; omega
theorem tblWrite (t : TableId) : Statement (.tblWrite t) := by
  intro _; have := tableIdOf_lt t; simp only [Instr.opcode, Instr.fieldBits]; omega
theorem bwBits (n : Nat) : Statement (.bwBits n) := by
  intro h; simp only [Instr.wellFormed, decide_eq_true_eq] at h; simp only [Instr.opcode, Instr.fieldBits]; omega
theorem bwBitsR (n : Nat) : Statement (.bwBitsR n) := by
  intro h; simp only [Instr.wellFormed, decide_eq_true_eq] at h; simp only [Instr.opcode, Instr.fieldBits]; omega
theorem bwFlush : Statement .bwFlush := fun _ => by decide
theorem bwByte : Statement .bwByte := fun _ => by decide
theorem bwShort : Statement .bwShort := fun _ => by decide
theorem bwInt : Statement .bwInt := fun _ => by decide
theorem brBits (n : Nat) : Statement (.brBits n) := by
  intro h; simp only [Instr.wellFormed, decide_eq_true_eq] at h; simp only [Instr.opcode, Instr.fieldBits]; omega
theorem brByte : Statement .brByte := fun _ => by decide
theorem brShort : Statement .brShort := fun _ => by decide
theorem brInt : Statement .brInt := fun _ => by decide
theorem brAlign : Statement .brAlign := fun _ => by decide
theorem crcInit : Statement .crcInit := fun _ => by decide
theorem crcUpdate : Statement .crcUpdate := fun _ => by decide
theorem winReset : Statement .winReset := fun _ => by decide
theorem winAdd : Statement .winAdd := fun _ => by decide
theorem winFind : Statement .winFind := fun _ => by decide
theorem hufBuild (sel : Sel) (limit : Nat) : Statement (.hufBuild sel limit) := by
  intro h; have := selBits_lt sel; simp only [Instr.opcode, Instr.fieldBits]; simp only [Instr.wellFormed, decide_eq_true_eq] at h; omega
theorem hufCanon (sel : Sel) : Statement (.hufCanon sel) := by
  intro _; have := selBits_lt sel; simp only [Instr.opcode, Instr.fieldBits]; omega
theorem hufFixed : Statement .hufFixed := fun _ => by decide
theorem hufDecode (sel : Sel) : Statement (.hufDecode sel) := by
  intro _; have := selBits_lt sel; simp only [Instr.opcode, Instr.fieldBits]; omega
theorem clPack : Statement .clPack := fun _ => by decide
theorem clUnpack : Statement .clUnpack := fun _ => by decide
theorem defEncChunk (f : Bool) : Statement (.defEncChunk f) := by
  intro _; have := bit_lt f; simp only [Instr.opcode, Instr.fieldBits]; omega
theorem defEncStream : Statement .defEncStream := fun _ => by decide
theorem defDecBlock : Statement .defDecBlock := fun _ => by decide
theorem defDecStream : Statement .defDecStream := fun _ => by decide
theorem gzWrHeader (f : Bool) : Statement (.gzWrHeader f) := by
  intro _; have := bit_lt f; simp only [Instr.opcode, Instr.fieldBits]; omega
theorem gzRdHeader : Statement .gzRdHeader := fun _ => by decide
theorem gzWrTrailer : Statement .gzWrTrailer := fun _ => by decide
theorem gzRdTrailer : Statement .gzRdTrailer := fun _ => by decide
theorem gzCompress (f : Bool) : Statement (.gzCompress f) := by
  intro _; have := bit_lt f; simp only [Instr.opcode, Instr.fieldBits]; omega
theorem gzDecompress : Statement .gzDecompress := fun _ => by decide

end FieldsFit

end Sys2Proof.Laws
end

