-- ==== Sys2Proof/Laws/Twins.lean ====
section
/-! SUPPORT. Two runs of the same steps from states that differ in the ports alone (00_scope.md R15): where one run
goes on, the other does the same, until the first waits for the host. -/

namespace Sys2Proof.Machine

variable {α β : Type}

/-! ### States that differ in the ports -/

/-- A state with other ports. -/
def withPorts (input : List Byte) (closed : Bool) (output : List Byte) (room : Option Nat) (s : State) : State :=
  { s with inPort := input, inClosed := closed, outPort := output, outRoom := room }

/-- A change of state that neither reads nor writes the ports. -/
def PortFree (f : State → State) : Prop :=
  ∀ input closed output room s,
    f (withPorts input closed output room s) = withPorts input closed output room (f s) ∧ (f s).sawEnd = s.sawEnd

theorem PortFree.ports {f : State → State} (h : PortFree f) (s : State) :
    (f s).inPort = s.inPort ∧ (f s).inClosed = s.inClosed ∧ (f s).outPort = s.outPort ∧ (f s).outRoom = s.outRoom := by
  have e : f s = withPorts s.inPort s.inClosed s.outPort s.outRoom (f s) := (h s.inPort s.inClosed s.outPort s.outRoom s).1
  refine ⟨?_, ?_, ?_, ?_⟩ <;> · rw [e]; rfl

theorem PortFree.comp {f g : State → State} (hf : PortFree f) (hg : PortFree g) : PortFree (fun s => f (g s)) :=
  fun i c o r s => ⟨(congrArg f (hg i c o r s).1).trans (hf i c o r _).1, (hf i c o r _).2.trans (hg i c o r s).2⟩

theorem PortFree.tables (f : Tables → Tables) : PortFree fun s => { s with tables := f s.tables } :=
  fun _ _ _ _ _ => ⟨rfl, rfl⟩

/-- Steps have gone on: output has only been given, and the end of the input stays seen. -/
def Grown (s t : State) : Prop := (∃ g, t.outPort = s.outPort ++ g) ∧ (s.sawEnd = true → t.sawEnd = true)

theorem Grown.refl (s : State) : Grown s s := ⟨⟨[], by simp⟩, id⟩

theorem Grown.trans {s t u : State} (h1 : Grown s t) (h2 : Grown t u) : Grown s u := by
  obtain ⟨⟨a, ha⟩, h1⟩ := h1
  obtain ⟨⟨b, hb⟩, h2⟩ := h2
  exact ⟨⟨a ++ b, by rw [hb, ha, List.append_assoc]⟩, fun h => h2 (h1 h)⟩

theorem Grown.of_eq {s t : State} (h1 : t.outPort = s.outPort) (h2 : t.sawEnd = s.sawEnd) : Grown s t :=
  ⟨⟨[], by rw [h1, List.append_nil]⟩, fun h => h2.trans h⟩

/-- What steps have done with the ports: output given, input taken from its head, the flag left alone; where they have
seen the end of the input they have taken all of it. -/
structure Went (s t : State) : Prop where
  grown : Grown s t
  input : ∃ p, s.inPort = p ++ t.inPort
  closed : t.inClosed = s.inClosed
  ended : t.sawEnd = true → s.sawEnd = true ∨ t.inPort = []

theorem Went.refl (s : State) : Went s s := ⟨.refl s, ⟨[], rfl⟩, rfl, .inl⟩

theorem Went.trans {s t u : State} (h1 : Went s t) (h2 : Went t u) : Went s u := by
  obtain ⟨a, ha⟩ := h1.input
  obtain ⟨b, hb⟩ := h2.input
  refine ⟨h1.grown.trans h2.grown, ⟨a ++ b, by rw [ha, hb, List.append_assoc]⟩, h2.closed.trans h1.closed, fun h => ?_⟩
  rcases h2.ended h with h | h
  · rcases h1.ended h with h | h
    · exact .inl h
    · rw [h] at hb
      exact .inr (List.append_eq_nil_iff.1 hb.symm).2
  · exact .inr h

/-- Steps that leave the ports alone. -/
theorem Went.of_eq {s t : State} (h1 : t.outPort = s.outPort) (h2 : t.sawEnd = s.sawEnd) (h3 : t.inPort = s.inPort)
    (h4 : t.inClosed = s.inClosed) : Went s t :=
  ⟨.of_eq h1 h2, ⟨[], h3.symm⟩, h4, fun h => .inl (by rw [← h2]; exact h)⟩

/-- Steps that take from the input port. -/
theorem Went.of_take {s t : State} {p : List Byte} (h1 : t.outPort = s.outPort) (h2 : t.sawEnd = s.sawEnd)
    (h3 : s.inPort = p ++ t.inPort) (h4 : t.inClosed = s.inClosed) : Went s t :=
  ⟨.of_eq h1 h2, ⟨p, h3⟩, h4, fun h => .inl (by rw [← h2]; exact h)⟩

theorem PortFree.went {f : State → State} (h : PortFree f) (s : State) : Went s (f s) :=
  .of_eq (h.ports s).2.2.1 (h [] false [] none s).2 (h.ports s).1 (h.ports s).2.1

/-! ### Two runs -/

/-- What the second run does where the first stays within what may be compared: the same, or the first one waits. -/
def Same (rel : State → State → Prop) (within : State → Prop) (wait : Stop → State → State → Prop) (x y : Exec α)
    (s u : State) : Prop :=
  within (after (x s)) → match x s with
    | .ok a t => ∃ w, y u = .ok a w ∧ rel t w
    | .error .bound _ => True
    | .error e t => (∃ w, y u = .error e w ∧ rel t w) ∨ wait e t (after (y u))

/-- How two runs are compared: which states correspond, how far the comparison goes, and what it is to wait. -/
structure Twins where
  rel : State → State → Prop
  within : State → Prop
  wait : Stop → State → State → Prop
  alike : ∀ {s u}, rel s u → ∃ i c o r, u = withPorts i c o r s ∧ s.inPort.length ≤ i.length
  free : ∀ {f s u}, PortFree f → rel s u → rel (f s) (f u)
  back : ∀ {s t}, Went s t → within t → within s
  later : ∀ {e t w w'}, wait e t w → Went w w' → wait e t w'
  aside : ∀ {f e t w}, PortFree f → (∀ s, (f s).rcount = s.rcount ∧ (f s).rbuf = s.rbuf) → wait e t w → wait e (f t) w
  bit : ∀ {s u}, rel s u → Same rel within wait getBit getBit s u
  put : ∀ b {s u}, rel s u → Same rel within wait (outWrite b) (outWrite b) s u
  take : ∀ {s u b rest}, rel s u → s.inPort = b :: rest → ∃ more, u.inPort = b :: more ∧
    rel { s with inPort := rest, bytesIn := s.bytesIn + 1 } { u with inPort := more, bytesIn := u.bytesIn + 1 }

/-- Steps that only take input and give output. -/
def Grows (x : Exec α) : Prop := ∀ s, Went s (after (x s))

/-- Two runs of steps, the second of which may have a looser bound on its loops. -/
structure Twin (T : Twins) (x y : Exec α) : Prop where
  left : Grows x
  right : Grows y
  same : ∀ {s u}, T.rel s u → Same T.rel T.within T.wait x y s u

variable {T : Twins}

theorem Twin.of {x : Exec α} (h : Grows x) (hs : ∀ {s u}, T.rel s u → Same T.rel T.within T.wait x x s u) : Twin T x x :=
  ⟨h, h, hs⟩

theorem Grows.bind {x : Exec α} {f : α → Exec β} (hx : Grows x) (hf : ∀ a, Grows (f a)) : Grows (x >>= f) := fun s => by
  have h := hx s
  rcases after_bind x f s with ⟨a, t, e, e'⟩ | ⟨e, t, e1, e'⟩
  · rw [e']
    rw [e] at h
    exact h.trans (hf a t)
  · rw [e']
    rw [e1] at h
    exact h

/-- One step after another, where what follows may use that its value came from the first. -/
theorem Same.bind {x y : Exec α} {f g : α → Exec β} {s u : State} (hx : Same T.rel T.within T.wait x y s u)
    (gf : ∀ a, Grows (f a)) (gg : ∀ a, Grows (g a))
    (hf : ∀ a t w, x s = .ok a t → T.rel t w → Same T.rel T.within T.wait (f a) (g a) t w) :
    Same T.rel T.within T.wait (x >>= f) (y >>= g) s u := by
  intro hw
  unfold Same at hx
  rcases bind_cases x f s with ⟨a, t, e, e'⟩ | ⟨c, t, e, e'⟩
  · rw [e'] at hw ⊢
    rw [e] at hx
    obtain ⟨w, ew, hw'⟩ := hx (T.back (gf a t) hw)
    rw [bind_ok ew]
    exact hf a t w e hw' hw
  · rw [e'] at hw ⊢
    rw [e] at hx
    have key : ((∃ w, y u = .error c w ∧ T.rel t w) ∨ T.wait c t (after (y u))) →
        (∃ w, (y >>= g) u = .error c w ∧ T.rel t w) ∨ T.wait c t (after ((y >>= g) u)) := by
      rintro (⟨w, ew, hw'⟩ | hwt)
      · exact .inl ⟨w, bind_error ew, hw'⟩
      · refine .inr ?_
        rcases after_bind y g u with ⟨b, w, eb, eb'⟩ | ⟨b, w, eb, eb'⟩
        · rw [eb']
          rw [eb] at hwt
          exact T.later hwt (gg b w)
        · rw [eb']
          rw [eb] at hwt
          exact hwt
    cases c with
    | bound => trivial
    | hold => exact key (hx hw)
    | raise _ => exact key (hx hw)

theorem Twin.bind {x y : Exec α} {f g : α → Exec β} (hx : Twin T x y) (hf : ∀ a, Twin T (f a) (g a)) :
    Twin T (x >>= f) (y >>= g) :=
  ⟨hx.left.bind fun a => (hf a).left, hx.right.bind fun a => (hf a).right, fun h =>
    (hx.same h).bind (fun a => (hf a).left) (fun a => (hf a).right) fun a _ _ _ hw => (hf a).same hw⟩

theorem Twin.pure (a : α) : Twin T (Pure.pure a) (Pure.pure a) :=
  .of (fun s => .refl s) fun h _ => ⟨_, rfl, h⟩

theorem Twin.stop (e : Stop) : Twin T (fun s => .error e s : Exec α) (fun s => .error e s) := by
  refine .of (fun s => .refl s) fun h _ => ?_
  cases e with
  | bound => trivial
  | hold => exact .inl ⟨_, rfl, h⟩
  | raise e => exact .inl ⟨_, rfl, h⟩

theorem Twin.raise (e : ErrCode) : Twin T (Machine.raise e : Exec α) (Machine.raise e) := Twin.stop (.raise e)

theorem Twin.bound {y : Exec α} (h : Grows y) : Twin T outOfBound y :=
  ⟨fun s => .refl s, h, fun _ _ => trivial⟩

theorem Twin.change {f : State → State} (h : PortFree f) : Twin T (Machine.change f) (Machine.change f) :=
  .of h.went fun hr _ => ⟨_, rfl, T.free h hr⟩

/-- A change of the state, and what comes after it. -/
theorem Twin.then {f : State → State} {g h : Unit → Exec β} (hg : ∀ a, Twin T (g a) (h a)) (hf : PortFree f) :
    Twin T (Machine.change f >>= g) (Machine.change f >>= h) := (Twin.change hf).bind hg

theorem Twin.tables (f : Tables → Tables) : Twin T (changeTables f) (changeTables f) := Twin.change (.tables f)

theorem Twin.ite {c : Prop} [Decidable c] {x x' y y' : Exec α} (hx : Twin T x x') (hy : Twin T y y') :
    Twin T (if c then x else y) (if c then x' else y') := by
  split
  · exact hx
  · exact hy

theorem Twin.raiseIf (c : Prop) [Decidable c] (e : ErrCode) : Twin T (Machine.raiseIf c e) (Machine.raiseIf c e) :=
  Twin.ite (Twin.raise e) (Twin.pure ())

/-- A look at the state, of which the ports are no part but for the number of bytes there. -/
theorem Twin.look {f g : State → Exec β}
    (h : ∀ i c o r s, s.inPort.length ≤ i.length → Twin T (f s) (g (withPorts i c o r s))) :
    Twin T (getState >>= f) (getState >>= g) := by
  refine ⟨fun s => ?_, fun s => ?_, fun {s u} hr => ?_⟩
  · exact (h s.inPort s.inClosed s.outPort s.outRoom s (le_refl _)).left s
  · exact (h s.inPort s.inClosed s.outPort s.outRoom s (le_refl _)).right s
  · obtain ⟨i, c, o, r, rfl, hl⟩ := T.alike hr
    exact (h i c o r s hl).same hr

theorem Twin.leaving {x y : Exec α} {f : State → State} (h : Twin T x y) (hf : PortFree f)
    (hr : ∀ s, (f s).rcount = s.rcount ∧ (f s).rbuf = s.rbuf) :
    Twin T (leavingUnspecified f x) (leavingUnspecified f y) := by
  have hg : ∀ {z : Exec α}, Grows z → Grows (leavingUnspecified f z) := fun {z} hz s => by
    have := hz s
    unfold leavingUnspecified
    cases e : z s with
    | ok a t => rw [e] at this; exact this
    | error c t =>
      rw [e] at this
      cases c with
      | raise c => exact this.trans (hf.went t)
      | hold => exact this
      | bound => exact this
  refine ⟨hg h.left, hg h.right, fun {s u} hrel hw => ?_⟩
  have h1 := h.same hrel
  unfold Same at h1
  unfold leavingUnspecified at hw ⊢
  cases e : x s with
  | ok a t =>
    rw [e] at h1 hw
    obtain ⟨w, ew, hw'⟩ := h1 hw
    exact ⟨w, by rw [ew], hw'⟩
  | error c t =>
    rw [e] at h1 hw
    have hlast : Went (after (y u)) (after (leavingUnspecified f y u)) := by
      unfold leavingUnspecified
      cases e' : y u with
      | ok a t => exact .refl _
      | error c t =>
        cases c with
        | raise c => exact hf.went t
        | hold => exact .refl _
        | bound => exact .refl _
    cases c with
    | raise c =>
      rcases h1 (T.back (hf.went t) hw) with ⟨w, ew, hw'⟩ | hwt
      · exact .inl ⟨f w, by rw [ew], T.free hf hw'⟩
      · exact .inr (T.aside hf hr (T.later hwt hlast))
    | hold =>
      rcases h1 hw with ⟨w, ew, hw'⟩ | hwt
      · exact .inl ⟨w, by rw [ew], hw'⟩
      · exact .inr (T.later hwt hlast)
    | bound => trivial

/-! ### The primitives -/

theorem getBit_grows : Grows getBit := fun s => by
  have h1 : (after (getBit s)).outPort = s.outPort := getBit_frames s .outPort (by decide)
  have h2 : (after (getBit s)).sawEnd = s.sawEnd := getBit_frames s .sawEnd (by decide)
  have h4 : (after (getBit s)).inClosed = s.inClosed := getBit_frames s .inClosed (by decide)
  cases hu : unreadBits s with
  | nil => exact .of_eq h1 h2 (by rw [getBit_dry hu]; rfl) h4
  | cons b rest =>
    refine .of_take (p := s.inPort.take (bytesFor s 1)) h1 h2 ?_ h4
    have := (advance_port (n := 1) (s := s) (by rw [hu]; simp)).1
    rw [getBit_ok hu]
    show s.inPort = _ ++ (advance 1 s).inPort
    rw [this, List.take_append_drop]

theorem getBit_twin : Twin T getBit getBit := .of getBit_grows T.bit

theorem outWrite_grows (b : Byte) : Grows (outWrite b) := fun s => by
  unfold outWrite
  cases s.outRoom with
  | none => exact ⟨⟨⟨[b], rfl⟩, id⟩, ⟨[], rfl⟩, rfl, .inl⟩
  | some k =>
    cases k with
    | zero => exact .refl s
    | succ k => exact ⟨⟨⟨[b], rfl⟩, id⟩, ⟨[], rfl⟩, rfl, .inl⟩

theorem outWrite_twin (b : Byte) : Twin T (outWrite b) (outWrite b) := .of (outWrite_grows b) (T.put b)

theorem inAtEnd_grows : Grows inAtEnd := fun s => by
  cases hp : s.inPort with
  | nil =>
    cases hc : s.inClosed with
    | true =>
      rw [inAtEnd_end hp hc]
      exact ⟨⟨⟨[], (List.append_nil _).symm⟩, fun _ => rfl⟩, ⟨[], rfl⟩, rfl, fun _ => .inr hp⟩
    | false =>
      rw [inAtEnd_open hp hc]
      exact .refl s
  | cons b rest =>
    rw [inAtEnd_more hp]
    exact .refl s

theorem alignIn_twin : Twin T alignIn alignIn :=
  .of (fun s => .of_eq rfl rfl rfl rfl) fun {s u} h _ => by
    have h' := T.free (f := fun s => { s with rbuf := 0, rcount := 0 }) (fun _ _ _ _ _ => ⟨rfl, rfl⟩) h
    obtain ⟨i, c, o, r, rfl, -⟩ := T.alike h
    exact ⟨_, rfl, h'⟩

theorem readBits_twin (n : Nat) : Twin T (readBits n) (readBits n) := by
  induction n with
  | zero => exact Twin.pure 0
  | succ n ih => exact getBit_twin.bind fun _ => ih.bind fun _ => Twin.pure _

theorem readByte_twin : Twin T readByte readByte := (readBits_twin 8).bind fun _ => Twin.pure _

theorem readInt_twin : Twin T readInt readInt := (readBits_twin 32).bind fun _ => Twin.pure _

theorem putBit_twin (b : Bool) : Twin T (putBit b) (putBit b) :=
  Twin.look fun _ _ _ _ s _ => by
    refine Twin.ite ?_ (Twin.change fun _ _ _ _ _ => ⟨rfl, rfl⟩)
    exact (outWrite_twin (pushBit s.wbuf s.wcount b)).bind fun _ => Twin.change fun _ _ _ _ _ => ⟨rfl, rfl⟩

theorem writeBits_twin (v n : Nat) : Twin T (writeBits v n) (writeBits v n) := by
  induction n generalizing v with
  | zero => exact Twin.pure ()
  | succ n ih => exact (putBit_twin _).bind fun _ => ih _

theorem writeBitsR_twin (v n : Nat) : Twin T (writeBitsR v n) (writeBitsR v n) := by
  induction n with
  | zero => exact Twin.pure ()
  | succ n ih => exact (putBit_twin _).bind fun _ => ih

theorem putOnes_twin (n : Nat) : Twin T (putOnes n) (putOnes n) := by
  induction n with
  | zero => exact Twin.pure ()
  | succ n ih => exact (putBit_twin _).bind fun _ => ih

theorem flush_twin : Twin T flush flush := Twin.look fun _ _ _ _ _ _ => putOnes_twin _

theorem writeBytes_twin (l : List Byte) : Twin T (writeBytes l) (writeBytes l) := by
  induction l with
  | nil => exact Twin.pure ()
  | cons b l ih => exact (writeBits_twin _ _).bind fun _ => ih

/-! ### The decoder (45_deflate.md R274 to R283) -/

theorem decodeFrom_twin (table : List (Nat × Nat)) (rem len v : Nat) :
    Twin T (decodeFrom table rem len v) (decodeFrom table rem len v) := by
  induction rem generalizing len v with
  | zero => exact Twin.raise _
  | succ rem ih =>
    refine getBit_twin.bind fun b => ?_
    dsimp only
    split
    · exact Twin.pure _
    · exact ih _ _

theorem hufDecode_twin (a : Alphabet) : Twin T (hufDecode a) (hufDecode a) :=
  Twin.look fun _ _ _ _ s _ => decodeFrom_twin ((lensOf s.tables a).zip (codesOf s.tables a)) (maxOf (lensOf s.tables a)) 1 0

theorem emitByte_twin (b : Byte) : Twin T (emitByte b) (emitByte b) :=
  (outWrite_twin b).bind fun _ => Twin.change fun _ _ _ _ _ => ⟨rfl, rfl⟩

theorem copyStored_twin (n : Nat) : Twin T (copyStored n) (copyStored n) := by
  induction n with
  | zero => exact Twin.pure ()
  | succ n ih => exact readByte_twin.bind fun b => (emitByte_twin b).bind fun _ => ih

theorem decodeStored_twin : Twin T decodeStored decodeStored :=
  alignIn_twin.bind fun _ => (readBits_twin 16).bind fun _ => (readBits_twin 16).bind fun _ =>
    (Twin.raiseIf _ _).bind fun _ => copyStored_twin _

theorem readMetaLens_twin (l : List Nat) : Twin T (readMetaLens l) (readMetaLens l) := by
  induction l with
  | nil => exact Twin.pure ()
  | cons k l ih => exact (readBits_twin 3).bind fun _ => (Twin.tables _).bind fun _ => ih

theorem readLens_twin (total turns : Nat) (seq : List Nat) : Twin T (readLens total turns seq) (readLens total turns seq) := by
  induction turns generalizing seq with
  | zero =>
    unfold readLens
    exact Twin.ite (Twin.bound fun s => .refl s) (Twin.pure _)
  | succ turns ih =>
    unfold readLens
    refine Twin.ite ((hufDecode_twin .cl).bind fun sym => ?_) (Twin.pure _)
    refine Twin.ite (Twin.raise _) ((readBits_twin _).bind fun x => ?_)
    cases expandSymbol total seq sym x with
    | error e => exact Twin.raise _
    | ok seq' => exact ih _

theorem decodeDynamicTables_twin : Twin T decodeDynamicTables decodeDynamicTables :=
  (readBits_twin 5).bind fun _ => (readBits_twin 5).bind fun _ => (readBits_twin 4).bind fun _ =>
    (Twin.raiseIf _ _).bind fun _ => (Twin.tables _).bind fun _ => (readMetaLens_twin _).bind fun _ =>
      (Twin.tables _).bind fun _ => (readLens_twin _ _ _).bind fun _ => Twin.tables _

theorem copyBytes_twin (d n : Nat) : Twin T (copyBytes d n) (copyBytes d n) := by
  induction n with
  | zero => exact Twin.pure ()
  | succ n ih => exact Twin.look fun _ _ _ _ s _ => (emitByte_twin (winAt s d)).bind fun _ => ih

theorem copyMatch_twin (l : Nat) : Twin T (copyMatch l) (copyMatch l) := by
  unfold copyMatch
  refine (hufDecode_twin .d).bind fun ds => (Twin.raiseIf _ _).bind fun _ => (readBits_twin _).bind fun x => ?_
  exact Twin.look fun _ _ _ _ s _ =>
    (Twin.raiseIf ((distRange ds).base + x > s.wvalid.toNat) .badDistance).bind fun _ => copyBytes_twin _ _

theorem decodeSymbolsFrom_twin {m n : Nat} (h : m ≤ n) : Twin T (decodeSymbolsFrom m) (decodeSymbolsFrom n) := by
  induction m generalizing n with
  | zero =>
    refine Twin.bound ?_
    induction n with
    | zero => exact fun s => .refl s
    | succ n ih =>
      unfold decodeSymbolsFrom
      refine (hufDecode_twin (T := T) .ll).right.bind fun sym => ?_
      split
      · exact (emitByte_twin (T := T) _).right.bind fun _ => ih (Nat.zero_le _)
      · split
        · exact fun s => .refl s
        · split
          · generalize lenRange (sym - 257) = r
            exact (readBits_twin (T := T) r.extra).right.bind fun x =>
              (copyMatch_twin (T := T) (r.base + x)).right.bind fun _ => ih (Nat.zero_le _)
          · exact fun s => .refl s
  | succ m ih =>
    obtain ⟨n, rfl⟩ : ∃ k, n = k + 1 := ⟨n - 1, by omega⟩
    unfold decodeSymbolsFrom
    refine (hufDecode_twin .ll).bind fun sym => ?_
    refine Twin.ite ((emitByte_twin _).bind fun _ => ih (by omega)) (Twin.ite (Twin.pure _) (Twin.ite ?_ (Twin.raise _)))
    generalize lenRange (sym - 257) = r
    exact (readBits_twin r.extra).bind fun x => (copyMatch_twin (r.base + x)).bind fun _ => ih (by omega)

theorem bitsLeft_withPorts {i : List Byte} {c : Bool} {o : List Byte} {r : Option Nat} {s : State}
    (h : s.inPort.length ≤ i.length) : bitsLeft s ≤ bitsLeft (withPorts i c o r s) := by
  simp only [bitsLeft, withPorts]
  omega

theorem decodeSymbols_twin : Twin T decodeSymbols decodeSymbols :=
  Twin.look fun _ _ _ _ _ hl => decodeSymbolsFrom_twin (Nat.succ_le_succ (bitsLeft_withPorts hl))

theorem decBlock_twin : Twin T decBlock decBlock := by
  have hend : ∀ h : Nat × Nat, Twin T (do change commitOutput; pure h) (do change commitOutput; pure h) := fun h =>
    Twin.then (fun _ => Twin.pure _) fun _ _ _ _ _ => ⟨rfl, rfl⟩
  unfold decBlock readBlockHeader
  refine Twin.bind ((readBits_twin 1).bind fun _ => (readBits_twin 2).bind fun _ =>
    Twin.then (fun _ => Twin.pure _) fun _ _ _ _ _ => ⟨rfl, rfl⟩) fun h => ?_
  refine Twin.ite (decodeStored_twin.bind fun _ => hend h) (Twin.ite ?_ (Twin.ite ?_ ((Twin.raise _).bind fun _ => hend h)))
  · exact (Twin.tables _).bind fun _ => decodeSymbols_twin.bind fun _ => hend h
  · exact decodeDynamicTables_twin.bind fun _ => decodeSymbols_twin.bind fun _ => hend h

theorem decBlocks_grows (T : Twins) (n count : Nat) : Grows (decBlocks n count) := by
  induction n generalizing count with
  | zero => exact fun s => .refl s
  | succ n ih =>
    refine (decBlock_twin (T := T)).right.bind fun h => ?_
    split
    · exact fun s => .refl s
    · exact ih _

theorem decBlocks_twin {m n : Nat} (count : Nat) (h : m ≤ n) : Twin T (decBlocks m count) (decBlocks n count) := by
  induction m generalizing n count with
  | zero => exact Twin.bound (decBlocks_grows T n count)
  | succ m ih =>
    obtain ⟨n, rfl⟩ : ∃ k, n = k + 1 := ⟨n - 1, by omega⟩
    exact decBlock_twin.bind fun _ => Twin.ite (Twin.pure _) (ih _ (by omega))

theorem decStreamBody_twin : Twin T decStreamBody decStreamBody :=
  Twin.look fun _ _ _ _ _ hl => decBlocks_twin 0 (Nat.succ_le_succ (bitsLeft_withPorts hl))

/-! ### The container's readers (46_container.md R301, R303) -/

theorem readName_grows (T : Twins) (m n : Nat) (tr : Bool) : Grows (readName m n tr) := by
  induction m generalizing n tr with
  | zero => exact fun s => .refl s
  | succ m ih =>
    refine (readByte_twin (T := T)).right.bind fun b => ?_
    split
    · exact fun s => .refl s
    · intro s
      rw [getState_bind]
      by_cases hk : n < s.params.fnameMax
      · rw [if_pos hk]
        exact ((Twin.tables (T := T) _).right.bind fun _ => ih _ _) s
      · rw [if_neg hk]
        exact ih _ _ s

theorem readName_twin {m m' : Nat} (n : Nat) (tr : Bool) (h : m ≤ m') : Twin T (readName m n tr) (readName m' n tr) := by
  induction m generalizing n tr m' with
  | zero => exact Twin.bound (readName_grows T m' n tr)
  | succ m ih =>
    obtain ⟨k, rfl⟩ : ∃ k, m' = k + 1 := ⟨m' - 1, by omega⟩
    refine readByte_twin.bind fun b => Twin.ite (Twin.pure _) (Twin.look fun i c o r s _ => ?_)
    show Twin T (if n < s.params.fnameMax then _ else _) (if n < s.params.fnameMax then _ else _)
    exact Twin.ite ((Twin.tables _).bind fun _ => ih _ _ (by omega)) (ih _ _ (by omega))

theorem readHeader_twin : Twin T readHeader readHeader := by
  unfold readHeader readNameField
  refine readByte_twin.bind fun _ => (Twin.raiseIf _ _).bind fun _ => readByte_twin.bind fun _ => ?_
  refine (Twin.raiseIf _ _).bind fun _ => readByte_twin.bind fun _ => (Twin.raiseIf _ _).bind fun _ => ?_
  refine readByte_twin.bind fun flg => (Twin.raiseIf _ _).bind fun _ => readInt_twin.bind fun _ => ?_
  refine readByte_twin.bind fun _ => readByte_twin.bind fun _ => Twin.bind ?_ fun _ => ?_
  · exact Twin.look fun _ _ _ _ _ hl => Twin.ite (readName_twin _ _ (Nat.succ_le_succ (bitsLeft_withPorts hl))) (Twin.pure _)
  · exact Twin.then (fun _ => Twin.pure _) fun _ _ _ _ _ => ⟨rfl, rfl⟩

theorem headerToRes_twin : Twin T headerToRes headerToRes :=
  Twin.leaving (readHeader_twin.bind fun _ => Twin.change fun _ _ _ _ _ => ⟨rfl, rfl⟩) (fun _ _ _ _ _ => ⟨rfl, rfl⟩)
    fun _ => ⟨rfl, rfl⟩

theorem readTrailer_twin : Twin T readTrailer readTrailer := by
  unfold readTrailer
  refine alignIn_twin.bind fun _ => readInt_twin.bind fun crc => readInt_twin.bind fun isize => ?_
  refine Twin.then (fun _ => Twin.look fun _ _ _ _ s _ => ?_) fun _ _ _ _ _ => ⟨rfl, rfl⟩
  exact (Twin.raiseIf (crc ≠ crcValue s) _).bind fun _ => Twin.raiseIf (isize ≠ s.rawCount) _

/-! ### The encoder (45_deflate.md R261 to R271) -/

theorem winAddAll_free (l : List Byte) : PortFree (winAddAll l) := by
  induction l with
  | nil => exact fun _ _ _ _ _ => ⟨rfl, rfl⟩
  | cons b l ih => exact PortFree.comp ih (g := winAdd b) fun _ _ _ _ _ => ⟨rfl, rfl⟩

theorem crcAll_free (l : List Byte) : PortFree (crcAll l) := by
  induction l with
  | nil => exact fun _ _ _ _ _ => ⟨rfl, rfl⟩
  | cons b l ih => exact PortFree.comp ih (g := crcUpdate b) fun _ _ _ _ _ => ⟨rfl, rfl⟩

theorem matchRun_ports (i : List Byte) (c : Bool) (o : List Byte) (r : Option Nat) (s : State) (off d rem k : Nat) :
    matchRun (withPorts i c o r s) off d rem k = matchRun s off d rem k := by
  induction rem generalizing k with
  | zero => rfl
  | succ rem ih =>
    rw [matchRun, matchRun, ih]
    rfl

theorem searchFrom_ports (i : List Byte) (c : Bool) (o : List Byte) (r : Option Nat) (s : State) (off maxlen rem d : Nat)
    (best : Nat × Nat) :
    searchFrom (withPorts i c o r s) off maxlen rem d best = searchFrom s off maxlen rem d best := by
  induction rem generalizing d best with
  | zero => rfl
  | succ rem ih => rw [searchFrom, searchFrom, ih, matchRun_ports]

theorem winFind_ports (i : List Byte) (c : Bool) (o : List Byte) (r : Option Nat) (s : State) (off len : Nat) :
    winFind (withPorts i c o r s) off len = winFind s off len := by
  simp only [winFind, searchFrom_ports]
  rfl

theorem tokenizeFrom_free (n turns i : Nat) : PortFree (tokenizeFrom n turns i) := by
  induction turns generalizing i with
  | zero => exact fun _ _ _ _ _ => ⟨rfl, rfl⟩
  | succ turns ih =>
    intro a b c d s
    have hm : matchAt (withPorts a b c d s) i n = matchAt s i n := by
      simp only [matchAt, winFind_ports]
      rfl
    simp only [tokenizeFrom, hm]
    split
    · split
      · have h1 := winAddAll_free (chunkBytes s.tables i (matchAt s i n).1) a b c d
          { s with
            tokens := s.tokens ++ [.copy (matchAt s i n).1 (matchAt s i n).2]
            tables := countD (distSym (matchAt s i n).2) (countLL (lenSym (matchAt s i n).1) s.tables) }
        have h2 : addMatch i (matchAt s i n).1 (matchAt s i n).2 (withPorts a b c d s)
            = withPorts a b c d (addMatch i (matchAt s i n).1 (matchAt s i n).2 s) := h1.1
        rw [h2]
        exact ⟨(ih _ a b c d _).1, (ih _ a b c d _).2.trans h1.2⟩
      · exact ih _ a b c d (addLiteral i s)
    · exact ⟨rfl, rfl⟩

theorem tokenize_free (n : Nat) : PortFree (tokenize n) :=
  PortFree.comp (f := fun s => { s with tables := countLL 256 s.tables })
    (g := fun s => tokenizeFrom n n 0
      { s with tokens := [], tables := { s.tables with freqLL := .zeros 32, freqD := .zeros 32 } })
    (fun _ _ _ _ _ => ⟨rfl, rfl⟩) (PortFree.comp (tokenizeFrom_free n n 0) fun _ _ _ _ _ => ⟨rfl, rfl⟩)

theorem buildLens_eq (a : Alphabet) (limit : Nat) : buildLens a limit = getState >>= fun s =>
    match hufBuild (freqsOf s.tables a) limit with
    | .ok lens => changeTables fun t => setLens t a lens
    | .error stop => fun s => .error stop s := by
  funext s
  rw [getState_bind, buildLens]
  cases hufBuild (freqsOf s.tables a) limit <;> rfl

theorem buildLens_twin (a : Alphabet) (limit : Nat) : Twin T (buildLens a limit) (buildLens a limit) := by
  rw [buildLens_eq]
  refine Twin.look fun i c o r s _ => ?_
  show Twin T _ (match hufBuild (freqsOf s.tables a) limit with
    | .ok lens => changeTables fun t => setLens t a lens
    | .error stop => fun s => .error stop s)
  cases hufBuild (freqsOf s.tables a) limit with
  | ok lens => exact Twin.tables _
  | error e => exact Twin.stop e

theorem buildCodes_twin (a : Alphabet) (limit : Nat) : Twin T (buildCodes a limit) (buildCodes a limit) :=
  (buildLens_twin a limit).bind fun _ => Twin.tables _

theorem buildDynamic_twin : Twin T buildDynamic buildDynamic :=
  (buildCodes_twin _ _).bind fun _ => (buildCodes_twin _ _).bind fun _ => Twin.look fun _ _ _ _ s _ =>
    (Twin.tables fun _ => (packTables 286 30 s.tables).1).bind fun _ => (buildCodes_twin _ _).bind fun _ =>
      Twin.pure (packTables 286 30 s.tables).2

theorem writeCode_twin (a : Alphabet) (sym : Nat) : Twin T (writeCode a sym) (writeCode a sym) :=
  Twin.look fun _ _ _ _ s _ => writeBitsR_twin (codeAt s.tables a sym) (lenAt s.tables a sym)

theorem writeMetaLens_twin (l : List Nat) : Twin T (writeMetaLens l) (writeMetaLens l) := by
  induction l with
  | nil => exact Twin.pure ()
  | cons sym l ih => exact Twin.look fun _ _ _ _ s _ => (writeBits_twin (lenAt s.tables .cl sym) 3).bind fun _ => ih

theorem writePacked_twin (l : List (BitVec 16)) : Twin T (writePacked l) (writePacked l) := by
  induction l with
  | nil => exact Twin.pure ()
  | cons e l ih => exact (writeCode_twin _ _).bind fun _ => (writeBits_twin _ _).bind fun _ => ih

theorem writeBlockHeader_twin (final : Bool) (btype : Nat) :
    Twin T (writeBlockHeader final btype) (writeBlockHeader final btype) :=
  (writeBits_twin _ _).bind fun _ => writeBits_twin _ _

theorem emitToken_twin (t : Token) : Twin T (emitToken t) (emitToken t) := by
  cases t with
  | literal b => exact writeCode_twin _ _
  | copy l d =>
    exact (writeCode_twin _ _).bind fun _ => (writeBits_twin _ _).bind fun _ => (writeCode_twin _ _).bind fun _ =>
      writeBits_twin _ _

theorem emitEach_twin (l : List Token) : Twin T (emitEach l) (emitEach l) := by
  induction l with
  | nil => exact Twin.pure ()
  | cons t l ih => exact (emitToken_twin t).bind fun _ => ih

theorem emitTokens_twin : Twin T emitTokens emitTokens :=
  Twin.look fun _ _ _ _ s _ => (emitEach_twin s.tokens).bind fun _ => writeCode_twin _ _

theorem encodeStored_twin (n : Nat) (final : Bool) : Twin T (encodeStored n final) (encodeStored n final) :=
  Twin.look fun _ _ _ _ s _ => (Twin.change (winAddAll_free (chunkBytes s.tables 0 n))).bind fun _ =>
    (writeBlockHeader_twin final 0).bind fun _ => flush_twin.bind fun _ => (writeBits_twin _ _).bind fun _ =>
      (writeBits_twin _ _).bind fun _ => writeBytes_twin (chunkBytes s.tables 0 n)

theorem encodeFixed_twin (n : Nat) (final : Bool) : Twin T (encodeFixed n final) (encodeFixed n final) :=
  (Twin.change (tokenize_free n)).bind fun _ => (Twin.tables _).bind fun _ =>
    (writeBlockHeader_twin final 1).bind fun _ => emitTokens_twin

theorem writeDynamicHeader_twin (final : Bool) (np : Nat) :
    Twin T (writeDynamicHeader final np) (writeDynamicHeader final np) :=
  (writeBlockHeader_twin final 2).bind fun _ => (writeBits_twin _ _).bind fun _ => (writeBits_twin _ _).bind fun _ =>
    (writeBits_twin _ _).bind fun _ => (writeMetaLens_twin _).bind fun _ => Twin.look fun _ _ _ _ s _ =>
      writePacked_twin (s.tables.packed.toList np)

theorem encodeDynamic_twin (n : Nat) (final : Bool) : Twin T (encodeDynamic n final) (encodeDynamic n final) :=
  (Twin.change (tokenize_free n)).bind fun _ => buildDynamic_twin.bind fun _ =>
    (writeDynamicHeader_twin final _).bind fun _ => emitTokens_twin

theorem encChunk_twin (n : Nat) (final : Bool) : Twin T (encChunk n final) (encChunk n final) :=
  Twin.look fun _ _ _ _ s _ => (Twin.change (crcAll_free (chunkBytes s.tables 0 n))).bind fun _ =>
    Twin.then (fun _ => show Twin T (if btypeSel s = 0 then encodeStored n final
        else if btypeSel s = 1 then encodeFixed n final else encodeDynamic n final) _ from
      Twin.ite (encodeStored_twin n final) (Twin.ite (encodeFixed_twin n final) (encodeDynamic_twin n final)))
      fun _ _ _ _ _ => ⟨rfl, rfl⟩

/-- Two runs of `InAtEnd` that are comparable, for the commands that ask it (45_deflate.md R271). -/
def AtEnd (T : Twins) : Prop := ∀ {s u}, T.rel s u → Same T.rel T.within T.wait inAtEnd inAtEnd s u

theorem inRead_grows : Grows inRead := fun s => by
  cases hp : s.inPort with
  | nil =>
    rw [inRead_none hp]
    split <;> exact .refl s
  | cons b rest =>
    rw [inRead_more hp]
    exact .of_take (p := [b]) rfl rfl hp rfl

theorem fillChunk_twin (hE : AtEnd T) (room n : Nat) : Twin T (fillChunk room n) (fillChunk room n) := by
  induction room generalizing n with
  | zero => exact Twin.pure n
  | succ room ih =>
    have hb : ∀ b, Twin T (do changeTables (fun t => { t with chunk := t.chunk.write n b }); fillChunk room (n + 1))
        (do changeTables (fun t => { t with chunk := t.chunk.write n b }); fillChunk room (n + 1)) :=
      fun b => (Twin.tables _).bind fun _ => ih (n + 1)
    have hg : ∀ atEnd : Bool, Grows (if atEnd then Pure.pure n else (do
        let b ← inRead
        changeTables fun t => { t with chunk := t.chunk.write n b }
        fillChunk room (n + 1))) := fun atEnd => by
      cases atEnd with
      | true => exact fun s => .refl s
      | false => exact inRead_grows.bind fun b => (hb b).left
    unfold fillChunk
    refine .of (inAtEnd_grows.bind hg) fun {s u} h => (hE h).bind hg hg fun atEnd t w e hw => ?_
    cases hp : s.inPort with
    | nil =>
      cases hc : s.inClosed with
      | true =>
        rw [inAtEnd_end hp hc] at e
        cases e
        exact (Twin.pure n).same hw
      | false =>
        rw [inAtEnd_open hp hc] at e
        cases e
    | cons b rest =>
      rw [inAtEnd_more hp] at e
      cases e
      obtain ⟨more, hu, hr⟩ := T.take hw hp
      have h1 := (hb b).same hr
      unfold Same at h1 ⊢
      simp only [Bool.false_eq_true, if_false]
      rwa [bind_ok (inRead_more hp), bind_ok (inRead_more hu)]

theorem encChunks_grows (hE : AtEnd T) (n : Nat) : Grows (encChunks n) := by
  induction n with
  | zero => exact fun s => .refl s
  | succ n ih =>
    intro s
    rw [encChunks, getState_bind]
    refine ((fillChunk_twin hE _ 0).left.bind fun k => inAtEnd_grows.bind fun final =>
      (encChunk_twin (T := T) k final).left.bind fun _ => ?_) s
    cases final with
    | true => exact fun s => .refl s
    | false => exact ih

theorem encChunks_twin (hE : AtEnd T) {m n : Nat} (h : m ≤ n) : Twin T (encChunks m) (encChunks n) := by
  induction m generalizing n with
  | zero => exact Twin.bound (encChunks_grows hE n)
  | succ m ih =>
    obtain ⟨n, rfl⟩ : ∃ k, n = k + 1 := ⟨n - 1, by omega⟩
    exact Twin.look fun _ _ _ _ s _ => (fillChunk_twin hE s.params.chunkSize 0).bind fun k => (Twin.of inAtEnd_grows hE).bind fun final =>
      (encChunk_twin k final).bind fun _ => Twin.ite (Twin.pure ()) (ih (by omega))

theorem encStreamBody_twin (hE : AtEnd T) : Twin T encStreamBody encStreamBody :=
  Twin.look fun _ _ _ _ _ hl => (encChunks_twin hE (Nat.succ_le_succ hl)).bind fun _ => flush_twin

/-! ### The container's writers (46_container.md R300, R302) -/

theorem writeHeader_twin (fn : Bool) (n : Nat) : Twin T (writeHeader fn n) (writeHeader fn n) :=
  Twin.look fun _ _ _ _ s _ => writeBytes_twin (headerBytes fn (s.tables.fname.toList (if fn then n else 0)))

theorem writeTrailer_twin : Twin T writeTrailer writeTrailer :=
  flush_twin.bind fun _ => Twin.look fun _ _ _ _ s _ => (writeBits_twin (crcValue s).toNat 32).bind fun _ =>
    writeBits_twin s.rawCount.toNat 32

/-! ### Commands -/

theorem checkWindow_twin : Twin T checkWindowConfig checkWindowConfig :=
  Twin.look fun _ _ _ _ s _ => Twin.raiseIf (winLog2 s = 0) .badConfig

theorem checkEncoder_twin : Twin T checkEncoderConfig checkEncoderConfig :=
  Twin.look fun _ _ _ _ s _ => Twin.raiseIf (btypeSel s = 3 ∨ winLog2 s = 0) .badConfig

theorem alphabetOf_twin (sel : Sel) : Twin T (alphabetOf sel) (alphabetOf sel) := by
  unfold alphabetOf
  cases selAlphabet sel with
  | some a => exact Twin.pure a
  | none => exact Twin.raise _

theorem toRes0_twin (n : Nat) : Twin T (readBitsToRes0 n) (readBitsToRes0 n) :=
  (readBits_twin n).bind fun _ => Twin.change fun _ _ _ _ _ => ⟨rfl, rfl⟩

theorem scrambleLens_free (a : Alphabet) : PortFree (scrambleLens a) := by
  cases a <;> exact fun _ _ _ _ _ => ⟨rfl, rfl⟩

/-- The steps of a command, run from two states that differ in the ports (00_scope.md R15). -/
theorem steps_twin (hE : AtEnd T) (i : Instr) : Twin T (stepsOf i) (stepsOf i) := by
  cases i with
  | nop | reset => exact Twin.pure ()
  | clearErr => exact Twin.change fun _ _ _ _ _ => ⟨rfl, rfl⟩
  | streamInit => exact Twin.change fun _ _ _ _ _ => ⟨rfl, rfl⟩
  | tblRead t =>
    exact Twin.look fun _ _ _ _ s _ => (Twin.raiseIf (entries s.params t ≤ natOperand s.arg0) _).bind fun _ =>
      Twin.change (f := setRes0 (readEntry s.tables (natOperand s.arg0) t)) fun _ _ _ _ _ => ⟨rfl, rfl⟩
  | tblWrite t =>
    exact Twin.look fun _ _ _ _ s _ => (Twin.raiseIf _ _).bind fun _ =>
      (Twin.raiseIf (entries s.params t ≤ natOperand s.arg0) _).bind fun _ =>
        Twin.change (f := fun x => { x with tables := writeEntry x.tables (natOperand x.arg0) x.arg1 t })
          fun _ _ _ _ _ => ⟨rfl, rfl⟩
  | bwBits n => exact (Twin.raiseIf _ _).bind fun _ => Twin.look fun _ _ _ _ s _ => writeBits_twin s.arg0.toNat n
  | bwBitsR n => exact (Twin.raiseIf _ _).bind fun _ => Twin.look fun _ _ _ _ s _ => writeBitsR_twin s.arg0.toNat n
  | bwFlush => exact flush_twin
  | bwByte => exact Twin.look fun _ _ _ _ s _ => writeBits_twin (byteOperand s.arg0).toNat 8
  | bwShort => exact Twin.look fun _ _ _ _ s _ => writeBits_twin (shortOperand s.arg0).toNat 16
  | bwInt => exact Twin.look fun _ _ _ _ s _ => writeBits_twin s.arg0.toNat 32
  | brBits n => exact (Twin.raiseIf _ _).bind fun _ => toRes0_twin n
  | brByte => exact toRes0_twin 8
  | brShort => exact toRes0_twin 16
  | brInt => exact toRes0_twin 32
  | brAlign => exact alignIn_twin.bind fun _ => Twin.change fun _ _ _ _ _ => ⟨rfl, rfl⟩
  | crcInit => exact Twin.change fun _ _ _ _ _ => ⟨rfl, rfl⟩
  | crcUpdate => exact Twin.change fun _ _ _ _ _ => ⟨rfl, rfl⟩
  | winReset => exact checkWindow_twin.bind fun _ => Twin.change fun _ _ _ _ _ => ⟨rfl, rfl⟩
  | winAdd => exact checkWindow_twin.bind fun _ => Twin.change fun _ _ _ _ _ => ⟨rfl, rfl⟩
  | winFind =>
    refine Twin.look fun _ _ _ _ s _ =>
      (Twin.raiseIf (natOperand s.arg1 > s.params.chunkSize ∨ natOperand s.arg0 > natOperand s.arg1) _).bind fun _ =>
        checkWindow_twin.bind fun _ => Twin.change fun i c o r t => ⟨?_, rfl⟩
    simp only [winFind_ports]
    rfl
  | hufBuild sel limit =>
    exact (alphabetOf_twin sel).bind fun a => (Twin.raiseIf _ _).bind fun _ =>
      Twin.leaving (buildLens_twin a limit) (scrambleLens_free a) fun _ => ⟨rfl, rfl⟩
  | hufCanon sel => exact (alphabetOf_twin sel).bind fun a => Twin.tables _
  | hufFixed => exact Twin.tables _
  | hufDecode sel =>
    exact (alphabetOf_twin sel).bind fun a => (hufDecode_twin a).bind fun _ => Twin.change fun _ _ _ _ _ => ⟨rfl, rfl⟩
  | clPack =>
    exact Twin.look fun _ _ _ _ s _ => (Twin.raiseIf (¬ lengthCountsOk s) _).bind fun _ =>
      (Twin.tables fun _ => (packTables (natOperand s.arg0) (natOperand s.arg1) s.tables).1).bind fun _ =>
        Twin.change (f := setRes0 (BitVec.ofNat 32 (packTables (natOperand s.arg0) (natOperand s.arg1) s.tables).2))
          fun _ _ _ _ _ => ⟨rfl, rfl⟩
  | clUnpack =>
    refine Twin.look fun _ _ _ _ s _ =>
      (Twin.raiseIf (¬ lengthCountsOk s ∨ natOperand s.arg2 > Config.packedMax) _).bind fun _ => ?_
    have h : ∀ nll nd p, Twin T
        (match clUnpack (nll + nd) [] p with
          | .error e => raise e
          | .ok seq => changeTables (splitLens nll nd seq))
        (match clUnpack (nll + nd) [] p with
          | .error e => raise e
          | .ok seq => changeTables (splitLens nll nd seq)) := fun nll nd p => by
      cases clUnpack (nll + nd) [] p with
      | error e => exact Twin.raise e
      | ok seq => exact Twin.tables _
    exact h (natOperand s.arg0) (natOperand s.arg1) (s.tables.packed.toList (natOperand s.arg2))
  | defEncChunk final =>
    exact Twin.look fun _ _ _ _ s _ => (Twin.raiseIf (natOperand s.arg0 > s.params.chunkSize) _).bind fun _ =>
      checkEncoder_twin.bind fun _ => encChunk_twin (natOperand s.arg0) final
  | defEncStream =>
    exact checkEncoder_twin.bind fun _ => Twin.then (fun _ => encStreamBody_twin hE) fun _ _ _ _ _ => ⟨rfl, rfl⟩
  | defDecBlock =>
    exact checkWindow_twin.bind fun _ => Twin.leaving
      (decBlock_twin.bind fun _ => Twin.change fun _ _ _ _ _ => ⟨rfl, rfl⟩) (fun _ _ _ _ _ => ⟨rfl, rfl⟩) fun _ => ⟨rfl, rfl⟩
  | defDecStream =>
    exact checkWindow_twin.bind fun _ => Twin.leaving
      (Twin.then (fun _ => decStreamBody_twin.bind fun _ => Twin.change fun _ _ _ _ _ => ⟨rfl, rfl⟩)
        fun _ _ _ _ _ => ⟨rfl, rfl⟩) (fun _ _ _ _ _ => ⟨rfl, rfl⟩) fun _ => ⟨rfl, rfl⟩
  | gzWrHeader fn =>
    exact Twin.look fun _ _ _ _ s _ => (Twin.raiseIf (fn ∧ natOperand s.arg0 > s.params.fnameMax) _).bind fun _ =>
      writeHeader_twin fn (natOperand s.arg0)
  | gzRdHeader => exact headerToRes_twin
  | gzWrTrailer => exact writeTrailer_twin
  | gzRdTrailer => exact Twin.leaving readTrailer_twin (fun _ _ _ _ _ => ⟨rfl, rfl⟩) fun _ => ⟨rfl, rfl⟩
  | gzCompress fn =>
    exact Twin.look fun _ _ _ _ s _ => (Twin.raiseIf (fn ∧ natOperand s.arg0 > s.params.fnameMax) _).bind fun _ =>
      checkEncoder_twin.bind fun _ => Twin.then (fun _ => (writeHeader_twin fn (natOperand s.arg0)).bind fun _ =>
        (encStreamBody_twin hE).bind fun _ => writeTrailer_twin) fun _ _ _ _ _ => ⟨rfl, rfl⟩
  | gzDecompress =>
    exact checkWindow_twin.bind fun _ => Twin.leaving
      (Twin.then (fun _ => headerToRes_twin.bind fun _ => Twin.leaving (decStreamBody_twin.bind fun _ => readTrailer_twin)
        (fun _ _ _ _ _ => ⟨rfl, rfl⟩) fun _ => ⟨rfl, rfl⟩) fun _ _ _ _ _ => ⟨rfl, rfl⟩)
      (fun _ _ _ _ _ => ⟨rfl, rfl⟩) fun _ => ⟨rfl, rfl⟩

end Sys2Proof.Machine
end

