-- ==== Sys2Proof/Laws/Resume.lean ====
section
/-! SUPPORT. The two comparisons of a held command's runs (00_scope.md R15; log 3): the run with what the host adds
later, and the run from the rewound ports. -/

namespace Sys2Proof.Machine

theorem unread_ports {f : State → State} (h : PortFree f) (hr : ∀ s, (f s).rcount = s.rcount ∧ (f s).rbuf = s.rbuf)
    (s : State) : unreadBits (f s) = unreadBits s ∧ dryStop (f s) = dryStop s := by
  obtain ⟨h1, h2, -, -⟩ := h.ports s
  exact ⟨by rw [unreadBits, unreadBits, (hr s).1, (hr s).2, h1], by rw [dryStop, dryStop, h2]⟩

/-- A bit read from more input. -/
theorem takeOne_more {more : List Byte} {closed : Bool} {room : Option Nat} {s : State} (h : unreadBits s ≠ []) :
    takeOne (withPorts (s.inPort ++ more) closed s.outPort room s)
      = withPorts ((takeOne s).inPort ++ more) closed (takeOne s).outPort room (takeOne s) := by
  by_cases h0 : s.rcount = 0
  · cases hp : s.inPort with
    | nil => exact absurd (by simp [unreadBits, h0, hp]) h
    | cons b rest =>
      have h1 : (withPorts (b :: rest ++ more) closed s.outPort room s).rcount = 0 := h0
      rw [takeOne, if_pos h1, takeOne, if_pos h0, hp]
      rfl
  · have h1 : ¬ (withPorts (s.inPort ++ more) closed s.outPort room s).rcount = 0 := h0
    rw [takeOne, if_neg h1, takeOne, if_neg h0]
    rfl

/-- The run with more input behind the first, a closed flag that stays closed, and room for the bytes given up to
`given` and for `room` more. The first run may stop on a port; a stop at `InAtEnd` counts where `asks`. -/
def withMore (asks : Prop) (more : List Byte) (closed : Bool) (room : Option Nat) (given : Nat) : Twins where
  rel s u :=
    u = withPorts (s.inPort ++ more) closed s.outPort (room.map (· + (given - s.outPort.length))) s ∧
      (s.inClosed = true → closed = true)
  within t := t.outPort.length ≤ given ∧ (asks → t.sawEnd = true → more = [])
  wait e t w := Grown t w ∧
    ((unreadBits t = [] ∧ e = dryStop t) ∨ (asks ∧ e = .hold ∧ t.inPort = [] ∧ t.inClosed = false) ∨
      (e = .hold ∧ t.outRoom = some 0 ∧ (room = none → t.outPort.length < w.outPort.length)))
  alike := fun h => ⟨_, _, _, _, h.1, by simp⟩
  free := fun {f s u} hf h => by
    obtain ⟨rfl, h2⟩ := h
    obtain ⟨p1, p2, p3, -⟩ := hf.ports s
    exact ⟨by rw [(hf _ _ _ _ s).1, p1, p3], by rw [p2]; exact h2⟩
  back := fun {s t} hg hw => by
    obtain ⟨⟨g, e⟩, h2⟩ := hg.grown
    have := hw.1
    rw [e, List.length_append] at this
    exact ⟨by omega, fun ha h => hw.2 ha (h2 h)⟩
  later := fun {e t w w'} h hg => by
    refine ⟨h.1.trans hg.grown, h.2.imp_right (Or.imp_right fun ⟨h1, h2, h3⟩ => ⟨h1, h2, fun hn => ?_⟩)⟩
    obtain ⟨⟨g, e⟩, -⟩ := hg.grown
    have := h3 hn
    rw [e, List.length_append]
    omega
  aside := fun {f e t w} hf hr h => by
    obtain ⟨p1, p2, p3, p4⟩ := hf.ports t
    obtain ⟨q1, q2⟩ := unread_ports hf hr t
    refine ⟨⟨by rw [p3]; exact h.1.1, fun hs => h.1.2 (by rw [← (hf [] false [] none t).2]; exact hs)⟩, ?_⟩
    rw [q1, q2, p1, p2, p3, p4]
    exact h.2
  bit := fun {s u} h hw => by
    obtain ⟨rfl, h2⟩ := h
    cases hu : unreadBits s with
    | nil =>
      rw [getBit_dry hu]
      have key : (Grown s (after (getBit (withPorts (s.inPort ++ more) closed s.outPort
          (room.map (· + (given - s.outPort.length))) s)))) := (getBit_grows _).grown
      cases hd : dryStop s with
      | bound => trivial
      | hold => exact .inr ⟨key, .inl ⟨hu, hd.symm⟩⟩
      | raise _ => exact .inr ⟨key, .inl ⟨hu, hd.symm⟩⟩
    | cons b rest =>
      rw [getBit_ok hu]
      have hu' : unreadBits (withPorts (s.inPort ++ more) closed s.outPort (room.map (· + (given - s.outPort.length))) s)
          = b :: (rest ++ streamBits more) := by
        have : unreadBits s ++ streamBits more = b :: (rest ++ streamBits more) := by rw [hu, List.cons_append]
        rw [← this]
        simp [unreadBits, withPorts, streamBits_append]
      have ho : (takeOne s).outPort = s.outPort ∧ (takeOne s).inClosed = s.inClosed := by
        have := advance_keeps 1 s
        simp only [advance] at this
        simp [this]
      refine ⟨_, getBit_ok hu', ?_, by rw [ho.2]; exact h2⟩
      rw [takeOne_more (by rw [hu]; simp), ho.1]
  put := fun b {s u} h hw => by
    obtain ⟨rfl, h2⟩ := h
    have key : ∀ k, s.outRoom = some (k + 1) ∨ s.outRoom = none → (s.outPort ++ [b]).length ≤ given →
        ∃ w, outWrite b (withPorts (s.inPort ++ more) closed s.outPort (room.map (· + (given - s.outPort.length))) s) = .ok () w ∧
          w = withPorts (s.inPort ++ more) closed (s.outPort ++ [b])
            (room.map (· + (given - (s.outPort ++ [b]).length))) { s with bytesOut := s.bytesOut + 1 } := by
      intro k _ hl
      rw [List.length_append, List.length_singleton] at hl
      unfold outWrite
      cases room with
      | none => exact ⟨_, rfl, rfl⟩
      | some r =>
        obtain ⟨m, hm⟩ : ∃ m, r + (given - s.outPort.length) = m + 1 := ⟨r + (given - s.outPort.length) - 1, by omega⟩
        have hm' : r + (given - (s.outPort ++ [b]).length) = m := by
          rw [List.length_append, List.length_singleton]
          omega
        simp only [withPorts, Option.map_some, hm, hm']
        exact ⟨_, rfl, rfl⟩
    unfold outWrite at hw ⊢
    cases hr : s.outRoom with
    | none =>
      simp only [hr] at hw
      obtain ⟨w, e, hw'⟩ := key 0 (.inr hr) hw.1
      exact ⟨w, e, by rw [hw']; rfl, h2⟩
    | some k =>
      cases k with
      | zero =>
        refine .inr ⟨?_, .inr (.inr ⟨rfl, hr, ?_⟩)⟩
        · exact (outWrite_grows b _).grown
        · rintro rfl
          simp [withPorts, after]
      | succ k =>
        simp only [hr] at hw
        obtain ⟨w, e, hw'⟩ := key k (.inl hr) hw.1
        exact ⟨w, e, by rw [hw']; rfl, h2⟩
  take := fun {s u b rest} h hp => by
    obtain ⟨rfl, h2⟩ := h
    exact ⟨rest ++ more, by simp [withPorts, hp], by simp [withPorts], h2⟩

theorem withMore_atEnd {more : List Byte} {closed : Bool} {room : Option Nat} {given : Nat} :
    AtEnd (withMore True more closed room given) := fun {s u} h hw => by
  have h' := h
  obtain ⟨rfl, h2⟩ := h
  cases hp : s.inPort with
  | cons b rest =>
    rw [inAtEnd_more hp]
    exact ⟨_, inAtEnd_more (b := b) (rest := rest ++ more) (by simp [withPorts]), by rw [hp] at h'; exact h'⟩
  | nil =>
    cases hc : s.inClosed with
    | true =>
      rw [inAtEnd_end hp hc] at hw ⊢
      obtain rfl : more = [] := hw.2 trivial rfl
      exact ⟨_, inAtEnd_end (by simp [withPorts]) (h2 hc), by simp [withPorts, hp], h2⟩
    | false =>
      rw [inAtEnd_open hp hc]
      exact .inr ⟨(inAtEnd_grows _).grown, .inr (.inl ⟨trivial, rfl, hp, hc⟩)⟩

/-- The run that begins with other output in the port: `skip` bytes of the first one's are replaced by `base`. -/
def moved (base : List Byte) (skip : Nat) : Twins where
  rel s u := u = withPorts s.inPort s.inClosed (base ++ s.outPort.drop skip) s.outRoom s ∧ skip ≤ s.outPort.length
  within _ := True
  wait _ _ _ := False
  alike := fun h => ⟨_, _, _, _, h.1, le_refl _⟩
  free := fun {f s u} hf h => by
    obtain ⟨rfl, h2⟩ := h
    obtain ⟨p1, p2, p3, p4⟩ := hf.ports s
    exact ⟨by rw [(hf _ _ _ _ s).1, p1, p2, p3, p4], by rw [p3]; exact h2⟩
  back := fun _ _ => trivial
  later := fun h _ => h
  aside := fun _ _ h => h
  bit := fun {s u} h _ => by
    have h' := h
    obtain ⟨rfl, h2⟩ := h
    cases hu : unreadBits s with
    | nil =>
      rw [getBit_dry hu]
      have hu' := getBit_dry (s := withPorts s.inPort s.inClosed (base ++ s.outPort.drop skip) s.outRoom s) hu
      cases hd : dryStop s with
      | bound => trivial
      | hold => exact .inl ⟨_, hu'.trans (by rw [← hd]; rfl), h'⟩
      | raise _ => exact .inl ⟨_, hu'.trans (by rw [← hd]; rfl), h'⟩
    | cons b rest =>
      rw [getBit_ok hu]
      refine ⟨_, getBit_ok (s := withPorts s.inPort s.inClosed (base ++ s.outPort.drop skip) s.outRoom s) hu, ?_, ?_⟩
      · by_cases h0 : s.rcount = 0
        · have h1 : (withPorts s.inPort s.inClosed (base ++ s.outPort.drop skip) s.outRoom s).rcount = 0 := h0
          rw [takeOne, if_pos h1, takeOne, if_pos h0]
          cases hp : s.inPort with
          | nil => simp [unreadBits, h0, hp] at hu
          | cons b rest => rfl
        · have h1 : ¬ (withPorts s.inPort s.inClosed (base ++ s.outPort.drop skip) s.outRoom s).rcount = 0 := h0
          rw [takeOne, if_neg h1, takeOne, if_neg h0]
          rfl
      · have := advance_keeps 1 s
        simp only [advance] at this
        simpa [this] using h2
  put := fun b {s u} h _ => by
    have h' := h
    obtain ⟨rfl, h2⟩ := h
    have hd : (s.outPort ++ [b]).drop skip = s.outPort.drop skip ++ [b] := List.drop_append_of_le_length h2
    have hl : skip ≤ (s.outPort ++ [b]).length := by simp; omega
    unfold outWrite
    cases hr : s.outRoom with
    | none => exact ⟨_, by simp only [withPorts]; rfl, by simp [withPorts, hd], hl⟩
    | some k =>
      cases k with
      | zero => exact .inl ⟨_, by simp only [withPorts]; rfl, by simp [withPorts, hr], h2⟩
      | succ k => exact ⟨_, by simp only [withPorts]; rfl, by simp [withPorts, hd], hl⟩
  take := fun {s u b rest} h hp => by
    obtain ⟨rfl, h2⟩ := h
    exact ⟨rest, by simp [withPorts, hp], by simp [withPorts], h2⟩

theorem moved_atEnd {base : List Byte} {skip : Nat} : AtEnd (moved base skip) := fun {s u} h _ => by
  have hp' : u.inPort = s.inPort := by rw [h.1]; rfl
  have hc' : u.inClosed = s.inClosed := by rw [h.1]; rfl
  cases hp : s.inPort with
  | cons b rest =>
    rw [inAtEnd_more hp]
    exact ⟨_, inAtEnd_more (hp'.trans hp), h⟩
  | nil =>
    cases hc : s.inClosed with
    | true =>
      rw [inAtEnd_end hp hc]
      exact ⟨_, inAtEnd_end (hp'.trans hp) (hc'.trans hc), by rw [h.1]; rfl, h.2⟩
    | false =>
      rw [inAtEnd_open hp hc]
      exact .inl ⟨_, inAtEnd_open (hp'.trans hp) (hc'.trans hc), h⟩

end Sys2Proof.Machine
end

