-- ==== Sys2Proof/Tests/Slice0.lean ====
section
/-! SUPPORT. The model's own tests. Expected values are those of the spec: words written out from the formats
and the opcode map (30_encoding.md R90, R93), and the vectors of 95_test_vectors.md named at each test. The
second half shows, for every statement with hypotheses, a state and operands that meet them. -/

namespace Sys2Proof.Machine.Tests

open Sys2Proof Sys2Proof.Machine

-- One theorem at a time: the kernel evaluates most of them.
set_option Elab.async false

/-! ### Well-formed commands (30_encoding.md R90) -/

theorem test_wellFormed_refuses_bwBits_64 : (Instr.bwBits 64).wellFormed = false := by decide
theorem test_wellFormed_refuses_bwBitsR_64 : (Instr.bwBitsR 64).wellFormed = false := by decide
theorem test_wellFormed_refuses_brBits_64 : (Instr.brBits 64).wellFormed = false := by decide
theorem test_wellFormed_refuses_hufBuild_limit_16 : (Instr.hufBuild .cl 16).wellFormed = false := by decide
theorem test_wellFormed_accepts_illegal_operands :
    (Instr.bwBits 63).wellFormed = true ∧ (Instr.hufBuild .illegal 0).wellFormed = true := by decide

/-! ### Decoding: one word of each row of the opcode map (30_encoding.md R90, R93) -/

theorem test_decode_control :
    decode 0x00000000#32 = .ok .nop ∧
    decode 0x00000001#32 = .ok .reset ∧
    decode 0x00000002#32 = .ok .clearErr ∧
    decode 0x00000003#32 = .ok .streamInit ∧
    decode 0x00000D04#32 = .ok (.tblRead .crcTable) ∧
    decode 0x00000B05#32 = .ok (.tblWrite .packed) := by decide

theorem test_decode_tables :
    (List.range 16).map (fun k => decode (BitVec.ofNat 32 (k * 256 + 4))) =
      [TableId.chunk, .window, .freqLL, .freqD, .freqCL, .lenLL, .lenD, .lenCL, .codeLL, .codeD, .codeCL,
        .packed, .fname, .crcTable, .lenRange, .distRange].map (fun t => .ok (.tblRead t)) := by decide

theorem test_decode_bitio :
    decode 0x00000310#32 = .ok (.bwBits 3) ∧
    decode 0x00002011#32 = .ok (.bwBitsR 32) ∧
    decode 0x00000012#32 = .ok .bwFlush ∧
    decode 0x00000013#32 = .ok .bwByte ∧
    decode 0x00000014#32 = .ok .bwShort ∧
    decode 0x00000015#32 = .ok .bwInt ∧
    decode 0x00003F18#32 = .ok (.brBits 63) ∧
    decode 0x00000019#32 = .ok .brByte ∧
    decode 0x0000001A#32 = .ok .brShort ∧
    decode 0x0000001B#32 = .ok .brInt ∧
    decode 0x0000001C#32 = .ok .brAlign := by decide

theorem test_decode_crc : decode 0x00000020#32 = .ok .crcInit ∧ decode 0x00000021#32 = .ok .crcUpdate := by
  decide

theorem test_decode_window :
    decode 0x00000030#32 = .ok .winReset ∧
    decode 0x00000031#32 = .ok .winAdd ∧
    decode 0x00000032#32 = .ok .winFind := by decide

theorem test_decode_huffman :
    decode 0x00070240#32 = .ok (.hufBuild .cl 7) ∧
    decode 0x000F0040#32 = .ok (.hufBuild .ll 15) ∧
    decode 0x00000241#32 = .ok (.hufCanon .cl) ∧
    decode 0x00000042#32 = .ok .hufFixed ∧
    decode 0x00000143#32 = .ok (.hufDecode .d) ∧
    decode 0x00000341#32 = .ok (.hufCanon .illegal) ∧
    decode 0x00000044#32 = .ok .clPack ∧
    decode 0x00000045#32 = .ok .clUnpack := by decide

theorem test_decode_deflate :
    decode 0x01000050#32 = .ok (.defEncChunk true) ∧
    decode 0x00000050#32 = .ok (.defEncChunk false) ∧
    decode 0x00000051#32 = .ok .defEncStream ∧
    decode 0x00000052#32 = .ok .defDecBlock ∧
    decode 0x00000053#32 = .ok .defDecStream := by decide

theorem test_decode_container :
    decode 0x02000060#32 = .ok (.gzWrHeader true) ∧
    decode 0x00000061#32 = .ok .gzRdHeader ∧
    decode 0x00000062#32 = .ok .gzWrTrailer ∧
    decode 0x00000063#32 = .ok .gzRdTrailer ∧
    decode 0x02000064#32 = .ok (.gzCompress true) ∧
    decode 0x00000064#32 = .ok (.gzCompress false) ∧
    decode 0x00000065#32 = .ok .gzDecompress := by decide

/-- Bits outside a command's format are ignored (30_encoding.md R90). -/
theorem test_decode_ignores_other_bits :
    decode 0xFFFFFF21#32 = .ok .crcUpdate ∧ decode 0xFFFFC310#32 = .ok (.bwBits 3) := by decide

/-- Unused opcodes (95_test_vectors.md 2.11). -/
theorem test_decode_illegal :
    decode 0x00000006#32 = .error (.illegalOpcode 0x06#8) ∧
    decode 0x000000FF#32 = .error (.illegalOpcode 0xFF#8) := by decide

/-! ### One step each -/

/-- A field of the state a command leaves. -/
def after {α : Type} (i : Instr) (s : State) (f : State → α) : Option α :=
  match exec i s with
  | .next t => some (f t)
  | .fault _ => none
  | .refused _ => none

theorem after_some {α : Type} {i : Instr} {s : State} {f : State → α} {a : α} (h : after i s f = some a) :
    ∃ t, exec i s = .next t ∧ f t = a := by
  rw [after] at h
  split at h
  · exact ⟨_, ‹_›, Option.some.inj h⟩
  · exact nomatch h
  · exact nomatch h

/-- Bytes. -/
def bytes (l : List Nat) : List Byte := l.map (BitVec.ofNat 8)

/-- A command has been accepted after reset; CHUNK and WINDOW hold 0. -/
def base : State :=
  { State.reset with
    engine := .busy
    tables := { Tables.reset 0 with chunk := .zeros 8, window := .zeros 8 } }

/-- So, with ARG0 and ARG1. -/
def args (a b : Nat) : State := { base with arg0 := BitVec.ofNat 32 a, arg1 := BitVec.ofNat 32 b }

/-- So, with input bytes and the port closed. -/
def fed (l : List Nat) : State := { base with inPort := bytes l, inClosed := true }

/-- So, with the command word in CMD. -/
def told (w : Nat) (s : State) : State := { s with cmd := BitVec.ofNat 32 w }

/-- So, with CHUNK holding bytes. -/
def chunked (l : List Nat) (s : State) : State :=
  { s with tables := { s.tables with chunk := .ofList (bytes l) } }

/-- How a command ended: STATUS and ERRINFO. -/
def ending (t : State) : Nat × Nat := ((statusWord t).toNat, t.errinfo.toNat)

/-- A register's value. -/
def reg (r : Reg) (t : State) : Nat := (regValue t r).toNat

/-- The output bytes. -/
def output (t : State) : List Nat := t.outPort.map BitVec.toNat

/-! 95_test_vectors.md 2.1 -/

theorem test_nop : after .nop base ending = some (2, 0) := by decide +kernel

theorem test_reset : after .reset { base with cfg := 0 } (fun t => (reg .cfg t, reg .crcState t, reg
    .status t)) =
    some (0xF6, 0xFFFFFFFF, 0) := by decide +kernel

theorem test_clearErr : after .clearErr { base with errinfo := 0x60D#32 } ending = some (2, 0) := by decide +kernel

theorem test_streamInit :
    after .streamInit { base with wcur := 3, wvalid := 3, crcState := 0 }
      (fun t => (reg .winState t, reg .crcState t)) = some (0, 0xFFFFFFFF) := by decide +kernel

theorem test_tblRead_crcTable : after (.tblRead .crcTable) (args 1 0) (reg .res0) = some 0x77073096 := by
    decide +kernel
theorem test_tblRead_window_range :
    after (.tblRead .window) (told 0x104 (args 32768 0)) ending = some (4, 0x40D) := by decide +kernel

theorem test_tblWrite_len : after (.tblWrite .lenLL) (args 5 0x123) (fun t => lenAt t.tables .ll 5) = some
    3 := by decide +kernel
theorem test_tblWrite_packed :
    after (.tblWrite .packed) (args 0 0xFFFF) (fun t => (t.tables.packed.read 0).toNat) = some 0x7F1F := by
        decide +kernel

/-! 95_test_vectors.md 2.2 -/

theorem test_bwBits : after (.bwBits 3) (args 5 0) (reg .bwState) = some 0x503 := by decide +kernel
theorem test_bwBits_33 : after (.bwBits 33) (told 0x2110 (args 5 0)) ending = some (4, 0x100D) := by decide +kernel
theorem test_bwBitsR :
    after (.bwBitsR 3) { args 6 0 with wcount := 3, wbuf := 5 } (reg .bwState) = some 0x1D06 := by decide +kernel
theorem test_bwBitsR_byte : after (.bwBitsR 8) (args 0x30 0) output = some [0x0C] := by decide +kernel
theorem test_bwFlush :
    after .bwFlush { base with wcount := 6, wbuf := 0x1D } (fun t => (output t, reg .bwState t)) =
      some ([0xDD], 0) := by decide +kernel
theorem test_bwByte : after .bwByte (args 0x1F8B 0) output = some [0x8B] := by decide +kernel
theorem test_bwShort :
    after .bwShort { args 0x1234 0 with wcount := 1, wbuf := 1 } output = some [0x69, 0x24] := by decide +kernel
theorem test_bwInt : after .bwInt (args 0x12345678 0) output = some [0x78, 0x56, 0x34, 0x12] := by decide +kernel
theorem test_brBits : after (.brBits 3) (fed [0xDD]) (fun t => (reg .res0 t, reg .brState t)) =
    some (5, 0x1B05) := by decide +kernel
theorem test_brByte : after .brByte { fed [0x01] with rbuf := 0x5A, rcount := 7 }
    (fun t => (reg .res0 t, reg .brState t)) = some (0xDA, 0x0007) := by decide +kernel
theorem test_brByte_eof : after .brByte (told 0x19 (fed [])) ending = some (4, 0x190B) := by decide +kernel
theorem test_brShort : after .brShort (fed [0x05, 0x00]) (reg .res0) = some 5 := by decide +kernel
theorem test_brShort_eof : after .brShort (told 0x1A (fed [0x12])) (fun t => (ending t, reg .bytesInLo t)) =
    some ((4, 0x1A0B), 1) := by decide +kernel
theorem test_brInt : after .brInt (fed [0x45, 0xE5, 0x98, 0xAD]) (reg .res0) = some 0xAD98E545 := by decide +kernel
theorem test_brAlign : after .brAlign { base with rbuf := 0x1B, rcount := 5 }
    (fun t => (reg .res0 t, reg .brState t)) = some (5, 0) := by decide +kernel

/-! 95_test_vectors.md 2.3 -/

theorem test_crcInit : after .crcInit { base with crcState := 0 } (reg .crcValue) = some 0 := by decide +kernel
theorem test_crcUpdate : after .crcUpdate (args 0x161 0) (reg .crcState) = some 0x174841BC := by decide +kernel

/-- The check value of "123456789". -/
theorem test_crc_check_value :
    ~~~(crcOf 0xFFFFFFFF#32 (bytes [0x31, 0x32, 0x33, 0x34, 0x35, 0x36, 0x37, 0x38, 0x39])) = 0xCBF43926#32
        := by decide +kernel

/-! 95_test_vectors.md 2.4 -/

theorem test_winReset : after .winReset { base with wcur := 2, wvalid := 4 } (reg .winState) = some 0 := by
    decide +kernel
theorem test_winAdd_wraps :
    after .winAdd { args 0x65 0 with cfg := 0x26, wcur := 0, wvalid := 4 }
      (fun t => (reg .winState t, (t.tables.window.read 0).toNat)) = some (0x00040001, 0x65) := by decide +kernel
theorem test_winAdd_config : after .winAdd (told 0x31 { base with cfg := 0x06 }) ending = some (4, 0x310E)
    := by decide +kernel
theorem test_winFind_nearest :
    after .winFind
      (chunked [0x61, 0x62, 0x63, 0x58, 0x61, 0x62, 0x63, 0x59, 0x61, 0x62, 0x63, 0x5A]
        { args 8 12 with
          wcur := 8, wvalid := 8
          tables := { base.tables with
            window := .ofList (bytes [0x61, 0x62, 0x63, 0x58, 0x61, 0x62, 0x63, 0x59]) } })
      (fun t => (reg .res0 t, reg .res1 t)) = some (3, 4) := by decide +kernel
theorem test_winFind_operands : after .winFind (told 0x32 (args 11 10)) ending = some (4, 0x320D) := by
    decide +kernel

/-! 95_test_vectors.md 2.5 -/

/-- FREQ_CL holds values. -/
def freqs (l : List Nat) : State :=
  { base with tables := { base.tables with freqCL := .ofList (l.map (BitVec.ofNat 32)) } }

/-- LEN_CL holds values. -/
def lens (l : List Nat) : State := { base with tables := setLens base.tables .cl l }

/-- A table's first entries. -/
def first (n : Nat) (tbl : TableId) (t : State) : List Nat :=
  (List.range n).map (fun k => (readEntry t.tables k tbl).toNat)

theorem test_hufBuild_limit_4 : after (.hufBuild .cl 4) (freqs [1, 1, 2, 3, 5, 8, 13, 21]) (first 9 .lenCL) =
    some [3, 3, 3, 4, 4, 3, 3, 2, 0] := by decide +kernel
theorem test_hufBuild_limit_3 :
    after (.hufBuild .cl 3) (told 0x30240 (freqs [1, 1, 2, 3, 5, 8, 13, 21])) ending = some (4, 0x400A) := by
  decide +kernel
theorem test_hufCanon : after (.hufCanon .cl) (lens [1, 3, 3, 2]) (first 5 .codeCL) = some [0, 6, 7, 2, 0]
    := by
  decide +kernel
theorem test_hufFixed :
    after .hufFixed base (fun t => (lenAt t.tables .ll 0, codeAt t.tables .ll 0, codeAt t.tables .ll 287)) =
      some (8, 0x30, 0xC7) := by decide +kernel
theorem test_hufDecode : after (.hufDecode .ll) { fed [0x0C] with tables := fixedTables base.tables }
    (fun t => (ending t, reg .res0 t)) = some ((2, 0), 0) := by decide +kernel
theorem test_hufDecode_empty_table : after (.hufDecode .ll) (told 0x43 (fed [0x0C]))
    (fun t => (ending t, reg .bytesInLo t)) = some ((4, 0x4307), 0) := by decide +kernel

/-! 95_test_vectors.md 2.6 -/

theorem test_clPack :
    after .clPack { args 6 1 with tables := setLens base.tables .ll [5, 5, 0, 0, 0, 7] }
      (fun t => (first 5 .packed t, reg .res0 t, first 18 .freqCL t)) =
      some ([0x0005, 0x0005, 0x0011, 0x0007, 0x0000], 5,
        [1, 0, 0, 0, 0, 2, 0, 1, 0, 0, 0, 0, 0, 0, 0, 0, 0, 1]) := by decide +kernel
theorem test_clPack_runs :
    clPack (List.replicate 139 0) = [(18, 127), (0, 0)] ∧
    clPack (List.replicate 150 0) = [(18, 127), (18, 1)] ∧
    clPack (List.replicate 8 8) = [(8, 0), (16, 3), (8, 0)] := by decide +kernel

/-- PACKED of the vectors, and the counts. -/
def packed (l : List Nat) (a b c : Nat) : State :=
  { args a b with
    arg2 := BitVec.ofNat 32 c
    tables := { base.tables with packed := .ofList (l.map (BitVec.ofNat 16)) } }

theorem test_clUnpack : after .clUnpack (packed [0x0008, 0x0310, 0x0008, 0x0010] 10 1 4)
    (fun t => (first 12 .lenLL t, first 2 .lenD t)) =
      some ([8, 8, 8, 8, 8, 8, 8, 8, 8, 8, 0, 0], [8, 0]) := by decide +kernel
theorem test_clUnpack_short :
    after .clUnpack (told 0x45 (packed [0x0008, 0x0310, 0x0008, 0x0010] 11 1 4)) ending = some (4, 0x4509)
        := by
  decide +kernel

/-! 95_test_vectors.md 2.7 to 2.9, P7 -/

/-- The bytes of "aaaa". -/
def aaaa : List Nat := [0x61, 0x61, 0x61, 0x61]

theorem test_defEncChunk_fixed :
    after (.defEncChunk true) (chunked aaaa { args 4 0 with cfg := 0xF5 })
      (fun t => (output t, reg .bwState t, reg .crcValue t, reg .winState t, first 1 .freqD t)) =
      some ([0x4B, 0x04, 0x02], 0x6, 0xAD98E545, 0x40004, [1]) := by decide +kernel
theorem test_defEncChunk_stored :
    after (.defEncChunk true) (chunked [1, 2, 3, 4, 5] { args 5 0 with cfg := 0xF4 }) output =
      some [0xF9, 0x05, 0x00, 0xFA, 0xFF, 0x01, 0x02, 0x03, 0x04, 0x05] := by decide +kernel
theorem test_defEncStream_dynamic :
    after .defEncStream (fed aaaa) output =
      some [0xED, 0xFD, 0x81, 0x00, 0x00, 0x00, 0x00, 0x80, 0x20, 0xB0, 0xEE, 0x2F, 0x71, 0x22, 0x25, 0x12,
        0xFF] := by decide +kernel
theorem test_defEncStream_config : after .defEncStream (told 0x51 { fed aaaa with cfg := 0xF7 }) ending =
    some (4, 0x510E) := by decide +kernel
theorem test_defDecBlock_stored :
    after .defDecBlock (fed [0xF9, 0x05, 0x00, 0xFA, 0xFF, 1, 2, 3, 4, 5])
      (fun t => (reg .res0 t, reg .res1 t, output t)) = some (1, 0, [1, 2, 3, 4, 5]) := by decide +kernel
theorem test_defDecBlock_storedLen :
    after .defDecBlock (told 0x52 (fed [0x01, 0x05, 0x00, 0xFB, 0xFF])) (fun t => t.errinfo) =
      some 0x5204#32 := by decide +kernel
theorem test_defDecStream_fixed :
    after .defDecStream (fed [0x73, 0x04, 0x02, 0xC0])
      (fun t => (reg .res0 t, output t, reg .crcValue t, reg .brState t)) =
      some (1, [0x41, 0x41, 0x41, 0x41], 0x9B0D08F1, 0x302) := by decide +kernel
theorem test_defDecStream_distance :
    after .defDecStream (told 0x53 (fed [0x72, 0x74, 0x02, 0xCC, 0x19, 0x48, 0xFF]))
      (fun t => (t.errinfo.toNat, output t, reg .bytesOutLo t, reg .outCommitLo t)) =
      some (0x5308, [0x41, 0x42, 0x43], 3, 2) := by decide +kernel

/-! 95_test_vectors.md 2.10 -/

/-- FNAME holds bytes. -/
def named (l : List Nat) (s : State) : State :=
  { s with tables := { s.tables with fname := .ofList (bytes l) } }

theorem test_gzWrHeader : after (.gzWrHeader true) (named [0x61, 0x2E, 0x74, 0x78, 0x74] (args 5 0)) output =
    some [0x1F, 0x8B, 0x08, 0x08, 0, 0, 0, 0, 0, 0, 0x61, 0x2E, 0x74, 0x78, 0x74, 0x00] := by decide +kernel
theorem test_gzWrHeader_long : after (.gzWrHeader true) (told 0x60 (args 257 0)) ending = some (4, 0x600D)
    := by
  decide +kernel
theorem test_gzRdHeader : after .gzRdHeader (fed [0x1F, 0x8B, 0x08, 0, 0, 0, 0, 0, 0, 3])
    (fun t => (reg .res0 t, reg .res1 t, reg .gzXflOs t)) = some (0, 0, 0x300) := by decide +kernel
theorem test_gzRdHeader_method : after .gzRdHeader (told 0x61 (fed [0x1F, 0x8B, 0x07]))
    (fun t => (ending t, reg .bytesInLo t)) = some ((4, 0x6102), 3) := by decide +kernel
theorem test_gzWrTrailer : after .gzWrTrailer { base with crcState := 0x174841BC } output =
    some [0x43, 0xBE, 0xB7, 0xE8, 0, 0, 0, 0] := by decide +kernel

/-- The trailer of the member of 2.10 for "aaaa". -/
theorem test_gzRdTrailer :
    after .gzRdTrailer { fed [0x45, 0xE5, 0x98, 0xAD, 4, 0, 0, 0] with crcState := 0x52671ABA, rawCount := 4 }
      (fun t => (ending t, reg .gzTrlCrc t, reg .gzTrlIsize t)) = some ((2, 0), 0xAD98E545, 4) := by
  decide +kernel
theorem test_gzCompress_fixed :
    after (.gzCompress false) { fed aaaa with cfg := 0xF5 } output =
      some [0x1F, 0x8B, 0x08, 0, 0, 0, 0, 0, 0, 0, 0x4B, 0x04, 0x02, 0xC0, 0x45, 0xE5, 0x98, 0xAD, 4, 0, 0,
          0] := by
  decide +kernel

/-- The 35-byte member of "aaaa" (95_test_vectors.md W1), with one byte of its CRC to choose. -/
def member (crc0 : Nat) : List Nat :=
  [0x1F, 0x8B, 0x08, 0, 0, 0, 0, 0, 0, 0, 0xED, 0xFD, 0x81, 0x00, 0x00, 0x00, 0x00, 0x80, 0x20, 0xB0, 0xEE,
    0x2F, 0x71, 0x22, 0x25, 0x12, 0xFF, crc0, 0xE5, 0x98, 0xAD, 4, 0, 0, 0]

theorem test_gzDecompress : after .gzDecompress (fed (member 0x45))
    (fun t => (output t, reg .gzTrlCrc t, reg .gzTrlIsize t, reg .status t)) =
      some (aaaa, 0xAD98E545, 4, 0x12) := by decide +kernel

/-- P6: the CRC does not agree. -/
theorem test_gzDecompress_crc : after .gzDecompress (told 0x65 (fed (member 0x46)))
    (fun t => (ending t, output t, reg .bytesInLo t, reg .outCommitLo t)) =
      some ((0x14, 0x6505), aaaa, 35, 4) := by decide +kernel

/-- A final block that holds after its header shows STATUS as at acceptance (70_reset_and_hazards.md R387). -/
theorem test_hold_status :
    after .defDecBlock { fed [0x73] with inClosed := false } (reg .status) = some 0x01 ∧
    after .defDecBlock (told 0x52 (fed [0x73])) (reg .status) = some 0x14 := by decide +kernel

/-! The host's side (95_test_vectors.md 2.11, 2.12, P6) -/

/-- A field of the state one step leaves. -/
def stepped {α : Type} (s : State) (f : State → α) : Option α :=
  match step s with
  | .next t => some (f t)
  | .fault _ => none
  | .refused _ => none

theorem test_step_runs_word : stepped (State.reset.withFetchWord 8 0x20) (fun t => (reg .cmd t, ending t)) =
    some (0x20, (2, 0)) := by decide +kernel
theorem test_step_illegal : stepped (State.reset.withFetchWord 8 0x06) ending = some (4, 0x60D) := by
  decide +kernel
theorem test_step_drops_in_error :
    stepped { State.reset with engine := .error, cmd := 0x65, errinfo := 0x6505, host := [.write 32 0 0] }
      (fun t => (reg .status t, reg .cmd t)) = some (0xC, 0x65) := by decide +kernel
theorem test_step_params : stepped { State.reset with host := [.read 32 0x6C] } (fun t => t.hostRead) =
    some 0x01008000#32 := by decide +kernel
theorem test_irq : stepped { State.reset with cfg := 0x2F6, host := [.write 32 0 0x06] } irq = some true := by
  decide +kernel

/-- Bytes appended to a closed port while a command holds (20_memory.md R61, 60_exceptions.md R341). -/
theorem test_append_closed_busy :
    stepped { base with inClosed := true, inPort := [1], host := [.input [2]] } (fun t => (t.inPort, t.inClosed)) =
      some ([1, 2], true) := by decide +kernel

/-- After a reset the bytes stay queued until the host withdraws them (70_reset_and_hazards.md R371). -/
theorem test_emptyInput :
    stepped { base with inPort := [1], host := [.resetInput] } (fun t => t.inPort) = some [1] ∧
    stepped { State.reset with inPort := [1], host := [.emptyInput] } (fun t => t.inPort) = some [] := by
  decide +kernel

/-! ### The hypotheses of the statements can be met -/

/-- A block with the reset tables is a legal block where its cursors, CFG and TOKENS are. -/
theorem block_ok {e : Engine} (ht : e.tables = Tables.reset 0)
    (hc : WriterOk e ∧ ReaderOk e ∧ e.cfg &&& ~~~cfgMask = 0 ∧ e.tokens.length ≤ 0) :
    Engine.Ok Config.Params.default e := by
  obtain ⟨h1, h2, h3, h4⟩ := hc
  refine ⟨h1, h2, h3, ?_, by omega⟩
  rw [ht]
  exact ⟨unknown_fits _ _, unknown_fits _ _, zeros_fits _, zeros_fits _, zeros_fits _, zeros_fits _, zeros_fits _,
    zeros_fits _, zeros_fits _, zeros_fits _, zeros_fits _, zeros_fits _, zeros_fits _, fun k => by
      show (0 : BitVec 16) &&& _ = 0
      decide⟩

/-- A state with the reset tables that holds no command satisfies the invariant where its status does. -/
theorem inv_idle {s : State} (hp : s.params = Config.Params.default) (ht : s.tables = Tables.reset 0)
    (hc : WriterOk s.toEngine ∧ ReaderOk s.toEngine ∧ s.cfg &&& ~~~cfgMask = 0 ∧ s.tokens.length ≤ 0)
    (hs : StatusOk s) (hh : s.held = none) (hb : s.engine ≠ .busy) : Inv s where
  params := by rw [hp]; decide
  block := by rw [hp]; exact block_ok ht hc
  status := hs
  hold := ⟨by rw [hh]; simpa using hb, fun h e => by rw [hh] at e; exact nomatch e⟩

theorem resetCursors : WriterOk (Engine.reset 0) ∧ ReaderOk (Engine.reset 0) ∧
    (Engine.reset 0).cfg &&& ~~~cfgMask = 0 ∧ (Engine.reset 0).tokens.length ≤ 0 := by decide

/-- After reset, with a host action queued. -/
def queued (e : HostEvent) : State := { State.reset with host := [e], cmdDropped := true }

theorem queued_inv (e : HostEvent) : Inv (queued e) :=
  inv_idle rfl rfl resetCursors ⟨(fun h => nomatch h), fun _ => rfl, fun _ => rfl, (fun h => nomatch h)⟩ rfl
    (fun h => nomatch h)

/-- In ERROR, with a host action queued. -/
def failed (e : HostEvent) : State :=
  { State.reset with engine := .error, cmd := 0x53#32, errinfo := 0x5303#32, host := [e] }

theorem failed_inv (e : HostEvent) : Inv (failed e) :=
  inv_idle rfl rfl resetCursors
    ⟨(fun h => nomatch h), (fun h => nomatch h), (fun h => nomatch h),
      fun _ => ⟨.badBtype, (by decide : 0x5303#32 = errorInfo 0x53#32 .badBtype)⟩⟩
    rfl (fun h => nomatch h)

/-- BR_BYTE holds, with a host action queued. -/
def holding (e : HostEvent) : State :=
  { State.reset with
    engine := .busy, cmd := 0x19#32, host := [e]
    held := some
      { instr := .brByte, start := { Engine.reset 0 with engine := .busy, cmd := 0x19#32 }
        taken := [], given := 0, ended := false } }

theorem holding_inv (e : HostEvent) : Inv (holding e) where
  params := (by decide : Config.Params.default.wf)
  block := block_ok rfl resetCursors
  status := ⟨(fun h => nomatch h), (fun h => nomatch h), (fun h => nomatch h), (fun h => nomatch h)⟩
  hold := ⟨by simp [holding], fun h e => by
    cases e
    exact ⟨block_ok rfl resetCursors, rfl, rfl, rfl, ⟨rfl, rfl, rfl, rfl, rfl⟩, ⟨rfl, rfl⟩,
      (by decide : decode 0x19#32 = .ok .brByte), (fun h => nomatch h), rfl,
      (fun h => nomatch h)⟩⟩

theorem test_meets_DecodeEncode :
    (Instr.bwBits 0).wellFormed = true ∧ (Instr.brBits 63).wellFormed = true ∧
      (Instr.hufBuild .illegal 15).wellFormed = true := by decide

/-- The lowest and the highest offset of CMD, and a word with a field. -/
theorem test_meets_StepRunsDecoded :
    ((queued (.write 32 0 0x10050)).host = .write 32 0 0x10050 :: [] ∧ 0 / 4 = 0 ∧
      (queued (.write 32 0 0x10050)).engine = .idle ∧ decode 0x10050 = .ok (.defEncChunk false)) ∧
    ((queued (.write 32 3 0x65)).host = .write 32 3 0x65 :: [] ∧ 3 / 4 = 0 ∧
      (queued (.write 32 3 0x65)).engine = .idle ∧ decode 0x65 = .ok .gzDecompress) := by
  refine ⟨⟨rfl, rfl, rfl, by decide⟩, rfl, rfl, rfl, by decide⟩

theorem test_meets_CommandAcceptance :
    ({ queued (.write 32 0 0) with engine := .busy }.engine = .busy) ∧
    ((failed (.write 32 3 0x03)).engine = .error ∧ opcField 0x03 ≠ 0x01#8 ∧ opcField 0x03 ≠ 0x02#8) ∧
    ((failed (.write 32 0 0xF01)).engine = .error ∧ opcField 0xF01 = 0x01#8 ∧ decode 0xF01 = .ok .reset) ∧
    ((queued (.write 32 0 0xF06)).engine = .idle ∧ decode 0xF06 = .error (.illegalOpcode 0x06#8)) := by
  decide

/-- CMD_DROPPED falls in the three ways. -/
theorem test_meets_CommandAcceptance_dropped :
    ∀ e, e = .resetInput ∨ e = .write 32 4 0x8 ∨ e = .write 32 0 0x01 →
      Inv (queued e) ∧ (queued e).cmdDropped = true ∧ stepped (queued e) (fun t => t.cmdDropped) = some false := by
  intro e h
  refine ⟨queued_inv e, rfl, ?_⟩
  rcases h with rfl | rfl | rfl <;> decide +kernel

theorem test_meets_RegisterPort :
    (16 : Nat) ≠ 32 ∧ 0x70 ≤ 0x70 ∧ 0x0B / 4 ∉ [0, 1, 3, 4, 5, 6] ∧ 0x1C / 4 ∉ [0, 1, 3, 4, 5, 6] := by decide

theorem test_meets_RegisterValues : State.reset.engine ≠ .busy := by decide

theorem test_meets_HostWrites :
    State.reset.engine ≠ .busy ∧ base.engine = .busy ∧ 0x0C / 4 ∈ [3, 4, 5, 6] ∧ 0x1B / 4 ∈ [3, 4, 5, 6] := by decide

theorem test_meets_PortDiscipline :
    State.reset.engine ≠ .busy ∧ Instr.brByte ≠ .reset ∧ ∃ t, exec .brByte (fed [1]) = .next t ∧ t.engine = .idle :=
  ⟨by decide, by decide, after_some (f := fun t => t.engine) (by decide +kernel)⟩

theorem test_meets_CommandEnds :
    (∃ t, exec .nop base = .next t ∧ t.engine = .idle) ∧ (∃ t, exec (.bwBits 33) base = .next t ∧ t.engine = .error) ∧
      ∃ t, exec .brByte base = .next t ∧ t.engine = .busy :=
  ⟨after_some (f := fun t => t.engine) (by decide +kernel), after_some (f := fun t => t.engine) (by decide +kernel),
    after_some (f := fun t => t.engine) (by decide +kernel)⟩

/-- The operands just out of range, one command of each range. -/
theorem test_meets_Checks_operand :
    badOperand (args 32768 0) (.tblRead .chunk) ∧ badOperand (args 0 0) (.tblWrite .window) ∧
    badOperand base (.bwBits 33) ∧ badOperand base (.bwBitsR 33) ∧ badOperand base (.brBits 33) ∧
    badOperand (args 0 32769) .winFind ∧ badOperand (args 1 0) .winFind ∧ badOperand base (.hufBuild .ll 0) ∧
    badOperand base (.hufBuild .illegal 1) ∧ badOperand base (.hufDecode .illegal) ∧ badOperand (args 0 1) .clPack ∧
    badOperand (args 289 1) .clPack ∧ badOperand (args 1 33) .clUnpack ∧ badOperand (packed [] 1 1 321) .clUnpack ∧
    badOperand (args 32769 0) (.defEncChunk true) ∧ badOperand (args 257 0) (.gzWrHeader true) := by
  simp only [badOperand]
  decide

/-- The operands just in range, with an illegal configuration. -/
theorem test_meets_Checks_config :
    (¬ badOperand { args 32768 0 with cfg := 0x37 } (.defEncChunk true) ∧
      badConfig { args 32768 0 with cfg := 0x37 } (.defEncChunk true)) ∧
    (¬ badOperand { args 257 0 with cfg := 0x06 } (.gzCompress false) ∧
      badConfig { args 257 0 with cfg := 0x06 } (.gzCompress false)) ∧
    (¬ badOperand { args 32768 32768 with cfg := 0x06 } .winFind ∧
      badConfig { args 32768 32768 with cfg := 0x06 } .winFind) ∧
    (¬ badOperand { base with cfg := 0x06 } .defDecBlock ∧ badConfig { base with cfg := 0x06 } .defDecBlock) := by
  simp only [badOperand, badConfig]
  decide

theorem test_meets_ErrorStays :
    ∀ e, e = .resetInput ∨ e = .write 32 0 0x01 ∨ e = .write 32 3 0x02 →
      Inv (failed e) ∧ (failed e).engine = .error ∧ stepped (failed e) (fun t => t.engine) = some .idle := by
  intro e h
  refine ⟨failed_inv e, rfl, ?_⟩
  rcases h with rfl | rfl | rfl <;> decide +kernel

theorem test_meets_NeverStops :
    (⟨1, 1⟩ : Config.Params).wf ∧ (⟨65535, 65535⟩ : Config.Params).wf ∧ base.params.wf := by decide

/-- Actions inside the interface, and one of each kind outside it. -/
theorem test_meets_StepStops :
    (Inv (queued (.write 32 0 0x20)) ∧ HostEvent.allowed (queued (.write 32 0 0x20)) (.write 32 0 0x20) = true) ∧
    (Inv (queued (.read 16 0)) ∧ HostEvent.allowed (queued (.read 16 0)) (.read 16 0) = false) ∧
    (∀ e, e = .openInput ∨ e = .emptyInput → (Inv (queued e) ∧ e.allowed (queued e) = true) ∧
      Inv (holding e) ∧ e.allowed (holding e) = false) ∧
    (Inv (holding (.input [1])) ∧ HostEvent.allowed (holding (.input [1])) (.input [1]) = true) :=
  ⟨⟨queued_inv _, by decide⟩, ⟨queued_inv _, by decide⟩, fun e h => by
    rcases h with rfl | rfl <;> exact ⟨⟨queued_inv _, by decide⟩, holding_inv _, by decide⟩,
    holding_inv _, by decide⟩

theorem test_meets_Frame :
    (∃ t, exec .crcUpdate base = .next t ∧ t.engine = .idle) ∧ Field.rawCount ∉ courseFields ∧
      Field.rawCount ∉ writes (btypeSel base) .crcUpdate :=
  ⟨after_some (f := fun t => t.engine) (by decide +kernel), by decide, by decide⟩

/-- A command holds on the input port after one of two bytes, one holds on the output port, and one holds on the output
port after it has seen the end of the input. -/
theorem test_meets_HoldIsTransparent :
    (base.params.wf ∧ base.engine = .busy ∧ base.done = false ∧ base.held = none ∧ base.sawEnd = false) ∧
    (∃ t, exec .brShort { fed [5] with inClosed := false } = .next t ∧
      t.held.map (fun h => (h.taken, h.given, h.ended)) = some ([5#8], 0, false)) ∧
    (∃ t, exec .bwShort { args 0x1234 0 with outRoom := some 1 } = .next t ∧
      t.held.map (fun h => (h.taken, h.given, h.ended)) = some ([], 1, false)) ∧
    (∃ t, exec .defEncStream { fed [5] with cfg := 0xF4, outRoom := some 0 } = .next t ∧
      t.held.map (fun h => (h.taken, h.given, h.ended)) = some ([5#8], 0, true)) ∧
    ∃ u, exec .defEncStream { fed [5] with cfg := 0xF4, outRoom := some 6 } = .next u ∧ u.engine = .idle :=
  ⟨by decide,
    after_some (f := fun t => t.held.map (fun h => (h.taken, h.given, h.ended))) (by decide +kernel),
    after_some (f := fun t => t.held.map (fun h => (h.taken, h.given, h.ended))) (by decide +kernel),
    after_some (f := fun t => t.held.map (fun h => (h.taken, h.given, h.ended))) (by decide +kernel),
    after_some (f := fun t => t.engine) (by decide +kernel)⟩

/-- A step that accepts a command, and one in which it goes on. -/
theorem test_meets_StepInv :
    Inv (queued (.write 32 0 0x19)) ∧ stepped (queued (.write 32 0 0x19)) (fun t => t.held.isSome) = some true ∧
      Inv (failed .pass) ∧ stepped (failed .pass) (fun t => t.engine) = some .error :=
  ⟨queued_inv _, by decide +kernel, failed_inv _, by decide +kernel⟩

/-- A full window of 2 bytes. -/
theorem test_meets_WindowInv :
    WindowOk { base with cfg := 0x16, wcur := 1, wvalid := 2 } ∧ WindowOk { base with cfg := 0x16, wcur := 1, wvalid := 1 } ∧
      ∃ t, exec .winAdd { base with cfg := 0x16, wcur := 1, wvalid := 2 } = .next t ∧ t.engine = .idle :=
  ⟨by decide, by decide, after_some (f := fun t => t.engine) (by decide +kernel)⟩

theorem test_meets_TblRead :
    entries (args 288 0).params .freqLL ≤ (args 288 0).arg0.toNat ∧
      (args 287 0).arg0.toNat < entries (args 287 0).params .freqLL ∧
      (args 29 0).arg0.toNat < entries (args 29 0).params .distRange := by decide

theorem test_meets_TblWrite :
    TableId.lenRange ∈ [TableId.window, .crcTable, .lenRange, .distRange] ∧
      entries (args 320 0).params .packed ≤ (args 320 0).arg0.toNat ∧
      TableId.packed ∉ [TableId.window, .crcTable, .lenRange, .distRange] ∧
      (args 319 0).arg0.toNat < entries (args 319 0).params .packed := by decide

/-- The host accepts so many bytes. -/
def room (k : Nat) (s : State) : State := { s with outRoom := some k }

theorem room_has (k : Nat) (s : State) : hasRoom (room k s) k := fun _ h => by cases h; exact le_refl _

theorem room_none {s : State} (h : s.outRoom = none) (n : Nat) : hasRoom s n := fun _ e => by rw [h] at e; exact nomatch e

/-- Seven bits pending, and room for exactly the bytes that fill up. -/
theorem test_meets_WriteBits :
    32 < 33 ∧ 32 ≤ 32 ∧ WriterOk (room 4 { base with wcount := 7, wbuf := 0x7F }).toEngine ∧
      hasRoom (room 4 { base with wcount := 7, wbuf := 0x7F }) ((7 + 32) / 8) :=
  ⟨by decide, by decide, by decide, room_has 4 _⟩

theorem test_meets_WriteBytes :
    (WriterOk base.toEngine ∧ base.wcount = 0 ∧ hasRoom (room 1 base) 1 ∧ hasRoom (room 2 base) 2 ∧
      hasRoom (room 4 base) 4) ∧
    (WriterOk (room 1 { base with wcount := 7, wbuf := 0x40 }).toEngine ∧
      (room 1 { base with wcount := 7, wbuf := 0x40 }).wcount ≠ 0 ∧
      hasRoom (room 1 { base with wcount := 7, wbuf := 0x40 }) 1) :=
  ⟨⟨by decide, by decide, room_has 1 _, room_has 2 _, room_has 4 _⟩, by decide, by decide, room_has 1 _⟩

/-- Each command with room for one byte less than it fills. -/
theorem test_meets_WriteHolds :
    WriterOk { base with wcount := 7, wbuf := 0x7F }.toEngine ∧ WriterOk base.toEngine ∧ (room 3 base).outRoom = some 3 ∧
    (1 ≤ 32 ∧ 0 < ((7#3).toNat + (bitsOf 1 base.arg0.toNat).length) / 8) ∧
    (32 ≤ 32 ∧ 3 < (base.wcount.toNat + (bitsRev 32 base.arg0.toNat).length) / 8) ∧
    0 < ((7#3).toNat + (List.replicate ((8 - (7#3).toNat) % 8) true).length) / 8 ∧
    0 < (base.wcount.toNat + (bitsOf 8 base.arg0.toNat).length) / 8 ∧
    1 < (base.wcount.toNat + (bitsOf 16 base.arg0.toNat).length) / 8 ∧
    3 < (base.wcount.toNat + (bitsOf 32 base.arg0.toNat).length) / 8 := by decide

/-- More bits than there are, exactly as many, and one fewer, with the port closed and open. -/
theorem test_meets_ReadBits :
    32 < 33 ∧ ReaderOk (fed [1, 2, 3, 4]).toEngine ∧ (unreadBits (fed [1, 2, 3, 4])).length = 32 ∧
      ReaderOk { base with rbuf := 0x7F, rcount := 7 }.toEngine ∧
      (unreadBits { base with rbuf := 0x7F, rcount := 7 }).length < 8 ∧ base.inClosed = false ∧
      (fed []).inClosed = true ∧ (unreadBits (fed [])).length < 8 := by decide

/-- An empty window remembers nothing. -/
theorem remembers_nil {s : State} (hw : WindowOk s) (h : s.wvalid = 0) : Remembers s [] where
  window := hw
  valid := by rw [h]; rfl
  byte := fun d h1 h2 => by rw [h] at h2; simp at h2; omega

/-- A window of 2 bytes in which a byte has been pushed out. -/
def slid : State :=
  { args 0x64 0 with
    cfg := 0x16, wcur := 1, wvalid := 2
    tables := { base.tables with window := .ofList (bytes [0x63, 0x62]) } }

theorem slid_remembers : Remembers slid (bytes [0x61, 0x62, 0x63]) where
  window := by decide
  valid := by decide
  byte := fun d h1 h2 => by
    have : d ≤ 2 := h2
    interval_cases d <;> decide +kernel

theorem test_meets_WindowResults :
    winLog2 { base with cfg := 0x06 } = 0 ∧ winLog2 slid = 1 ∧ Remembers slid (bytes [0x61, 0x62, 0x63]) ∧
      Remembers base [] :=
  ⟨by decide, by decide, slid_remembers, remembers_nil (by decide) rfl⟩

theorem test_meets_WinFind :
    (args 0 32769).params.chunkSize < (args 0 32769).arg1.toNat ∧
    (args 1 0).arg1.toNat < (args 1 0).arg0.toNat ∧
    ((args 32768 32768).arg1.toNat ≤ (args 32768 32768).params.chunkSize ∧
      (args 32768 32768).arg0.toNat ≤ (args 32768 32768).arg1.toNat ∧ winLog2 (args 32768 32768) ≠ 0) ∧
    winLog2 { args 0 0 with cfg := 0x06 } = 0 := by decide

/-- The bounds on the number of leaves, met exactly: 2 leaves with LIMIT 2 and 3 leaves with LIMIT 1. -/
theorem test_meets_HufBuild :
    selAlphabet .cl = some .cl ∧
    max 2 ((freqsOf (freqs [1]).tables .cl).filter (fun f => f > 0)).length ≤ 2 ^ (2 - 1) ∧
    2 ^ 1 < max 2 ((freqsOf (freqs [1, 1, 1]).tables .cl).filter (fun f => f > 0)).length := by decide +kernel

theorem test_meets_KraftEquality :
    hufBuild [0, 0, 7] 1 = .ok [1, 0, 1] ∧ hufBuild [1, 1, 2, 3, 5, 8, 13, 21] 15 = .ok [7, 7, 6, 5, 4, 3, 2, 1] ∧
      ∃ t, exec (.hufBuild .cl 15) (freqs [1]) = .next t ∧ t.engine = .idle :=
  ⟨by rfl, by rfl, after_some (f := fun t => t.engine) (by decide +kernel)⟩

/-- Symbol 0 is the first of the lengths 1, 3, 3, 2; symbol 3 comes before symbol 1; symbol 4 has none. -/
theorem test_meets_HufCanon :
    lenAt (lens [1, 3, 3, 2]).tables .cl 4 = 0 ∧
    (∀ y, y < alphabetSize .cl → 0 < lenAt (lens [1, 3, 3, 2]).tables .cl y →
      1 < lenAt (lens [1, 3, 3, 2]).tables .cl y ∨ (1 = lenAt (lens [1, 3, 3, 2]).tables .cl y ∧ 0 ≤ y)) ∧
    ∀ z, z < alphabetSize .cl → 0 < lenAt (lens [1, 3, 3, 2]).tables .cl z → z ≠ 1 →
      (lenAt (lens [1, 3, 3, 2]).tables .cl z < 3 ∨ (lenAt (lens [1, 3, 3, 2]).tables .cl z = 3 ∧ z < 1)) →
      lenAt (lens [1, 3, 3, 2]).tables .cl z < 2 ∨ (lenAt (lens [1, 3, 3, 2]).tables .cl z = 2 ∧ z ≤ 3) := by
  refine ⟨by decide +kernel, by decide +kernel, ?_⟩
  intro z hz
  have h19 : z < 19 := hz
  interval_cases z <;> decide +kernel

theorem fixedLensLL_kraft : (∀ l ∈ fixedLensLL, l ≤ 15) ∧ kraft 15 fixedLensLL = 2 ^ 15 := by decide +kernel

theorem fixedLensD_kraft : (∀ l ∈ fixedLensD, l ≤ 15) ∧ kraft 15 fixedLensD ≤ 2 ^ 15 := by decide +kernel

/-- A full code, and a code with room. -/
theorem test_meets_CanonicalPrefixFree :
    ((∀ l ∈ fixedLensLL, l ≤ 15) ∧ kraft 15 fixedLensLL ≤ 2 ^ 15) ∧ (∀ l ∈ [15, 0, 1], l ≤ 15) ∧
      kraft 15 [15, 0, 1] ≤ 2 ^ 15 :=
  ⟨⟨fixedLensLL_kraft.1, le_of_eq fixedLensLL_kraft.2⟩, by decide, by decide⟩

/-- LEN_CL holds lengths and CODE_CL their canonical codes, with input bytes and the port closed. -/
def coded (l : List Nat) (input : List Nat) : State :=
  { fed input with tables := canonTables .cl (lens l).tables }

/-- 110 is symbol 1's code, and no shorter one matches. -/
theorem test_meets_HufDecode :
    ReaderOk (coded [1, 3, 3, 2] [3]).toEngine ∧ 3 ≤ (unreadBits (coded [1, 3, 3, 2] [3])).length ∧
    (lenAt (coded [1, 3, 3, 2] [3]).tables .cl 1 = 3 ∧
      codeAt (coded [1, 3, 3, 2] [3]).tables .cl 1 = codeOfBits ((unreadBits (coded [1, 3, 3, 2] [3])).take 3)) ∧
    (∀ y, y < 1 → lenAt (coded [1, 3, 3, 2] [3]).tables .cl y = 3 →
      codeAt (coded [1, 3, 3, 2] [3]).tables .cl y ≠ codeOfBits ((unreadBits (coded [1, 3, 3, 2] [3])).take 3)) ∧
    ∀ m, m < 3 → 1 ≤ m → ∀ y, y < alphabetSize .cl → lenAt (coded [1, 3, 3, 2] [3]).tables .cl y = m →
      codeAt (coded [1, 3, 3, 2] [3]).tables .cl y ≠ codeOfBits ((unreadBits (coded [1, 3, 3, 2] [3])).take m) := by
  decide +kernel

/-- No code matches 11 where the code is 0, 10; a table without codes; and one bit where the codes have two. -/
theorem test_meets_HufDecode_none :
    (2 ≤ (unreadBits (coded [1, 2] [3])).length ∧ (∀ y, y < alphabetSize .cl → lenAt (coded [1, 2] [3]).tables .cl y ≤ 2) ∧
      lenAt (coded [1, 2] [3]).tables .cl 1 = 2 ∧
      ∀ m, m ≤ 2 → 1 ≤ m → ∀ y, y < alphabetSize .cl → lenAt (coded [1, 2] [3]).tables .cl y = m →
        codeAt (coded [1, 2] [3]).tables .cl y ≠ codeOfBits ((unreadBits (coded [1, 2] [3])).take m)) ∧
    (∀ y, y < alphabetSize .cl → lenAt (coded [] []).tables .cl y ≤ 0) ∧
    ((unreadBits (coded [2, 2] [])).length < lenAt (coded [2, 2] []).tables .cl 1 ∧
      ReaderOk (coded [2, 2] []).toEngine) := by
  decide +kernel

theorem test_meets_DecodeReadsCode :
    selAlphabet .cl = some .cl ∧ ReaderOk (coded [1, 3, 3, 2] [3]).toEngine ∧
      codesOf (coded [1, 3, 3, 2] [3]).tables .cl = hufCanon (lensOf (coded [1, 3, 3, 2] [3]).tables .cl) ∧
      Coded (lensOf (coded [1, 3, 3, 2] [3]).tables .cl) 1 ∧
      unreadBits (coded [1, 3, 3, 2] [3]) =
        symBits (lensOf (coded [1, 3, 3, 2] [3]).tables .cl) 1 ++ List.replicate 5 false :=
  ⟨rfl, by decide, by decide +kernel,
    prefixFree_of_kraft (by decide +kernel) (by decide +kernel) 1 (by decide +kernel) (by decide +kernel),
    by decide +kernel⟩

theorem test_meets_ClPack :
    (badOperand (args 0 1) .clPack ∧ badOperand (args 1 33) .clPack ∧ ¬ badOperand (args 288 32) .clPack ∧
      ¬ badOperand (args 1 1) .clPack) ∧
    ((1 ≤ 1 ∧ ([] : List Nat).head? ≠ some 0) ∧ 1 ≤ 139 ∧ [7].head? ≠ some 0) := by
  simp only [badOperand]
  decide

/-- The runs where the codes of 44_huffman.md R234 meet. -/
theorem test_runSymbols :
    [2, 3, 10, 11, 138, 139].map (runSymbols 0) =
      [[(0, 0), (0, 0)], [(17, 0)], [(17, 7)], [(18, 0)], [(18, 127)], [(18, 127), (0, 0)]] ∧
    [1, 3, 4, 7, 8].map (runSymbols 5) =
      [[(5, 0)], [(5, 0), (5, 0), (5, 0)], [(5, 0), (16, 0)], [(5, 0), (16, 3)], [(5, 0), (16, 3), (5, 0)]] := by
  decide

theorem test_meets_ClUnpack :
    (badOperand (packed [] 1 1 321) .clUnpack ∧ ¬ badOperand (packed [] 288 32 320) .clUnpack) ∧
    clUnpack (10 + 1) [] ((packed [0x0008, 0x0310, 0x0008, 0x0010] 10 1 4).tables.packed.toList 4) =
      .ok (List.replicate 11 8) ∧
    clUnpack (11 + 1) [] ((packed [0x0008, 0x0310, 0x0008, 0x0010] 10 1 4).tables.packed.toList 4) =
      .error .badCodelengths := by
  refine ⟨?_, rfl, rfl⟩
  simp only [badOperand]
  decide

/-- The entries where the cases of 44_huffman.md R235 meet: 15, 16 first and after 17, masked extra values, 17 to 19, 31. -/
theorem test_clUnpack_cases :
    clUnpack 1 [] [0x000F#16] = .ok [15] ∧ clUnpack 3 [] [0x0010#16] = .error .badCodelengths ∧
    clUnpack 6 [] [0x0011#16, 0x0010#16] = .ok (List.replicate 6 0) ∧
    clUnpack 7 [] [0x0002#16, 0x7F10#16] = .ok (List.replicate 7 2) ∧
    clUnpack 6 [] [0x0002#16, 0x7F10#16] = .error .badCodelengths ∧
    clUnpack 10 [] [0x7F11#16] = .ok (List.replicate 10 0) ∧ clUnpack 138 [] [0x7F12#16] = .ok (List.replicate 138 0) ∧
    clUnpack 9 [] [0x0013#16] = .error .badSymbol ∧ clUnpack 9 [] [0x001F#16] = .error .badSymbol ∧
    clUnpack 1 [] [] = .error .badCodelengths := by decide +kernel

theorem test_meets_PackRoundTrip :
    (1 ≤ (args 288 32).arg0.toNat ∧ (args 288 32).arg0.toNat ≤ 288 ∧ 1 ≤ (args 288 32).arg1.toNat ∧
      (args 288 32).arg1.toNat ≤ 32) ∧
    ∃ t, exec .clPack (args 1 1) = .next t ∧ t.engine = .idle :=
  ⟨by decide, after_some (f := fun t => t.engine) (by decide +kernel)⟩

theorem test_meets_RangeSymbols : (3 ≤ 258 ∧ 258 ≤ 258) ∧ (3 ≤ 3 ∧ 3 ≤ 258 ∧ 3 ≠ 258) ∧ 1 ≤ 32768 ∧ 32768 ≤ 32768 := by
  decide

/-- The largest chunk of a block type, an empty window. -/
theorem test_meets_StoredChunk :
    (¬ badOperand { args 32768 0 with cfg := 0xF4 } (.defEncChunk true) ∧
      winLog2 { args 32768 0 with cfg := 0xF4 } ≠ 0 ∧ btypeSel { args 32768 0 with cfg := 0xF4 } = 0) ∧
    ((args 32768 0).params.wf ∧ WriterOk (args 32768 0).toEngine ∧ (args 32768 0).outRoom = none) ∧
    Remembers { args 32768 0 with cfg := 0xF4 } [] :=
  ⟨⟨by simp only [badOperand]; decide, by decide, by decide⟩, by decide, remembers_nil (by decide) rfl⟩

theorem test_meets_EncodesChunk :
    ∀ cfg, cfg = 0xF4#32 ∨ cfg = 0x15#32 ∨ cfg = 0xF6#32 →
      (¬ badOperand { args 32768 0 with cfg := cfg } (.defEncChunk true) ∧
        ¬ badConfig { args 32768 0 with cfg := cfg } (.defEncChunk true)) ∧
      ((args 32768 0).params.wf ∧ WriterOk (args 32768 0).toEngine ∧ (args 32768 0).outRoom = none) ∧
      Remembers { args 32768 0 with cfg := cfg } [] := by
  intro cfg h
  rcases h with rfl | rfl | rfl <;>
    exact ⟨⟨by simp only [badOperand]; decide, by simp only [badConfig]; decide⟩, by decide,
      remembers_nil (by decide) rfl⟩

/-- No input, and bits already pending. -/
theorem test_meets_EncodesStream :
    ¬ badConfig { fed [] with wcount := 7, wbuf := 0x7F } .defEncStream ∧ (fed []).params.wf ∧
      WriterOk { fed [] with wcount := 7, wbuf := 0x7F }.toEngine ∧ (fed []).outRoom = none ∧
      (fed []).inClosed = true :=
  ⟨by simp only [badConfig]; decide, by decide, by decide, rfl, rfl⟩

/-- The stored block of 95_test_vectors.md 2.9 is a block of the format. -/
theorem stored_block : BlockCoded 0 32768 true 0 (streamBits (bytes [0xF9, 5, 0, 0xFA, 0xFF, 1, 2, 3, 4, 5])) []
    (bytes [1, 2, 3, 4, 5]) :=
  ⟨_, by decide +kernel, .inl ⟨rfl, List.replicate 5 true, bytes [1, 2, 3, 4, 5], by decide, by decide, rfl, rfl⟩⟩

theorem coded_LL {x : Nat} (h : x < 288) (hl : 0 < fixedLensLL.getD x 0) : Coded fixedLensLL x :=
  prefixFree_of_kraft fixedLensLL_kraft.1 (le_of_eq fixedLensLL_kraft.2) x (by simpa [fixedLensLL] using h) hl

theorem coded_D {x : Nat} (h : x < 32) (hl : 0 < fixedLensD.getD x 0) : Coded fixedLensD x :=
  prefixFree_of_kraft fixedLensD_kraft.1 fixedLensD_kraft.2 x (by simpa [fixedLensD] using h) hl

/-- The fixed block 73 04 02 C0 of 95_test_vectors.md 2.9: 'A', a match of length 3 and distance 1, and the end of the
block, 30 bits. -/
theorem fixed_block : BlockCoded 0 32768 true 1 ((streamBits (bytes [0x73, 0x04, 0x02, 0xC0])).take 30) []
    (bytes [0x41, 0x41, 0x41, 0x41]) := by
  refine ⟨((streamBits (bytes [0x73, 0x04, 0x02, 0xC0])).take 30).drop 3, by decide +kernel, .inr (.inl ⟨rfl,
    [.literal 0x41#8, .copy 3 1], ?_, ?_⟩)⟩
  · refine ⟨symBits fixedLensLL 0x41, _, ⟨coded_LL (by decide) (by decide +kernel), rfl⟩,
      ⟨symBits fixedLensLL 257 ++ bitsOf 0 0 ++ (symBits fixedLensD 0 ++ bitsOf 0 0), _,
        ⟨0, 0, 0, 0, ⟨by decide, by decide, by decide, coded_LL (by decide) (by decide +kernel)⟩,
          ⟨by decide, by decide, by decide, coded_D (by decide) (by decide +kernel)⟩, rfl⟩,
        ⟨coded_LL (by decide) (by decide +kernel), rfl⟩, rfl⟩, by decide +kernel⟩
  · exact ⟨(fun _ _ h => nomatch h), (fun _ _ h => by cases h; decide), rfl⟩

/-- The length tables of the dynamic block of "aaaa" (95_test_vectors.md 2.7). -/
def dynSeq : List Nat :=
  (List.range 316).map (fun k => if k = 97 ∨ k = 256 then 2 else if k = 257 ∨ k = 286 ∨ k = 287 then 1 else 0)
def dynLL : List Nat := (List.range 288).map (fun s => if s < 286 then dynSeq.getD s 0 else 0)
def dynD : List Nat := (List.range 32).map (fun s => if s < 30 then dynSeq.getD (286 + s) 0 else 0)
def dynCL : List Nat := [0, 2, 2, 0, 0, 0, 0, 0, 0, 0, 0, 0, 0, 0, 0, 0, 0, 0, 1]

theorem coded_of {l : List Nat} (h : (∀ x ∈ l, x ≤ 15) ∧ kraft 15 l ≤ 2 ^ 15) {x : Nat}
    (hx : x < l.length ∧ 0 < l.getD x 0) : Coded l x := prefixFree_of_kraft h.1 h.2 x hx.1 hx.2

theorem dynLL_kraft : (∀ x ∈ dynLL, x ≤ 15) ∧ kraft 15 dynLL ≤ 2 ^ 15 := by decide +kernel
theorem dynD_kraft : (∀ x ∈ dynD, x ≤ 15) ∧ kraft 15 dynD ≤ 2 ^ 15 := by decide +kernel
theorem dynCL_kraft : (∀ x ∈ dynCL, x ≤ 15) ∧ kraft 15 dynCL ≤ 2 ^ 15 := by decide +kernel

/-- The packed lengths of that block. -/
def dynPacked : List (Nat × Nat) :=
  [(18, 86), (2, 0), (18, 127), (18, 9), (2, 0), (1, 0), (18, 17), (1, 0), (1, 0), (18, 17)]

/-- The 17 bytes of that block. -/
def dynBytes : List Nat :=
  [0xED, 0xFD, 0x81, 0x00, 0x00, 0x00, 0x00, 0x80, 0x20, 0xB0, 0xEE, 0x2F, 0x71, 0x22, 0x25, 0x12, 0xFF]

theorem dynamic_tables : DynamicTables dynCL dynLL dynD (((streamBits (bytes dynBytes)).take 124).drop 3) := by
  refine ⟨29, 29, 15, dynPacked, dynSeq, by decide, ⟨rfl, ?_, ?_⟩, ?_, ⟨by decide +kernel, by decide +kernel⟩, rfl, rfl,
    by decide +kernel⟩
  · intro s
    rcases lt_or_ge s 19 with h | h
    · interval_cases s <;> decide
    · rw [List.getD_eq_default _ _ h]; decide
  · intro s hs
    rcases lt_or_ge s 19 with h | h
    · interval_cases s <;> first | rfl | exact absurd (by decide) hs
    · exact List.getD_eq_default _ _ h
  · intro p hp
    have h : p.1 < 19 ∧ p.2 < 2 ^ extraBits p.1 ∧ 0 < dynCL.getD p.1 0 := by
      revert p
      decide +kernel
    exact ⟨h.1, h.2.1, coded_of dynCL_kraft ⟨h.1, h.2.2⟩⟩

theorem dynamic_block : BlockCoded 0 32768 true 2 ((streamBits (bytes dynBytes)).take 130) []
    (bytes [0x61, 0x61, 0x61, 0x61]) := by
  refine ⟨((streamBits (bytes dynBytes)).take 130).drop 3, by decide +kernel, .inr (.inr ⟨rfl, dynLL, dynD,
    ((streamBits (bytes dynBytes)).take 124).drop 3, ((streamBits (bytes dynBytes)).take 130).drop 124,
    [.literal 0x61#8, .copy 3 1], ⟨dynCL, dynamic_tables⟩, ?_, by decide +kernel, ?_⟩)⟩
  · refine ⟨symBits dynLL 0x61, _, ⟨coded_of dynLL_kraft (by decide +kernel), rfl⟩,
      ⟨symBits dynLL 257 ++ bitsOf 0 0 ++ (symBits dynD 0 ++ bitsOf 0 0), _,
        ⟨0, 0, 0, 0, ⟨by decide, by decide, by decide, coded_of dynLL_kraft (by decide +kernel)⟩,
          ⟨by decide, by decide, by decide, coded_of dynD_kraft (by decide +kernel)⟩, rfl⟩,
        ⟨coded_of dynLL_kraft (by decide +kernel), rfl⟩, rfl⟩, by decide +kernel⟩
  · exact ⟨(fun _ _ h => nomatch h), (fun _ _ h => by cases h; decide), rfl⟩

/-- The encoder's view of that block: the tokens, the codes built from their counts, and the bits. -/
theorem test_chunkBits_dynamic : ChunkBits true 32768 0 true 2 [] (bytes [0x61, 0x61, 0x61, 0x61])
    ((streamBits (bytes dynBytes)).take 130) := by
  refine ⟨((streamBits (bytes dynBytes)).take 130).drop 3, by decide +kernel, .inr ⟨[.literal 0x61#8, .copy 3 1],
    .literal (fun _ d k h1 h2 => ?_) (.copy rfl ⟨by decide, by decide, by unfold Repeats; decide, fun d k h1 h2 h3 _ => ?_⟩ .done),
    .inr ⟨rfl, dynLL, dynD, dynCL, dynPacked, ⟨by decide +kernel, by decide +kernel, by decide +kernel, by decide +kernel⟩,
      by decide +kernel⟩⟩⟩
  · simp only [List.length_nil, Nat.zero_min] at h2
    omega
  · have e1 : d ≤ min 1 32768 := h2
    have e2 : k ≤ min 258 3 := h3
    omega

/-- The bits of a stream's block, its input bytes, and a reader at their start. -/
theorem test_meets_DecodesBlock :
    (winLog2 (fed []) ≠ 0 ∧ (fed []).params.wf ∧ ReaderOk (fed []).toEngine ∧ Remembers (fed []) [] ∧
      readerPos (fed []) = 0 ∧ winCap (fed []) = 32768) ∧
    (BlockCoded 0 32768 true 0 (streamBits (bytes [0xF9, 5, 0, 0xFA, 0xFF, 1, 2, 3, 4, 5])) [] (bytes [1, 2, 3, 4, 5]) ∧
      unreadBits (fed [0xF9, 5, 0, 0xFA, 0xFF, 1, 2, 3, 4, 5]) =
        streamBits (bytes [0xF9, 5, 0, 0xFA, 0xFF, 1, 2, 3, 4, 5]) ++ []) ∧
    (BlockCoded 0 32768 true 1 ((streamBits (bytes [0x73, 0x04, 0x02, 0xC0])).take 30) []
        (bytes [0x41, 0x41, 0x41, 0x41]) ∧
      unreadBits (fed [0x73, 0x04, 0x02, 0xC0]) =
        (streamBits (bytes [0x73, 0x04, 0x02, 0xC0])).take 30 ++ [true, true]) ∧
    (BlockCoded 0 32768 true 2 ((streamBits (bytes dynBytes)).take 130) [] (bytes [0x61, 0x61, 0x61, 0x61]) ∧
      unreadBits (fed dynBytes) = (streamBits (bytes dynBytes)).take 130 ++ List.replicate 6 true ∧
      DynamicTables dynCL dynLL dynD (((streamBits (bytes dynBytes)).take 124).drop 3) ∧
      (streamBits (bytes dynBytes)).take 130 = bitsOf 1 (bit true) ++ bitsOf 2 2
        ++ ((streamBits (bytes dynBytes)).take 124).drop 3 ++ ((streamBits (bytes dynBytes)).take 130).drop 124) ∧
    hasRoom (room 5 (fed [])) 5 :=
  ⟨⟨by decide, by decide, by decide, remembers_nil (by decide) rfl, by decide, by decide⟩,
    ⟨stored_block, by decide +kernel⟩, ⟨fixed_block, by decide +kernel⟩, ⟨dynamic_block, by decide +kernel, dynamic_tables,
    by decide +kernel⟩, room_has 5 _⟩

/-- An empty stored block that is not the last. -/
theorem empty_block : BlockCoded 0 32768 false 0 (streamBits (bytes [0xF8, 0, 0, 0xFF, 0xFF])) [] [] :=
  ⟨_, by decide +kernel, .inl ⟨rfl, List.replicate 5 true, [], by decide, by decide, rfl, rfl⟩⟩

/-- A stream of one block, and one of two: an empty stored block and the fixed block after it. -/
theorem test_meets_DecodesStream :
    StreamCoded 32768 0 1 ((streamBits (bytes [0x73, 0x04, 0x02, 0xC0])).take 30) [] (bytes [0x41, 0x41, 0x41, 0x41]) ∧
    StreamCoded 32768 0 2 (streamBits (bytes [0xF8, 0, 0, 0xFF, 0xFF]) ++
      (streamBits (bytes [0x73, 0x04, 0x02, 0xC0])).take 30) [] (bytes [0x41, 0x41, 0x41, 0x41]) ∧
    hasRoom (room 4 (fed [])) 4 :=
  ⟨.last fixed_block, .more empty_block (.last fixed_block), room_has 4 _⟩

/-- BTYPE = 3, and LEN 5 with NLEN 0xFFFB (95_test_vectors.md W3). -/
theorem test_meets_RejectsBlock :
    (winLog2 (fed []) ≠ 0 ∧ (fed []).params.wf ∧ ReaderOk (fed []).toEngine ∧ ∀ l, readerPos (fed l) = 0) ∧
    (BadStart 0 true .badBtype [true, true, true] ∧
      unreadBits (fed [0x07]) = [true, true, true] ++ List.replicate 5 false) ∧
    ∃ bits, BadStart 0 true .storedLen bits ∧ unreadBits (fed [0x01, 0x05, 0x00, 0xFB, 0xFF]) = bits ++ [] :=
  ⟨⟨by decide, by decide, by decide, fun _ => by simp [readerPos, fed, base, State.reset, Engine.reset]⟩,
    ⟨.inl ⟨rfl, rfl⟩, by decide +kernel⟩,
    ⟨_, .inr (.inl ⟨rfl, List.replicate 5 false, 5, 0xFFFB, by decide, by decide, by decide, by decide, rfl⟩),
      by decide +kernel⟩⟩

/-- Meta lengths of which a count is transmitted: three conditions of `BadTables` and `TablesCoded`. -/
theorem metaLens_ok {cl : List Nat} {n : Nat}
    (h : cl.length = 19 ∧ (∀ x ∈ cl, x < 8) ∧ ∀ s, s < 19 → s ∉ clOrder.take n → cl.getD s 0 = 0) :
    cl.length = 19 ∧ (∀ s, cl.getD s 0 < 8) ∧ ∀ s, s ∉ clOrder.take n → cl.getD s 0 = 0 := by
  refine ⟨h.1, fun s => ?_, fun s hs => ?_⟩
  · rcases lt_or_ge s cl.length with hl | hl
    · rw [List.getD_eq_getElem _ _ hl]
      exact h.2.1 _ (List.getElem_mem hl)
    · rw [List.getD_eq_default _ _ hl]
      decide
  · rcases lt_or_ge s 19 with hl | hl
    · exact h.2.2 s hl hs
    · exact List.getD_eq_default _ _ (by omega)

/-- Bits that match no code, by trying every symbol. -/
theorem noCode_of {lens : List Nat} {bits : List Bool}
    (h : (∀ x, x < lens.length → lens.getD x 0 ≤ bits.length) ∧ (∃ x, x < lens.length ∧ lens.getD x 0 = bits.length) ∧
      ∀ x, x < lens.length → 1 ≤ lens.getD x 0 →
        (hufCanon lens).getD x 0 ≠ codeOfBits (bits.take (lens.getD x 0))) : NoCode lens bits := by
  refine ⟨fun x => ?_, .inr (h.2.1.imp fun _ hx => hx.2), fun m x h1 h2 he => ?_⟩
  · rcases lt_or_ge x lens.length with hl | hl
    · exact h.1 x hl
    · rw [List.getD_eq_default _ _ hl]
      exact Nat.zero_le _
  · subst he
    rcases lt_or_ge x lens.length with hl | hl
    · exact h.2.2 x hl h1
    · rw [List.getD_eq_default _ _ hl] at h1
      exact absurd h1 (by decide)

/-- Meta codes for two symbols of length 1, and for one of length 1 and one of length 2. -/
def clA : List Nat := [1, 0, 0, 0, 0, 0, 0, 0, 0, 0, 0, 0, 0, 0, 0, 0, 1, 0, 0]
def clB : List Nat := [1, 0, 0, 0, 0, 0, 0, 0, 0, 0, 0, 0, 0, 0, 0, 0, 0, 0, 1]
def clC : List Nat := [1, 0, 0, 0, 0, 0, 0, 0, 0, 0, 0, 0, 0, 0, 0, 0, 0, 0, 2]

theorem clA_kraft : (∀ x ∈ clA, x ≤ 15) ∧ kraft 15 clA ≤ 2 ^ 15 := by decide +kernel
theorem clB_kraft : (∀ x ∈ clB, x ≤ 15) ∧ kraft 15 clB ≤ 2 ^ 15 := by decide +kernel

/-- HLIT = 30; a first 16; a run to one length past the 258 announced; bits that are no code. -/
theorem test_meets_RejectsBlock_tables :
    (∃ bits, BadStart 0 true .badCodelengths bits ∧ unreadBits (fed [0xF5, 0xFF, 0x01]) = bits ++ List.replicate 7 false) ∧
    (∃ bits, BadStart 0 true .badCodelengths bits ∧
      unreadBits (fed [0x05, 0x00, 0x02, 0x24]) = bits ++ List.replicate 2 false) ∧
    (∃ bits, BadStart 0 true .badCodelengths bits ∧
      unreadBits (fed [0x05, 0x00, 0x80, 0xE4, 0xBF, 0x1B]) = bits ++ List.replicate 3 false) ∧
    ∃ bits, BadStart 0 true .badSymbol bits ∧
      unreadBits (fed [0x05, 0x00, 0x00, 0x65]) = bits ++ List.replicate 1 false :=
  ⟨⟨_, .inr (.inr ⟨_, .inl ⟨rfl, 30, 31, 15, by decide, by decide, by decide, by decide, rfl⟩, rfl⟩), by decide +kernel⟩,
    ⟨_, .inr (.inr ⟨_, .inr ⟨0, 0, 0, clA, [], [], symBits clA 16, by decide, metaLens_ok (by decide), (fun _ h => nomatch h),
      ⟨rfl, by decide⟩, rfl, .inl ⟨rfl, rfl, coded_of clA_kraft (by decide +kernel), rfl⟩⟩, rfl⟩), by decide +kernel⟩,
    ⟨_, .inr (.inr ⟨_, .inr ⟨0, 0, 0, clB, [(18, 127)], List.replicate 138 0, symBits clB 18 ++ bitsOf (extraBits 18) 110,
      by decide, metaLens_ok (by decide), (fun p h => by
        cases List.mem_singleton.mp h
        exact ⟨by decide, by decide, coded_of clB_kraft (by decide +kernel)⟩),
      ⟨by decide +kernel, by decide +kernel⟩, rfl,
      .inr (.inl ⟨rfl, 18, 110, by decide, by decide, coded_of clB_kraft (by decide +kernel), (fun h => nomatch h),
        by decide +kernel, rfl⟩)⟩, rfl⟩), by decide +kernel⟩,
    ⟨_, .inr (.inr ⟨_, .inr ⟨0, 0, 0, clC, [], [], [true, true], by decide, metaLens_ok (by decide), (fun _ h => nomatch h),
      ⟨rfl, by decide⟩, rfl, .inr (.inr ⟨rfl, noCode_of (by decide +kernel)⟩)⟩, rfl⟩), by decide +kernel⟩⟩

/-- Tables of a dynamic block with two codes of length 2 for 256 and 257, and two for the distances 30 and 31. -/
def gapLL : List Nat := (List.range 288).map (fun s => if s = 256 ∨ s = 257 then 2 else 0)
def gapD : List Nat := (List.range 32).map (fun s => if s = 30 ∨ s = 31 then 2 else 0)
def gapCL : List Nat := [0, 0, 1, 0, 0, 0, 0, 0, 0, 0, 0, 0, 0, 0, 0, 0, 0, 0, 1]
def gapPacked : List (Nat × Nat) := [(18, 127), (18, 107), (2, 0), (2, 0), (18, 19), (2, 0), (2, 0)]
def gapSeq : List Nat :=
  (List.range 290).map (fun k => if k = 256 ∨ k = 257 ∨ k = 288 ∨ k = 289 then 2 else 0)

/-- The bits of those tables. -/
def gapBits : List Bool :=
  bitsOf 5 1 ++ bitsOf 5 31 ++ bitsOf 4 12 ++ (clOrder.take 16).flatMap (fun s => bitsOf 3 (gapCL.getD s 0))
    ++ gapPacked.flatMap (fun p => symBits gapCL p.1 ++ bitsOf (extraBits p.1) p.2)

theorem gapCL_kraft : (∀ x ∈ gapCL, x ≤ 15) ∧ kraft 15 gapCL ≤ 2 ^ 15 := by decide +kernel
theorem gapLL_kraft : (∀ x ∈ gapLL, x ≤ 15) ∧ kraft 15 gapLL ≤ 2 ^ 15 := by decide +kernel
theorem gapD_kraft : (∀ x ∈ gapD, x ≤ 15) ∧ kraft 15 gapD ≤ 2 ^ 15 := by decide +kernel

theorem gap_codes : CodesCoded 2 gapLL gapD gapBits := by
  refine .inr ⟨rfl, gapCL, 1, 31, 12, gapPacked, gapSeq, by decide, metaLens_ok (by decide), fun p hp => ?_,
    ⟨by decide +kernel, by decide +kernel⟩, by decide +kernel, by decide +kernel, rfl⟩
  have h : p.1 < 19 ∧ p.2 < 2 ^ extraBits p.1 ∧ p.1 < gapCL.length ∧ 0 < gapCL.getD p.1 0 := by
    revert p
    decide +kernel
  exact ⟨h.1, h.2.1, coded_of gapCL_kraft h.2.2⟩

/-- The literal 'A' in a fixed block, whose bits have begun. -/
theorem begun_A : TokensBegun fixedLensLL fixedLensD [.literal 0x41#8] (symBits fixedLensLL 0x41 ++ []) :=
  ⟨_, _, ⟨coded_LL (by decide) (by decide +kernel), rfl⟩, rfl, rfl⟩

/-- A symbol or token of a fixed block that is an error, after tokens. -/
theorem badFixed {e : ErrCode} {toks : List Token} {begun bad : List Bool} {h' : List Byte}
    (ht : TokensBegun fixedLensLL fixedLensD toks begun) (ho : TokensOnto 32768 toks [] h')
    (hb : BadToken fixedLensLL fixedLensD (min h'.length 32768) e bad) :
    BadSymbols 32768 true e (bitsOf 1 (bit true) ++ bitsOf 2 1 ++ [] ++ begun ++ bad) [] h' :=
  ⟨1, _, _, _, _, _, toks, .inl ⟨rfl, rfl, rfl, rfl⟩, ht, ho, hb, rfl⟩

theorem onto_A : TokensOnto 32768 [.literal 0x41#8] [] (bytes [0x41]) := ⟨(fun _ _ h => nomatch h), rfl⟩

/-- In a fixed block: symbol 286; the distance bits 11110, which are no code; and distance 2 after one byte. -/
theorem test_meets_RejectsBlock_fixed :
    (Remembers (fed []) [] ∧ winCap (fed []) = 32768 ∧ hasRoom (room 1 (fed [])) 1) ∧
    (∃ bits, BadSymbols 32768 true .badSymbol bits [] (bytes [0x41]) ∧
      unreadBits (fed [0x73, 0x1C, 0x03]) = bits ++ List.replicate 5 false) ∧
    (∃ bits, BadSymbols 32768 true .badSymbol bits [] [] ∧ unreadBits (fed [0x03, 0x3E]) = bits ++ List.replicate 1 false) ∧
    ∃ bits, BadSymbols 32768 true .badDistance bits [] (bytes [0x41]) ∧
      unreadBits (fed [0x73, 0x04, 0x42]) = bits ++ List.replicate 1 false :=
  ⟨⟨remembers_nil (by decide) rfl, by decide, room_has 1 _⟩,
    ⟨_, badFixed begun_A onto_A (.inr (.inl ⟨rfl, 286, .inl rfl, coded_LL (by decide) (by decide +kernel), rfl⟩)),
      by decide +kernel⟩,
    ⟨_, badFixed (toks := []) rfl rfl (.inr (.inr ⟨0, 0, [true, true, true, true, false],
      ⟨by decide, by decide, coded_LL (by decide) (by decide +kernel)⟩, rfl, .inl ⟨rfl, noCode_of (by decide +kernel)⟩⟩)),
      by decide +kernel⟩,
    ⟨_, badFixed begun_A onto_A (.inr (.inr ⟨0, 0, _, ⟨by decide, by decide, coded_LL (by decide) (by decide +kernel)⟩, rfl,
      .inr (.inr ⟨rfl, 1, 0, by decide, by decide, coded_D (by decide) (by decide +kernel), by decide, rfl⟩)⟩)),
      by decide +kernel⟩⟩

/-- A first symbol or token of the dynamic block with gaps that is an error. -/
theorem badGap {bad : List Bool} (hb : BadToken gapLL gapD 0 .badSymbol bad) :
    BadSymbols 32768 true .badSymbol (bitsOf 1 (bit true) ++ bitsOf 2 2 ++ gapBits ++ [] ++ bad) [] [] :=
  ⟨2, _, _, _, [], _, [], gap_codes, rfl, rfl, hb, rfl⟩

/-- In a dynamic block: bits that are no literal/length code, the distance symbols 30 and 31, and bits that are no
distance code. -/
theorem test_meets_RejectsBlock_dynamic :
    (∃ bits, BadSymbols 32768 true .badSymbol bits [] [] ∧
      unreadBits (fed [0x0D, 0x9F, 0x81, 0x00, 0x00, 0x00, 0x00, 0x40, 0xFE, 0xAF, 0x39, 0x61]) =
        bits ++ List.replicate 1 false) ∧
    (∃ bits, BadSymbols 32768 true .badSymbol bits [] [] ∧
      unreadBits (fed [0x0D, 0x9F, 0x81, 0x00, 0x00, 0x00, 0x00, 0x40, 0xFE, 0xAF, 0x39, 0x41, 0x00]) =
        bits ++ List.replicate 7 false) ∧
    (∀ y, y = 30 ∨ y = 31 → BadToken gapLL gapD 0 .badSymbol
      (symBits gapLL (257 + 0) ++ bitsOf (lenRange 0).extra 0 ++ symBits gapD y)) ∧
    BadToken gapLL gapD 0 .badSymbol (symBits gapLL (257 + 0) ++ bitsOf (lenRange 0).extra 0 ++ [true, true]) := by
  have hl : Coded gapLL (257 + 0) := coded_of gapLL_kraft (by decide +kernel)
  have hd : ∀ y, y = 30 ∨ y = 31 → BadToken gapLL gapD 0 .badSymbol
      (symBits gapLL (257 + 0) ++ bitsOf (lenRange 0).extra 0 ++ symBits gapD y) := fun y hy => by
    refine .inr (.inr ⟨0, 0, _, ⟨by decide, by decide, hl⟩, rfl, .inr (.inl ⟨rfl, y, hy, ?_, rfl⟩)⟩)
    rcases hy with rfl | rfl <;> exact coded_of gapD_kraft (by decide +kernel)
  exact ⟨⟨_, badGap (bad := [true, true]) (.inl ⟨rfl, noCode_of (by decide +kernel)⟩), by decide +kernel⟩,
    ⟨_, badGap (hd 30 (.inl rfl)), by decide +kernel⟩, hd,
    .inr (.inr ⟨0, 0, _, ⟨by decide, by decide, hl⟩, rfl, .inl ⟨rfl, noCode_of (by decide +kernel)⟩⟩)⟩

/-- Two tokens of a fixed block, the second a copy of three bytes. -/
theorem begun_AA : TokensBegun fixedLensLL fixedLensD [.literal 0x41#8, .copy 3 1]
    (symBits fixedLensLL 0x41 ++ (symBits fixedLensLL 257 ++ bitsOf 0 0 ++ (symBits fixedLensD 0 ++ bitsOf 0 0) ++ [])) :=
  ⟨_, _, ⟨coded_LL (by decide) (by decide +kernel), rfl⟩, ⟨_, _,
    ⟨0, 0, 0, 0, ⟨by decide, by decide, by decide, coded_LL (by decide) (by decide +kernel)⟩,
      ⟨by decide, by decide, by decide, coded_D (by decide) (by decide +kernel)⟩, rfl⟩, rfl, rfl⟩, rfl⟩

/-- The fixed block of "AAAA" cut in its copy and in the end of the block. -/
theorem fixed_cut :
    BlockCut 0 32768 true 1 (unreadBits (fed [0x73, 0x04])) [] (bytes [0x41]) ∧
    BlockCut 0 32768 true 1 (unreadBits (fed [0x73, 0x04, 0x02])) [] (bytes [0x41, 0x41, 0x41, 0x41]) :=
  ⟨⟨[false, true] ++ List.replicate 5 false, by decide, .inr (.inr ⟨_, _, [], .inl ⟨rfl, rfl, rfl, rfl⟩, .inr ⟨_, _,
      [false, false, false, false, false], begun_A, onto_A, by decide +kernel, .inr (.inl ⟨.copy 3 1, 0, 0, 0, 0,
        ⟨by decide, by decide, by decide, coded_LL (by decide) (by decide +kernel)⟩,
        ⟨by decide, by decide, by decide, coded_D (by decide) (by decide +kernel)⟩, by decide +kernel⟩)⟩⟩)⟩,
    List.replicate 6 false, by decide, .inr (.inr ⟨_, _, [], .inl ⟨rfl, rfl, rfl, rfl⟩, .inr ⟨_, _, [false], begun_AA,
      ⟨(fun _ _ h => nomatch h), (fun _ _ h => by cases h; decide), rfl⟩, by decide +kernel,
      .inl ⟨coded_LL (by decide) (by decide +kernel), by decide +kernel⟩⟩⟩)⟩

/-- Blocks cut in the header, in stored bytes, in tables, in the two tokens above, and in what would be rejected; and the
port closed and open. -/
theorem test_meets_RejectsBlock_cut :
    BlockCut 0 32768 true 1 [true] [] [] ∧
    BlockCut 0 32768 true 0 (unreadBits (fed [0xF9, 5, 0, 0xFA, 0xFF, 1, 2])) [] (bytes [1, 2]) ∧
    BlockCut 0 32768 true 2 (unreadBits (fed [0xED, 0xFD, 0x81])) [] [] ∧
    BlockCut 0 32768 true 1 (unreadBits (fed [0x73, 0x04, 0x02])) [] (bytes [0x41, 0x41, 0x41, 0x41]) ∧
    BlockCut 0 32768 true 2 (unreadBits (fed [0xF5])) [] [] ∧
    (hasRoom (room 4 (fed [])) 4 ∧ (fed []).inClosed = true ∧ { fed [] with inClosed := false }.inClosed = false) ∧
    (List.replicate 6 false ≠ [] ∧ BlockCoded 0 32768 true 1 (unreadBits (fed [0x73, 0x04, 0x02]) ++ List.replicate 6 false) []
      (bytes [0x41, 0x41, 0x41, 0x41])) := by
  refine ⟨⟨[true, false], by decide, .inr (.inr ⟨_, _, [], .inl ⟨rfl, rfl, rfl, rfl⟩, .inl ⟨rfl, rfl⟩⟩)⟩,
    ⟨streamBits (bytes [3, 4, 5]), by decide, .inl ⟨rfl, List.replicate 5 true, bytes [1, 2, 3, 4, 5], by decide, by decide,
      by decide +kernel, by decide +kernel⟩⟩,
    ⟨((streamBits (bytes dynBytes)).take 124).drop 24, by decide +kernel, .inr (.inr ⟨_, _, _,
      .inr ⟨rfl, _, dynamic_tables⟩, .inl ⟨by decide +kernel, rfl⟩⟩)⟩, fixed_cut.2,
    ⟨List.replicate 9 true, by decide, .inr (.inl ⟨rfl, .badCodelengths, .inr (.inr ⟨_,
      .inl ⟨rfl, 30, 31, 15, by decide, by decide, by decide, by decide, rfl⟩, by decide +kernel⟩)⟩)⟩,
    ⟨room_has 4 _, rfl, rfl⟩, by decide, ?_⟩
  have h : unreadBits (fed [0x73, 0x04, 0x02]) ++ List.replicate 6 false =
      (streamBits (bytes [0x73, 0x04, 0x02, 0xC0])).take 30 := by decide +kernel
  rw [h]
  exact fixed_block

/-- "AB" in a fixed block that is not the last. -/
theorem block_AB : BlockCoded 0 32768 false 1 ((streamBits (bytes [0x72, 0x74, 0x02, 0xCC])).take 26) []
    (bytes [0x41, 0x42]) :=
  ⟨((streamBits (bytes [0x72, 0x74, 0x02, 0xCC])).take 26).drop 3, by decide +kernel, .inr (.inl ⟨rfl,
    [.literal 0x41#8, .literal 0x42#8], ⟨symBits fixedLensLL 0x41, _, ⟨coded_LL (by decide) (by decide +kernel), rfl⟩,
      ⟨symBits fixedLensLL 0x42, _, ⟨coded_LL (by decide) (by decide +kernel), rfl⟩,
        ⟨coded_LL (by decide) (by decide +kernel), rfl⟩, rfl⟩, by decide +kernel⟩,
    (fun _ _ h => nomatch h), (fun _ _ h => nomatch h), rfl⟩)⟩

/-- The stream of 95_test_vectors.md P6 whose second block has a distance beyond the window. -/
theorem bad_stream : ∃ bits, BadStream 32768 0 1 true .badDistance bits (bytes [0x41, 0x42]) (bytes [0x41, 0x42, 0x43]) ∧
    streamBits (bytes [0x72, 0x74, 0x02, 0xCC, 0x19, 0x48, 0xFF]) = bits ++ List.replicate 6 true :=
  ⟨_, ⟨_, _, .more block_AB .none, .inr ⟨1, _, _, [], _, _, [.literal 0x43#8], .inl ⟨rfl, rfl, rfl, rfl⟩,
      ⟨_, [], ⟨coded_LL (by decide) (by decide +kernel), rfl⟩, rfl, rfl⟩, ⟨(fun _ _ h => nomatch h), rfl⟩,
      .inr (.inr ⟨0, 0, _, ⟨by decide, by decide, coded_LL (by decide) (by decide +kernel)⟩, rfl,
        .inr (.inr ⟨rfl, 5, 1, by decide, by decide, coded_D (by decide) (by decide +kernel), by decide, rfl⟩)⟩), rfl⟩, rfl⟩,
    by decide +kernel⟩

/-- The empty stored block, and then the block of "AAAA" cut in its copy. -/
theorem cut_stream : StreamCut 32768 0 1 (unreadBits (fed [0xF8, 0, 0, 0xFF, 0xFF, 0x73, 0x04])) [] (bytes [0x41]) :=
  ⟨_, _, true, 1, .more empty_block .none, fixed_cut.1, by decide +kernel⟩

/-- A stream whose second block is rejected, one whose first block is, and one that is cut in its second block. -/
theorem test_meets_DecodesStream_fails :
    (∃ bits, BadStream 32768 0 1 true .badDistance bits (bytes [0x41, 0x42]) (bytes [0x41, 0x42, 0x43]) ∧
      unreadBits (fed [0x72, 0x74, 0x02, 0xCC, 0x19, 0x48, 0xFF]) = bits ++ List.replicate 6 true) ∧
    (BadStream 32768 0 0 true .badBtype [true, true, true] [] [] ∧
      unreadBits (fed [0x07]) = [true, true, true] ++ List.replicate 5 false) ∧
    StreamCut 32768 0 1 (unreadBits (fed [0xF8, 0, 0, 0xFF, 0xFF, 0x73, 0x04])) [] (bytes [0x41]) :=
  ⟨bad_stream.imp fun _ h => ⟨h.1, (by decide +kernel : unreadBits (fed [0x72, 0x74, 0x02, 0xCC, 0x19, 0x48, 0xFF]) =
      streamBits (bytes [0x72, 0x74, 0x02, 0xCC, 0x19, 0x48, 0xFF])).trans h.2⟩,
    ⟨⟨[], _, .none, .inl ⟨.inl ⟨rfl, rfl⟩, rfl⟩, rfl⟩, by decide +kernel⟩, cut_stream⟩

/-- Each block type, with the smallest window on both sides. -/
theorem test_meets_RoundTrip :
    ∀ cfg, cfg = 0xF4#32 ∨ cfg = 0x15#32 ∨ cfg = 0x16#32 →
      let s := { fed aaaa with cfg := cfg }
      (btypeSel s ≠ 3 ∧ winLog2 s ≠ 0 ∧ s.params.wf ∧ s.wcount = 0 ∧ s.wbuf = 0 ∧ s.inClosed = true ∧ s.outRoom = none) ∧
        winLog2 s ≤ winLog2 base ∧ base.params.wf ∧ base.rcount = 0 ∧ base.rbuf = 0 ∧ base.outRoom = none := by
  intro cfg h
  rcases h with rfl | rfl | rfl <;> decide

theorem test_meets_WriteHeader :
    (args 257 0).params.fnameMax < (args 257 0).arg0.toNat ∧
    (¬ (args 256 0).params.fnameMax < (args 256 0).arg0.toNat ∧ WriterOk (args 256 0).toEngine) ∧
    hasRoom (room 267 (args 256 0)) (10 + 257) ∧ hasRoom (room 10 (args 257 0)) (10 + 0) :=
  ⟨by decide, by decide, room_has 267 _, room_has 10 _⟩

/-- A header with the flags FTEXT and FNAME and a name, one without a name, and a first byte that each check refuses. -/
theorem test_meets_ReadHeader :
    ((fed []).params.wf ∧ ReaderOk (fed []).toEngine ∧ HeaderOk 0x09#8 (bytes [0x61, 0x2E]) ∧ HeaderOk 0x01#8 []) ∧
    unreadBits (fed [0x1F, 0x8B, 0x08, 0x09, 1, 2, 3, 4, 5, 6, 0x61, 0x2E, 0]) =
      streamBits (gzipHeader 0x09#8 0x04030201#32 5 6 (bytes [0x61, 0x2E])) ++ [] ∧
    unreadBits (fed [0x1F, 0x8B, 0x08, 0x01, 1, 2, 3, 4, 5, 6]) =
      streamBits (gzipHeader 0x01#8 0x04030201#32 5 6 []) ++ [] := by
  simp only [HeaderOk]
  decide +kernel

/-- A header cut in MTIME, one cut in its name, and one that lacks the NUL. -/
theorem test_meets_ReadHeader_cut :
    ∀ l, l = [0x1F, 0x8B, 0x08, 0x09, 1] ∨ l = [0x1F, 0x8B, 0x08, 0x09, 1, 2, 3, 4, 5, 6, 0x61] ∨
        l = [0x1F, 0x8B, 0x08, 0x09, 1, 2, 3, 4, 5, 6, 0x61, 0x2E] →
      ∃ more, more ≠ [] ∧
        unreadBits (fed l) ++ more = streamBits (gzipHeader 0x09#8 0x04030201#32 5 6 (bytes [0x61, 0x2E])) := by
  intro l h
  rcases h with rfl | rfl | rfl
  · exact ⟨streamBits (bytes [2, 3, 4, 5, 6, 0x61, 0x2E, 0]), by decide +kernel⟩
  · exact ⟨streamBits (bytes [0x2E, 0]), by decide +kernel⟩
  · exact ⟨streamBits (bytes [0]), by decide +kernel⟩

/-- A first byte that each check refuses. -/
theorem test_meets_ReadHeader_bad :
    (BadHeader .badMagic [0x1E#8] ∧ unreadBits (fed [0x1E]) = streamBits [0x1E#8] ++ []) ∧
    (BadHeader .badMagic [0x1F#8, 0x8C] ∧ unreadBits (fed [0x1F, 0x8C]) = streamBits [0x1F#8, 0x8C] ++ []) ∧
    (BadHeader .badMethod [0x1F#8, 0x8B, 7] ∧ unreadBits (fed [0x1F, 0x8B, 7]) = streamBits [0x1F#8, 0x8B, 7] ++ []) ∧
    (BadHeader .unsupportedFlags [0x1F#8, 0x8B, 8, 2] ∧
      unreadBits (fed [0x1F, 0x8B, 8, 2]) = streamBits [0x1F#8, 0x8B, 8, 2] ++ []) :=
  ⟨⟨.inl ⟨rfl, _, rfl, by decide⟩, by decide +kernel⟩, ⟨.inr (.inl ⟨rfl, _, rfl, by decide⟩), by decide +kernel⟩,
    ⟨.inr (.inr (.inl ⟨rfl, _, rfl, by decide⟩)), by decide +kernel⟩,
    ⟨.inr (.inr (.inr ⟨rfl, _, rfl, by decide⟩)), by decide +kernel⟩⟩

theorem test_meets_WriteTrailer :
    WriterOk (room 9 { base with wcount := 7, wbuf := 0x7F }).toEngine ∧
      hasRoom (room 9 { base with wcount := 7, wbuf := 0x7F }) 9 :=
  ⟨by decide, room_has 9 _⟩

/-- A trailer that agrees, one whose CRC does not, and one whose size does not, after 2 unread bits. -/
theorem test_meets_ReadTrailer :
    ∀ crc isize, (crc = 0 ∧ isize = 0) ∨ (crc = 1 ∧ isize = 0) ∨ (crc = 0 ∧ isize = 1) →
      let s := { fed [crc, 0, 0, 0, isize, 0, 0, 0] with rbuf := 3, rcount := 2 }
      ReaderOk s.toEngine ∧ ~~~s.crcState = 0 ∧ s.rawCount = 0 ∧
        (unreadBits s).drop s.rcount.toNat =
          bitsOf 32 (BitVec.ofNat 32 crc).toNat ++ bitsOf 32 (BitVec.ofNat 32 isize).toNat ++ [] := by
  intro crc isize h
  rcases h with ⟨rfl, rfl⟩ | ⟨rfl, rfl⟩ | ⟨rfl, rfl⟩ <;> decide +kernel

/-- A trailer of 62 bits after 2 unread ones, and none. -/
theorem test_meets_ReadTrailer_cut :
    ((unreadBits { fed [1, 2, 3, 4, 5, 6, 7] with rbuf := 3, rcount := 2 }).drop 2).length < 64 ∧
      ((unreadBits (fed [])).drop (fed []).rcount.toNat).length < 64 := by decide

theorem test_meets_Compresses :
    ¬ badOperand { fed [] with arg0 := 256 } (.gzCompress true) ∧ ¬ badConfig { fed [] with arg0 := 256 } (.gzCompress true) ∧
      (fed []).params.wf ∧ WriterOk { fed [] with wcount := 7, wbuf := 0x7F }.toEngine ∧ (fed []).outRoom = none ∧
      (fed []).inClosed = true :=
  ⟨by simp only [badOperand]; decide, by simp only [badConfig]; decide, by decide, by decide, rfl, rfl⟩

/-- The member of "AAAA" with fixed codes (95_test_vectors.md 2.3, 2.9). -/
theorem test_meets_Decompresses :
    (winLog2 (fed []) ≠ 0 ∧ (fed []).params.wf ∧ ReaderOk (fed []).toEngine ∧ HeaderOk 0x00#8 []) ∧
    StreamCoded 32768 0 1 ((streamBits (bytes [0x73, 0x04, 0x02, 0xC0])).take 30) [] (bytes [0x41, 0x41, 0x41, 0x41]) ∧
    [true, true].length = padBits (readerPos (fed []) + 30) ∧
    unreadBits (fed [0x1F, 0x8B, 8, 0, 0, 0, 0, 0, 0, 0, 0x73, 0x04, 0x02, 0xC0, 0xF1, 0x08, 0x0D, 0x9B, 4, 0, 0, 0, 9]) =
      streamBits (gzipHeader 0x00#8 0 0 0 []) ++ (streamBits (bytes [0x73, 0x04, 0x02, 0xC0])).take 30 ++ [true, true]
        ++ bitsOf 32 (~~~(crcOf 0xFFFFFFFF#32 (bytes [0x41, 0x41, 0x41, 0x41]))).toNat
        ++ bitsOf 32 (BitVec.ofNat 32 4).toNat ++ bitsOf 8 9 ∧
    hasRoom (room 4 (fed [])) 4 :=
  ⟨⟨by decide, by decide, by decide, by simp [HeaderOk]⟩, .last fixed_block, by decide, by decide +kernel, room_has 4 _⟩

/-- That member with another CRC, with another size, cut in its trailer, and cut in its stream; one whose stream is
rejected; and one with a header that is rejected or cut. -/
theorem test_meets_Decompresses_fails :
    let head := streamBits (gzipHeader 0x00#8 0 0 0 [])
    let h := [0x1F, 0x8B, 8, 0, 0, 0, 0, 0, 0, 0]
    let body := [0x73, 0x04, 0x02, 0xC0]
    let bits := (streamBits (bytes [0x73, 0x04, 0x02, 0xC0])).take 30
    let crc := ~~~(crcOf 0xFFFFFFFF#32 (bytes [0x41, 0x41, 0x41, 0x41]))
    (unreadBits (fed (h ++ body ++ [0xF0, 0x08, 0x0D, 0x9B, 4, 0, 0, 0])) =
        head ++ bits ++ [true, true] ++ bitsOf 32 (0x9B0D08F0#32).toNat ++ bitsOf 32 (4#32).toNat ++ [] ∧
      0x9B0D08F0#32 ≠ crc) ∧
    (unreadBits (fed (h ++ body ++ [0xF1, 0x08, 0x0D, 0x9B, 5, 0, 0, 0])) =
        head ++ bits ++ [true, true] ++ bitsOf 32 (0x9B0D08F1#32).toNat ++ bitsOf 32 (5#32).toNat ++ [] ∧
      0x9B0D08F1#32 = crc ∧ 5#32 ≠ BitVec.ofNat 32 4) ∧
    (unreadBits (fed (h ++ body ++ [0xF1])) = head ++ bits ++ ([true, true] ++ bitsOf 8 0xF1) ∧
      ([true, true] ++ bitsOf 8 0xF1).length < [true, true].length + 64) ∧
    (∃ bad, BadStream 32768 0 1 true .badDistance bad (bytes [0x41, 0x42]) (bytes [0x41, 0x42, 0x43]) ∧
      unreadBits (fed (h ++ [0x72, 0x74, 0x02, 0xCC, 0x19, 0x48, 0xFF])) = head ++ bad ++ List.replicate 6 true) ∧
    (∃ cut, StreamCut 32768 0 1 cut [] (bytes [0x41]) ∧
      unreadBits (fed (h ++ [0xF8, 0, 0, 0xFF, 0xFF, 0x73, 0x04])) = head ++ cut) ∧
    (BadHeader .badMagic [0x1E#8] ∧ unreadBits (fed [0x1E]) = streamBits [0x1E#8] ++ []) ∧
    (bitsOf 8 0 ≠ [] ∧ unreadBits (fed (h.take 9)) ++ bitsOf 8 0 = head) := by
  refine ⟨by decide +kernel, by decide +kernel, by decide +kernel, bad_stream.imp fun bad h => ⟨h.1, ?_⟩,
    ⟨_, cut_stream, by decide +kernel⟩, ⟨.inl ⟨rfl, _, rfl, by decide⟩, by decide +kernel⟩, by decide +kernel⟩
  rw [List.append_assoc, ← h.2]
  decide +kernel

/-- A name of the largest length, and none. -/
theorem test_meets_MemberRoundTrip :
    (¬ badOperand (named (List.replicate 256 1) { fed aaaa with arg0 := 256 }) (.gzCompress true) ∧
      (fed aaaa).params.fnameMax ≤ base.params.fnameMax ∧
      ∀ k, k < 256 → (named (List.replicate 256 1) { fed aaaa with arg0 := 256 }).tables.fname.read k ≠ 0) ∧
    (btypeSel (fed aaaa) ≠ 3 ∧ winLog2 (fed aaaa) ≠ 0 ∧ (fed aaaa).params.wf ∧ winLog2 (fed aaaa) ≤ winLog2 base) ∧
    (fed aaaa).wcount = 0 ∧ (fed aaaa).wbuf = 0 ∧ (fed aaaa).inClosed = true ∧ (fed aaaa).outRoom = none ∧
    base.rcount = 0 ∧ base.rbuf = 0 ∧ base.outRoom = none :=
  ⟨⟨by simp only [badOperand]; decide, by decide, by decide +kernel⟩, by decide, by decide⟩

end Sys2Proof.Machine.Tests
end

section
/-! The register port (20_memory.md R66): which offsets reach which register, and what a host read or write of
one can change. -/

namespace Sys2Proof.Machine

/-! ### The offsets (10_state.md R22) -/

theorem regAt_eq_some_ctorIdx {off : Nat} {r : Reg} (h : regAt off = some r) : off / 4 = r.ctorIdx := by
  unfold regAt at h
  split at h <;> cases h <;> assumption

theorem regAt_eq_none_of_le {off : Nat} (h : 0x70 ≤ off) : regAt off = none := by
  cases hr : regAt off with
  | none => rfl
  | some r =>
    have hidx := regAt_eq_some_ctorIdx hr
    have hlt : r.ctorIdx < 28 := by cases r <;> decide
    omega

@[simp] theorem regAt_aligned (off : Nat) : regAt (off / 4 * 4) = regAt off := by
  simp only [regAt, Nat.mul_div_cancel _ (Nat.zero_lt_succ 3)]

/-! ### The accesses -/

@[simp] theorem hostTurn_write_word (off : Nat) (v : Word) (s : State) :
    hostTurn (.write 32 off v) s = writeOffset off v s := rfl

@[simp] theorem hostTurn_read_word (off : Nat) (s : State) :
    hostTurn (.read 32 off) s = .next (readOffset off s) := rfl

theorem hostTurn_write_of_width_ne {bits : Nat} (h : bits ≠ 32) (off : Nat) (v : Word) (s : State) :
    hostTurn (.write bits off v) s = .refused (.accessWidth bits) := if_neg h

theorem hostTurn_read_of_width_ne {bits : Nat} (h : bits ≠ 32) (off : Nat) (s : State) :
    hostTurn (.read bits off) s = .refused (.accessWidth bits) := if_neg h

theorem writeOffset_aligned (off : Nat) (v : Word) (s : State) :
    writeOffset (off / 4 * 4) v s = writeOffset off v s := by
  simp only [writeOffset, regAt_aligned]

theorem readOffset_aligned (off : Nat) (s : State) : readOffset (off / 4 * 4) s = readOffset off s := by
  simp only [readOffset, regAt_aligned]

theorem writeOffset_of_unmapped {off : Nat} (h : regAt off = none) (v : Word) (s : State) :
    writeOffset off v s = .next s := by
  simp only [writeOffset, h]

theorem readOffset_of_unmapped {off : Nat} (h : regAt off = none) (s : State) :
    readOffset off s = { s with hostRead := 0 } := by
  simp only [readOffset, h]

/-- The words with something to write are CMD, STATUS, CFG and ARG0 to ARG2 (10_state.md R22). -/
theorem writeOffset_of_readOnly {off : Nat} (h : off / 4 ∉ [0, 1, 3, 4, 5, 6]) (v : Word) (s : State) :
    writeOffset off v s = .next s := by
  cases hr : regAt off with
  | none => exact writeOffset_of_unmapped hr v s
  | some r =>
    rw [regAt_eq_some_ctorIdx hr] at h
    simp only [writeOffset, hr]
    cases r with
    | cmd | status | cfg | arg0 | arg1 | arg2 => exact absurd (by decide) h
    | _ => rfl

/-- A read writes `hostRead` and, where the value read is a free one, counts the draw (log 16). -/
theorem readOffset_frame (off : Nat) (s : State) :
    ∃ x d, readOffset off s = { s with hostRead := x, draws := d } := by
  unfold readOffset
  split
  · exact ⟨0, s.draws, rfl⟩
  · split
    · exact ⟨_, _, rfl⟩
    · exact ⟨_, s.draws, rfl⟩

/-- Settles O7, by which register an offset reaches (`regAt`). -/
theorem registerPort : Obligations.RegisterPort := by
  intro s off v
  refine ⟨fun bits h => ⟨hostTurn_write_of_width_ne h off v s, hostTurn_read_of_width_ne h off s⟩, ?_⟩
  simp only [hostTurn_write_word, hostTurn_read_word, writeOffset_aligned, readOffset_aligned]
  refine ⟨⟨trivial, trivial⟩, fun h => ?unmapped, fun h => writeOffset_of_readOnly h v s, ?frame⟩
  case unmapped =>
    have hnone := regAt_eq_none_of_le h
    exact ⟨congrArg _ (readOffset_of_unmapped hnone s), writeOffset_of_unmapped hnone v s⟩
  case frame =>
    obtain ⟨x, d, h⟩ := readOffset_frame off s
    exact ⟨x, d, congrArg _ h⟩

end Sys2Proof.Machine
end

section
/-! The fields of a command word (30_encoding.md R90, R93): the decoder reads of a word exactly the opcode and the fields
of the command's format, and these are the bits of `usedBits`. -/

namespace Sys2Proof.Machine

/-! ### Masks of a low part and of a field above it -/

theorem add_mul_two_pow_lt {a v m p n : Nat} (hm : m ≤ p) (ha : a < 2 ^ m) (hv : v < 2 ^ n) :
    a + v * 2 ^ p < 2 ^ (p + n) :=
  calc a + v * 2 ^ p < 2 ^ p + v * 2 ^ p := by
        have := Nat.pow_le_pow_right (n := 2) (by decide) hm
        omega
    _ = (v + 1) * 2 ^ p := by ring
    _ ≤ 2 ^ n * 2 ^ p := Nat.mul_le_mul_right _ hv
    _ = 2 ^ (p + n) := by ring

theorem add_mul_two_pow_inj {a b v x p : Nat} (ha : a < 2 ^ p) (hb : b < 2 ^ p) :
    a + v * 2 ^ p = b + x * 2 ^ p ↔ a = b ∧ v = x := by
  have hmod : ∀ c y, c < 2 ^ p → (c + y * 2 ^ p) % 2 ^ p = c := fun c y hc => by
    rw [Nat.add_mul_mod_self_right, Nat.mod_eq_of_lt hc]
  have hdiv : ∀ c y, c < 2 ^ p → (c + y * 2 ^ p) / 2 ^ p = y := fun c y hc => by
    rw [Nat.add_mul_div_right _ _ (Nat.two_pow_pos p), Nat.div_eq_of_lt hc, Nat.zero_add]
  refine ⟨fun h => ⟨?_, ?_⟩, fun ⟨h, h'⟩ => by rw [h, h']⟩
  · rw [← hmod a v ha, h, hmod b x hb]
  · rw [← hdiv a v ha, h, hdiv b x hb]

/-- The mask of the `m` low bits and of the `n` bits from bit `p` on. -/
def fieldMask (m p n : Nat) : Nat := 2 ^ m - 1 + (2 ^ n - 1) * 2 ^ p

theorem and_fieldMask (x : Nat) {m p n : Nat} (h : m ≤ p) :
    x &&& fieldMask m p n = x % 2 ^ m + x / 2 ^ p % 2 ^ n * 2 ^ p := by
  have hpow := Nat.pow_le_pow_right (n := 2) (by decide) h
  have hlow : 2 ^ m - 1 < 2 ^ p := by have := Nat.two_pow_pos m; omega
  have hmod : x % 2 ^ m < 2 ^ p := (Nat.mod_lt _ (Nat.two_pow_pos m)).trans_le hpow
  apply Nat.eq_of_testBit_eq
  intro i
  rw [fieldMask, Nat.add_comm, Nat.mul_comm, Nat.testBit_and, Nat.testBit_two_pow_mul_add _ hlow,
    Nat.add_comm (x % _), Nat.mul_comm, Nat.testBit_two_pow_mul_add _ hmod]
  split
  case isTrue => simp [Nat.testBit_mod_two_pow, Bool.and_comm]
  case isFalse hi => simp [Nat.testBit_mod_two_pow, Bool.and_comm, Nat.testBit_div_two_pow, Nat.sub_add_cancel (not_lt.1 hi)]

/-- A masked word is a low part and a field exactly where the word has them at these bits. -/
theorem and_fieldMask_eq_iff (w : Word) {m p n a v : Nat} (hm : m ≤ p) (hp : p + n ≤ 32) (ha : a < 2 ^ m)
    (hv : v < 2 ^ n) :
    w &&& BitVec.ofNat 32 (fieldMask m p n) = BitVec.ofNat 32 (a + v * 2 ^ p) ↔
      w.toNat % 2 ^ m = a ∧ w.toNat / 2 ^ p % 2 ^ n = v := by
  have hfit : ∀ {b y}, b < 2 ^ m → y < 2 ^ n → b + y * 2 ^ p < 2 ^ 32 := fun hb hy =>
    (add_mul_two_pow_lt hm hb hy).trans_le (Nat.pow_le_pow_right (by decide) hp)
  have hmask : fieldMask m p n < 2 ^ 32 :=
    hfit (Nat.sub_one_lt (Nat.two_pow_pos m).ne') (Nat.sub_one_lt (Nat.two_pow_pos n).ne')
  have hpow := Nat.pow_le_pow_right (n := 2) (by decide) hm
  rw [← BitVec.toNat_inj, BitVec.toNat_and, BitVec.toNat_ofNat, BitVec.toNat_ofNat, Nat.mod_eq_of_lt hmask,
    Nat.mod_eq_of_lt (hfit ha hv), and_fieldMask _ hm,
    add_mul_two_pow_inj ((Nat.mod_lt _ (Nat.two_pow_pos m)).trans_le hpow) (ha.trans_le hpow)]

/-! ### The fields as parts of the word's number -/

theorem opcField_toNat (w : Word) : (opcField w).toNat = w.toNat % 2 ^ 8 := by
  simp [opcField, BitVec.extractLsb'_toNat]

theorem extractLsb'_toNat_eq_div_mod (w : Word) (p n : Nat) : (w.extractLsb' p n).toNat = w.toNat / 2 ^ p % 2 ^ n := by
  rw [BitVec.extractLsb'_toNat, Nat.shiftRight_eq_div_pow]

theorem tableOfId_eq_iff {k : Nat} (h : k < 16) (t : TableId) : tableOfId k = t ↔ k = tableIdOf t := by
  have hright : ∀ k, k < 16 → tableIdOf (tableOfId k) = k := by decide
  have hleft : tableOfId (tableIdOf t) = t := by cases t <;> rfl
  exact ⟨fun e => by rw [← e, hright k h], fun e => by rw [e, hleft]⟩

theorem selOfBits_eq_iff {k : Nat} (h : k < 4) (sel : Sel) : selOfBits k = sel ↔ k = selBits sel := by
  have hright : ∀ k, k < 4 → selBits (selOfBits k) = k := by decide
  have hleft : selOfBits (selBits sel) = sel := by cases sel <;> rfl
  exact ⟨fun e => by rw [← e, hright k h], fun e => by rw [e, hleft]⟩

theorem tblField_eq_iff (w : Word) (t : TableId) : tblField w = t ↔ w.toNat / 2 ^ 8 % 2 ^ 4 = tableIdOf t := by
  rw [tblField, tableOfId_eq_iff (BitVec.isLt _), extractLsb'_toNat_eq_div_mod]

theorem selField_eq_iff (w : Word) (sel : Sel) : selField w = sel ↔ w.toNat / 2 ^ 8 % 2 ^ 2 = selBits sel := by
  rw [selField, selOfBits_eq_iff (BitVec.isLt _), extractLsb'_toNat_eq_div_mod]

theorem nField_eq (w : Word) : nField w = w.toNat / 2 ^ 8 % 2 ^ 6 := extractLsb'_toNat_eq_div_mod w 8 6

theorem limitField_eq (w : Word) : limitField w = w.toNat / 2 ^ 16 % 2 ^ 4 := extractLsb'_toNat_eq_div_mod w 16 4

theorem getLsbD_eq_iff (w : Word) (p : Nat) (b : Bool) : w.getLsbD p = b ↔ w.toNat / 2 ^ p % 2 ^ 1 = bit b := by
  rw [BitVec.getLsbD, Nat.testBit_eq_decide_div_mod_eq]
  cases b <;> simp

/-! ### Decoding and encoding, field by field -/

/-- The fields of the command's format stand in the word (R90). -/
def Carries (w : Word) : Instr → Prop
  | .tblRead t | .tblWrite t => tblField w = t
  | .bwBits n | .bwBitsR n | .brBits n => nField w = n
  | .hufBuild sel limit => selField w = sel ∧ limitField w = limit
  | .hufCanon sel | .hufDecode sel => selField w = sel
  | .defEncChunk final => finalField w = final
  | .gzWrHeader fn | .gzCompress fn => fnField w = fn
  | _ => True

/-- The decoder reads the opcode and the fields of the format it selects, and nothing else (R90, R93). -/
theorem decode_eq_ok_iff (w : Word) (i : Instr) :
    decode w = .ok i ↔ (opcField w).toNat = i.opcode ∧ Carries w i := by
  constructor
  · intro h
    unfold decode at h
    split at h <;> cases h <;> simp_all [Instr.opcode, Carries]
  · rintro ⟨hop, hfields⟩
    cases i <;> simp_all [decode, Instr.opcode, Carries]

theorem wellFormed_of_carries {w : Word} {i : Instr} (h : Carries w i) : i.wellFormed = true := by
  have hn : nField w < 64 := BitVec.isLt _
  have hlimit : limitField w < 16 := BitVec.isLt _
  cases i with
  | bwBits n | bwBitsR n | brBits n => cases h; exact decide_eq_true hn
  | hufBuild sel limit => cases h.2; exact decide_eq_true hlimit
  | _ => rfl

theorem opcode_lt (i : Instr) : i.opcode < 2 ^ 8 := by
  cases i <;> simp [Instr.opcode]

/-- A format of the opcode and one field, `n` bits from bit `p` on. -/
theorem and_usedBits_eq_encode_of_field (w : Word) {i : Instr} {p n v : Nat}
    (hused : usedBits i = BitVec.ofNat 32 (fieldMask 8 p n)) (hbits : i.fieldBits = v * 2 ^ p)
    (hp : 8 ≤ p) (hpn : p + n ≤ 32) (hv : v < 2 ^ n) :
    w &&& usedBits i = encode i ↔ (opcField w).toNat = i.opcode ∧ w.toNat / 2 ^ p % 2 ^ n = v := by
  rw [hused, encode, hbits, and_fieldMask_eq_iff w hp hpn (opcode_lt i) hv, opcField_toNat]

/-- A format of the opcode alone. -/
theorem and_usedBits_eq_encode_of_noField (w : Word) {i : Instr} (hused : usedBits i = 0x000000FF#32)
    (hbits : i.fieldBits = 0) : w &&& usedBits i = encode i ↔ (opcField w).toNat = i.opcode := by
  rw [and_usedBits_eq_encode_of_field w (p := 8) (n := 0) (v := 0) hused hbits (by decide) (by decide) (by decide),
    Nat.pow_zero, Nat.mod_one, eq_self, and_true]

/-- HUF_BUILD's format has two fields: SEL stands right above the opcode, LIMIT apart (R90). -/
theorem and_usedBits_eq_encode_hufBuild (w : Word) (sel : Sel) {limit : Nat} (h : limit < 16) :
    w &&& usedBits (.hufBuild sel limit) = encode (.hufBuild sel limit) ↔
      (opcField w).toNat = 0x40 ∧ selField w = sel ∧ limitField w = limit := by
  have hsel := Laws.FieldsFit.selBits_lt sel
  have hlow : w.toNat % 2 ^ 10 = 0x40 + selBits sel * 2 ^ 8 ↔
      w.toNat % 2 ^ 8 = 0x40 ∧ w.toNat / 2 ^ 8 % 2 ^ 2 = selBits sel := by omega
  rw [show encode (.hufBuild sel limit) = BitVec.ofNat 32 (0x40 + selBits sel * 2 ^ 8 + limit * 2 ^ 16) by
      rw [Nat.add_assoc]; rfl,
    show usedBits (.hufBuild sel limit) = BitVec.ofNat 32 (fieldMask 10 16 4) from rfl,
    and_fieldMask_eq_iff w (by decide) (by decide) (by omega) h, hlow, opcField_toNat, selField_eq_iff, limitField_eq,
    and_assoc]

/-- The used bits of a word are a well-formed command's exactly where the word has its opcode and its fields (R90). -/
theorem and_usedBits_eq_encode_iff (w : Word) {i : Instr} (h : i.wellFormed = true) :
    w &&& usedBits i = encode i ↔ (opcField w).toNat = i.opcode ∧ Carries w i := by
  cases i with
  | tblRead t | tblWrite t =>
    exact (and_usedBits_eq_encode_of_field w (n := 4) rfl rfl (by decide) (by decide) (Laws.FieldsFit.tableIdOf_lt t)).trans
      (and_congr_right' (tblField_eq_iff w t).symm)
  | bwBits n | bwBitsR n | brBits n =>
    exact (and_usedBits_eq_encode_of_field w (n := 6) rfl rfl (by decide) (by decide) (of_decide_eq_true h)).trans
      (and_congr_right' (by rw [Carries, nField_eq]))
  | hufBuild sel limit => exact and_usedBits_eq_encode_hufBuild w sel (of_decide_eq_true h)
  | hufCanon sel | hufDecode sel =>
    exact (and_usedBits_eq_encode_of_field w (n := 2) rfl rfl (by decide) (by decide) (Laws.FieldsFit.selBits_lt sel)).trans
      (and_congr_right' (selField_eq_iff w sel).symm)
  | defEncChunk final =>
    exact (and_usedBits_eq_encode_of_field w (n := 1) rfl rfl (by decide) (by decide) (Laws.FieldsFit.bit_lt final)).trans
      (and_congr_right' (getLsbD_eq_iff w 24 final).symm)
  | gzWrHeader fn | gzCompress fn =>
    exact (and_usedBits_eq_encode_of_field w (n := 1) rfl rfl (by decide) (by decide) (Laws.FieldsFit.bit_lt fn)).trans
      (and_congr_right' (getLsbD_eq_iff w 25 fn).symm)
  | _ => exact (and_usedBits_eq_encode_of_noField w rfl rfl).trans (iff_of_eq (and_true _)).symm

/-- Settles O2: both sides say that the word has the command's opcode and fields, and what fills a field is well formed. -/
theorem decodeUsesItsFields : Obligations.DecodeUsesItsFields := by
  intro w i
  constructor
  · intro h
    have hread := (decode_eq_ok_iff w i).1 h
    have hwf := wellFormed_of_carries hread.2
    exact ⟨hwf, (and_usedBits_eq_encode_iff w hwf).2 hread⟩
  · rintro ⟨hwf, h⟩
    exact (decode_eq_ok_iff w i).2 ((and_usedBits_eq_encode_iff w hwf).1 h)

end Sys2Proof.Machine
end

section
/-! The symbols of lengths and distances (30_encoding.md R110, R111): the ranges of a table follow one another without
overlap, so the range a value lies in is the last one that starts at or before it. -/

namespace Sys2Proof.Machine

theorem lenRange_ends_before : ∀ j, j ≤ 27 → ∀ i, i < j →
    (lenRange i).base + 2 ^ (lenRange i).extra ≤ (lenRange j).base := by decide

theorem distRange_ends_before : ∀ j, j ≤ 29 → ∀ i, i < j →
    (distRange i).base + 2 ^ (distRange i).extra ≤ (distRange j).base := by decide

/-- Settles O46: a value lies in the range of its symbol, and every later range starts behind that one. -/
theorem rangeSymbols : Obligations.RangeSymbols := by
  refine ⟨fun l h1 h2 => ⟨fun h => by rw [h]; rfl, fun hne => ?length⟩, fun d h1 h2 => ?distance⟩
  case length =>
    obtain ⟨i, hi, hsym, hbase, hextra⟩ := lenSym_spec h1 h2
    have hlast : i ≠ 28 := by
      rintro rfl
      exact hne (h2.antisymm hbase)
    refine ⟨i, by omega, hsym, hbase, fun j hj hle => not_lt.1 fun hij => ?_, hextra⟩
    have := lenRange_ends_before j hj i hij
    omega
  case distance =>
    obtain ⟨hi, hbase, hextra⟩ := distSym_spec h1 h2
    refine ⟨distSym d, Nat.le_of_lt_succ hi, rfl, hbase, fun j hj hle => not_lt.1 fun hij => ?_, hextra⟩
    have := distRange_ends_before j hj _ hij
    omega

end Sys2Proof.Machine
end

section
/-! HUF_FIXED (44_huffman.md R232): the fixed lengths and their canonical codes, symbol by symbol. -/

namespace Sys2Proof.Machine

/-- The fixed literal/length code of a symbol (30_encoding.md R113). -/
def fixedCodeLL (k : Nat) : Nat :=
  if k ≤ 143 then 0x30 + k else if k ≤ 255 then 0x190 + (k - 144) else if k ≤ 279 then k - 256 else 0xC0 + (k - 280)

/-- The fixed distance code of a symbol: its own number, where it has one (30_encoding.md R113). -/
def fixedCodeD (k : Nat) : Nat := if k ≤ 29 then k else 0

theorem hufCanon_fixedLensLL : hufCanon fixedLensLL = (List.range 288).map fixedCodeLL := by decide +kernel

theorem hufCanon_fixedLensD : hufCanon fixedLensD = (List.range 32).map fixedCodeD := by decide +kernel

theorem getD_map_range (f : Nat → Nat) {n k : Nat} (h : k < n) : ((List.range n).map f).getD k 0 = f k := by
  simp [List.getD_eq_getElem?_getD, List.getElem?_range h]

theorem lenAt_codeAt_of_lists {t : Tables} {a : Alphabet} {f g : Nat → Nat}
    (hlens : lensOf t a = (List.range (alphabetSize a)).map f) (hcodes : codesOf t a = (List.range (alphabetSize a)).map g)
    {k : Nat} (h : k < alphabetSize a) : lenAt t a k = f k ∧ codeAt t a k = g k := by
  rw [← lensOf_getD h, ← codesOf_getD h, hlens, hcodes]
  exact ⟨getD_map_range f h, getD_map_range g h⟩

theorem fixedTables_ll (t : Tables) {k : Nat} (h : k < 288) :
    lenAt (fixedTables t) .ll k = fixedLL k ∧ codeAt (fixedTables t) .ll k = fixedCodeLL k :=
  have ⟨⟨hlens, hcodes⟩, _⟩ := fixedTables_codes t
  lenAt_codeAt_of_lists hlens (hcodes.trans hufCanon_fixedLensLL) h

theorem fixedTables_d (t : Tables) {k : Nat} (h : k < 32) :
    lenAt (fixedTables t) .d k = fixedD k ∧ codeAt (fixedTables t) .d k = fixedCodeD k :=
  have ⟨_, hlens, hcodes⟩ := fixedTables_codes t
  lenAt_codeAt_of_lists hlens (hcodes.trans hufCanon_fixedLensD) h

/-- HUF_FIXED always completes, with the fixed tables (44_huffman.md R232). -/
theorem exec_hufFixed (s : State) :
    ∃ t, exec .hufFixed s = .next t ∧ Completed s t ∧ t.tables = fixedTables s.tables :=
  ⟨_, runCommand_ok (i := .hufFixed) (steps := changeTables fixedTables) rfl,
    completed_of_frames (fixedTables_frames s) (by decide) (by decide), rfl⟩

/-- Settles O40: the tables hold the fixed lengths and their canonical codes, which the ranges of symbols give. -/
theorem hufFixed : Obligations.HufFixed := by
  intro s
  obtain ⟨t, hexec, hdone, htables⟩ := exec_hufFixed s
  have hll := fun k => fixedTables_ll s.tables (k := k)
  have hd := fun k => fixedTables_d s.tables (k := k)
  rw [← htables] at hll hd
  simp only [fixedLL, fixedCodeLL] at hll
  simp only [fixedD, fixedCodeD] at hd
  refine ⟨t, hexec, hdone, fun k h => ?_, fun k h1 h2 => ?_, fun k h1 h2 => ?_, fun k h1 h2 => ?_, fun k h => ?_,
    fun k h1 h2 => ?_⟩
  · simpa only [show k ≤ 143 by omega, if_true] using hll k (by omega)
  · simpa only [show ¬ k ≤ 143 by omega, show k ≤ 255 by omega, if_true, if_false] using hll k (by omega)
  · simpa only [show ¬ k ≤ 143 by omega, show ¬ k ≤ 255 by omega, show k ≤ 279 by omega, if_true, if_false] using
      hll k (by omega)
  · simpa only [show ¬ k ≤ 143 by omega, show ¬ k ≤ 255 by omega, show ¬ k ≤ 279 by omega, if_false] using hll k h2
  · simpa only [show k ≤ 29 by omega, if_true] using hd k (by omega)
  · simpa only [show ¬ k ≤ 29 by omega, if_false] using hd k h2

end Sys2Proof.Machine
end

section
/-! The control commands (40_control.md): what leaves the ERROR state (R143), and the access to the tables (R145,
R146). -/

namespace Sys2Proof.Machine

/-! ### A machine that holds no command (00_scope.md R15) -/

theorem held_eq_none_of_not_busy {s : State} (h : Inv s) (hb : s.engine ≠ .busy) : s.held = none :=
  Option.not_isSome_iff_eq_none.1 fun hsome => hb (h.hold.busy.2 hsome)

theorem engineTurn_of_held_none {s : State} (h : s.held = none) : engineTurn s = .next s := by
  simp only [engineTurn, h]

theorem step_of_host_nil {s : State} (h : s.host = []) : step s = engineTurn s := by
  simp only [step, h]

/-- Where no command holds, the step is the host's next action alone. -/
theorem step_of_host_cons {s : State} {e : HostEvent} {rest : List HostEvent} (hn : s.held = none)
    (hb : s.engine ≠ .busy) (h : s.host = e :: rest) : step s = hostTurn e { s with host := rest } := by
  have hbusy : busy s = false := by simpa [busy] using hb
  unfold step
  rw [h]
  cases e with
  | wait => simp only [hbusy, Bool.false_eq_true, if_false, hostTurn]
  | pass => exact engineTurn_of_held_none hn
  | _ => rfl

/-! ### What leaves the ERROR state (R143) -/

/-- In ERROR a command other than CLEAR_ERR and RESET is dropped (60_exceptions.md R330). -/
theorem submit_dropped_of_error {w : Word} {s : State} (he : s.engine = .error)
    (hw : ¬ (opcField w = 0x01#8 ∨ opcField w = 0x02#8)) : submit w s = .next { s with cmdDropped := true } := by
  rw [submit, if_neg (by rw [he]; decide), if_pos ⟨he, not_or.1 hw⟩]

@[simp] theorem writeRegister_engine (r : Reg) (v : Word) (s : State) : (writeRegister r v s).engine = s.engine := by
  cases r with
  | cfg | arg0 | arg1 | arg2 | status =>
    simp only [writeRegister]
    split <;> rfl
  | _ => rfl

@[simp] theorem readOffset_engine (off : Nat) (s : State) : (readOffset off s).engine = s.engine := by
  obtain ⟨x, d, h⟩ := readOffset_frame off s
  rw [h]

theorem writeOffset_cmd {off : Nat} (h : off / 4 = 0) (v : Word) (s : State) : writeOffset off v s = submit v s := by
  simp only [writeOffset, regAt, h]

theorem writeOffset_of_ne_cmd {off : Nat} {r : Reg} (hr : regAt off = some r) (hcmd : r ≠ .cmd) (v : Word)
    (s : State) : writeOffset off v s = .next (writeRegister r v s) := by
  simp only [writeOffset, hr]

/-- Only a write to CMD can change the engine's state. -/
theorem writeOffset_engine {off : Nat} {v : Word} {s t : State} (h : writeOffset off v s = .next t)
    (hoff : off / 4 ≠ 0) : t.engine = s.engine := by
  cases hr : regAt off with
  | none =>
    rw [writeOffset_of_unmapped hr] at h
    cases h
    rfl
  | some r =>
    have hcmd : r ≠ .cmd := by
      rintro rfl
      exact hoff (regAt_eq_some_ctorIdx hr)
    rw [writeOffset_of_ne_cmd hr hcmd] at h
    cases h
    exact writeRegister_engine r v s

/-- The host's actions that can take the block out of ERROR. -/
def LeavesError (e : HostEvent) : Prop :=
  e = .resetInput ∨ ∃ off w, e = .write 32 off w ∧ off / 4 = 0 ∧ (opcField w = 0x01#8 ∨ opcField w = 0x02#8)

/-- A word written in ERROR leaves it only as CLEAR_ERR or RESET, written to CMD. -/
theorem writeOffset_leaves_error {off : Nat} {w : Word} {s t : State} (h : writeOffset off w s = .next t)
    (he : s.engine = .error) (ht : t.engine ≠ .error) :
    off / 4 = 0 ∧ (opcField w = 0x01#8 ∨ opcField w = 0x02#8) := by
  have hoff : off / 4 = 0 := by
    by_contra hne
    exact ht ((writeOffset_engine h hne).trans he)
  refine ⟨hoff, ?_⟩
  by_contra hw
  rw [writeOffset_cmd hoff, submit_dropped_of_error he hw] at h
  cases h
  exact ht he

theorem hostTurn_leaves_error {e : HostEvent} {s t : State} (h : hostTurn e s = .next t)
    (he : s.engine = .error) (ht : t.engine ≠ .error) : LeavesError e := by
  cases e with
  | resetInput => exact .inl rfl
  | write bits off w =>
    by_cases hbits : bits = 32
    · subst hbits
      exact .inr ⟨off, w, rfl, writeOffset_leaves_error h he ht⟩
    · rw [hostTurn_write_of_width_ne hbits] at h
      cases h
  | read bits off =>
    by_cases hbits : bits = 32
    · subst hbits
      cases h
      exact absurd ((readOffset_engine off s).trans he) ht
    · rw [hostTurn_read_of_width_ne hbits] at h
      cases h
  | openInput | emptyInput =>
    have hbusy : busy s = false := by simp [busy, he]
    rw [hostTurn, if_neg (by simp [hbusy])] at h
    cases h
    exact absurd he ht
  | input | closeInput | takeOutput | acceptOutput | pass | wait =>
    cases h
    exact absurd he ht

/-- Settles O15: in ERROR no command holds, so the step is the host's next action, and of these only three leave it. -/
theorem errorStays : Obligations.ErrorStays := by
  intro s t hinv hstep he ht
  have hb : s.engine ≠ .busy := by rw [he]; decide
  have hn := held_eq_none_of_not_busy hinv hb
  cases hhost : s.host with
  | nil =>
    rw [step_of_host_nil hhost, engineTurn_of_held_none hn] at hstep
    cases hstep
    exact absurd he ht
  | cons e rest =>
    rw [step_of_host_cons hn hb hhost] at hstep
    exact ⟨e, rest, rfl, hostTurn_leaves_error hstep he ht⟩

/-! ### TBL_READ (R145) -/

theorem tblReadSteps_out_of_range {tbl : TableId} {s : State} (h : entries s.params tbl ≤ s.arg0.toNat) :
    tblReadSteps tbl s = .error (.raise .badCommand) s :=
  (raiseIf_bind _ _ _ s).trans (if_pos h)

theorem tblReadSteps_in_range {tbl : TableId} {s : State} (h : s.arg0.toNat < entries s.params tbl) :
    tblReadSteps tbl s = .ok () (setRes0 (readEntry s.tables s.arg0.toNat tbl) s) :=
  (raiseIf_bind _ _ _ s).trans (if_neg (not_le.2 h))

/-- Settles O25, by the two ways TBL_READ's steps can end. -/
theorem tblRead : Obligations.TblRead := fun tbl _ =>
  ⟨fun h => runCommand_raise (i := .tblRead tbl) (tblReadSteps_out_of_range h),
    fun h => runCommand_ok (i := .tblRead tbl) (tblReadSteps_in_range h)⟩

/-! ### TBL_WRITE (R146) -/

theorem readOnlyTable_iff (tbl : TableId) :
    readOnlyTable tbl = true ↔ tbl ∈ [TableId.window, .crcTable, .lenRange, .distRange] := by
  cases tbl <;> decide

theorem tblWriteSteps_refused {tbl : TableId} {s : State}
    (h : readOnlyTable tbl = true ∨ entries s.params tbl ≤ s.arg0.toNat) :
    tblWriteSteps tbl s = .error (.raise .badCommand) s := by
  refine (raiseIf_bind _ _ _ s).trans ?_
  split
  case isTrue => rfl
  case isFalse hro => exact (raiseIf_bind _ _ _ s).trans (if_pos (h.resolve_left hro))

theorem tblWriteSteps_ok {tbl : TableId} {s : State} (hro : ¬ readOnlyTable tbl = true)
    (h : s.arg0.toNat < entries s.params tbl) :
    tblWriteSteps tbl s = .ok () { s with tables := writeEntry s.tables s.arg0.toNat s.arg1 tbl } :=
  (raiseIf_bind _ _ _ s).trans <| (if_neg hro).trans <| (raiseIf_bind _ _ _ s).trans (if_neg (not_le.2 h))

/-- The bits of ARG1 an entry of a table keeps: those of its width, and for PACKED the symbol and the extra value
(10_state.md R36, R41). -/
def entryMask : TableId → Word
  | .chunk | .fname => 0x000000FF#32
  | .lenLL | .lenD | .lenCL => 0x0000000F#32
  | .packed => 0x00007F1F#32
  | _ => 0xFFFFFFFF#32

/-- Cutting a word to `n` bits and extending it again is a mask. -/
theorem zext32_setWidth (v : Word) (n : Nat) : zext32 (v.setWidth n) = v &&& zext32 (BitVec.allOnes n) := by
  ext i hi
  simp [hi, Bool.and_comm]

theorem readEntry_writeEntry_same {tbl : TableId} (h : ¬ readOnlyTable tbl = true) (t : Tables) (i : Nat) (v : Word) :
    readEntry (writeEntry t i v tbl) i tbl = v &&& entryMask tbl := by
  cases tbl with
  | window | crcTable | lenRange | distRange => exact absurd rfl h
  | freqLL | freqD | freqCL | codeLL | codeD | codeCL =>
    exact (read_write_same _ i v).trans BitVec.and_allOnes.symm
  | chunk | fname | lenLL | lenD | lenCL =>
    exact (congrArg zext32 (read_write_same _ i _)).trans (zext32_setWidth v _)
  | packed =>
    calc zext32 ((t.packed.write i (v.setWidth 16 &&& packedMask)).read i)
        = zext32 (v.setWidth 16) &&& zext32 packedMask := by rw [read_write_same, zext32, BitVec.setWidth_and]
      _ = v &&& entryMask .packed := by rw [zext32_setWidth, BitVec.and_assoc]; rfl

theorem readEntry_writeEntry_of_table_ne {tbl tbl' : TableId} (h : tbl' ≠ tbl) (t : Tables) (i k : Nat) (v : Word) :
    readEntry (writeEntry t i v tbl) k tbl' = readEntry t k tbl' := by
  cases tbl <;> cases tbl' <;> first | exact absurd rfl h | rfl

theorem readEntry_writeEntry_of_index_ne {i k : Nat} (h : k ≠ i) (t : Tables) (v : Word) (tbl : TableId) :
    readEntry (writeEntry t i v tbl) k tbl = readEntry t k tbl := by
  cases tbl with
  | window | crcTable | lenRange | distRange => rfl
  | freqLL | freqD | freqCL | codeLL | codeD | codeCL => exact read_write_other _ v h
  | chunk | fname | lenLL | lenD | lenCL | packed => exact congrArg zext32 (read_write_other _ _ h)

/-- Settles O26, by what a write of one entry shows at that entry and at the others. -/
theorem tblWrite : Obligations.TblWrite := by
  intro tbl s
  rw [← readOnlyTable_iff]
  refine ⟨fun h => runCommand_raise (i := .tblWrite tbl) (tblWriteSteps_refused h), fun hro h => ?_⟩
  refine ⟨writeEntry s.tables s.arg0.toNat s.arg1 tbl, runCommand_ok (i := .tblWrite tbl) (tblWriteSteps_ok hro h),
    ?_, fun k tbl' hother => ?_⟩
  · rw [readEntry_writeEntry_same hro]
    cases tbl <;> rfl
  · by_cases htbl : tbl' = tbl
    · subst htbl
      exact readEntry_writeEntry_of_index_ne (hother.resolve_right (not_not_intro rfl)) _ _ _
    · exact readEntry_writeEntry_of_table_ne htbl _ _ _ _

end Sys2Proof.Machine
end

section
/-! The commands of the bit writer (41_bitio.md R161 to R167): each puts one list of bits where the host has room. -/

namespace Sys2Proof.Machine

/-! ### Where a command's bits go (R160) -/

/-- A writer command whose steps put `bits` completes with them written. -/
theorem exec_writes {i : Instr} {bits : List Bool} {s : State} (hi : i ≠ .reset) (hw : WriterOk s.toEngine)
    (h : stepsOf i s = .ok () (putAll bits s)) : ∃ t, exec i s = .next t ∧ Completed s t ∧ Wrote bits s t := by
  have hwrote := wrote_putAll bits hw
  exact ⟨complete (putAll bits s), (exec_eq hi s).trans (runCommand_ok h),
    completed_of_frames (frames_putAll bits s) (by decide) (by decide),
    ⟨hwrote.stream, hwrote.given, hwrote.count, hwrote.room, hwrote.pending⟩⟩

/-- From a byte boundary, the bits of whole bytes reach the port as those bytes. -/
theorem Wrote.outPort_of_aligned {l : List Byte} {s t : State} (h : Wrote (streamBits l) s t) (h0 : s.wcount = 0) :
    t.outPort = s.outPort ++ l := by
  have hs : pendingBits s = [] := by simp [pendingBits, h0]
  have ht : pendingBits t = [] := by simp [pendingBits, h.pending.1, h0]
  have hstream := h.stream
  rw [hs, ht, List.append_nil, List.append_nil, ← streamBits_append] at hstream
  exact streamBits_inj hstream

/-- The bits of `n` whole bytes complete exactly `n` bytes, wherever the cursor stands. -/
theorem room_of_bytes {s : State} {n : Nat} (h : hasRoom s n) : Room s (8 * n) := by
  have hlt := s.wcount.isLt
  rwa [Room, show (s.wcount.toNat + 8 * n) / 8 = n by omega]

/-! ### BW_BITS and BW_BITS_R (R161, R162) -/

theorem bwBitsSteps_refused {n : Nat} (h : 32 < n) (s : State) : bwBitsSteps n s = .error (.raise .badCommand) s :=
  (raiseIf_bind _ _ _ s).trans (if_pos h)

theorem bwBitsRSteps_refused {n : Nat} (h : 32 < n) (s : State) : bwBitsRSteps n s = .error (.raise .badCommand) s :=
  (raiseIf_bind _ _ _ s).trans (if_pos h)

theorem bwBitsSteps_ok {n : Nat} {s : State} (h : n ≤ 32) (hroom : Room s n) :
    bwBitsSteps n s = .ok () (putAll (bitsOf n s.arg0.toNat) s) :=
  ((raiseIf_bind _ _ _ s).trans (if_neg (not_lt.2 h))).trans (writeBits_ok hroom)

theorem bwBitsRSteps_ok {n : Nat} {s : State} (h : n ≤ 32) (hroom : Room s n) :
    bwBitsRSteps n s = .ok () (putAll (bitsRev n s.arg0.toNat) s) :=
  ((raiseIf_bind _ _ _ s).trans (if_neg (not_lt.2 h))).trans (writeBitsR_ok hroom)

/-! ### BW_FLUSH (R164) -/

theorem flush_aligned {s : State} (h : s.wcount = 0) : flush s = .ok () s := by
  simp [flush, h, putOnes]

theorem padBits_of_pending {s : State} (h : s.wcount ≠ 0) : padBits s.wcount.toNat = 8 - s.wcount.toNat := by
  have hpos : s.wcount.toNat ≠ 0 := fun e => h (BitVec.eq_of_toNat_eq e)
  have hlt := s.wcount.isLt
  rw [padBits]
  omega

/-- A flush ends at a byte boundary, and the writer's rule then leaves nothing in WBUF (10_state.md R48). -/
theorem Wrote.flushed {s t : State} (h : Wrote (List.replicate (8 - s.wcount.toNat) true) s t) :
    t.wcount = 0 ∧ t.wbuf = 0 := by
  obtain ⟨hcount, hbuf⟩ := h.pending
  have hlt := s.wcount.isLt
  have h0 : t.wcount = 0 := by
    refine BitVec.eq_of_toNat_eq (hcount.trans ?_)
    rw [List.length_replicate, Nat.add_sub_cancel' hlt.le]
    rfl
  exact ⟨h0, by simpa [WriterOk, h0] using hbuf⟩

theorem exec_bwFlush_pending {s : State} (hw : WriterOk s.toEngine) (h : s.wcount ≠ 0) (hroom : hasRoom s 1) :
    ∃ t, exec .bwFlush s = .next t ∧ Completed s t ∧ Wrote (List.replicate (8 - s.wcount.toNat) true) s t ∧
      t.wcount = 0 ∧ t.wbuf = 0 := by
  have hpad := padBits_of_pending h
  have hfits : Room s (padBits s.wcount.toNat) := (room_of_bytes hroom).mono (by omega)
  obtain ⟨t, he, hc, hwrote⟩ := exec_writes (i := .bwFlush) nofun hw (flush_ok hfits)
  rw [hpad] at hwrote
  exact ⟨t, he, hc, hwrote, hwrote.flushed⟩

/-! ### BW_BYTE, BW_SHORT and BW_INT (R165 to R167) -/

/-- The operand of BW_BYTE and BW_SHORT has the low bits of ARG0. -/
theorem bitsOf_low (n : Nat) (v : Word) : bitsOf n (v.extractLsb' 0 n).toNat = bitsOf n v.toNat := by
  rw [BitVec.extractLsb'_toNat, Nat.shiftRight_zero, bitsOf_mod]

theorem streamBits_take (l : List Byte) (k : Nat) : streamBits (l.take k) = (streamBits l).take (8 * k) := by
  induction l generalizing k with
  | nil => simp
  | cons b l ih =>
    cases k with
    | zero => simp
    | succ k => simp [ih, Nat.mul_succ, Nat.add_comm _ 8, List.take_append, List.take_of_length_le]

theorem bitsOf_take {k n : Nat} (h : k ≤ n) (v : Nat) : (bitsOf n v).take k = bitsOf k v := by
  rw [bitsOf, bitsOf, ← List.map_take, List.take_range, Nat.min_eq_left h]

/-- The first bytes of a word hold its low bits. -/
theorem streamBits_take_wordBytes {k : Nat} (h : k ≤ 4) (v : Word) :
    streamBits ((wordBytes v).take k) = bitsOf (8 * k) v.toNat := by
  rw [streamBits_take, streamBits_wordBytes, bitsOf_take (by omega)]

/-- A command that writes a value with the low `k` bytes of ARG0, at any cursor. -/
theorem exec_writes_bytes {i : Instr} {k v : Nat} {s : State} (hi : i ≠ .reset) (hk : k ≤ 4)
    (hsteps : stepsOf i s = writeBits v (8 * k) s) (hv : bitsOf (8 * k) v = bitsOf (8 * k) s.arg0.toNat)
    (hw : WriterOk s.toEngine) (hroom : hasRoom s k) :
    ∃ t, exec i s = .next t ∧ Completed s t ∧ Wrote (bitsOf (8 * k) s.arg0.toNat) s t ∧
      (s.wcount = 0 → t.outPort = s.outPort ++ (wordBytes s.arg0).take k) := by
  have hput := hsteps.trans (writeBits_ok (room_of_bytes hroom))
  rw [hv] at hput
  obtain ⟨t, he, hc, hwrote⟩ := exec_writes hi hw hput
  refine ⟨t, he, hc, hwrote, fun h0 => ?_⟩
  rw [← streamBits_take_wordBytes hk] at hwrote
  exact hwrote.outPort_of_aligned h0

/-! ### The statements (R161 to R167) -/

namespace BitFramer

/-- Settles O27, by the list of bits that each command's steps put. -/
theorem writeBits : Obligations.WriteBits := fun n s =>
  ⟨fun h => ⟨runCommand_raise (i := .bwBits n) (bwBitsSteps_refused h s),
      runCommand_raise (i := .bwBitsR n) (bwBitsRSteps_refused h s)⟩,
    fun h hw hroom => ⟨exec_writes (i := .bwBits n) nofun hw (bwBitsSteps_ok h hroom),
      exec_writes (i := .bwBitsR n) nofun hw (bwBitsRSteps_ok h hroom)⟩⟩

/-- Settles O28, by the value that each command's steps write. -/
theorem writeBytes : Obligations.WriteBytes := fun s hw =>
  ⟨fun h0 => runCommand_ok (i := .bwFlush) (flush_aligned h0),
    exec_bwFlush_pending hw,
    exec_writes_bytes (i := .bwByte) (k := 1) nofun (by decide) rfl (bitsOf_low 8 _) hw,
    exec_writes_bytes (i := .bwShort) (k := 2) nofun (by decide) rfl (bitsOf_low 16 _) hw,
    exec_writes_bytes (i := .bwInt) (k := 4) nofun (by decide) rfl rfl hw⟩

end BitFramer

end Sys2Proof.Machine
end

section
/-! The commands of the bit reader (41_bitio.md R171 to R176): the next bits go to RES0 where they are there, and what
there is of them is consumed where they are not. -/

namespace Sys2Proof.Machine

/-! ### Reading into RES0 (R171) -/

theorem runCommand_congr {i : Instr} {x y : Exec Unit} {s : State} (h : x s = y s) :
    runCommand i x s = runCommand i y s := by
  unfold runCommand
  rw [h]

theorem brBitsSteps_refused {n : Nat} (h : 32 < n) (s : State) : brBitsSteps n s = .error (.raise .badCommand) s :=
  (raiseIf_bind _ _ _ s).trans (if_pos h)

theorem brBitsSteps_ok {n : Nat} (h : n ≤ 32) (s : State) : brBitsSteps n s = readBitsToRes0 n s :=
  (raiseIf_bind _ _ _ s).trans (if_neg (not_lt.2 h))

/-- The readers' commands are one: RES0 takes the next `n` bits (R171, R173 to R175). -/
theorem exec_reads {n : Nat} {i : Instr} (hn : n ≤ 32)
    (h : i = .brBits n ∨ (n = 8 ∧ i = .brByte) ∨ (n = 16 ∧ i = .brShort) ∨ (n = 32 ∧ i = .brInt)) (s : State) :
    exec i s = runCommand i (readBitsToRes0 n) s := by
  rcases h with rfl | ⟨rfl, rfl⟩ | ⟨rfl, rfl⟩ | ⟨rfl, rfl⟩
  · exact runCommand_congr (brBitsSteps_ok hn s)
  · rfl
  · rfl
  · rfl

/-- The value of the bits read, in a 32-bit register. -/
def readValue (n : Nat) (s : State) : Word := BitVec.ofNat 32 (natOfBits ((unreadBits s).take n))

theorem readBitsToRes0_ok {n : Nat} {s : State} (h : n ≤ (unreadBits s).length) :
    readBitsToRes0 n s = .ok () (setRes0 (readValue n s) (advance n s)) := by
  have hread := readBits_ok (List.take_append_drop n (unreadBits s)).symm
  rw [List.length_take, Nat.min_eq_left h] at hread
  exact bind_ok hread

theorem readBitsToRes0_dry {n : Nat} {s : State} (h : (unreadBits s).length < n) :
    readBitsToRes0 n s = .error (dryStop s) (advance (unreadBits s).length s) :=
  bind_error (readBits_dry h)

/-- Where the bits are there, they are taken and RES0 is their value. -/
theorem readBitsToRes0_completes {n : Nat} {s : State} (i : Instr) (hr : ReaderOk s.toEngine)
    (h : n ≤ (unreadBits s).length) :
    ∃ t, runCommand i (readBitsToRes0 n) s = .next t ∧ Completed s t ∧ Took n s t ∧ t.res0 = readValue n s := by
  have hframe := (ran_advance hr h).frame
  have htook := took_advance hr h
  exact ⟨complete (setRes0 (readValue n s) (advance n s)), runCommand_ok (readBitsToRes0_ok h),
    ⟨rfl, rfl, rfl, hframe .errinfo (by decide), rfl, hframe .draws (by decide)⟩,
    ⟨htook.unread, htook.port, htook.count, htook.buffer⟩, rfl⟩

/-- A reader that has taken every bit holds none in its buffer. -/
theorem RanDry.rcount_eq_zero {s t : State} (h : RanDry s t) : t.rcount = 0 := by
  have hlen := unread_length t
  rw [h.read.unread, List.drop_length, List.length_nil] at hlen
  exact BitVec.eq_of_toNat_eq (by simp; omega)

/-- Where the bits are not there, those that are have been taken and RES0 is unchanged (R172). -/
theorem readBitsToRes0_runs_dry {n : Nat} {s : State} (i : Instr) (hr : ReaderOk s.toEngine)
    (h : (unreadBits s).length < n) :
    ∃ t, runCommand i (readBitsToRes0 n) s = .next t ∧ RanDry s t ∧ t.res0 = s.res0 := by
  have hframe := (ran_advance hr le_rfl).frame
  have hres0 : (advance (unreadBits s).length s).res0 = s.res0 := hframe .res0 (by decide)
  refine ⟨_, runCommand_dry (readBitsToRes0_dry h),
    ranDry_end i (took_advance hr le_rfl) hframe (by decide) (by decide), ?_⟩
  split <;> exact hres0

/-! ### BR_ALIGN (R176) -/

theorem ofNat_toNat_rcount (c : BitVec 3) : BitVec.ofNat 32 c.toNat = 0#29 ++ c := by
  revert c
  decide

/-! ### The statements (R171 to R176) -/

namespace BitFramer

/-- Settles O30: every reader's command reads into RES0, and either the bits are there or it runs dry. -/
theorem readBits : Obligations.ReadBits := by
  intro n s hr
  refine ⟨fun h => runCommand_raise (i := .brBits n) (brBitsSteps_refused h s), fun hn i hi => ?_⟩
  rw [exec_reads hn hi]
  refine ⟨readBitsToRes0_completes i hr, fun h => ?_⟩
  obtain ⟨t, he, hdry, hres0⟩ := readBitsToRes0_runs_dry i hr h
  exact ⟨t, he, hdry.read, hdry.rcount_eq_zero, hres0, hdry.closed, hdry.opened⟩

/-- Settles O31, by the number that BR_ALIGN's steps give. -/
theorem readAlign : Obligations.ReadAlign := by
  intro s
  rw [← ofNat_toNat_rcount]
  rfl

end BitFramer

end Sys2Proof.Machine
end

section
/-! The CRC engine (42_crc.md): what CRC_UPDATE leaves. -/

namespace Sys2Proof.Machine

/-- A byte operand, zero-extended to a word, is ARGk[7:0] below 24 zero bits. -/
theorem zext32_byteOperand (arg : Word) : zext32 (byteOperand arg) = 0#24 ++ arg.extractLsb' 0 8 :=
  BitVec.setWidth_eq_append (by decide)

/-- CRC_STATE after ARG0[7:0], by the table (R191, R193). -/
theorem crcStep_byteOperand (c arg : Word) :
    crcStep c (byteOperand arg) =
      crcTable ((c ^^^ (0#24 ++ arg.extractLsb' 0 8)) &&& 0xFF#32).toNat ^^^ (c >>> 8) := by
  rw [crcStep, zext32_byteOperand]

/-- CRC_UPDATE's only step always succeeds: it changes CRC_STATE and nothing else. -/
theorem exec_crcUpdate (s : State) :
    exec .crcUpdate s = .next (complete { s with crcState := crcStep s.crcState (byteOperand s.arg0) }) :=
  runCommand_ok (i := .crcUpdate) rfl

namespace CrcEngine

/-- Settles O32: CRC_UPDATE completes with CRC_STATE stepped by its byte operand. -/
theorem crcUpdate : Obligations.CrcUpdate := by
  intro s
  rw [exec_crcUpdate, crcStep_byteOperand]
  rfl

end CrcEngine

end Sys2Proof.Machine
end

section
/-! The window's commands (43_window.md R203 to R205): what WIN_RESET, WIN_ADD and WIN_FIND leave. -/

namespace Sys2Proof.Machine

/-! ### The configuration check (60_exceptions.md R333) -/

theorem checkWindow_bad {s : State} (h : winLog2 s = 0) : checkWindowConfig s = .error (.raise .badConfig) s := by
  rw [checkWindowConfig, getState_bind, raiseIf_run, if_pos h]

/-- Where WIN_LOG2 is legal, a command of the window makes its change of state and completes. -/
theorem exec_of_windowChecked {i : Instr} {f : State → State} {s : State} (h : winLog2 s ≠ 0)
    (he : exec i s = runCommand i (checkWindowConfig >>= fun _ => change f) s) : exec i s = .next (complete (f s)) :=
  he.trans (runCommand_ok (bind_ok (checkWindow_ok h)))

/-- Where WIN_LOG2 is 0, the check raises before any change. -/
theorem exec_of_windowRefused {i : Instr} {f : State → State} {s : State} (h : winLog2 s = 0)
    (he : exec i s = runCommand i (checkWindowConfig >>= fun _ => change f) s) :
    exec i s = .next (enterError .badConfig s) :=
  he.trans (runCommand_raise (bind_error (checkWindow_bad h)))

/-! ### WIN_RESET and WIN_ADD (R203, R204) -/

theorem exec_winReset (s : State) :
    exec .winReset s =
      runCommand .winReset (checkWindowConfig >>= fun _ => change fun s => { s with wcur := 0, wvalid := 0 }) s := rfl

theorem exec_winAdd (s : State) :
    exec .winAdd s =
      runCommand .winAdd (checkWindowConfig >>= fun _ => change fun s => winAdd (byteOperand s.arg0) s) s := rfl

/-- What WIN_ADD completes with, read through WinAdd's own rules: the cursor, the count and the one entry. -/
theorem complete_winAdd_window (b : Byte) (s : State) :
    (complete (winAdd b s)).wcur.toNat = (s.wcur.toNat + 1) % 2 ^ winLog2 s ∧
      (complete (winAdd b s)).wvalid.toNat = min (s.wvalid.toNat + 1) (2 ^ winLog2 s) ∧
      ∀ k, (complete (winAdd b s)).tables.window.read k =
        if k = s.wcur.toNat then b else s.tables.window.read k :=
  ⟨winAdd_wcur b s, winAdd_wvalid b s, winAdd_window b s⟩

/-- Completion leaves the window, so it remembers what it did. -/
theorem Remembers.complete {s : State} {h : List Byte} (hr : Remembers s h) : Remembers (Machine.complete s) h :=
  hr.congr rfl rfl rfl rfl

/-! ### WIN_FIND (R205) -/

/-- BAD_COMMAND comes first (60_exceptions.md R334). -/
theorem winFindSteps_refused {s : State} (h : s.params.chunkSize < s.arg1.toNat ∨ s.arg1.toNat < s.arg0.toNat) :
    winFindSteps s = .error (.raise .badCommand) s :=
  (raiseIf_bind _ _ _ s).trans (if_pos h)

/-- WIN_FIND's results go to RES0 and RES1. -/
def foundMatch (s : State) : State :=
  setRes1 (BitVec.ofNat 32 (winFind s s.arg0.toNat s.arg1.toNat).2)
    (setRes0 (BitVec.ofNat 32 (winFind s s.arg0.toNat s.arg1.toNat).1) s)

/-- With operands in range WIN_FIND is a checked search. -/
theorem exec_winFind_in_range {s : State} (h1 : s.arg1.toNat ≤ s.params.chunkSize) (h0 : s.arg0.toNat ≤ s.arg1.toNat) :
    exec .winFind s = runCommand .winFind (checkWindowConfig >>= fun _ => change foundMatch) s :=
  runCommand_congr ((raiseIf_bind _ _ _ s).trans (if_neg (not_or.2 ⟨not_lt.2 h1, not_lt.2 h0⟩)))

/-! ### The statements (R203 to R205) -/

namespace SlidingWindow

/-- Settles O34: WIN_RESET and WIN_ADD are checked changes, and WinAdd appends a byte to what is remembered. -/
theorem windowResults : Obligations.WindowResults := by
  intro s
  refine ⟨fun h => ⟨exec_of_windowRefused h (exec_winReset s), exec_of_windowRefused h (exec_winAdd s)⟩,
    fun h => ⟨?reset, ?add⟩⟩
  case reset => exact (exec_of_windowChecked h (exec_winReset s) :)
  case add =>
    exact ⟨_, exec_of_windowChecked h (exec_winAdd s),
      completed_of_frames (frames_winAdd _ s) (by decide) (by decide), complete_winAdd_window _ s,
      fun _ hr => (winAdd_remembers _ hr).complete⟩

/-- Settles O35: a search that the operands and WIN_LOG2 allow ends with the longest match (`winFind_spec`). -/
theorem winFind : Obligations.WinFind := by
  intro s
  refine ⟨fun h => runCommand_raise (i := .winFind) (winFindSteps_refused h), fun h1 h0 => ?_⟩
  have he := exec_winFind_in_range h1 h0
  refine ⟨fun h => exec_of_windowRefused h he, fun h => ⟨_, _, exec_of_windowChecked h he, ?_⟩⟩
  rcases winFind_spec s s.arg0.toNat s.arg1.toNat with ⟨hnone, hshort⟩ | hlongest
  case inl => exact .inl ⟨congrArg Prod.fst hnone, congrArg Prod.snd hnone, hshort⟩
  case inr => exact .inr hlongest

end SlidingWindow

end Sys2Proof.Machine
end

section
/-! The commands over one alphabet (44_huffman.md R230, R231, R233): HUF_BUILD, HUF_CANON and HUF_DECODE run a build, the
canonical assignment and the decoding of one symbol on the tables SEL names. -/

namespace Sys2Proof.Machine

/-! ### Alphabets (R220) -/

theorem alphabetOf_some {sel : Sel} {a : Alphabet} (h : selAlphabet sel = some a) (s : State) :
    alphabetOf sel s = .ok a s := by
  rw [alphabetOf, h]
  rfl

theorem two_le_freqsOf_length (t : Tables) (a : Alphabet) : 2 ≤ (freqsOf t a).length := by
  rw [freqsOf_length]
  cases a <;> decide

theorem getD_le_of_forall_mem {l : List Nat} {n : Nat} (h : ∀ x ∈ l, x ≤ n) (k : Nat) : l.getD k 0 ≤ n := by
  by_cases hk : k < l.length
  · rw [List.getD_eq_getElem _ _ hk]
    exact h _ (List.getElem_mem hk)
  · rw [List.getD_eq_default _ _ (not_lt.1 hk)]
    exact Nat.zero_le n

/-! ### HUF_BUILD (R226, R230) -/

section
variable {sel : Sel} {a : Alphabet} {limit : Nat} {s : State} (ha : selAlphabet sel = some a)
include ha

theorem exec_hufBuild_zero : exec (.hufBuild sel 0) s = .next (enterError .badCommand s) :=
  runCommand_raise (i := .hufBuild sel 0) <|
    (bind_ok (alphabetOf_some ha s)).trans ((raiseIf_bind _ _ _ s).trans (if_pos rfl))

/-- With legal operands HUF_BUILD is the build of the alphabet's lengths. -/
theorem hufBuildSteps_legal (hl : limit ≠ 0) :
    hufBuildSteps sel limit s = leavingUnspecified (scrambleLens a) (buildLens a limit) s :=
  (bind_ok (alphabetOf_some ha s)).trans ((raiseIf_bind _ _ _ s).trans (if_neg hl))

theorem exec_hufBuild_built {lens : List Nat} (hl : limit ≠ 0) (hb : hufBuild (freqsOf s.tables a) limit = .ok lens) :
    exec (.hufBuild sel limit) s = .next (complete { s with tables := setLens s.tables a lens }) :=
  runCommand_ok (i := .hufBuild sel limit) <|
    (hufBuildSteps_legal ha hl).trans (leaving_ok (by rw [buildLens, hb]))

theorem exec_hufBuild_raises {e : ErrCode} (hl : limit ≠ 0)
    (hb : hufBuild (freqsOf s.tables a) limit = .error (.raise e)) :
    exec (.hufBuild sel limit) s = .next (enterError e (scrambleLens a s)) :=
  runCommand_raise (i := .hufBuild sel limit) <|
    (hufBuildSteps_legal ha hl).trans (leaving_raise (by rw [buildLens, hb]))

/-- HUF_BUILD ends in IDLE only where the build gave lengths, and these are then the alphabet's. -/
theorem hufBuild_of_exec_idle {t : State} (hlimit : limit ≤ 15) (he : exec (.hufBuild sel limit) s = .next t)
    (ht : t.engine = .idle) : hufBuild (freqsOf s.tables a) limit = .ok (lensOf t.tables a) := by
  rcases Nat.eq_zero_or_pos limit with rfl | hpos
  · rw [exec_hufBuild_zero ha] at he
    cases he
    cases ht
  have hfreq := two_le_freqsOf_length s.tables a
  rcases hufBuild_cases hfreq hpos with ⟨tree, hb, -⟩ | ⟨hb, -⟩
  · have built := hufBuild_built hfreq hpos hlimit hb
    rw [exec_hufBuild_built ha hpos.ne' hb] at he
    cases he
    have hlens := lensOf_setLens (t := s.tables) (built.length.trans (freqsOf_length _ _))
      fun l hl => (built.bounded l hl).trans hlimit
    exact hb.trans (congrArg Except.ok hlens.symm)
  · rw [exec_hufBuild_raises ha hpos.ne' hb] at he
    cases he
    cases ht

end

/-! ### HUF_CANON (R227, R231) -/

theorem exec_hufCanon {sel : Sel} {a : Alphabet} (ha : selAlphabet sel = some a) (s : State) :
    exec (.hufCanon sel) s = .next (complete { s with tables := canonTables a s.tables }) :=
  runCommand_ok (i := .hufCanon sel) (bind_ok (alphabetOf_some ha s))

theorem codeAt_canonTables {a : Alphabet} {x : Nat} (t : Tables) (hx : x < alphabetSize a) :
    codeAt (canonTables a t) a x = (hufCanon (lensOf t a)).getD x 0 := by
  rw [← codesOf_getD hx, codesOf_canonTables]

theorem completed_canonTables (a : Alphabet) (s : State) :
    Completed s (complete { s with tables := canonTables a s.tables }) :=
  completed_of_frames (canonTables_frames a s) (by cases a <;> decide) (by cases a <;> decide)

/-- One symbol comes before another in the order (length, symbol) of R227. -/
def Precedes (t : Tables) (a : Alphabet) (y x : Nat) : Prop :=
  lenAt t a y < lenAt t a x ∨ (lenAt t a y = lenAt t a x ∧ y < x)

section
variable {t : Tables} {a : Alphabet} {x : Nat} (hx : x < alphabetSize a)
include hx

theorem codeAt_canonTables_of_no_length (h : lenAt t a x = 0) : codeAt (canonTables a t) a x = 0 := by
  rw [codeAt_canonTables t hx]
  exact ((hufCanon_spec _).2 x (by rwa [lensOf_length])).1 (by rwa [lensOf_getD hx])

theorem codeAt_canonTables_first (hpos : 0 < lenAt t a x)
    (hfirst : ∀ y, y < alphabetSize a → 0 < lenAt t a y →
      lenAt t a x < lenAt t a y ∨ (lenAt t a x = lenAt t a y ∧ x ≤ y)) :
    codeAt (canonTables a t) a x = 0 := by
  rw [codeAt_canonTables t hx]
  refine hufCanon_first (by rwa [lensOf_length]) (by rwa [lensOf_getD hx]) (getD_mem_le (lensOf_le t a) x) ?_
  intro y hy hypos
  rw [lensOf_length] at hy
  rw [lensOf_getD hy] at hypos ⊢
  rw [lensOf_getD hx]
  exact hfirst y hy hypos

theorem codeAt_canonTables_next {y : Nat} (hy : y < alphabetSize a) (hypos : 0 < lenAt t a y)
    (hyx : Precedes t a y x)
    (hlast : ∀ z, z < alphabetSize a → 0 < lenAt t a z → Precedes t a z x →
      lenAt t a z < lenAt t a y ∨ (lenAt t a z = lenAt t a y ∧ z ≤ y)) :
    codeAt (canonTables a t) a x = (codeAt (canonTables a t) a y + 1) * 2 ^ (lenAt t a x - lenAt t a y) := by
  rw [codeAt_canonTables t hx, codeAt_canonTables t hy, ← lensOf_getD hx, ← lensOf_getD hy]
  refine hufCanon_next (by rwa [lensOf_length]) (by rwa [lensOf_length]) (by rwa [lensOf_getD hy])
    (getD_mem_le (lensOf_le t a) x) (by rwa [lensOf_getD hx, lensOf_getD hy]) ?_
  intro z hz hzpos hzx
  rw [lensOf_length] at hz
  rw [lensOf_getD hz] at hzpos hzx ⊢
  rw [lensOf_getD hx] at hzx
  rw [lensOf_getD hy]
  exact hlast z hz hzpos hzx

end

/-! ### HUF_DECODE (R229, R233) -/

theorem hufDecodeSteps_ok {sel : Sel} {a : Alphabet} {s t : State} {x : Nat} (ha : selAlphabet sel = some a)
    (h : hufDecode a s = .ok x t) : hufDecodeSteps sel s = .ok () (setRes0 (BitVec.ofNat 32 x) t) :=
  (bind_ok (alphabetOf_some ha s)).trans (bind_ok h)

theorem hufDecodeSteps_error {sel : Sel} {a : Alphabet} {s t : State} {e : Stop} (ha : selAlphabet sel = some a)
    (h : hufDecode a s = .error e t) : hufDecodeSteps sel s = .error e t :=
  (bind_ok (alphabetOf_some ha s)).trans (bind_error h)

/-- Some symbol has the longest length of its table. -/
theorem exists_lenAt_eq_max (t : Tables) (a : Alphabet) :
    ∃ y, y < alphabetSize a ∧ lenAt t a y = maxOf (lensOf t a) := by
  have hne : lensOf t a ≠ [] := by
    apply List.ne_nil_of_length_pos
    rw [lensOf_length]
    cases a <;> decide
  obtain ⟨y, hy, hmax⟩ := List.mem_iff_getElem.1 (maxOf_mem hne)
  have hsize : y < alphabetSize a := by rwa [lensOf_length] at hy
  exact ⟨y, hsize, by rw [← lensOf_getD hsize, List.getD_eq_getElem _ _ hy, hmax]⟩

theorem maxOf_lensOf_eq {t : Tables} {a : Alphabet} {n : Nat} (hle : ∀ y, y < alphabetSize a → lenAt t a y ≤ n)
    (hn : n = 0 ∨ ∃ y, y < alphabetSize a ∧ lenAt t a y = n) : maxOf (lensOf t a) = n := by
  apply le_antisymm
  · obtain ⟨y, hy, hmax⟩ := exists_lenAt_eq_max t a
    exact hmax ▸ hle y hy
  · rcases hn with rfl | ⟨y, hy, rfl⟩
    · exact Nat.zero_le _
    · exact lenAt_le_max hy

section
variable {sel : Sel} {a : Alphabet} {s : State} {n : Nat} (ha : selAlphabet sel = some a) (hr : ReaderOk s.toEngine)
include ha hr

/-- A decoded symbol goes to RES0, and its bits have been taken. -/
theorem exec_hufDecode_completes {x : Nat} (hn : n ≤ (unreadBits s).length)
    (h : hufDecode a s = .ok x (advance n s)) :
    ∃ t, exec (.hufDecode sel) s = .next t ∧ Completed s t ∧ Took n s t ∧ t.res0 = BitVec.ofNat 32 x := by
  have hframe := (ran_advance hr hn).frame
  have htook := took_advance hr hn
  exact ⟨_, runCommand_ok (i := .hufDecode sel) (hufDecodeSteps_ok ha h),
    ⟨rfl, rfl, rfl, hframe .errinfo (by decide), rfl, hframe .draws (by decide)⟩,
    ⟨htook.unread, htook.port, htook.count, htook.buffer⟩, rfl⟩

/-- An error of the decoding is reported once the bits read for it have been taken. -/
theorem exec_hufDecode_raises {e : ErrCode} (hn : n ≤ (unreadBits s).length)
    (h : hufDecode a s = .error (.raise e) (advance n s)) :
    ∃ t, exec (.hufDecode sel) s = .next t ∧ Raised e s t ∧ Took n s t ∧ t.res0 = s.res0 := by
  have hframe := (ran_advance hr hn).frame
  have htook := took_advance hr hn
  exact ⟨_, runCommand_raise (i := .hufDecode sel) (hufDecodeSteps_error ha h), raised_of_frames hframe (by decide),
    ⟨htook.unread, htook.port, htook.count, htook.buffer⟩, hframe .res0 (by decide)⟩

/-- Where the input ends first, every bit has been taken (R172). -/
theorem exec_hufDecode_runs_dry
    (h : hufDecode a s = .error (dryStop s) (advance (unreadBits s).length s)) :
    ∃ t, exec (.hufDecode sel) s = .next t ∧ RanDry s t ∧ t.res0 = s.res0 := by
  have hframe := (ran_advance hr le_rfl).frame
  have hres0 : (advance (unreadBits s).length s).res0 = s.res0 := hframe .res0 (by decide)
  refine ⟨_, runCommand_dry (i := .hufDecode sel) (hufDecodeSteps_error ha h),
    ranDry_end _ (took_advance hr le_rfl) hframe (by decide) (by decide), ?_⟩
  split <;> exact hres0

end

/-! ### The statements (R226, R227, R229) -/

namespace HuffmanUnit

/-- Settles O37: a build that succeeds is `Built`, which rests on the tree being full, and HUF_BUILD ends in IDLE only with
such lengths in its table. -/
theorem kraftEquality : Obligations.KraftEquality := by
  refine ⟨fun freq lens limit hfreq hpos hlimit hb => ?_, fun sel a limit s t hlimit ha => ?_⟩
  · have built := hufBuild_built hfreq hpos hlimit hb
    exact ⟨built.length, built.used, getD_le_of_forall_mem built.bounded, built.kraft, built.free⟩
  · exact hufBuild_of_exec_idle ha (Nat.le_of_lt_succ hlimit)

/-- Settles O38: the codes are `hufCanon`'s, of which the laws of canonical codes give the first and each next one. -/
theorem hufCanon : Obligations.HufCanon := by
  intro sel s
  refine ⟨?illegal, fun a ha => ⟨_, exec_hufCanon ha s, completed_canonTables a s, codesOf_canonTables s.tables a,
    fun x hx => ⟨codeAt_canonTables_of_no_length hx, fun hpos => ⟨codeAt_canonTables_first hx hpos, ?next⟩⟩⟩⟩
  case illegal =>
    rintro rfl
    exact runCommand_raise (i := .hufCanon .illegal) (steps := hufCanonSteps .illegal) rfl
  case next =>
    intro y hy hypos hyx hlast
    refine codeAt_canonTables_next hx hy hypos hyx fun z hz hzpos hzx => hlast z hz hzpos ?_ hzx
    rintro rfl
    exact hzx.elim (lt_irrefl _) fun h => lt_irrefl _ h.2

/-- Settles O41, by the three ways the decoding of a symbol can end. -/
theorem hufDecode : Obligations.HufDecode := by
  intro sel s hr
  refine ⟨?illegal, fun a ha => ⟨?found, ?unmatched, ?dry⟩⟩
  case illegal =>
    rintro rfl
    exact runCommand_raise (i := .hufDecode .illegal) (steps := hufDecodeSteps .illegal) rfl
  case found =>
    intro x n hx hpos hn hlen hcode hlowest hshortest
    exact exec_hufDecode_completes ha hr hn (hufDecode_ok hx hpos hn hlen hcode hlowest hshortest)
  case unmatched =>
    intro n hn hle hlongest hno
    have hmax := maxOf_lensOf_eq hle hlongest
    have hdecode := hufDecode_none (s := s) (a := a) fun m hm1 _ hm y hy => hno m hm1 (hmax ▸ hm) y hy
    rw [hmax, if_pos hn] at hdecode
    exact exec_hufDecode_raises ha hr hn hdecode
  case dry =>
    rintro ⟨y, hy, hlong⟩ hno
    have hmax := hlong.trans_le (lenAt_le_max hy)
    have hdecode := hufDecode_none (s := s) (a := a) fun m hm1 hm _ y hy => hno m hm1 hm y hy
    rw [if_neg (not_le.2 hmax)] at hdecode
    obtain ⟨t, he, hdry, hres0⟩ := exec_hufDecode_runs_dry ha hr hdecode
    exact ⟨t, he, hdry.read, hres0, hdry.closed, hdry.opened⟩

end HuffmanUnit

end Sys2Proof.Machine
end

section
/-! Code-length packing (44_huffman.md R234 to R236): what CL_PACK writes, and that CL_UNPACK takes it back. -/

namespace Sys2Proof.Machine

/-! ### Length tables and what they are packed from -/

theorem lensOf_eq_map_lenAt (t : Tables) (a : Alphabet) : lensOf t a = (List.range (alphabetSize a)).map (lenAt t a) := by
  cases a <;> exact List.map_map

theorem lensOf_take {a : Alphabet} {n : Nat} (t : Tables) (h : n ≤ alphabetSize a) :
    (lensOf t a).take n = (List.range n).map (lenAt t a) := by
  rw [lensOf_eq_map_lenAt, ← List.map_take, List.take_range, Nat.min_eq_left h]

theorem lenAt_le (t : Tables) (a : Alphabet) (k : Nat) : lenAt t a k ≤ 15 := by
  cases a <;> exact Nat.le_of_lt_succ (BitVec.isLt _)

/-- The lengths CL_PACK takes: the first ARG0 of LEN_LL, then the first ARG1 of LEN_D. -/
def packInput (s : State) : List Nat :=
  (List.range s.arg0.toNat).map (lenAt s.tables .ll) ++ (List.range s.arg1.toNat).map (lenAt s.tables .d)

@[simp] theorem packInput_length (s : State) : (packInput s).length = s.arg0.toNat + s.arg1.toNat := by
  simp [packInput]

theorem packInput_le (s : State) : ∀ l ∈ packInput s, l ≤ 15 := by
  intro l hl
  rcases List.mem_append.1 hl with hl | hl <;>
  · obtain ⟨k, -, rfl⟩ := List.mem_map.1 hl
    exact lenAt_le _ _ k

theorem packInput_getD_ll {s : State} {k : Nat} (h : k < s.arg0.toNat) : (packInput s).getD k 0 = lenAt s.tables .ll k := by
  rw [packInput, List.getD_append _ _ _ _ (by simpa using h), getD_map_range _ h]

theorem packInput_getD_d {s : State} {k : Nat} (h : k < s.arg1.toNat) :
    (packInput s).getD (s.arg0.toNat + k) 0 = lenAt s.tables .d k := by
  rw [packInput, List.getD_append_right _ _ _ _ (by simp)]
  simpa using getD_map_range (lenAt s.tables .d) h

/-! ### CL_PACK (R234) -/

theorem badOperand_clPack_iff (s : State) : badOperand s .clPack ↔ ¬ lengthCountsOk s := by
  simp only [badOperand, lengthCountsOk, natOperand, Config.llSize, Config.dSize]
  omega

theorem clPackSteps_refused {s : State} (h : badOperand s .clPack) : clPackSteps s = .error (.raise .badCommand) s :=
  (raiseIf_bind _ _ _ s).trans (if_pos ((badOperand_clPack_iff s).1 h))

/-- The tables and the number of packed symbols CL_PACK leaves. -/
def packResult (s : State) : Tables × Nat := packTables s.arg0.toNat s.arg1.toNat s.tables

/-- The state CL_PACK's steps end in: PACKED and FREQ_CL are written, and the number of packed symbols goes to RES0. -/
def packedState (s : State) : State :=
  setRes0 (BitVec.ofNat 32 (packResult s).2) { s with tables := (packResult s).1 }

theorem exec_clPack {s : State} (h : ¬ badOperand s .clPack) : exec .clPack s = .next (complete (packedState s)) :=
  runCommand_ok (i := .clPack) <|
    (raiseIf_bind _ _ _ s).trans (if_neg fun hbad => h ((badOperand_clPack_iff s).2 hbad))

theorem packedState_completed (s : State) : Completed s (complete (packedState s)) :=
  completed_of_frames (F := [.table .packed, .table .freqCL, .res0])
    (((packTables_frames _ _ s).mono (by decide)).trans ((frames_res0 _ _).mono (by decide))) (by decide) (by decide)

section
variable {s : State} (h : ¬ badOperand s .clPack)
include h

theorem take_lens_eq_packInput :
    (lensOf s.tables .ll).take s.arg0.toNat ++ (lensOf s.tables .d).take s.arg1.toNat = packInput s := by
  simp only [badOperand, not_or, not_lt] at h
  obtain ⟨-, hll, -, hd⟩ := h
  rw [lensOf_take _ hll, lensOf_take _ hd, packInput]

/-- A packed symbol stands for one length at least, so PACKED holds them all (10_state.md R41). -/
theorem clPack_packInput_length_le : (clPack (packInput s)).length ≤ 320 := by
  have hshort := (clPack_packs (packInput_le s) []).short
  rw [packInput_length] at hshort
  simp only [badOperand, not_or, not_lt] at h
  omega

theorem packResult_length : (packResult s).2 = (clPack (packInput s)).length := by
  rw [← take_lens_eq_packInput h]
  rfl

theorem packResult_packed :
    (packResult s).1.packed = s.tables.packed.writeList 0 ((clPack (packInput s)).map packedEntry) := by
  rw [← take_lens_eq_packInput h]
  rfl

theorem packResult_packed_read {k : Nat} {x : Nat × Nat} (hx : (clPack (packInput s))[k]? = some x) :
    (packResult s).1.packed.read k = packedEntry x := by
  have hk := (List.getElem?_eq_some_iff.1 hx).1
  have hread := read_writeList ((clPack (packInput s)).map packedEntry) s.tables.packed (k := 0) (a := k)
    (by rwa [List.length_map])
  rw [Nat.zero_add] at hread
  rw [packResult_packed h, hread, List.getD_eq_getElem?_getD, List.getElem?_map, hx]
  rfl

theorem packResult_packed_read_behind {k : Nat} (hk : (clPack (packInput s)).length ≤ k) :
    (packResult s).1.packed.read k = s.tables.packed.read k := by
  rw [packResult_packed h]
  exact read_writeList_other _ _ (.inr (by simpa using hk))

theorem packResult_freqCL_read {x : Nat} (hx : x < 19) :
    ((packResult s).1.freqCL.read x).toNat = ((clPack (packInput s)).map Prod.fst).count x := by
  have hfreqs : freqsOf (packResult s).1 .cl = countsCL (clPack (packInput s)) :=
    packTables_freqs (congrArg clPack (take_lens_eq_packInput h).symm) (clPack_packInput_length_le h)
  calc ((packResult s).1.freqCL.read x).toNat = (freqsOf (packResult s).1 .cl).getD x 0 := (freqsOf_getD (a := .cl) hx).symm
    _ = (countsCL (clPack (packInput s))).getD x 0 := by rw [hfreqs]
    _ = ((clPack (packInput s)).map Prod.fst).count x := getD_map_range _ hx

/-- The entries of PACKED that RES0 counts are those of the packed symbols. -/
theorem packResult_packed_toList :
    (packResult s).1.packed.toList (clPack (packInput s)).length = (clPack (packInput s)).map packedEntry := by
  rw [packResult_packed h]
  simpa using toList_writeList ((clPack (packInput s)).map packedEntry) s.tables.packed

end

/-! ### CL_UNPACK (R235, R236) -/

theorem badOperand_clUnpack_iff (s : State) :
    badOperand s .clUnpack ↔ ¬ lengthCountsOk s ∨ natOperand s.arg2 > Config.packedMax := by
  simp only [badOperand, lengthCountsOk, natOperand, Config.llSize, Config.dSize, Config.packedMax]
  omega

/-- Where the packed symbols expand to the announced number of lengths, CL_UNPACK fills the length tables with them. -/
theorem exec_clUnpack_ok {s : State} {seq : List Nat} (h : ¬ badOperand s .clUnpack)
    (hseq : clUnpack (s.arg0.toNat + s.arg1.toNat) [] (s.tables.packed.toList s.arg2.toNat) = .ok seq) :
    exec .clUnpack s =
      .next (complete { s with tables := splitLens s.arg0.toNat s.arg1.toNat seq s.tables }) := by
  refine runCommand_ok (i := .clUnpack) (steps := clUnpackSteps) ?_
  refine (raiseIf_bind _ _ _ s).trans ((if_neg fun hbad => h ((badOperand_clUnpack_iff s).2 hbad)).trans ?_)
  simp only [natOperand, hseq]
  rfl

theorem splitLens_completed (nll nd : Nat) (seq : List Nat) (s : State) :
    Completed s (complete { s with tables := splitLens nll nd seq s.tables }) :=
  completed_of_frames (splitLens_frames nll nd seq s) (by decide) (by decide)

section
variable {nll nd : Nat} {seq : List Nat} {t : Tables} {k : Nat} (hseq : ∀ l ∈ seq, l ≤ 15)
include hseq

theorem lenAt_splitLens_ll (hk : k < 288) : lenAt (splitLens nll nd seq t) .ll k = if k < nll then seq.getD k 0 else 0 := by
  rw [← lensOf_getD (a := .ll) hk, (splitLens_lens t hseq).1, getD_map_range _ hk]

theorem lenAt_splitLens_d (hk : k < 32) :
    lenAt (splitLens nll nd seq t) .d k = if k < nd then seq.getD (nll + k) 0 else 0 := by
  rw [← lensOf_getD (a := .d) hk, (splitLens_lens t hseq).2, getD_map_range _ hk]

end

/-- The packed symbols of CL_PACK expand to the lengths they were packed from. -/
theorem clUnpack_packResult {s : State} (h : ¬ badOperand s .clPack) :
    clUnpack (s.arg0.toNat + s.arg1.toNat) [] ((packResult s).1.packed.toList (clPack (packInput s)).length) =
      .ok (packInput s) := by
  have hpacks := clPack_packs (packInput_le s) []
  have hexpands := hpacks.expands (s.arg0.toNat + s.arg1.toNat) (by simp)
  rw [packResult_packed_toList h, clUnpack_entries hpacks.legal hexpands, List.nil_append, if_neg (by simp)]

/-! ### The statements (R234, R236) -/

namespace HuffmanUnit

/-- Settles O43: the packed symbols are `clPack` of the lengths CL_PACK takes, and `clPack` goes run by run. -/
theorem clPack : Obligations.ClPack := by
  refine ⟨fun s => ⟨fun h => runCommand_raise (i := .clPack) (clPackSteps_refused h), fun h => ?packs⟩, rfl,
    fun _ _ _ => clPack_run⟩
  case packs =>
    exact ⟨complete (packedState s), _, exec_clPack h, packedState_completed s, rfl, clPack_packInput_length_le h,
      congrArg (BitVec.ofNat 32) (packResult_length h), fun _ _ => packResult_packed_read h,
      fun _ => packResult_packed_read_behind h, fun _ => packResult_freqCL_read h⟩

/-- Settles O45: CL_UNPACK reads back the packed symbols, which expand to the lengths they were packed from. -/
theorem packRoundTrip : Obligations.PackRoundTrip := by
  intro s hll hll' hd hd'
  have h : ¬ badOperand s .clPack := by
    simp only [badOperand]
    omega
  refine ⟨complete (packedState s), exec_clPack h, fun u hpacked h0 h1 h2 => ?_⟩
  have hshort := clPack_packInput_length_le h
  have hcount : u.arg2.toNat = (Machine.clPack (packInput s)).length := by
    have hres0 : u.arg2 = BitVec.ofNat 32 (Machine.clPack (packInput s)).length :=
      h2.trans (congrArg (BitVec.ofNat 32) (packResult_length h))
    rw [hres0, BitVec.toNat_ofNat, Nat.mod_eq_of_lt (by omega)]
  have hu : ¬ badOperand u .clUnpack := by
    simp only [badOperand, h0, h1, hcount]
    omega
  have hseq : clUnpack (u.arg0.toNat + u.arg1.toNat) [] (u.tables.packed.toList u.arg2.toNat) = .ok (packInput s) := by
    rw [h0, h1, hcount, hpacked]
    exact clUnpack_packResult h
  refine ⟨_, exec_clUnpack_ok hu hseq, splitLens_completed _ _ _ u, fun k hk => ?_, fun k hk => ?_⟩
  · refine (lenAt_splitLens_ll (packInput_le s) hk).trans ?_
    rw [h0]
    exact ite_congr rfl packInput_getD_ll fun _ => rfl
  · refine (lenAt_splitLens_d (packInput_le s) hk).trans ?_
    rw [h0, h1]
    exact ite_congr rfl packInput_getD_d fun _ => rfl

end HuffmanUnit

end Sys2Proof.Machine
end

section
/-! DEF_ENC_CHUNK with BTYPE_SEL 0 (45_deflate.md R266, R269, R270): the chunk is counted and taken into the window, and
its stored block is put. -/

namespace Sys2Proof.Machine

theorem Wrote.complete {bits : List Bool} {s t : State} (h : Wrote bits s t) : Wrote bits s (Machine.complete t) :=
  ⟨h.stream, h.given, h.count, h.room, h.pending⟩

/-! ### DEF_ENC_CHUNK (R270) -/

/-- With legal operands DEF_ENC_CHUNK is EncChunk of the first ARG0 bytes. -/
theorem exec_defEncChunk_ok {final : Bool} {s t : State} (hop : ¬ badOperand s (.defEncChunk final))
    (hb : btypeSel s ≠ 3) (hw : winLog2 s ≠ 0) (h : encChunk s.arg0.toNat final s = .ok () t) :
    exec (.defEncChunk final) s = .next (complete t) :=
  runCommand_ok (i := .defEncChunk final) <|
    (raiseIf_bind _ _ _ s).trans ((if_neg hop).trans ((bind_ok (checkEncoder_ok hb hw)).trans h))

/-! ### Stored chunks (R266) -/

/-- The state that has taken in `n` bytes of CHUNK: the CRC, RAW_COUNT and the window. -/
def takeChunk (n : Nat) (s : State) : State :=
  winAddAll (chunkBytes s.tables 0 n)
    { s with crcState := crcOf s.crcState (chunkBytes s.tables 0 n), rawCount := s.rawCount + BitVec.ofNat 32 n }

theorem takeChunk_frames (n : Nat) (s : State) : Frames codeFields s (takeChunk n s) := by
  have hcount := frames_count (chunkBytes s.tables 0 n) (s.rawCount + BitVec.ofNat 32 n) s
  rw [crcAll_eq] at hcount
  exact (hcount.mono (by decide)).trans ((winAddAll_frames _ _).mono (by decide))

/-- Of the tables, taking in a chunk writes WINDOW alone, and putting bits writes none. -/
theorem putAll_takeChunk_tables (bits : List Bool) (n : Nat) (s : State) :
    (putAll bits (takeChunk n s)).tables = { s.tables with window := (putAll bits (takeChunk n s)).tables.window } := by
  have hput : (putAll bits (takeChunk n s)).tables = (takeChunk n s).tables := by simp
  rw [hput]
  exact (winAddAll_keeps _ _).2.2

theorem takeChunk_remembers {h : List Byte} {s : State} (n : Nat) (hr : Remembers s h) :
    Remembers (takeChunk n s) (h ++ chunkBytes s.tables 0 n) :=
  winAddAll_remembers _ (hr.congr rfl rfl rfl rfl)

theorem encChunk_stored {n : Nat} {final : Bool} {s : State} (hroom : s.outRoom = none) (hb : btypeSel s = 0) :
    encChunk n final s =
      .ok () (putAll (storedBits s.wcount.toNat final (chunkBytes s.tables 0 n)) (takeChunk n s)) := by
  rw [encChunk, getState_bind]
  simp only [change_bind, crcAll_eq, if_pos hb]
  exact encodeStored_ok hroom

theorem blockHeader_stored (final : Bool) : bitsOf 1 (bit final) ++ bitsOf 2 0 = [final, false, false] := by
  cases final <;> rfl

theorem storedBits_eq (pos : Nat) (final : Bool) (bytes : List Byte) :
    storedBits pos final bytes = [final, false, false] ++ List.replicate (padBits (pos + 3)) true
      ++ bitsOf 16 bytes.length ++ bitsOf 16 (bytes.length ^^^ 0xFFFF) ++ streamBits bytes := by
  simp only [storedBits, blockHeader_stored, List.append_assoc]

namespace Deflate

/-- Settles O47: the steps put the bits of the stored block after the chunk has been taken in, and only the latter
writes a table. -/
theorem storedChunk : Obligations.StoredChunk := by
  intro final s hop hwin hb _ hw hroom
  rw [← chunkBytes_toList]
  have hbits := storedBits_eq s.wcount.toNat final (chunkBytes s.tables 0 s.arg0.toNat)
  rw [chunkBytes_length] at hbits
  rw [← hbits]
  have htake := takeChunk_frames s.arg0.toNat s
  have hput := frames_putAll (storedBits s.wcount.toNat final (chunkBytes s.tables 0 s.arg0.toNat))
    (takeChunk s.arg0.toNat s)
  exact ⟨_, exec_defEncChunk_ok hop (by omega) hwin (encChunk_stored hroom hb),
    completed_of_frames (F := codeFields ++ writerFields)
      ((htake.mono (by decide)).trans (hput.mono (by decide))) (by decide) (by decide),
    (wrote_of_putAll hw htake).complete, putAll_takeChunk_tables _ _ s,
    fun _ hr => ((takeChunk_remembers _ hr).of_frames hput (by decide) (by decide) (by decide)).complete⟩

end Deflate

end Sys2Proof.Machine
end

section
/-! Whole streams from a byte boundary (45_deflate.md R272): the bytes DEF_ENC_STREAM gives are a padded stream, and
DEF_DEC_STREAM takes those bytes, and no more, to give the input back. -/

namespace Sys2Proof.Machine

/-! ### Whole bytes -/

/-- Bits that come in eights are those of bytes. -/
theorem exists_streamBits_eq {l : List Bool} (h : 8 ∣ l.length) : ∃ bytes, streamBits bytes = l := by
  obtain ⟨n, hn⟩ := h
  induction n generalizing l with
  | zero => exact ⟨[], (List.length_eq_zero_iff.1 hn).symm⟩
  | succ n ih =>
    obtain ⟨bytes, hbytes⟩ := ih (l := l.drop 8) (by rw [List.length_drop]; omega)
    have h8 : (l.take 8).length = 8 := by rw [List.length_take]; omega
    have hfirst : bitsOf 8 (BitVec.ofNat 8 (natOfBits (l.take 8))).toNat = l.take 8 := by
      rw [BitVec.toNat_ofNat, bitsOf_mod]
      simpa only [h8] using bitsOf_natOfBits (l.take 8)
    exact ⟨BitVec.ofNat 8 (natOfBits (l.take 8)) :: bytes, by
      rw [streamBits_cons, hfirst, hbytes, List.take_append_drop]⟩

/-- The bytes `y` are a stream for a window of `n` bytes that decodes to `x`, and its padding (30_encoding.md R100). -/
def PaddedStream (n : Nat) (x y : List Byte) : Prop :=
  ∃ count bits, StreamCoded n 0 count bits [] x ∧
    streamBits y = bits ++ List.replicate (padBits bits.length) true

theorem PaddedStream.mono {m n : Nat} {x y : List Byte} (hmn : m ≤ n) (h : PaddedStream m x y) : PaddedStream n x y := by
  obtain ⟨count, bits, hcoded, hy⟩ := h
  exact ⟨count, bits, streamCoded_mono hmn hcoded, hy⟩

/-- A padded stream has no byte more than its bits need. -/
theorem length_of_padded {y : List Byte} {bits : List Bool}
    (h : streamBits y = bits ++ List.replicate (padBits bits.length) true) : y.length = (bits.length + 7) / 8 := by
  have hlen := congrArg List.length h
  rw [streamBits_length, List.length_append, List.length_replicate, padBits] at hlen
  omega

/-- A writer at a byte boundary gives padded bits as whole bytes. -/
theorem Wrote.padded {bits : List Bool} {s t : State} (h0 : s.wcount = 0)
    (h : Wrote (bits ++ List.replicate (padBits bits.length) true) s t) :
    ∃ y, t.outPort = s.outPort ++ y ∧ streamBits y = bits ++ List.replicate (padBits bits.length) true := by
  obtain ⟨y, hy⟩ := exists_streamBits_eq (l := bits ++ List.replicate (padBits bits.length) true) (by
    rw [List.length_append, List.length_replicate, padBits]
    omega)
  rw [← hy] at h
  exact ⟨y, h.outPort_of_aligned h0, hy⟩

/-! ### DEF_ENC_STREAM (R271) -/

theorem exec_defEncStream_ok {s t : State} (hb : btypeSel s ≠ 3) (hw : winLog2 s ≠ 0)
    (h : encStreamBody (streamInit s) = .ok () t) : exec .defEncStream s = .next (complete t) :=
  runCommand_ok (i := .defEncStream) ((bind_ok (checkEncoder_ok hb hw)).trans h)

theorem remembers_streamInit (s : State) : Remembers (streamInit s) [] := remembers_empty rfl rfl

/-- From a byte boundary DEF_ENC_STREAM gives the input as a padded stream. -/
theorem exec_defEncStream_aligned {s : State} (hb : btypeSel s ≠ 3) (hwin : winLog2 s ≠ 0) (hp : s.params.wf)
    (h0 : s.wcount = 0) (hbuf : s.wbuf = 0) (hclosed : s.inClosed = true) (hroom : s.outRoom = none) :
    ∃ t y, exec .defEncStream s = .next t ∧ Completed s t ∧ t.outPort = s.outPort ++ y ∧
      PaddedStream (winCap s) s.inPort y ∧ t.crcState = crcOf 0xFFFFFFFF#32 s.inPort ∧
      t.rawCount = 0 + BitVec.ofNat 32 s.inPort.length := by
  have hw : WriterOk (streamInit s).toEngine := by simp [WriterOk, h0, hbuf]
  obtain ⟨t, bits, he, hcoded, -, -, hwrote, hframe, -, -, hcrc, hraw, -⟩ :=
    encStreamBody_ok (s := streamInit s) hclosed hroom hw hp hb (remembers_streamInit s)
  have hpos : (streamInit s).wcount.toNat = 0 := congrArg BitVec.toNat h0
  rw [hpos, Nat.zero_add] at hwrote
  rw [hpos] at hcoded
  obtain ⟨y, hout, hy⟩ := Wrote.padded (s := streamInit s) h0 hwrote
  exact ⟨complete t, y, exec_defEncStream_ok hb hwin he,
    completed_of_frames (F := streamFields ++ encodeAllFields)
      (((frames_streamInit s).mono (by decide)).trans (hframe.mono (by decide))) (by decide) (by decide),
    hout, ⟨_, bits, hcoded, hy⟩, hcrc, hraw⟩

/-! ### DEF_DEC_STREAM (R283, R285) -/

theorem exec_defDecStream_ok {s t : State} {count : Nat} (hw : winLog2 s ≠ 0)
    (h : decStreamBody (streamInit s) = .ok count t) :
    exec .defDecStream s = .next (complete (setRes0 (BitVec.ofNat 32 count) t)) :=
  runCommand_ok (i := .defDecStream) ((bind_ok (checkWindow_ok hw)).trans (leaving_ok (bind_ok h)))

theorem decStreamBody_frames {s t : State} {count : Nat} (h : decStreamBody s = .ok count t) :
    Frames (.outCommit :: decodeFields) s t :=
  (decStreamBody_good (frames_decoderGood (fun _ hf => hf) s)).ok (Frames.refl _ s) h

theorem hasRoom_of_none {s : State} {n : Nat} (h : s.outRoom = none) : hasRoom s n := fun _ hk => nomatch h.symm.trans hk

/-- From a byte boundary DEF_DEC_STREAM takes a padded stream and leaves the bytes that follow it. -/
theorem exec_defDecStream_aligned {u : State} {x y rest : List Byte} (hwin : winLog2 u ≠ 0) (h0 : u.rcount = 0)
    (hbuf : u.rbuf = 0) (hroom : u.outRoom = none) (hxy : PaddedStream (winCap u) x y) (hin : u.inPort = y ++ rest) :
    ∃ v, exec .defDecStream u = .next v ∧ Completed u v ∧ v.outPort = u.outPort ++ x ∧ v.inPort = rest ∧
      v.crcState = crcOf 0xFFFFFFFF#32 x ∧ v.rawCount = 0 + BitVec.ofNat 32 x.length := by
  obtain ⟨count, bits, hcoded, hy⟩ := hxy
  have hr : ReaderOk (streamInit u).toEngine := by simp [ReaderOk, h0, hbuf]
  have hpos : readerPos (streamInit u) = 0 := by simp [readerPos, h0]
  have hunread : unreadBits (streamInit u) =
      bits ++ (List.replicate (padBits bits.length) true ++ streamBits rest) := by
    simp [unreadBits, h0, hin, hy]
  obtain ⟨t, he, hread, -⟩ := decStreamBody_ok (s := streamInit u) (h := []) (out := x) (hpos.symm ▸ hcoded) hr
    (remembers_streamInit u) hunread (hasRoom_of_none hroom)
  have htaken : bytesFor (streamInit u) bits.length = y.length := by
    simp [bytesFor, h0, length_of_padded hy]
  have hport : t.inPort = rest := by
    rw [hread.done.read.port, htaken, show (streamInit u).inPort = y ++ rest from hin, List.drop_left]
  exact ⟨_, exec_defDecStream_ok hwin he,
    completed_of_frames (F := .res0 :: .outCommit :: streamFields ++ decodeFields)
      (((frames_streamInit u).mono (by decide)).trans
        (((decStreamBody_frames he).mono (by decide)).trans ((frames_res0 _ t).mono (by decide)))) (by decide) (by decide),
    hread.done.output, hport, hread.done.crc, hread.done.raw⟩

/-! ### The statement (R272) -/

namespace Deflate

/-- Settles O53: the encoder's bytes are a padded stream, which a decoder with a window at least as large takes back. -/
theorem roundTrip : Obligations.RoundTrip := by
  intro s u hb hwin hps _ hle hwc hwb hclosed hsroom hrc hrb huroom
  obtain ⟨t, y, he, hcompleted, hout, hstream, hcrc, hraw⟩ :=
    exec_defEncStream_aligned hb hwin hps hwc hwb hclosed hsroom
  refine ⟨t, y, he, hcompleted, hout, fun rest hin => ?_⟩
  have hcap : winCap s ≤ winCap u := Nat.pow_le_pow_right (by decide) hle
  obtain ⟨v, hd, hv, hvout, hvin, hvcrc, hvraw⟩ :=
    exec_defDecStream_aligned (by omega) hrc hrb huroom (hstream.mono hcap) hin
  exact ⟨v, hd, hv, hvout, hvin, hvcrc.trans hcrc.symm, hvraw.trans hraw.symm⟩

end Deflate

end Sys2Proof.Machine
end

section
/-! The container's writer commands (46_container.md R300, R302, R310, R312): GZ_WR_HEADER checks the name's length and puts
the header's bytes, GZ_WR_TRAILER pads and puts the two words. -/

namespace Sys2Proof.Machine

/-! ### GZ_WR_HEADER (R310) -/

theorem gzWrHeaderSteps_refused {fn : Bool} {s : State} (h : fn = true ∧ s.params.fnameMax < s.arg0.toNat) :
    gzWrHeaderSteps fn s = .error (.raise .badCommand) s :=
  (raiseIf_bind _ _ _ s).trans (if_pos h)

/-- With a name that FNAME holds, GZ_WR_HEADER is WriteHeader of the first ARG0 bytes. -/
theorem gzWrHeaderSteps_legal {fn : Bool} {s : State} (h : ¬ (fn = true ∧ s.params.fnameMax < s.arg0.toNat)) :
    gzWrHeaderSteps fn s = writeHeader fn s.arg0.toNat s :=
  (raiseIf_bind _ _ _ s).trans (if_neg h)

/-! ### The statements (R310, R312) -/

namespace Container

/-- Settles O54: a name that is too long is refused, and any other header is put byte by byte (`writeHeader_ok`). -/
theorem writeHeader : Obligations.WriteHeader := fun fn _ =>
  ⟨fun hfn hlong => runCommand_raise (i := .gzWrHeader fn) (gzWrHeaderSteps_refused ⟨hfn, hlong⟩),
    fun hlegal hw hroom =>
      exec_writes (i := .gzWrHeader fn) nofun hw ((gzWrHeaderSteps_legal hlegal).trans (writeHeader_ok hroom))⟩

/-- Settles O56: the trailer's steps put the padding and the two words (`writeTrailer_ok`). -/
theorem writeTrailer : Obligations.WriteTrailer := fun _ hw hroom =>
  exec_writes (i := .gzWrTrailer) nofun hw (writeTrailer_ok hroom)

end Container

end Sys2Proof.Machine
end

section
/-! What a write to CMD does (60_exceptions.md R330), and who clears CMD_DROPPED (10_state.md R25). -/

namespace Sys2Proof.Machine

/-! ### A command word is dropped or accepted (R330) -/

theorem submit_dropped_of_busy {w : Word} {s : State} (hb : s.engine = .busy) :
    submit w s = .next { s with cmdDropped := true } := if_pos hb

/-- The words the engine accepts: all in IDLE, RESET and CLEAR_ERR in ERROR. -/
def Accepts (s : State) (w : Word) : Prop :=
  s.engine = .idle ∨ (s.engine = .error ∧ (opcField w = 0x01#8 ∨ opcField w = 0x02#8))

theorem Accepts.not_busy {s : State} {w : Word} (h : Accepts s w) : s.engine ≠ .busy := by
  rcases h with h | ⟨h, -⟩ <;> rw [h] <;> decide

theorem Accepts.not_dropped {s : State} {w : Word} (h : Accepts s w) :
    ¬ (s.engine = .error ∧ opcField w ≠ 0x01#8 ∧ opcField w ≠ 0x02#8) := by
  rintro ⟨he, hne⟩
  rcases h with h | ⟨-, h⟩
  · exact absurd (h.symm.trans he) (by decide)
  · exact not_or.2 hne h

theorem submit_of_decode_ok {s : State} {w : Word} {i : Instr} (h : Accepts s w) (hi : decode w = .ok i) :
    submit w s = exec i (accept w s) := by
  rw [submit, if_neg h.not_busy, if_neg h.not_dropped, hi]

theorem submit_of_decode_error {s : State} {w : Word} {e : DecodeError} (h : Accepts s w) (he : decode w = .error e) :
    submit w s = .next (enterError .badCommand (accept w s)) := by
  rw [submit, if_neg h.not_busy, if_neg h.not_dropped, he]

/-- What a command word comes to, in every state: it is dropped, runs, or raises BAD_COMMAND. -/
theorem submit_cases (w : Word) (s : State) :
    submit w s = .next { s with cmdDropped := true } ∨
      (∃ i, decode w = .ok i ∧ submit w s = exec i (accept w s)) ∨
      submit w s = .next (enterError .badCommand (accept w s)) := by
  by_cases hb : s.engine = .busy
  · exact .inl (submit_dropped_of_busy hb)
  by_cases hw : Accepts s w
  · cases hd : decode w with
    | ok i => exact .inr (.inl ⟨i, rfl, submit_of_decode_ok hw hd⟩)
    | error e => exact .inr (.inr (submit_of_decode_error hw hd))
  · have he : s.engine = .error := by
      cases he : s.engine with
      | idle => exact absurd (.inl he) hw
      | busy => exact absurd he hb
      | error => rfl
    exact .inl (submit_dropped_of_error he fun h => hw (.inr ⟨he, h⟩))

theorem step_of_write_cmd {s : State} {rest : List HostEvent} {off : Nat} {w : Word}
    (hhost : s.host = .write 32 off w :: rest) (hoff : off / 4 = 0) : step s = submit w { s with host := rest } := by
  simp only [step, hhost]
  exact writeOffset_cmd hoff w _

/-! ### No command but RESET touches CMD_DROPPED (R25) -/

/-- A command other than RESET writes its own parts of the block and those of every command's course. -/
theorem exec_frames {i : Instr} {s t : State} (hi : i ≠ .reset) (h : exec i s = .next t) :
    Frames (courseFields ++ writes (btypeSel s) i) s t := by
  have hsteps : Frames (.engine :: .errinfo :: .outCommit :: .draws :: writes (btypeSel s) i) s (after (stepsOf i s)) :=
    (steps_frames i hi s).frames
  have hsub : ∀ f ∈ Field.engine :: .errinfo :: .outCommit :: .draws :: writes (btypeSel s) i,
      f ∈ courseFields ++ writes (btypeSel s) i := by
    simp +contextual [courseFields]
  rw [exec_eq hi] at h
  rcases runCommand_cases i (stepsOf i) s with ⟨u, hu, hrun⟩ | ⟨e, u, hu, hrun⟩ | ⟨u, hu, hrun⟩ | ⟨u, -, hrun⟩ <;>
    rw [hrun] at h <;> cases h <;> rw [hu] at hsteps
  · exact (hsteps.mono hsub).trans ((frames_complete u).mono fun _ => List.mem_append_left _)
  · exact (hsteps.mono hsub).trans ((frames_enterError e u).mono fun _ => List.mem_append_left _)
  · exact (frames_suspend i hsteps).mono fun f hf =>
      (List.mem_append.1 hf).elim (List.mem_append_left _) (hsub f)

theorem cmdDropped_not_mem_writes (btype : Nat) (i : Instr) : Field.cmdDropped ∉ writes btype i := by
  have hchunk : Field.cmdDropped ∉ chunkFields btype := by
    unfold chunkFields
    split <;> decide
  have hencode : Field.cmdDropped ∉ encodeFields btype := by
    simp [encodeFields, fillFields, hchunk]
  cases i with
  | tblWrite t => simp [writes]
  | hufBuild sel limit => cases sel <;> simp [writes, lenField]
  | hufCanon sel => cases sel <;> simp [writes, codeField]
  | defEncChunk final => exact hchunk
  | defEncStream => exact hencode
  | gzCompress fn => exact hencode
  | _ => simp only [writes]; decide

theorem exec_cmdDropped {i : Instr} {s t : State} (hi : i ≠ .reset) (h : exec i s = .next t) :
    t.cmdDropped = s.cmdDropped :=
  exec_frames hi h .cmdDropped fun hmem =>
    (List.mem_append.1 hmem).elim (absurd · (by decide)) (cmdDropped_not_mem_writes _ i)

@[simp] theorem rewind_cmdDropped (c : Held) (s : State) : (rewind c s).cmdDropped = s.cmdDropped := rfl

@[simp] theorem regive_cmdDropped (c : Held) (s t : State) : (regive c s t).cmdDropped = t.cmdDropped := rfl

/-- A command that goes on runs from a state with the CMD_DROPPED of now, and its ports are no part of it. -/
theorem engineTurn_cmdDropped {s t : State} (hheld : ∀ h, s.held = some h → h.instr ≠ .reset)
    (h : engineTurn s = .next t) : t.cmdDropped = s.cmdDropped := by
  cases hs : s.held with
  | none =>
    rw [engineTurn_of_held_none hs] at h
    cases h
    rfl
  | some c =>
    simp only [engineTurn, hs, resume] at h
    cases hexec : exec c.instr (rewind c s) with
    | next u =>
      rw [hexec] at h
      cases h
      calc (regive c s u).cmdDropped
        _ = u.cmdDropped := regive_cmdDropped c s u
        _ = (rewind c s).cmdDropped := exec_cmdDropped (hheld c hs) hexec
        _ = s.cmdDropped := rewind_cmdDropped c s
    | fault f =>
      rw [hexec] at h
      cases h
    | refused r =>
      rw [hexec] at h
      cases h

/-! ### What clears CMD_DROPPED (R25) -/

/-- The host's actions that can clear CMD_DROPPED. -/
def ClearsDropped (e : HostEvent) : Prop :=
  e = .resetInput ∨ (∃ off v, e = .write 32 off v ∧ off / 4 = 1 ∧ v.getLsbD 3 = true) ∨
    ∃ off w, e = .write 32 off w ∧ off / 4 = 0 ∧ opcField w = 0x01#8

theorem not_cleared_of_kept {s t : State} (h : t.cmdDropped = s.cmdDropped) (hs : s.cmdDropped = true)
    (ht : t.cmdDropped = false) : False :=
  Bool.false_ne_true (ht.symm.trans (h.trans hs))

theorem opcField_of_decode_reset {w : Word} (h : decode w = .ok .reset) : opcField w = 0x01#8 :=
  BitVec.eq_of_toNat_eq ((decode_eq_ok_iff w .reset).1 h).1

theorem submit_clears_dropped {w : Word} {s t : State} (h : submit w s = .next t) (hs : s.cmdDropped = true)
    (ht : t.cmdDropped = false) : opcField w = 0x01#8 := by
  rcases submit_cases w s with hdrop | ⟨i, hi, hrun⟩ | hbad
  · rw [hdrop] at h
    cases h
    exact nomatch ht
  · by_cases hreset : i = .reset
    · exact opcField_of_decode_reset (hreset ▸ hi)
    · have hkept : t.cmdDropped = (accept w s).cmdDropped := exec_cmdDropped hreset (hrun.symm.trans h)
      exact (not_cleared_of_kept hkept hs ht).elim
  · rw [hbad] at h
    cases h
    exact (not_cleared_of_kept rfl hs ht).elim

theorem writeRegister_cmdDropped {r : Reg} (hr : r ≠ .status) (v : Word) (s : State) :
    (writeRegister r v s).cmdDropped = s.cmdDropped := by
  cases r with
  | status => exact absurd rfl hr
  | cfg | arg0 | arg1 | arg2 =>
    simp only [writeRegister]
    split <;> rfl
  | _ => rfl

theorem writeRegister_status_clears {v : Word} {s : State} (hs : s.cmdDropped = true)
    (ht : (writeRegister .status v s).cmdDropped = false) : v.getLsbD 3 = true := by
  by_contra hv
  rw [writeRegister, if_neg hv] at ht
  exact not_cleared_of_kept rfl hs ht

/-- A written word clears CMD_DROPPED only in STATUS, with bit 3, or in CMD, as RESET. -/
theorem writeOffset_clears_dropped {off : Nat} {v : Word} {s t : State} (h : writeOffset off v s = .next t)
    (hs : s.cmdDropped = true) (ht : t.cmdDropped = false) : ClearsDropped (.write 32 off v) := by
  cases hr : regAt off with
  | none =>
    rw [writeOffset_of_unmapped hr] at h
    cases h
    exact (not_cleared_of_kept rfl hs ht).elim
  | some r =>
    have hoff := regAt_eq_some_ctorIdx hr
    by_cases hcmd : r = .cmd
    · subst hcmd
      rw [writeOffset_cmd hoff] at h
      exact .inr (.inr ⟨off, v, rfl, hoff, submit_clears_dropped h hs ht⟩)
    rw [writeOffset_of_ne_cmd hr hcmd] at h
    cases h
    by_cases hstatus : r = .status
    · subst hstatus
      exact .inr (.inl ⟨off, v, rfl, hoff, writeRegister_status_clears hs ht⟩)
    · exact (not_cleared_of_kept (writeRegister_cmdDropped hstatus v s) hs ht).elim

@[simp] theorem readOffset_cmdDropped (off : Nat) (s : State) : (readOffset off s).cmdDropped = s.cmdDropped := by
  obtain ⟨x, d, h⟩ := readOffset_frame off s
  rw [h]

theorem hostTurn_clears_dropped {e : HostEvent} {s t : State} (h : hostTurn e s = .next t)
    (hs : s.cmdDropped = true) (ht : t.cmdDropped = false) : ClearsDropped e := by
  cases e with
  | resetInput => exact .inl rfl
  | write bits off v =>
    by_cases hbits : bits = 32
    · subst hbits
      exact writeOffset_clears_dropped h hs ht
    · rw [hostTurn_write_of_width_ne hbits] at h
      cases h
  | read bits off =>
    by_cases hbits : bits = 32
    · subst hbits
      cases h
      exact (not_cleared_of_kept (readOffset_cmdDropped off s) hs ht).elim
    · rw [hostTurn_read_of_width_ne hbits] at h
      cases h
  | openInput | emptyInput =>
    rw [hostTurn] at h
    split at h <;> cases h
    exact (not_cleared_of_kept rfl hs ht).elim
  | input | closeInput | takeOutput | acceptOutput | pass | wait =>
    cases h
    exact (not_cleared_of_kept rfl hs ht).elim

/-- Whose turn a step is: the engine's, or that of the host's next action. -/
theorem step_turn (s : State) :
    (∃ rest, step s = engineTurn { s with host := rest }) ∨
      ∃ e rest, s.host = e :: rest ∧ step s = hostTurn e { s with host := rest } := by
  cases hhost : s.host with
  | nil => exact .inl ⟨s.host, step_of_host_nil hhost⟩
  | cons e rest =>
    unfold step
    rw [hhost]
    cases e with
    | wait =>
      by_cases hb : busy s = true
      · exact .inl ⟨s.host, if_pos hb⟩
      · exact .inr ⟨.wait, rest, rfl, if_neg hb⟩
    | pass => exact .inl ⟨rest, rfl⟩
    | _ => exact .inr ⟨_, rest, rfl, rfl⟩

theorem step_clears_dropped {s t : State} (hinv : Inv s) (h : step s = .next t) (hs : s.cmdDropped = true)
    (ht : t.cmdDropped = false) : ∃ e rest, s.host = e :: rest ∧ ClearsDropped e := by
  have hheld : ∀ c, s.held = some c → c.instr ≠ .reset := fun c hc => by
    obtain ⟨-, -, -, -, -, -, -, hreset, -⟩ := hinv.hold.held c hc
    exact hreset
  rcases step_turn s with ⟨rest, hturn⟩ | ⟨e, rest, hhost, hturn⟩ <;> rw [hturn] at h
  · exact (not_cleared_of_kept (engineTurn_cmdDropped (s := { s with host := rest }) hheld h) hs ht).elim
  · exact ⟨e, rest, hhost, hostTurn_clears_dropped h hs ht⟩

/-- Settles O6: the write to CMD is `submit`'s, case by case, and CMD_DROPPED falls in a turn of the host alone. -/
theorem commandAcceptance : Obligations.CommandAcceptance := by
  refine ⟨fun s rest off w hhost hoff => ?write, fun s t => step_clears_dropped⟩
  case write =>
    have hstep := step_of_write_cmd hhost hoff
    refine ⟨fun hb => hstep.trans (submit_dropped_of_busy hb),
      fun he h1 h2 => hstep.trans (submit_dropped_of_error he (not_or.2 ⟨h1, h2⟩)), fun h => ?accepted⟩
    case accepted =>
      have haccepts : Accepts { s with host := rest } w := h
      exact ⟨fun _ hi => hstep.trans (submit_of_decode_ok haccepts hi),
        fun _ he => hstep.trans (submit_of_decode_error haccepts he)⟩

end Sys2Proof.Machine
end

section
/-! What RESET and the reset input leave (70_reset_and_hazards.md R370, R371): both are `resetBlock`. -/

namespace Sys2Proof.Machine

/-! ### The machine after a reset -/

theorem hostTurn_resetInput (s : State) : hostTurn .resetInput s = .next (resetBlock s) := rfl

theorem statusWord_resetBlock (s : State) : statusWord (resetBlock s) = 0 := rfl

theorem irq_resetBlock (s : State) : irq (resetBlock s) = false := rfl

/-- The tables a reset clears: all but CHUNK and WINDOW, whose contents it leaves unspecified, and the constant ones. -/
theorem readEntry_reset {tbl : TableId} (h : tbl ∉ [.chunk, .window, .crcTable, .lenRange, .distRange]) (d k : Nat) :
    readEntry (Tables.reset d) k tbl = 0 := by
  cases tbl with
  | chunk | window | crcTable | lenRange | distRange => exact absurd (by decide) h
  | freqLL | freqD | freqCL | codeLL | codeD | codeCL => exact read_zeros k
  | lenLL | lenD | lenCL | packed | fname => exact congrArg zext32 (read_zeros k)

/-! ### The statement (R370, R371) -/

/-- Settles O12: RESET and the reset input are `resetBlock`, which puts the reset block in place of the old one and keeps
the host's side. -/
theorem resetValues : Obligations.ResetValues := by
  intro s
  refine ⟨resetBlock s, exec_reset s, hostTurn_resetInput s, ⟨rfl, rfl, statusWord_resetBlock s, rfl, rfl⟩, ?args, ?counts,
    ?cursors, ?container, fun _ k h => readEntry_reset h s.draws k, irq_resetBlock s, rfl, engineTurn_of_held_none rfl, ?host⟩
  case args => exact ⟨rfl, rfl, rfl, rfl, rfl⟩
  case counts => exact ⟨rfl, rfl, rfl, rfl, rfl⟩
  case cursors => exact ⟨rfl, rfl, rfl, rfl, rfl, rfl⟩
  case container => exact ⟨rfl, rfl, rfl, rfl, rfl, rfl, rfl⟩
  case host => exact ⟨rfl, rfl, rfl, rfl, rfl, rfl⟩

end Sys2Proof.Machine
end

section
/-! The decoder and the encoder against each other (30_encoding.md R90, R93), and the words that are no command (R94). -/

namespace Sys2Proof.Machine

/-- A word made of an opcode and one field has no bit its format does not use. -/
theorem encode_and_usedBits_of_field {i : Instr} {p n v : Nat} (hused : usedBits i = BitVec.ofNat 32 (fieldMask 8 p n))
    (hbits : i.fieldBits = v * 2 ^ p) (hp : 8 ≤ p) (hpn : p + n ≤ 32) (hv : v < 2 ^ n) :
    encode i &&& usedBits i = encode i := by
  have hop := opcode_lt i
  have hfits : i.opcode + v * 2 ^ p < 2 ^ 32 :=
    (add_mul_two_pow_lt hp hop hv).trans_le (Nat.pow_le_pow_right (by decide) hpn)
  have hlow : i.opcode < 2 ^ p := hop.trans_le (Nat.pow_le_pow_right (by decide) hp)
  have hnat : (encode i).toNat = i.opcode + v * 2 ^ p := by
    rw [encode, hbits, BitVec.toNat_ofNat, Nat.mod_eq_of_lt hfits]
  refine (and_usedBits_eq_encode_of_field (encode i) hused hbits hp hpn hv).2 ⟨?opcode, ?field⟩
  case opcode =>
    obtain ⟨k, rfl⟩ := Nat.exists_eq_add_of_le hp
    rw [opcField_toNat, hnat, Nat.pow_add, Nat.mul_left_comm, Nat.add_mul_mod_self_left, Nat.mod_eq_of_lt hop]
  case field =>
    rw [hnat, Nat.add_mul_div_right _ _ (Nat.two_pow_pos p), Nat.div_eq_of_lt hlow, Nat.zero_add, Nat.mod_eq_of_lt hv]

theorem encode_and_usedBits_of_noField {i : Instr} (hused : usedBits i = 0x000000FF#32) (hbits : i.fieldBits = 0) :
    encode i &&& usedBits i = encode i :=
  encode_and_usedBits_of_field (p := 8) (n := 0) (v := 0) hused hbits (by decide) (by decide) (by decide)

/-- HUF_BUILD has two fields: the word's number gives back SEL, LIMIT and the opcode. -/
theorem encode_and_usedBits_hufBuild (sel : Sel) {limit : Nat} (h : limit < 16) :
    encode (.hufBuild sel limit) &&& usedBits (.hufBuild sel limit) = encode (.hufBuild sel limit) := by
  have hsel := Laws.FieldsFit.selBits_lt sel
  have hnat : (encode (.hufBuild sel limit)).toNat = 0x40 + (selBits sel * 2 ^ 8 + limit * 2 ^ 16) := by
    rw [encode, BitVec.toNat_ofNat]
    exact Nat.mod_eq_of_lt (by simp only [Instr.opcode, Instr.fieldBits]; omega)
  refine (and_usedBits_eq_encode_hufBuild _ sel h).2 ⟨?opcode, ?sel, ?limit⟩
  case opcode => rw [opcField_toNat, hnat]; omega
  case sel => rw [selField_eq_iff, hnat]; omega
  case limit => rw [limitField_eq, hnat]; omega

/-- The word of a well-formed command has no bit its format does not use (R90). -/
theorem encode_and_usedBits {i : Instr} (h : i.wellFormed = true) : encode i &&& usedBits i = encode i := by
  cases i with
  | tblRead t | tblWrite t =>
    exact encode_and_usedBits_of_field (n := 4) rfl rfl (by decide) (by decide) (Laws.FieldsFit.tableIdOf_lt t)
  | bwBits n | bwBitsR n | brBits n =>
    exact encode_and_usedBits_of_field (n := 6) rfl rfl (by decide) (by decide) (of_decide_eq_true h)
  | hufBuild sel limit => exact encode_and_usedBits_hufBuild sel (of_decide_eq_true h)
  | hufCanon sel | hufDecode sel =>
    exact encode_and_usedBits_of_field (n := 2) rfl rfl (by decide) (by decide) (Laws.FieldsFit.selBits_lt sel)
  | defEncChunk b | gzWrHeader b | gzCompress b =>
    exact encode_and_usedBits_of_field (n := 1) rfl rfl (by decide) (by decide) (Laws.FieldsFit.bit_lt b)
  | _ => exact encode_and_usedBits_of_noField rfl rfl

/-- Settles O1: the word of a command has the command's bits where its format uses them, which is all the decoder reads. -/
theorem decodeEncode : Obligations.DecodeEncode := fun i hi =>
  (decodeUsesItsFields (encode i) i).2 ⟨hi, encode_and_usedBits hi⟩

/-- Settles O3, by the opcodes of the decoder's arms. -/
theorem illegalOpcodes : Obligations.IllegalOpcodes := by
  intro w
  unfold decode
  split
  case h_39 => simp_all
  all_goals
    rename_i hopc
    rw [hopc]
    exact iff_of_false nofun (by decide)

/-- Settles O4: the decoder evaluates on each word. -/
theorem knownWords : Obligations.KnownWords :=
  ⟨rfl, rfl, rfl, rfl, rfl, rfl, rfl, rfl, rfl, rfl⟩

end Sys2Proof.Machine
end

section
/-! The register file as the host sees it (10_state.md R22 to R35), host writes to it (R24, R25, R27), and the interrupt
line (60_exceptions.md R337). -/

namespace Sys2Proof.Machine

theorem busy_eq_false {s : State} (h : s.engine ≠ .busy) : busy s = false := beq_false_of_ne h

/-! ### The layouts of the packed registers -/

/-- STATUS is its six bits, the others 0 (R25). -/
theorem statusWord_eq_append (s : State) : statusWord s =
    0#26 ++ BitVec.ofBool s.fnameTrunc ++ BitVec.ofBool s.bfinalSeen ++ BitVec.ofBool s.cmdDropped
      ++ BitVec.ofBool (s.engine == .error) ++ BitVec.ofBool s.done ++ BitVec.ofBool (s.engine == .busy) := by
  have hbits : ∀ a b c d e f : Bool,
      BitVec.ofNat 32 (bit a + 2 * bit b + 4 * bit c + 8 * bit d + 16 * bit e + 32 * bit f) =
        0#26 ++ BitVec.ofBool f ++ BitVec.ofBool e ++ BitVec.ofBool d ++ BitVec.ofBool c ++ BitVec.ofBool b
          ++ BitVec.ofBool a := by decide
  exact hbits (busy s) s.done (err s) s.cmdDropped s.bfinalSeen s.fnameTrunc

theorem hiWord_append_loWord (v : BitVec 64) : hiWord v ++ loWord v = v := by
  rw [hiWord, loWord, BitVec.extractLsb'_append_extractLsb'_eq_extractLsb' (by decide)]
  simp

/-- Two values packed into one word, the upper one from bit `p` on, neither of them cut. -/
theorem zext32_or_shiftLeft_toNat {m n : Nat} (lo : BitVec m) (hi : BitVec n) {p : Nat} (hm : m ≤ p) (hn : p + n ≤ 32) :
    (zext32 lo ||| (zext32 hi <<< p)).toNat = hi.toNat <<< p ||| lo.toNat := by
  have hlo : lo.toNat < 2 ^ 32 := lo.isLt.trans_le (Nat.pow_le_pow_right (by decide) (by omega))
  have hhi : hi.toNat < 2 ^ 32 := hi.isLt.trans_le (Nat.pow_le_pow_right (by decide) (by omega))
  have hshift : hi.toNat <<< p < 2 ^ 32 := by
    rw [Nat.shiftLeft_eq]
    calc hi.toNat * 2 ^ p < 2 ^ n * 2 ^ p := Nat.mul_lt_mul_of_pos_right hi.isLt (Nat.two_pow_pos p)
      _ = 2 ^ (p + n) := by rw [← Nat.pow_add, Nat.add_comm]
      _ ≤ 2 ^ 32 := Nat.pow_le_pow_right (by decide) hn
  rw [BitVec.toNat_or, BitVec.toNat_shiftLeft, BitVec.toNat_setWidth, BitVec.toNat_setWidth, Nat.mod_eq_of_lt hlo,
    Nat.mod_eq_of_lt hhi, Nat.mod_eq_of_lt hshift, Nat.or_comm]

theorem toNat_zero_append {n : Nat} (k : Nat) (b : BitVec n) : (0#k ++ b).toNat = b.toNat := by
  simp

/-- BW_STATE and BR_STATE (R32). -/
theorem cursorWord_eq_append (count : BitVec 3) (buf : Byte) : cursorWord count buf = 0#16 ++ buf ++ (0#5 ++ count) := by
  apply BitVec.eq_of_toNat_eq
  rw [cursorWord, zext32_or_shiftLeft_toNat _ _ (by decide) (by decide),
    ← toNat_zero_append 16 buf, ← toNat_zero_append 5 count]
  exact (BitVec.toNat_append (0#16 ++ buf) (0#5 ++ count)).symm

/-- WIN_STATE (R33). -/
theorem winStateWord_eq_append (s : State) : winStateWord s = s.wvalid ++ (0#1 ++ s.wcur) := by
  apply BitVec.eq_of_toNat_eq
  rw [winStateWord, zext32_or_shiftLeft_toNat _ _ (by decide) (by decide),
    ← toNat_zero_append 1 s.wcur]
  exact (BitVec.toNat_append s.wvalid (0#1 ++ s.wcur)).symm

/-- GZ_XFL_OS: the second byte above the first (R35). -/
theorem packedBytes_eq_append (xfl os : Byte) : zext32 xfl ||| (zext32 os <<< 8) = 0#16 ++ os ++ xfl := by
  apply BitVec.eq_of_toNat_eq
  rw [zext32_or_shiftLeft_toNat _ _ (by decide) (by decide),
    ← toNat_zero_append 16 os]
  exact (BitVec.toNat_append (0#16 ++ os) xfl).symm

/-- PARAMS (R34). -/
theorem paramsWord_eq_append (p : Config.Params) :
    paramsWord p = BitVec.ofNat 16 p.fnameMax ++ BitVec.ofNat 16 p.chunkSize := by
  apply BitVec.eq_of_toNat_eq
  rw [BitVec.toNat_append, ← Nat.shiftLeft_add_eq_or_of_lt (BitVec.isLt _)]
  simp [paramsWord, Nat.shiftLeft_eq]
  omega

theorem zext32_byte_eq_append (b : Byte) : zext32 b = 0#24 ++ b := by
  apply BitVec.eq_of_toNat_eq
  exact (BitVec.toNat_setWidth_of_le (by decide)).trans (toNat_zero_append 24 b).symm

/-! ### Reads -/

theorem readOffset_status (s : State) : (readOffset 0x04 s).hostRead = statusWord s :=
  congrArg State.hostRead
    (if_neg fun h => h.2 rfl : readOffset 0x04 s = { s with hostRead := regValue s .status })

/-- While the engine is not busy a read gives what the register holds (70_reset_and_hazards.md R381). -/
theorem readOffset_of_not_busy {off : Nat} {r : Reg} {s : State} (hr : regAt off = some r) (h : s.engine ≠ .busy) :
    (readOffset off s).hostRead = regValue s r := by
  simp [readOffset, hr, busy_eq_false h]

/-- Settles O8: each offset reads its register, and the packed registers have the layouts above. -/
theorem registerValues : Obligations.RegisterValues := by
  intro s
  refine ⟨(readOffset_status s).trans (statusWord_eq_append s), fun h => ?_⟩
  have hread : ∀ off r, regAt off = some r → (readOffset off s).hostRead = regValue s r :=
    fun _ _ hr => readOffset_of_not_busy hr h
  simp only [hread 0x00 .cmd rfl, hread 0x08 .errinfo rfl, hread 0x0C .cfg rfl, hread 0x10 .arg0 rfl,
    hread 0x14 .arg1 rfl, hread 0x18 .arg2 rfl, hread 0x1C .res0 rfl, hread 0x20 .res1 rfl, hread 0x24 .crcState rfl,
    hread 0x28 .crcValue rfl, hread 0x2C .rawCount rfl, hread 0x30 .bytesInLo rfl, hread 0x34 .bytesInHi rfl,
    hread 0x38 .bytesOutLo rfl, hread 0x3C .bytesOutHi rfl, hread 0x40 .outCommitLo rfl, hread 0x44 .outCommitHi rfl,
    hread 0x48 .bwState rfl, hread 0x4C .brState rfl, hread 0x50 .winState rfl, hread 0x54 .gzFlg rfl,
    hread 0x58 .gzMtime rfl, hread 0x5C .gzXflOs rfl, hread 0x60 .gzFnameLen rfl, hread 0x64 .gzTrlCrc rfl,
    hread 0x68 .gzTrlIsize rfl, hread 0x6C .params rfl]
  exact ⟨rfl, rfl, rfl, rfl, rfl, rfl, rfl, rfl, rfl, rfl, rfl, hiWord_append_loWord _, hiWord_append_loWord _,
    hiWord_append_loWord _, cursorWord_eq_append _ _, cursorWord_eq_append _ _, winStateWord_eq_append s,
    zext32_byte_eq_append _, rfl, packedBytes_eq_append _ _, rfl, rfl, rfl, paramsWord_eq_append _⟩

/-! ### Writes -/

/-- Settles O9, by the register each offset reaches. -/
theorem hostWrites : Obligations.HostWrites := by
  intro s v
  refine ⟨fun h => ?idle, fun h off hoff => ?busy, ?status⟩
  case idle =>
    simp only [hostTurn_write_word, writeOffset, regAt, writeRegister, busy_eq_false h]
    exact ⟨rfl, rfl, rfl, rfl⟩
  case busy =>
    have hb : busy s = true := beq_iff_eq.2 h
    simp only [List.mem_cons, List.not_mem_nil, or_false] at hoff
    rcases hoff with hoff | hoff | hoff | hoff <;> simp [writeOffset, regAt, hoff, writeRegister, hb]
  case status => rfl

/-! ### The interrupt line -/

/-- DONE is bit 1 of STATUS and ERR bit 2 (R25). -/
theorem statusWord_done_err (s : State) : (statusWord s).getLsbD 1 = s.done ∧ (statusWord s).getLsbD 2 = err s := by
  have hbits : ∀ a b c d e f : Bool,
      let w := BitVec.ofNat 32 (bit a + 2 * bit b + 4 * bit c + 8 * bit d + 16 * bit e + 32 * bit f)
      w.getLsbD 1 = b ∧ w.getLsbD 2 = c := by decide
  exact hbits (busy s) s.done (err s) s.cmdDropped s.bfinalSeen s.fnameTrunc

/-- Settles O11: the two bits of STATUS are DONE and ERR, and those of CFG are their enables. -/
theorem irqLevel : Obligations.IrqLevel := fun s => by
  obtain ⟨hdone, herr⟩ := statusWord_done_err s
  rw [hdone, herr]
  rfl

end Sys2Proof.Machine
end

section
/-! Commands whose result is their whole meaning: an accepted command, CLEAR_ERR, and the control commands (40_control.md
R140 to R144); and the state after reset. -/

namespace Sys2Proof.Machine

/-- Settles O5: a word written to CMD in IDLE is submitted and accepted. -/
theorem stepRunsDecoded : Obligations.StepRunsDecoded := fun _ _ _ _ _ hhost hoff hidle hi =>
  (step_of_write_cmd hhost hoff).trans (submit_of_decode_ok (.inl hidle) hi)

/-- Settles O16: the steps are `leaveError`, and they complete. -/
theorem clearErr : Obligations.ClearErr := fun _ => rfl

/-- Settles O24: the steps of each are one change, and they complete. -/
theorem controlResults : Obligations.ControlResults := fun _ => ⟨rfl, rfl, rfl⟩

/-- A reset table is empty, so it is in canonical form and lists no entry outside it, whatever the parameters. -/
theorem tables_reset_ok (p : Config.Params) (d : Nat) : Tables.Ok p (Tables.reset d) where
  chunk := unknown_fits d _
  window := unknown_fits (d + 1) _
  freqLL := zeros_fits _
  freqD := zeros_fits _
  freqCL := zeros_fits _
  lenLL := zeros_fits _
  lenD := zeros_fits _
  lenCL := zeros_fits _
  codeLL := zeros_fits _
  codeD := zeros_fits _
  codeCL := zeros_fits _
  packed := zeros_fits _
  fname := zeros_fits _
  packedBits := fun k => by
    rw [show (Tables.reset d).packed.read k = 0 from read_zeros k]
    decide

/-- The reset block is legal, for any parameters and whatever draws its unspecified contents are. -/
theorem engine_reset_ok (p : Config.Params) (d : Nat) : Engine.Ok p (Engine.reset d) where
  writer := (by decide : (0 : Byte) >>> (0 : BitVec 3).toNat = 0)
  reader := (by decide : (0 : Byte) >>> (0 : BitVec 3).toNat = 0)
  cfg := (by decide : 0x000000F6#32 &&& ~~~cfgMask = 0)
  tables := tables_reset_ok p d
  tokens := Nat.zero_le _

/-- Settles O21: the reset block is legal, idle, and holds nothing. -/
theorem resetInv : Obligations.ResetInv where
  params := (by decide : Config.Params.default.wf)
  block := engine_reset_ok _ 0
  status := ⟨(fun h => nomatch h), fun _ => rfl, fun _ => rfl, (fun h => nomatch h)⟩
  hold := ⟨⟨(fun h => nomatch h), (fun h => nomatch h)⟩, (fun _ h => nomatch h)⟩

end Sys2Proof.Machine
end

section
/-! Prefix-free codes (44_huffman.md R228, R237): the canonical ones, and the decoder on the bits of one. -/

namespace Sys2Proof.Machine

/-- Settles O39, by the closed form of the codes: each takes up its own part of the code space (`prefixFree_of_kraft`). -/
theorem canonicalPrefixFree : Obligations.CanonicalPrefixFree := fun _ hle hkraft => prefixFree_of_kraft hle hkraft

/-- Settles O42: a symbol's bits decode to it (`hufDecode_sym`), and just these bits have been taken. -/
theorem decodeReadsCode : Obligations.DecodeReadsCode := by
  intro sel a s x rest ha hr hcodes hcoded hunread
  obtain ⟨hdec, -⟩ := hufDecode_sym rfl hcodes hcoded hunread
  have hfits : (symBits (lensOf s.tables a) x).length ≤ (unreadBits s).length := by
    rw [hunread, List.length_append]; omega
  obtain ⟨t, he, hc, htook, hres⟩ := exec_hufDecode_completes ha hr hfits hdec
  exact ⟨t, he, hc, hres, by rw [htook.unread, hunread, List.drop_left]⟩

end Sys2Proof.Machine
end

section
/-! The CRC's table against its polynomial (42_crc.md R190, R191, R194): a round is linear, and on a state whose low bits are
0 it only shifts, so eight rounds split into those of the low byte, which the table holds, and a shift of the rest. -/

namespace Sys2Proof.Machine

theorem crcRound_xor (a b : Word) : crcRound (a ^^^ b) = crcRound a ^^^ crcRound b := by
  have hshift : (a ^^^ b) >>> 1 = (a >>> 1) ^^^ (b >>> 1) := BitVec.ushiftRight_xor_distrib a b 1
  simp only [crcRound, BitVec.getLsbD_xor, hshift]
  generalize 0xEDB88320#32 = poly
  cases a.getLsbD 0 <;> cases b.getLsbD 0
  case false.false => rfl
  case false.true => exact BitVec.xor_assoc _ _ _
  case true.false => change (a >>> 1 ^^^ b >>> 1) ^^^ poly = (a >>> 1 ^^^ poly) ^^^ b >>> 1; ac_rfl
  case true.true =>
    calc (a >>> 1) ^^^ (b >>> 1) = ((a >>> 1) ^^^ (b >>> 1)) ^^^ (poly ^^^ poly) := by simp
      _ = ((a >>> 1) ^^^ poly) ^^^ ((b >>> 1) ^^^ poly) := by ac_rfl

theorem crcRound_iterate_xor (n : Nat) (a b : Word) : crcRound^[n] (a ^^^ b) = crcRound^[n] a ^^^ crcRound^[n] b := by
  induction n generalizing a b with
  | zero => rfl
  | succ n ih => rw [Function.iterate_succ_apply, crcRound_xor, ih]; rfl

/-- Rounds on a state whose low bits are 0 shift them out. -/
theorem crcRound_iterate_of_low_zero {n : Nat} {c : Word} (h : ∀ k, k < n → c.getLsbD k = false) :
    crcRound^[n] c = c >>> n := by
  induction n generalizing c with
  | zero => simp
  | succ n ih =>
    have hround : crcRound c = c >>> 1 := if_neg (by rw [h 0 (by omega)]; exact Bool.false_ne_true)
    rw [Function.iterate_succ_apply, hround, ih fun k hk => by
      rw [BitVec.getLsbD_ushiftRight]; exact h (1 + k) (by omega), ← BitVec.shiftRight_add, Nat.add_comm]

theorem crcTable_toNat (c : Word) : crcTable c.toNat = crcRound^[8] c := by
  rw [crcTable, BitVec.ofNat_toNat, BitVec.setWidth_eq]
  rfl

/-- Settles O33: the state splits into its low byte, on which the table is eight rounds, and the rest, which they shift. -/
theorem crcIsBitwise : Obligations.CrcIsBitwise := by
  intro c b
  change crcStep c b = crcRound^[8] (c ^^^ zext32 b)
  generalize hx : c ^^^ zext32 b = x
  have hsplit : x = (x &&& 0xFF#32) ^^^ (x &&& 0xFFFFFF00#32) := by
    ext k hk
    have hmask : (0xFF#32)[k] = !(0xFFFFFF00#32)[k] := by decide +revert
    rw [BitVec.getElem_xor, BitVec.getElem_and, BitVec.getElem_and, hmask]
    cases x[k] <;> cases (0xFFFFFF00#32)[k] <;> rfl
  have hlow : ∀ k, k < 8 → (x &&& 0xFFFFFF00#32).getLsbD k = false := fun k hk => by
    have hmask : (0xFFFFFF00#32).getLsbD k = false := by decide +revert
    rw [BitVec.getLsbD_and, hmask, Bool.and_false]
  have hrest : (x &&& 0xFFFFFF00#32) >>> 8 = c >>> 8 := by
    ext k hk
    rw [← hx]
    have hmask : k < 24 → (0xFFFFFF00#32).getLsbD (8 + k) = true := by decide +revert
    by_cases h24 : k < 24
    · simp [hmask h24]
    · have h32 : 32 ≤ 8 + k := by omega
      simp [BitVec.getLsbD_of_ge _ _ h32]
  calc crcStep c b = crcRound^[8] (x &&& 0xFF#32) ^^^ (c >>> 8) := by rw [crcStep, hx, crcTable_toNat]
    _ = crcRound^[8] (x &&& 0xFF#32) ^^^ crcRound^[8] (x &&& 0xFFFFFF00#32) := by
      rw [crcRound_iterate_of_low_zero hlow, hrest]
    _ = crcRound^[8] x := by rw [← crcRound_iterate_xor, ← hsplit]

end Sys2Proof.Machine
end

section
/-! No command stops (log 19): no meaning refuses, and no loop outruns its bound. So the machine stops only where the host's
action is outside the interface (20_memory.md R61, R66). -/

namespace Sys2Proof.Machine

/-! ### Steps that do not outrun a bound -/

/-- The steps do not end for want of turns. -/
def BoundedAt {α : Type} (x : Exec α) (s : State) : Prop := ∀ t, x s ≠ .error .bound t

section
variable {α β : Type}

theorem BoundedAt.of_ok {x : Exec α} {s t : State} {a : α} (h : x s = .ok a t) : BoundedAt x s := fun u hu => by
  rw [h] at hu
  cases hu

theorem BoundedAt.of_drains {k : Nat} {x : Exec α} (h : Drains k x) (s : State) : BoundedAt x s :=
  fun _ ht => h.error ht rfl

theorem BoundedAt.of_good {x : Exec α} (h : Good (fun _ => True) boundedStop x) (s : State) : BoundedAt x s :=
  fun _ ht => (h.error trivial ht).2 rfl

theorem BoundedAt.bind {x : Exec α} {f : α → Exec β} {s : State} (hx : BoundedAt x s)
    (hf : ∀ a t, x s = .ok a t → BoundedAt (f a) t) : BoundedAt (x >>= f) s := by
  intro t ht
  rcases bind_cases x f s with ⟨a, u, hu, hrun⟩ | ⟨e, u, hu, hrun⟩ <;> rw [hrun] at ht
  · exact hf a u hu t ht
  · cases ht
    exact hx _ hu

theorem BoundedAt.raiseIf (c : Prop) [Decidable c] (e : ErrCode) (s : State) : BoundedAt (Machine.raiseIf c e) s :=
  .of_drains (Drains.raiseIf c e) s

theorem BoundedAt.checked {c : Prop} [Decidable c] {e : ErrCode} {f : Unit → Exec β} {s : State}
    (h : ¬ c → BoundedAt (f ()) s) : BoundedAt (Machine.raiseIf c e >>= f) s := by
  intro t
  rw [raiseIf_bind]
  split
  · nofun
  · exact h ‹_› t

theorem BoundedAt.leaving {x : Exec α} {f : State → State} {s : State} (h : BoundedAt x s) :
    BoundedAt (leavingUnspecified f x) s := by
  intro t ht
  unfold leavingUnspecified at ht
  split at ht
  · cases ht
  · exact h t ht

end

/-! ### The units -/

theorem putBit_bounded : WriterGood (fun _ => True) boundedStop := fun _ =>
  Good.look' fun _ => Good.ite
    (fun _ => (outWrite_bounded _ fun _ _ _ _ h => h).bind fun _ => Good.change fun _ h => h)
    (fun _ => Good.change fun _ h => h)

theorem buildLens_boundedAt {limit : Nat} (h : limit ≠ 0) (a : Alphabet) (s : State) : BoundedAt (buildLens a limit) s := by
  intro t ht
  rcases hufBuild_cases (two_le_freqsOf_length s.tables a) (Nat.one_le_iff_ne_zero.2 h) with ⟨u, hb, -⟩ | ⟨hb, -⟩ <;>
    simp [buildLens, hb] at ht

theorem alphabetOf_boundedAt {f : Alphabet → Exec Unit} {sel : Sel} {s : State} (h : ∀ a, BoundedAt (f a) s) :
    BoundedAt (alphabetOf sel >>= f) s := by
  cases sel with
  | illegal => exact .of_drains (Drains.raise .badCommand 0) s
  | ll => exact h .ll
  | d => exact h .d
  | cl => exact h .cl

theorem readBitsToRes0_drains (n : Nat) : Drains 0 (readBitsToRes0 n) :=
  (readBits_drains n).mono (Nat.zero_le n) |>.then fun _ => Drains.change (by exact fun _ => rfl)

theorem encChunk_boundedAt {n : Nat} {final : Bool} {s : State} (h : n ≤ s.params.chunkSize) :
    BoundedAt (encChunk n final) s := fun _ ht =>
  ((encChunk_good (encoderBounded s.params (btypeSel s) s.inPort s.inClosed) n final h).error ⟨rfl, rfl, rfl, rfl⟩ ht).2 rfl

theorem checkEncoder_eq {s t : State} (h : checkEncoderConfig s = .ok () t) : t = s := by
  rw [checkEncoderConfig, getState_bind, raiseIf_run] at h
  split at h <;> cases h
  rfl

theorem gzCompress_boundedAt {fn : Bool} {s : State} (hp : s.params.wf) : BoundedAt (gzCompressSteps fn) s := by
  refine BoundedAt.checked fun _ => (BoundedAt.of_drains (Drains.look fun _ => Drains.raiseIf _ _) s).bind fun _ t ht => ?_
  obtain rfl := checkEncoder_eq ht
  refine (BoundedAt.of_good (writeHeader_good putBit_bounded _ _) (streamInit t)).bind fun _ u hu => ?_
  have hframe : Frames writerFields (streamInit t) u :=
    (writeHeader_good (frames_writerGood (fun _ h => h) (streamInit t)) _ _).ok (Frames.refl _ _) hu
  have hparams : u.params = (streamInit t).params := params_of_frames (F := writerFields) hframe (by decide)
  exact BoundedAt.bind (encStreamBody_bounded (s := u) (by rw [hparams]; exact hp)) fun _ v _ =>
    .of_good (writeTrailer_good putBit_bounded) v

/-- The steps of every command end within their bounds. -/
theorem stepsOf_boundedAt {s : State} (hp : s.params.wf) (i : Instr) : BoundedAt (stepsOf i) s := by
  cases i with
  | nop | reset | clearErr | streamInit | crcInit | crcUpdate | hufFixed => exact .of_ok rfl
  | tblRead t => exact BoundedAt.checked fun _ => .of_ok (change_run _ s)
  | tblWrite t => exact BoundedAt.checked fun _ => BoundedAt.checked fun _ => .of_ok (change_run _ s)
  | bwBits n => exact BoundedAt.checked fun _ => .of_good (Good.look' fun _ => writeBits_good putBit_bounded _ _) s
  | bwBitsR n => exact BoundedAt.checked fun _ => .of_good (Good.look' fun _ => writeBitsR_good putBit_bounded _ _) s
  | bwFlush => exact .of_good (flush_good putBit_bounded) s
  | bwByte | bwShort | bwInt => exact .of_good (Good.look' fun _ => writeBits_good putBit_bounded _ _) s
  | brBits n => exact BoundedAt.checked fun _ => .of_drains (readBitsToRes0_drains n) s
  | brByte | brShort | brInt => exact .of_drains (readBitsToRes0_drains _) s
  | brAlign => exact .of_drains (alignIn_drains.then fun _ => Drains.change (by exact fun _ => rfl)) s
  | winReset | winAdd => exact BoundedAt.checked fun _ => .of_ok (change_run _ s)
  | winFind => exact BoundedAt.checked fun _ => BoundedAt.checked fun _ => .of_ok (change_run _ s)
  | hufBuild sel limit =>
    exact alphabetOf_boundedAt fun a => BoundedAt.checked fun h => (buildLens_boundedAt h a s).leaving
  | hufCanon sel => exact alphabetOf_boundedAt fun _ => .of_ok (change_run _ s)
  | hufDecode sel =>
    exact alphabetOf_boundedAt fun a => .of_drains ((hufDecode_drains a).then fun _ => Drains.change (by exact fun _ => rfl)) s
  | clPack => exact BoundedAt.checked fun _ => .of_ok (change_run _ _)
  | clUnpack =>
    refine BoundedAt.checked fun _ => ?_
    dsimp only
    split
    · exact .of_drains (Drains.raise _ 0) s
    · exact .of_ok (change_run _ s)
  | defEncChunk final =>
    refine BoundedAt.checked fun h => BoundedAt.checked fun _ => encChunk_boundedAt (not_lt.1 h)
  | defEncStream => exact BoundedAt.checked fun _ => encStreamBody_bounded (s := streamInit s) hp
  | defDecBlock =>
    exact BoundedAt.checked fun _ => .of_drains
      ((decBlock_drains.mono (Nat.zero_le 3)).then fun _ => Drains.change (by exact fun _ => rfl)).leaving s
  | defDecStream =>
    exact BoundedAt.checked fun _ => .of_drains
      ((Drains.change (f := streamInit) fun _ => rfl).then fun _ => decStreamBody_drains.then fun _ =>
        Drains.change (by exact fun _ => rfl)).leaving s
  | gzWrHeader fn => exact BoundedAt.checked fun _ => .of_good (writeHeader_good putBit_bounded _ _) s
  | gzRdHeader => exact .of_drains headerToRes_drains s
  | gzWrTrailer => exact .of_good (writeTrailer_good putBit_bounded) s
  | gzRdTrailer => exact .of_drains readTrailer_drains.leaving s
  | gzCompress fn => exact gzCompress_boundedAt hp
  | gzDecompress =>
    exact BoundedAt.checked fun _ => .of_drains
      ((Drains.change (f := streamInit) fun _ => rfl).then fun _ => headerToRes_drains.then fun _ =>
        (decStreamBody_drains.then fun _ => readTrailer_drains).leaving).leaving s

/-! ### The statements -/

/-- Settles O17: RESET is one change, and every other command's steps end within their bounds. -/
theorem neverStops : Obligations.NeverStops := by
  intro i s hp
  by_cases hi : i = .reset
  · exact hi ▸ ⟨_, exec_reset s⟩
  rw [exec_eq hi]
  rcases runCommand_cases i (stepsOf i) s with ⟨t, -, h⟩ | ⟨e, t, -, h⟩ | ⟨t, -, h⟩ | ⟨t, hbound, -⟩
  · exact ⟨_, h⟩
  · exact ⟨_, h⟩
  · exact ⟨_, h⟩
  · exact absurd hbound (stepsOf_boundedAt hp i t)

theorem submit_next {s : State} (hp : s.params.wf) (w : Word) : ∃ t, submit w s = .next t := by
  rcases submit_cases w s with h | ⟨i, -, h⟩ | h
  · exact ⟨_, h⟩
  · rw [h]
    exact neverStops i (accept w s) hp
  · exact ⟨_, h⟩

theorem writeOffset_next {s : State} (hp : s.params.wf) (off : Nat) (v : Word) : ∃ t, writeOffset off v s = .next t := by
  unfold writeOffset
  split
  · exact ⟨_, rfl⟩
  · exact submit_next hp v
  · exact ⟨_, rfl⟩

theorem engineTurn_next {s : State} (hp : s.params.wf) : ∃ t, engineTurn s = .next t := by
  cases hs : s.held with
  | none => exact ⟨s, engineTurn_of_held_none hs⟩
  | some c =>
    obtain ⟨t, ht⟩ := neverStops c.instr (rewind c s) hp
    exact ⟨regive c s t, by simp only [engineTurn, hs, resume, ht]⟩

/-- The host's action is done exactly where it is inside the interface (R61, R66). -/
theorem hostTurn_next_iff {s : State} (hp : s.params.wf) (e : HostEvent) :
    (∃ t, hostTurn e s = .next t) ↔ e.allowed s = true := by
  cases e with
  | write bits off v =>
    by_cases h : bits = 32
    · subst h
      exact iff_of_true (writeOffset_next hp off v) rfl
    · simp [hostTurn, HostEvent.allowed, h]
  | read bits off => by_cases h : bits = 32 <;> simp [hostTurn, HostEvent.allowed, h]
  | openInput | emptyInput => cases h : busy s <;> simp [hostTurn, HostEvent.allowed, h]
  | input _ | closeInput | takeOutput _ | acceptOutput _ | resetInput | pass | wait => exact iff_of_true ⟨_, rfl⟩ rfl

/-- Settles O18: the engine's turn never stops, and the host's stops just outside the interface. -/
theorem stepStops : Obligations.StepStops := by
  intro s hinv
  cases hhost : s.host with
  | nil =>
    rw [step_of_host_nil hhost]
    exact iff_of_true (engineTurn_next hinv.params) nofun
  | cons e rest =>
    have hallowed : (∀ e' rest', e :: rest = e' :: rest' → e'.allowed s = true) ↔ e.allowed s = true :=
      ⟨fun h => h e rest rfl, fun h _ _ he => by cases he; exact h⟩
    rw [hallowed]
    have hengine : ∃ t, engineTurn { s with host := rest } = .next t := engineTurn_next hinv.params
    unfold step
    rw [hhost]
    cases e with
    | pass => exact iff_of_true hengine rfl
    | wait =>
      refine iff_of_true ?_ rfl
      dsimp only
      split
      · exact engineTurn_next hinv.params
      · exact ⟨_, rfl⟩
    | _ => exact hostTurn_next_iff (s := { s with host := rest }) hinv.params _

/-- Settles O19: the frame of a command's run (`exec_frames`), field by field. -/
theorem frame : Obligations.Frame := fun _ _ _ f hi h hcourse hwrites =>
  exec_frames hi h f fun hmem => (List.mem_append.1 hmem).elim hcourse hwrites

end Sys2Proof.Machine
end

section
/-! DEF_ENC_CHUNK, DEF_ENC_STREAM (45_deflate.md R270, R271): with a legal configuration their steps are EncChunk and
EncStream, whose blocks the encoder's laws describe. -/

namespace Sys2Proof.Machine

/-- A legal configuration of an encoder command, field by field (R333). -/
theorem encoder_legal {s : State} (h : ¬ (btypeSel s = 3 ∨ winLog2 s = 0)) : btypeSel s ≠ 3 ∧ winLog2 s ≠ 0 := not_or.1 h

theorem putAll_tables (bits : List Bool) (s : State) : (putAll bits s).tables = s.tables := by simp

namespace Deflate

/-- Settles O48: with legal operands the steps are EncChunk, which puts the bits of one coded block (`encChunk_ok`). -/
theorem encodesChunk : Obligations.EncodesChunk := by
  intro final s h hop hconfig hp hw hr hroom
  obtain ⟨hb, hwin⟩ := encoder_legal hconfig
  have hlen : s.arg0.toNat ≤ 65535 := by
    have hchunk : s.params.chunkSize ≤ 65535 := hp.1.2
    have hlegal : ¬ s.params.chunkSize < s.arg0.toNat := hop
    omega
  obtain ⟨t, bits, hsteps, hframe, hcoded, hcrc, hraw⟩ := encChunk_ok (final := final) hroom hlen hb hr
  rw [chunkBytes_toList] at hcoded hcrc
  rw [BitVec.ofNat_toNat, BitVec.setWidth_eq] at hraw
  have hput := frames_putAll bits t
  have htables : (complete (putAll bits t)).tables = t.tables := putAll_tables bits t
  refine ⟨complete (putAll bits t), bits, exec_defEncChunk_ok hop hb hwin hsteps,
    completed_of_frames (F := codeFields ++ writerFields)
      ((hframe.mono (by decide)).trans (hput.mono (by decide))) (by decide) (by decide),
    (wrote_of_putAll hw hframe).complete, hcoded.block, hcoded.bits, ?_, ?_, ?_, ?_,
    (hcoded.window.of_frames hput (by decide) (by decide) (by decide)).complete,
    (hput .crcState (by decide)).trans hcrc, (hput .rawCount (by decide)).trans hraw⟩ <;> rw [htables]
  · exact hcoded.tables
  · exact hcoded.stored
  · exact hcoded.fixed
  · exact hcoded.packed

/-- Settles O49: with a legal configuration the steps are EncStream of the initialised stream (`encStreamBody_ok`). -/
theorem encodesStream : Obligations.EncodesStream := by
  intro s hconfig hp hw hroom hclosed
  obtain ⟨hb, hwin⟩ := encoder_legal hconfig
  obtain ⟨t, bits, hsteps, hcoded, hbits, htables, hwrote, hframe, hin, hcount, hcrc, hraw, hwindow⟩ :=
    encStreamBody_ok (s := streamInit s) hclosed hroom hw hp hb (remembers_streamInit s)
  exact ⟨complete t, bits, exec_defEncStream_ok hb hwin hsteps,
    completed_of_frames (F := streamFields ++ encodeAllFields)
      (((frames_streamInit s).mono (by decide)).trans (hframe.mono (by decide))) (by decide) (by decide),
    hcoded, hbits, htables,
    ⟨hwrote.stream, hwrote.given, hwrote.count, hwrote.room, hwrote.pending⟩, hin, hcount, hcrc, hraw.trans (BitVec.zero_add _),
    hwindow.complete⟩

end Deflate

end Sys2Proof.Machine
end

section
/-! How the commands that read fail: what they leave unspecified (60_exceptions.md R336) is none of the reader, the ports,
the counters, the results and the flags; and where the input runs dry they raise IO_EOF or hold (41_bitio.md R172). -/

namespace Sys2Proof.Machine

/-! ### What a failing command leaves unspecified -/

/-- What a reading command that has not read a header leaves unspecified where it fails (60_exceptions.md R336). -/
def unreadFields : List Field :=
  [.draws, .winCursor, .crcState, .rawCount, .table .window, .table .lenLL, .table .lenD, .table .lenCL, .table .codeLL,
    .table .codeD, .table .codeCL, .table .fname, .gzTrailer]

/-- What any of the reading commands leaves unspecified where it fails (60_exceptions.md R336). -/
def unspecifiedFields : List Field := .gzHeader :: unreadFields

section
variable {i : Instr} {e : ErrCode} {n : Nat} {F U : List Field} {steps : Exec Unit} {s t u : State}

theorem scrambleDecoder_frames (s : State) : Frames unreadFields s (scrambleDecoder s) :=
  (frames_decoder s).mono (by decide)

theorem scrambleName_frames (s : State) : Frames unreadFields s (scrambleName s) := (frames_name s).mono (by decide)

theorem scrambleTrailer_frames (s : State) : Frames unreadFields s (scrambleTrailer s) :=
  (frames_scrambleTrailer s).mono (by decide)

theorem scrambleMember_frames (s : State) : Frames unspecifiedFields s (scrambleHeader (scrambleName s)) :=
  ((scrambleName_frames s).mono (by decide)).trans ((frames_scrambleHeader _).mono (by decide))

theorem ite_scramble_frames {c : Prop} [Decidable c] {g : State → State} (hg : ∀ s, Frames F s (g s)) (s : State) :
    Frames F s (if c then g s else s) := by
  split
  · exact hg s
  · exact Frames.refl F s

/-- What the reader has taken does not depend on what a frame without reader and input port changes. -/
theorem Took.of_frames (hT : Took n s t) (h : Frames F t u) (h1 : Field.reader ∉ F) (h2 : Field.inPort ∉ F)
    (h3 : Field.bytesIn ∉ F) : Took n s u := by
  obtain ⟨hcount, hbuf⟩ := h .reader h1
  have hport : u.inPort = t.inPort := h .inPort h2
  exact ⟨by rw [← hT.unread]; simp only [unreadBits, hcount, hbuf, hport], hport.trans hT.port,
    (h .bytesIn h3).trans hT.count, by simp only [ReaderOk, hcount, hbuf]; exact hT.buffer⟩

theorem Took.unspecified (hT : Took n s t) (h : Frames U t u) (hU : ∀ f ∈ U, f ∈ unspecifiedFields) : Took n s u :=
  hT.of_frames (h.mono hU) (by decide) (by decide) (by decide)

/-! ### Error entries and holds as frames -/

/-- What an error entry writes (60_exceptions.md R335). -/
def errorFields : List Field := [.engine, .done, .errinfo, .held]

theorem error_frames (e : ErrCode) (s : State) : Frames errorFields s (enterError e s) := fun f hf => by
  by_cases hc : f = .outCommit
  · subst hc
    rfl
  by_cases hd : f = .draws
  · subst hd
    rfl
  refine frames_enterError e s f fun hmem => hf ?_
  simp only [courseFields, List.mem_cons, hc, hd, List.not_mem_nil, or_false, false_or] at hmem
  simpa only [errorFields, List.mem_cons, List.not_mem_nil, or_false] using hmem

/-- What a hold writes besides: STATUS shows the flags of the accepted state (70_reset_and_hazards.md R387). -/
def holdFields : List Field := .bfinalSeen :: .fnameTrunc :: errorFields

theorem suspend_frames (i : Instr) (s t : State) : Frames holdFields t (suspend i s t) := fun f hf => by
  cases f with
  | engine | done | held | bfinalSeen | fnameTrunc => exact absurd (by decide) hf
  | table a => cases a <;> trivial
  | gzHeader => exact ⟨rfl, rfl, rfl, rfl, rfl⟩
  | writer | reader | winCursor | gzTrailer => exact ⟨rfl, rfl⟩
  | _ => rfl

/-- A command whose steps run dry at `t` and leave `u`: how it ends, and that its end differs from `t` in what is left
unspecified and in the course of a command alone. -/
theorem runCommand_ranDry (hs : steps s = .error (dryStop s) u) (hu : Frames U t u)
    (hU : ∀ f ∈ U, f ∈ unspecifiedFields) (hT : Took (unreadBits s).length s t) (hF : Frames F s t)
    (hcmd : Field.cmd ∉ F) (herr : Field.errinfo ∉ F) :
    ∃ v, runCommand i steps s = .next v ∧ RanDry s v ∧ Frames (holdFields ++ U) t v ∧
      (s.inClosed = true → Frames (errorFields ++ U) t v) := by
  have hleft : ∀ {f : Field}, f ∈ errorFields ++ U → f ∈ holdFields ++ U := fun h =>
    (List.mem_append.1 h).elim (fun h => List.mem_append_left _ (List.mem_cons_of_mem _ (List.mem_cons_of_mem _ h)))
      (List.mem_append_right _)
  have herror : Frames (errorFields ++ U) t (enterError .ioEof u) :=
    (hu.mono fun _ => List.mem_append_right _).trans ((error_frames .ioEof u).mono fun _ => List.mem_append_left _)
  refine ⟨_, runCommand_dry hs, ranDry_end i (hT.unspecified hu hU) (F := F ++ U)
    ((hF.mono fun _ => List.mem_append_left _).trans (hu.mono fun _ => List.mem_append_right _))
    (fun h => (List.mem_append.1 h).elim hcmd fun h => absurd (hU _ h) (by decide))
    (fun h => (List.mem_append.1 h).elim herr fun h => absurd (hU _ h) (by decide)), ?_, fun hc => ?_⟩
  · split
    · exact herror.mono fun _ => hleft
    · exact (hu.mono fun _ => List.mem_append_right _).trans ((suspend_frames i s u).mono fun _ => List.mem_append_left _)
  · rw [if_pos hc]
    exact herror

end

end Sys2Proof.Machine
end

section
/-! DEF_DEC_BLOCK and DEF_DEC_STREAM (45_deflate.md R274 to R285): the configuration check, then DecBlock, or DecStream of
the initialised stream; their results, and how a block that is rejected or cut short ends them. -/

namespace Sys2Proof.Machine

/-! ### DEF_DEC_BLOCK (R284) -/

section
variable {s t : State} {f final : Bool} {n btype : Nat} {out : List Byte} {e : ErrCode}

theorem exec_defDecBlock_ok (hw : winLog2 s ≠ 0) (h : decBlock s = .ok (bit final, btype) t) :
    exec .defDecBlock s =
      .next (complete (setRes1 (BitVec.ofNat 32 btype) (setRes0 (BitVec.ofNat 32 (bit final)) t))) :=
  runCommand_ok (i := .defDecBlock) ((bind_ok (checkWindow_ok hw)).trans (leaving_ok (bind_ok h)))

theorem exec_defDecBlock_raise (hw : winLog2 s ≠ 0) (h : decBlock s = .error (.raise e) t) :
    exec .defDecBlock s = .next (enterError e (scrambleDecoder t)) :=
  runCommand_raise (i := .defDecBlock) ((bind_ok (checkWindow_ok hw)).trans (leaving_raise (bind_error h)))

theorem decBlock_ok_frames {h : Nat × Nat} (hd : decBlock s = .ok h t) : Frames (.outCommit :: decodeFields) s t :=
  (decBlock_good (frames_decoderGood (fun _ hf => hf) s)).ok (Frames.refl _ s) hd

/-- A block whose decoding stops at `t` with an error is rejected, nothing of it committed (R281). -/
theorem defDecBlock_rejected (hw : winLog2 s ≠ 0) (h : decBlock s = .error (.raise e) t) (hread : Read f n out s t) :
    ∃ v, exec .defDecBlock s = .next v ∧ Rejected e n out s v ∧ v.bfinalSeen = (s.bfinalSeen || f) := by
  have hframe := decBlock_error_frames h
  have hscrambled := scrambleDecoder_frames t
  exact ⟨_, exec_defDecBlock_raise hw h,
    ⟨raised_of_frames (F := decodeFields ++ unspecifiedFields)
        ((hframe.mono (by decide)).trans (hscrambled.mono (by decide))) (by decide),
      (hread.done.read.unspecified hscrambled (by decide)).of_frames (error_frames e _) (by decide) (by decide) (by decide),
      hread.done.output, hframe .outCommit (by decide)⟩, hread.seen⟩

/-- A block whose decoding runs dry at `t` (41_bitio.md R172), nothing of it committed. -/
theorem defDecBlock_ranDry (hw : winLog2 s ≠ 0) (h : Dry f out decBlock s) :
    ∃ v, exec .defDecBlock s = .next v ∧ RanDry s v ∧ v.outPort = s.outPort ++ out ∧ v.outCommit = s.outCommit ∧
      (s.inClosed = true → v.bfinalSeen = (s.bfinalSeen || f)) := by
  obtain ⟨t, hdec, hread⟩ := h
  have hframe := decBlock_error_frames hdec
  have hclosed : t.inClosed = s.inClosed := hframe .inClosed (by decide)
  have hsteps := (bind_ok (f := fun _ => leavingUnspecified scrambleDecoder do
      let h ← decBlock
      change fun s => setRes1 (BitVec.ofNat 32 h.2) (setRes0 (BitVec.ofNat 32 h.1) s)) (checkWindow_ok hw)).trans
    (leaving_dry scrambleDecoder (bind_error hdec))
  rw [dryStop, hclosed] at hsteps
  obtain ⟨v, hv, hdry, hvt, hvc⟩ := runCommand_ranDry (i := .defDecBlock) hsteps
    (ite_scramble_frames scrambleDecoder_frames t) (by decide) hread.done.read hframe (by decide) (by decide)
  exact ⟨v, hv, hdry, (hvt .outPort (by decide)).trans hread.done.output,
    (hvt .outCommit (by decide)).trans (hframe .outCommit (by decide)),
    fun hc => (hvc hc .bfinalSeen (by decide)).trans hread.seen⟩

end

/-! ### DEF_DEC_STREAM (R285) -/

section
variable {s t : State} {f : Bool} {n : Nat} {out : List Byte} {c : BitVec 64} {e : ErrCode}

theorem decStreamBody_error_frames {x : Stop} (h : decStreamBody s = .error x t) : Frames (.outCommit :: decodeFields) s t :=
  ((decStreamBody_good (frames_decoderGood (fun _ hf => hf) s)).error (Frames.refl _ s) h).1

/-- A stream that is rejected at `t`: what has been given is given, and OUT_COMMIT is the last block's (R281). -/
theorem defDecStream_rejected (hw : winLog2 s ≠ 0) (h : decStreamBody (streamInit s) = .error (.raise e) t)
    (hread : Read f n out (streamInit s) t) (hcommit : t.outCommit = c) :
    ∃ v, exec .defDecStream s = .next v ∧ Raised e s v ∧ Took n s v ∧ v.outPort = s.outPort ++ out ∧
      v.bytesOut = s.bytesOut + BitVec.ofNat 64 out.length ∧ v.outCommit = c ∧ v.res0 = s.res0 ∧ v.bfinalSeen = f := by
  have hframe := decStreamBody_error_frames h
  have hscrambled := scrambleDecoder_frames t
  have htook := (hread.done.read.unspecified hscrambled (by decide)).of_frames (error_frames e _) (by decide) (by decide) (by decide)
  exact ⟨enterError e (scrambleDecoder t),
    runCommand_raise (i := .defDecStream) ((bind_ok (checkWindow_ok hw)).trans
      (leaving_raise ((bind_ok (change_run streamInit s)).trans (bind_error h)))),
    raised_of_frames (F := streamFields ++ (.outCommit :: decodeFields) ++ unspecifiedFields)
      (((frames_streamInit s).mono (by decide)).trans
        ((hframe.mono (by decide)).trans (hscrambled.mono (by decide)))) (by decide),
    ⟨htook.unread, htook.port, htook.count, htook.buffer⟩, hread.done.output, hread.done.count, hcommit,
    hframe .res0 (by decide), hread.seen.trans (Bool.false_or f)⟩

/-- A stream that runs dry at `t` (41_bitio.md R172). -/
theorem defDecStream_ranDry (hw : winLog2 s ≠ 0) (h : decStreamBody (streamInit s) = .error (dryStop t) t)
    (hread : Read f (unreadBits s).length out (streamInit s) t) (hcommit : t.outCommit = c) :
    ∃ v, exec .defDecStream s = .next v ∧ RanDry s v ∧ v.outPort = s.outPort ++ out ∧
      v.bytesOut = s.bytesOut + BitVec.ofNat 64 out.length ∧ v.outCommit = c ∧ v.res0 = s.res0 := by
  have hframe : Frames (streamFields ++ (.outCommit :: decodeFields)) s t :=
    ((frames_streamInit s).mono (by decide)).trans ((decStreamBody_error_frames h).mono (by decide))
  have hclosed : t.inClosed = s.inClosed := hframe .inClosed (by decide)
  have htook := hread.done.read
  have hsteps : defDecStreamSteps s = .error (dryStop t) (if t.inClosed then scrambleDecoder t else t) :=
    (bind_ok (checkWindow_ok hw)).trans
      (leaving_dry scrambleDecoder ((bind_ok (change_run streamInit s)).trans (bind_error h)))
  rw [dryStop, hclosed] at hsteps
  obtain ⟨v, hv, hdry, hvt, -⟩ := runCommand_ranDry (i := .defDecStream) hsteps
    (ite_scramble_frames scrambleDecoder_frames t) (by decide) ⟨htook.unread, htook.port, htook.count, htook.buffer⟩ hframe
    (by decide) (by decide)
  exact ⟨v, hv, hdry, (hvt .outPort (by decide)).trans hread.done.output,
    (hvt .bytesOut (by decide)).trans hread.done.count, (hvt .outCommit (by decide)).trans hcommit,
    (hvt .res0 (by decide)).trans (hframe .res0 (by decide))⟩

end

namespace Deflate

/-- Settles O50: DecBlock decodes the block (`decBlock_ok`), and its header gives the results. -/
theorem decodesBlock : Obligations.DecodesBlock := by
  intro s final btype bits rest h h' hw _ hR hr hcoded hunread hroom
  obtain ⟨out, rfl⟩ := blockCoded_append hcoded
  rw [List.drop_left]
  rw [List.length_append, Nat.add_sub_cancel_left] at hroom
  obtain ⟨t, hdec, hread, -, hstored, hfixed, hdynamic⟩ := decBlock_ok hR hr hcoded hunread hroom
  refine ⟨_, exec_defDecBlock_ok hw hdec,
    completed_of_frames (F := .res0 :: .res1 :: .outCommit :: decodeFields)
      (((decBlock_ok_frames hdec).mono (by decide)).trans
        (((frames_res0 _ t).mono (by decide)).trans ((frames_res1 _ _).mono (by decide)))) (by decide) (by decide),
    rfl, rfl, hread.seen, rfl, ⟨hread.done.read.of_frames (F := [.res0, .res1] ++ courseFields)
        (((frames_res0 _ t).mono (by decide)).trans
          (((frames_res1 _ _).mono (by decide)).trans ((frames_complete _).mono (by decide)))) (by decide) (by decide)
        (by decide),
      hread.done.output, hread.done.count, hread.done.room, hread.done.crc, hread.done.raw⟩,
    (hread.window h hr).congr rfl rfl rfl rfl, hstored, hfixed, ?_⟩
  intro hb cl ll d tables symbols htables hbits
  refine hdynamic hb cl ll d tables symbols htables ?_
  rw [hbits, List.append_assoc]
  exact List.drop_left' (by simp)

/-- Settles O52: each way DecBlock fails (`decBlock_badStart`, `decBlock_badSymbols`, `decBlock_cut`), and that a block cut short
runs dry (`blockCoded_cut`). -/
theorem rejectsBlock : Obligations.RejectsBlock := by
  intro s final hw _ hR
  refine ⟨?_, ?_, ?_, ?_⟩
  · intro e bits rest hbad hunread
    obtain ⟨t, hdec, hread⟩ := decBlock_badStart hR hbad hunread
    exact defDecBlock_rejected hw hdec hread
  · intro e bits rest h h' hr hbad hunread hroom
    obtain ⟨out, rfl⟩ := badSymbols_append hbad
    rw [List.drop_left]
    rw [List.length_append, Nat.add_sub_cancel_left] at hroom
    obtain ⟨t, hdec, hread⟩ := decBlock_badSymbols hR hr hbad hunread hroom
    exact defDecBlock_rejected hw hdec hread
  · intro btype h h' hr hcut hroom
    obtain ⟨out, rfl⟩ := blockCut_append hcut
    rw [List.drop_left]
    rw [List.length_append, Nat.add_sub_cancel_left] at hroom
    exact defDecBlock_ranDry hw (decBlock_cut hR hr hcut hroom)
  · intro btype more h h' hmore hcoded
    obtain ⟨out, rfl⟩ := blockCoded_append hcoded
    rw [List.drop_left]
    exact blockCoded_cut hcoded hmore

/-- Settles O51: DecStream decodes the stream (`decStreamBody_ok`), is rejected with it (`decStreamBody_bad`), or runs dry
with it (`decStreamBody_cut`). -/
theorem decodesStream : Obligations.DecodesStream := by
  intro s count bits rest done out hw _ hR hroom
  have hr := remembers_streamInit s
  refine ⟨fun hcoded hunread => ?_, fun final e hbad hunread => ?_, fun hcut => ?_⟩
  · obtain ⟨t, hdec, hread, -⟩ := decStreamBody_ok (s := streamInit s) (h := []) (out := out) hcoded hR hr hunread hroom
    have hresult : Frames (.res0 :: courseFields) t (complete (setRes0 (BitVec.ofNat 32 count) t)) :=
      ((frames_res0 _ t).mono (by decide)).trans ((frames_complete _).mono (by decide))
    exact ⟨_, exec_defDecStream_ok hw hdec,
      completed_of_frames (F := .res0 :: .outCommit :: streamFields ++ decodeFields)
        (((frames_streamInit s).mono (by decide)).trans
          (((decStreamBody_frames hdec).mono (by decide)).trans ((frames_res0 _ t).mono (by decide)))) (by decide)
        (by decide),
      rfl, hread.seen, ⟨hread.done.read.of_frames hresult (by decide) (by decide) (by decide), hread.done.output,
        hread.done.count, hread.done.room, hread.done.crc, hread.done.raw⟩,
      (hread.window [] hr).congr rfl rfl rfl rfl⟩
  · obtain ⟨t, hdec, hread, hcommit⟩ := decStreamBody_bad (s := streamInit s) hbad hR hr hunread hroom
    exact defDecStream_rejected hw hdec hread hcommit
  · obtain ⟨f, t, hdec, hread, hcommit⟩ := decStreamBody_cut (s := streamInit s) hcut hR hr hroom
    exact defDecStream_ranDry hw hdec hread hcommit

end Deflate

end Sys2Proof.Machine
end

section
/-! The container's readers (46_container.md R301, R303, R306, R311, R313): GZ_RD_HEADER and GZ_RD_TRAILER, and how what they
read ends them. -/

namespace Sys2Proof.Machine

section
variable {s t : State} {f : Bool} {n : Nat} {out : List Byte} {e : ErrCode}

/-! ### Reading a header into the results (R311) -/

theorem headerToRes_ok {flg : Byte} (h : readHeader s = .ok (flg, n) t) :
    headerToRes s = .ok () (setRes1 (BitVec.ofNat 32 n) (setRes0 (zext32 flg) t)) :=
  leaving_ok (bind_ok h)

theorem headerToRes_raise (h : readHeader s = .error (.raise e) t) : headerToRes s = .error (.raise e) (scrambleName t) :=
  leaving_raise (bind_error h)

theorem headerToRes_dry (h : readHeader s = .error (dryStop t) t) :
    headerToRes s = .error (dryStop t) (if t.inClosed then scrambleName t else t) :=
  leaving_dry scrambleName (bind_error h)

/-- The results are none of what a decoder reads, gives or remembers. -/
theorem Read.results (h : Read f n out s t) (a b : Word) : Read f n out s (setRes1 b (setRes0 a t)) where
  fits := h.fits
  done := ⟨⟨h.done.read.unread, h.done.read.port, h.done.read.count, h.done.read.buffer⟩, h.done.output, h.done.count,
    h.done.room, h.done.crc, h.done.raw⟩
  window x hx := (h.window x hx).congr rfl rfl rfl rfl
  cfg := h.cfg
  seen := h.seen

/-- What reading a header into the results writes (R301, R311). -/
def headerToResFields : List Field := .res0 :: .res1 :: headerReadFields

/-- A header that is accepted is read, to the state that its registers and the results describe. -/
theorem headerToRes_read {flg xfl os : Byte} {mtime : Word} {name : List Byte} {rest : List Bool} (hp : s.params.wf)
    (hR : ReaderOk s.toEngine) (hh : HeaderOk flg name)
    (hu : unreadBits s = streamBits (gzipHeader flg mtime xfl os name) ++ rest) :
    ∃ t, headerToRes s = .ok () t ∧ Read false (8 * (gzipHeader flg mtime xfl os name).length) [] s t ∧
      Frames headerToResFields s t ∧ HeaderRead flg mtime xfl os name s t := by
  obtain ⟨t, hread, hr, hframe, hregs, hlen, hcut, hname⟩ := readHeader_ok hp hR hh hu
  exact ⟨_, headerToRes_ok hread, hr.results _ _,
    (hframe.mono (by decide)).trans (((frames_res0 _ t).mono (by decide)).trans ((frames_res1 _ _).mono (by decide))),
    ⟨hregs, hlen, hcut, hname, rfl, hlen.symm⟩⟩

/-- A header that runs dry at `t` is not read, whether the command raises or holds at `v`. -/
theorem headerUnread_of_ranDry {v : State} (hran : RanDry s v) (hframe : Frames (.draws :: streamFields ++ nameFields) s t)
    (hvt : Frames (holdFields ++ unreadFields) t v) (hcut : s.inClosed = true → v.fnameTrunc = t.fnameTrunc) :
    HeaderUnread s v := by
  have hregs := kept_trans (hframe .gzHeader (by decide)) (hvt .gzHeader (by decide))
  refine ⟨hregs, ?_, (hvt .res0 (by decide)).trans (hframe .res0 (by decide)),
    (hvt .res1 (by decide)).trans (hframe .res1 (by decide))⟩
  cases hc : s.inClosed
  · exact (hran.opened hc).fnameTrunc
  · exact (hcut hc).trans (hframe .fnameTrunc (by decide))

/-! ### Comparing a trailer (R313) -/

theorem readTrailer_error_frames {x : Stop} (h : readTrailer s = .error x t) : Frames (.gzTrailer :: readerFields) s t :=
  ((readTrailer_good (frames_readerGood (by decide) s) (fun a b u hu => hu.trans ((frames_trailer a b u).mono (by decide)))
    trivial trivial).error (Frames.refl _ s) h).1

end

namespace Container

/-- Settles O55: ReadHeader accepts the header (`headerToRes_read`), rejects it (`readHeader_bad`), or runs dry with it
(`readHeader_cut`). -/
theorem readHeader : Obligations.ReadHeader := by
  refine ⟨?_, ?_, ?_⟩
  · intro s flg xfl os mtime name rest hp hR hh hunread
    obtain ⟨t, hsteps, hread, hframe, hheader⟩ := headerToRes_read hp hR hh hunread
    exact ⟨_, runCommand_ok (i := .gzRdHeader) hsteps, completed_of_frames hframe (by decide) (by decide),
      ⟨hheader.fixed, hheader.length, hheader.cut, hheader.name, hheader.results⟩,
      hread.done.read.of_frames (frames_complete t) (by decide) (by decide) (by decide)⟩
  · intro s e bytes rest hR hbad hunread
    obtain ⟨t, hsteps, hread⟩ := readHeader_bad hR hbad hunread
    have hframe := readHeader_error_frames hsteps
    have hname := scrambleName_frames t
    exact ⟨_, runCommand_raise (i := .gzRdHeader) (headerToRes_raise hsteps),
      raised_of_frames (F := nameFields ++ unreadFields) ((hframe.mono (by decide)).trans (hname.mono (by decide)))
        (by decide),
      (hread.done.read.unspecified hname (by decide)).of_frames (error_frames e _) (by decide) (by decide) (by decide),
      ⟨hframe .gzHeader (by decide), hframe .fnameTrunc (by decide), hframe .res0 (by decide), hframe .res1 (by decide)⟩⟩
  · intro s flg xfl os mtime name more _ hR hh hmore hunread
    obtain ⟨t, hsteps, hread⟩ := readHeader_cut hR hh hunread hmore
    have hframe := readHeader_error_frames hsteps
    have hdry := headerToRes_dry hsteps
    rw [dryStop, show t.inClosed = s.inClosed from hframe .inClosed (by decide)] at hdry
    obtain ⟨v, hv, hran, hvt, hvc⟩ := runCommand_ranDry (i := .gzRdHeader) hdry
      (ite_scramble_frames scrambleName_frames t)
      (by decide) hread.done.read hframe (by decide) (by decide)
    exact ⟨v, hv, hran, headerUnread_of_ranDry hran (hframe.mono (by decide)) hvt fun hc =>
      hvc hc .fnameTrunc (by decide)⟩

/-- Settles O57: the trailer is read and compared (`readTrailer_run`), or runs dry (`readTrailer_short`). -/
theorem readTrailer : Obligations.ReadTrailer := by
  intro s hR
  refine ⟨fun crc isize rest hunread => ?_, fun hshort => ?_⟩
  · obtain ⟨t, hread, hframe, hsteps⟩ := readTrailer_run hR hunread
    have htrailer := hframe.mono (G := .gzTrailer :: readerFields) (by decide)
      |>.trans ((frames_trailer crc isize t).mono (by decide))
    have htook : Took (s.rcount.toNat + 64) s { t with gzTrlCrc := crc, gzTrlIsize := isize } :=
      hread.done.read.of_frames (frames_trailer crc isize t) (by decide) (by decide) (by decide)
    have hraise : ∀ e, Machine.readTrailer s = .error (.raise e) { t with gzTrlCrc := crc, gzTrlIsize := isize } →
        ∃ v, exec .gzRdTrailer s = .next v ∧ Took (s.rcount.toNat + 64) s v ∧ Raised e s v := fun e h =>
      have hscrambled := scrambleTrailer_frames { t with gzTrlCrc := crc, gzTrlIsize := isize }
      ⟨_, runCommand_raise (i := .gzRdTrailer) (leaving_raise h),
        (htook.unspecified hscrambled (by decide)).of_frames (error_frames e _) (by decide) (by decide) (by decide),
        raised_of_frames (F := .gzTrailer :: readerFields ++ unreadFields)
          ((htrailer.mono (by decide)).trans (hscrambled.mono (by decide))) (by decide)⟩
    by_cases hcrc : crc = ~~~s.crcState
    · rw [if_neg (not_not.2 hcrc)] at hsteps
      by_cases hsize : isize = s.rawCount
      · rw [if_neg (not_not.2 hsize)] at hsteps
        exact ⟨_, runCommand_ok (i := .gzRdTrailer) (leaving_ok hsteps),
          htook.of_frames (frames_complete _) (by decide) (by decide) (by decide),
          fun _ _ => ⟨completed_of_frames htrailer (by decide) (by decide), rfl, rfl⟩, fun h => absurd hcrc h,
          fun _ h => absurd hsize h⟩
      · rw [if_pos hsize] at hsteps
        obtain ⟨v, hv, hvtook, hraised⟩ := hraise _ hsteps
        exact ⟨v, hv, hvtook, fun _ h => absurd h hsize, fun h => absurd hcrc h, fun _ _ => hraised⟩
    · rw [if_pos hcrc] at hsteps
      obtain ⟨v, hv, hvtook, hraised⟩ := hraise _ hsteps
      exact ⟨v, hv, hvtook, fun h => absurd h hcrc, fun _ => hraised, fun h => absurd h hcrc⟩
  · obtain ⟨t, hsteps, hread⟩ := readTrailer_short hR hshort
    have hframe := readTrailer_error_frames hsteps
    have hdry := leaving_dry scrambleTrailer hsteps
    rw [dryStop, show t.inClosed = s.inClosed from hframe .inClosed (by decide)] at hdry
    obtain ⟨v, hv, hran, -, -⟩ := runCommand_ranDry (i := .gzRdTrailer) hdry
      (ite_scramble_frames scrambleTrailer_frames t) (by decide) hread.done.read hframe (by decide) (by decide)
    exact ⟨v, hv, hran⟩

end Container

end Sys2Proof.Machine
end

section
/-! GZ_COMPRESS (46_container.md R314): the checks, the header, EncStream of the initialised stream, the trailer. -/

namespace Sys2Proof.Machine

/-- With legal operands and configuration GZ_COMPRESS is WriteHeader, EncStreamBody and WriteTrailer, one after another, from
the initialised stream. -/
theorem exec_gzCompress_ok {fn : Bool} {s t u : State} (hop : ¬ badOperand s (.gzCompress fn)) (hb : btypeSel s ≠ 3)
    (hw : winLog2 s ≠ 0) (hheader : writeHeader fn s.arg0.toNat (streamInit s) = .ok () t)
    (hstream : encStreamBody t = .ok () u) {v : State} (htrailer : writeTrailer u = .ok () v) :
    exec (.gzCompress fn) s = .next (complete v) :=
  runCommand_ok (i := .gzCompress fn) <|
    (raiseIf_bind _ _ _ s).trans <| (if_neg hop).trans <| (bind_ok (checkEncoder_ok hb hw)).trans <|
      (bind_ok (change_run streamInit s)).trans <| (bind_ok hheader).trans <| (bind_ok hstream).trans htrailer

/-- WriteHeader, where the host accepts without limit. -/
theorem writeHeader_wrote {fn : Bool} {n : Nat} {s : State} (hw : WriterOk s.toEngine) (hroom : s.outRoom = none) :
    ∃ t, writeHeader fn n s = .ok () t ∧ Frames writerFields s t ∧
      Wrote (streamBits (gzipHeader (if fn then 0x08#8 else 0x00#8) 0 0 0 (s.tables.fname.toList n))) s t :=
  ⟨_, writeHeader_ok (hasRoom_of_none hroom), frames_putAll _ s, wrote_putAll _ hw⟩

/-- WriteTrailer at a byte boundary, where the host accepts without limit. -/
theorem writeTrailer_wrote {s : State} (hw : WriterOk s.toEngine) (hroom : s.outRoom = none) (h0 : s.wcount.toNat = 0) :
    ∃ t, writeTrailer s = .ok () t ∧ Frames writerFields s t ∧ t.tables = s.tables ∧
      Wrote (bitsOf 32 (~~~s.crcState).toNat ++ bitsOf 32 s.rawCount.toNat) s t := by
  have hsteps := writeTrailer_ok (s := s) (hasRoom_of_none hroom)
  rw [h0, show padBits 0 = 0 from rfl, List.replicate_zero, List.nil_append] at hsteps
  exact ⟨_, hsteps, frames_putAll _ s, putAll_tables _ s, wrote_putAll _ hw⟩

/-- A writer that has put whole bytes stands where it stood. -/
theorem Wrote.wcount_of_bytes {bytes : List Byte} {s t : State} (h : Wrote (streamBits bytes) s t) : t.wcount = s.wcount :=
  BitVec.eq_of_toNat_eq <| by
    rw [h.pending.1, streamBits_length]
    omega

/-- A padded writer stands at a byte boundary. -/
theorem Wrote.wcount_of_padded {bits : List Bool} {s t : State}
    (h : Wrote (bits ++ List.replicate (padBits (s.wcount.toNat + bits.length)) true) s t) : t.wcount.toNat = 0 := by
  rw [h.pending.1, List.length_append, List.length_replicate, padBits]
  omega

theorem Wrote.outRoom_none {bits : List Bool} {s t : State} (h : Wrote bits s t) (hroom : s.outRoom = none) :
    t.outRoom = none := by
  rw [h.room, roomAfter, hroom]
  rfl

namespace Container

/-- Settles O58: header, stream and trailer put their bits one after another (`writeHeader_ok`, `encStreamBody_ok`,
`writeTrailer_ok`). -/
theorem compresses : Obligations.Compresses := by
  intro fn s hop hconfig hp hw hroom hclosed
  obtain ⟨hb, hwin⟩ := encoder_legal hconfig
  obtain ⟨t, hheader, hheaderFrame, hheaderBits⟩ := writeHeader_wrote (fn := fn) (n := s.arg0.toNat) (s := streamInit s) hw hroom
  have hparams : t.params = s.params := hheaderFrame .params (by decide)
  have hin : t.inPort = s.inPort := hheaderFrame .inPort (by decide)
  have hcrc : t.crcState = 0xFFFFFFFF#32 := hheaderFrame .crcState (by decide)
  have hraw : t.rawCount = 0#32 := hheaderFrame .rawCount (by decide)
  have hcount : t.wcount = s.wcount := hheaderBits.wcount_of_bytes
  have hcfg : t.cfg = s.cfg := hheaderFrame .cfg (by decide)
  obtain ⟨hbtype, hlz77, -, hcap⟩ := config_congr hcfg
  obtain ⟨u, bits, hstream, hcoded, hbits, htables, hstreamBits, hstreamFrame, huin, -, hucrc, huraw, -⟩ :=
    encStreamBody_ok (s := t) ((hheaderFrame .inClosed (by decide)).trans hclosed) (hheaderBits.outRoom_none hroom)
      hheaderBits.pending.2 (by rw [hparams]; exact hp) (by rw [hbtype]; exact hb)
      ((remembers_streamInit s).of_frames hheaderFrame (by decide) (by decide) (by decide))
  obtain ⟨v, htrailer, htrailerFrame, hvtables, htrailerBits⟩ := writeTrailer_wrote hstreamBits.pending.2
    (hstreamBits.outRoom_none (hheaderBits.outRoom_none hroom)) hstreamBits.wcount_of_padded
  have hwrote := (hheaderBits.trans hstreamBits).trans htrailerBits
  rw [hcrc, hin] at hucrc
  rw [hraw, hin, BitVec.zero_add] at huraw
  rw [hucrc, huraw, hcount] at hwrote
  rw [hcap, hcount, hparams, hin] at hcoded
  rw [hlz77, hcap, hbtype, hparams, hcount, hin] at hbits
  rw [hlz77, hcap, hbtype, hparams, hin] at htables
  refine ⟨complete v, bits, exec_gzCompress_ok hop hb hwin hheader hstream htrailer,
    completed_of_frames (F := streamFields ++ writerFields ++ encodeAllFields)
      (((frames_streamInit s).mono (by decide)).trans ((hheaderFrame.mono (by decide)).trans
        ((hstreamFrame.mono (by decide)).trans (htrailerFrame.mono (by decide))))) (by decide) (by decide),
    hcoded, hbits, ?_, ?_, (htrailerFrame .inPort (by decide)).trans huin, (htrailerFrame .crcState (by decide)).trans hucrc,
    (htrailerFrame .rawCount (by decide)).trans huraw⟩
  · rw [show (complete v).tables = u.tables from hvtables]
    exact htables
  · simp only [List.append_assoc] at hwrote ⊢
    exact ⟨hwrote.stream, hwrote.given, hwrote.count, hwrote.room, hwrote.pending⟩

end Container

end Sys2Proof.Machine
end

section
/-! GZ_DECOMPRESS (46_container.md R315): the header, DecStream of the initialised stream and the trailer, one after another;
how a member ends that is whole, and one that fails or runs dry in its header, its stream or its trailer. -/

namespace Sys2Proof.Machine

section
variable {s t u w : State} {f : Bool} {n m : Nat} {out : List Byte} {e : ErrCode} {stop : Stop} {U : List Field}
  {flg xfl os : Byte} {mtime : Word} {name : List Byte} {rest : List Bool}

/-! ### The steps -/

/-- Steps that stop leave what they leave unspecified, and nothing else changes. -/
theorem leaving_stop {α : Type} {x : Exec α} {g : State → State} (h : x s = .error stop t) (hg : Frames U t (g t)) :
    ∃ u, leavingUnspecified g x s = .error stop u ∧ Frames U t u := by
  cases stop with
  | raise e => exact ⟨g t, leaving_raise h, hg⟩
  | hold | bound => exact ⟨t, by rw [leavingUnspecified, h], Frames.refl U t⟩

theorem gzDecompressSteps_eq (hw : winLog2 s ≠ 0) :
    gzDecompressSteps s = leavingUnspecified (fun s => scrambleTrailer (scrambleDecoder s))
      (headerToRes >>= fun _ => memberBody) (streamInit s) :=
  bind_ok (checkWindow_ok hw)

theorem scrambleBody_frames (s : State) : Frames unreadFields s (scrambleTrailer (scrambleDecoder s)) :=
  (scrambleDecoder_frames s).trans (scrambleTrailer_frames _)

/-- The command stops where its header does. -/
theorem gzDecompress_headerStops (hw : winLog2 s ≠ 0) (h : readHeader (streamInit s) = .error stop t) :
    ∃ u, gzDecompressSteps s = .error stop u ∧ Frames unreadFields t u := by
  obtain ⟨v, hv, htv⟩ := leaving_stop (bind_error h) (scrambleName_frames t)
  obtain ⟨u, hu, hvu⟩ := leaving_stop (g := fun s => scrambleTrailer (scrambleDecoder s)) (bind_error hv)
    (scrambleBody_frames v)
  exact ⟨u, (gzDecompressSteps_eq hw).trans hu, htv.trans hvu⟩

/-- The command stops where the stream or the trailer after the header does. -/
theorem gzDecompress_bodyStops (hw : winLog2 s ≠ 0) (hh : headerToRes (streamInit s) = .ok () t)
    (h : (decStreamBody >>= fun _ => readTrailer) t = .error stop w) :
    ∃ u, gzDecompressSteps s = .error stop u ∧ Frames unspecifiedFields w u := by
  obtain ⟨v, hv, hwv⟩ := leaving_stop (g := fun s => scrambleHeader (scrambleName s)) h (scrambleMember_frames w)
  obtain ⟨u, hu, hvu⟩ := leaving_stop (g := fun s => scrambleTrailer (scrambleDecoder s))
    ((bind_ok (f := fun _ => memberBody) hh).trans hv)
    (scrambleBody_frames v)
  exact ⟨u, (gzDecompressSteps_eq hw).trans hu, hwv.trans (hvu.mono (by decide))⟩

/-! ### Past the header -/

/-- What the body of a member writes: its stream and its trailer. -/
def bodyFields : List Field := .gzTrailer :: .outCommit :: decodeFields

/-- What a member writes. -/
def memberFields : List Field := streamFields ++ headerToResFields ++ bodyFields

/-- The header has been read, and in all `n` bits of the member, which have given `out`. -/
structure PastHeader (flg : Byte) (name : List Byte) (f : Bool) (n : Nat) (out : List Byte) (s t : State) : Prop where
  read : Read f n out (streamInit s) t
  results : t.res0 = zext32 flg ∧ t.res1 = BitVec.ofNat 32 (min name.length (2 ^ 32 - 1))
  cut : t.fnameTrunc = decide (s.params.fnameMax < name.length)
  frame : Frames memberFields s t

theorem PastHeader.trans {g : Bool} {a b : List Byte} (h : PastHeader flg name f n a s t) (hr : Read g m b t u)
    (hf : Frames bodyFields t u) : PastHeader flg name (f || g) (n + m) (a ++ b) s u where
  read := h.read.trans hr
  results := ⟨(hf .res0 (by decide)).trans h.results.1, (hf .res1 (by decide)).trans h.results.2⟩
  cut := (hf .fnameTrunc (by decide)).trans h.cut
  frame := h.frame.trans (hf.mono (by decide))

/-- STREAM_INIT touches neither the reader nor the input port. -/
theorem Took.of_streamInit (h : Took n (streamInit s) t) : Took n s t := ⟨h.unread, h.port, h.count, h.buffer⟩

theorem PastHeader.took (h : PastHeader flg name f n out s t) : Took n s t := h.read.done.read.of_streamInit

/-- Where the body of a member begins: the header has been read, and the reader stands as far past a byte boundary as before
it. -/
structure AtBody (flg : Byte) (mtime : Word) (xfl os : Byte) (name : List Byte) (rest : List Bool) (s t : State) : Prop where
  steps : headerToRes (streamInit s) = .ok () t
  past : PastHeader flg name false (8 * (gzipHeader flg mtime xfl os name).length) [] s t
  header : HeaderRead flg mtime xfl os name s t
  unread : unreadBits t = rest
  pos : readerPos t = readerPos s
  window : Remembers t []

theorem AtBody.winCap (h : AtBody flg mtime xfl os name rest s t) : winCap t = winCap s := h.past.read.winCap

theorem AtBody.readerOk (h : AtBody flg mtime xfl os name rest s t) : ReaderOk t.toEngine := h.past.read.readerOk

theorem AtBody.room (h : AtBody flg mtime xfl os name rest s t) (hroom : hasRoom s n) : hasRoom t n :=
  h.past.read.room (s := streamInit s) (k := n) (by rw [List.length_nil, Nat.zero_add]; exact hroom)

theorem exists_atBody (hp : s.params.wf) (hR : ReaderOk s.toEngine) (hh : HeaderOk flg name)
    (hu : unreadBits s = streamBits (gzipHeader flg mtime xfl os name) ++ rest) :
    ∃ t, AtBody flg mtime xfl os name rest s t ∧ t.bytesOut = s.bytesOut ∧ t.outCommit = s.outCommit := by
  obtain ⟨t, hsteps, hread, hframe, hheader⟩ := headerToRes_read (s := streamInit s) hp hR hh hu
  have hpos := readerPos_took hread.done.read hread.fits
  have hlt := readerPos_lt s
  have hlen := hread.done.read.unread
  refine ⟨t, ⟨hsteps, ⟨hread, ⟨hheader.results.1, hheader.results.2.trans hheader.length⟩, hheader.cut,
      (frames_streamInit s).mono (by decide) |>.trans (hframe.mono (by decide))⟩,
    ⟨hheader.fixed, hheader.length, hheader.cut, hheader.name, hheader.results⟩, ?_, ?_,
    hread.window [] (remembers_streamInit s)⟩, hframe .bytesOut (by decide), hframe .outCommit (by decide)⟩
  · rw [hlen, show unreadBits (streamInit s) = _ from hu, ← streamBits_length, List.drop_left]
  · rw [hpos, show readerPos (streamInit s) = readerPos s from rfl]
    omega

/-! ### How the command fails -/

/-- The command raises at `u`, which differs from `w` in what is left unspecified. -/
theorem gzDecompress_raised (hsteps : gzDecompressSteps s = .error (.raise e) u) (hu : Frames unspecifiedFields w u)
    (h : PastHeader flg name f n out s w) :
    ∃ v, exec .gzDecompress s = .next v ∧ Raised e s v ∧ HeaderPassed flg name s v ∧ Took n s v ∧
      v.outPort = s.outPort ++ out ∧ v.bytesOut = s.bytesOut + BitVec.ofNat 64 out.length ∧ v.outCommit = w.outCommit ∧
      v.bfinalSeen = f :=
  ⟨_, runCommand_raise (i := .gzDecompress) hsteps,
    raised_of_frames (F := memberFields ++ unspecifiedFields) ((h.frame.mono (by decide)).trans (hu.mono (by decide)))
      (by decide),
    ⟨⟨(hu .res0 (by decide)).trans h.results.1, (hu .res1 (by decide)).trans h.results.2⟩,
      fun _ => (hu .fnameTrunc (by decide)).trans h.cut⟩,
    (h.took.unspecified hu fun _ hf => hf).of_frames (error_frames e u) (by decide) (by decide) (by decide),
    (hu .outPort (by decide)).trans h.read.done.output, (hu .bytesOut (by decide)).trans h.read.done.count,
    hu .outCommit (by decide), (hu .bfinalSeen (by decide)).trans (h.read.seen.trans (Bool.false_or f))⟩

/-- The command runs dry at `w`, past its header. -/
theorem gzDecompress_ranDry (hsteps : gzDecompressSteps s = .error (dryStop w) u) (hu : Frames unspecifiedFields w u)
    (h : PastHeader flg name f (unreadBits s).length out s w) :
    ∃ v, exec .gzDecompress s = .next v ∧ RanDry s v ∧ HeaderPassed flg name s v ∧
      v.outPort = s.outPort ++ out ∧ v.bytesOut = s.bytesOut + BitVec.ofNat 64 out.length ∧ v.outCommit = w.outCommit := by
  rw [dryStop, show w.inClosed = s.inClosed from h.frame .inClosed (by decide)] at hsteps
  obtain ⟨v, hv, hran, hwv, hclosed⟩ := runCommand_ranDry (i := .gzDecompress) hsteps hu (fun _ hf => hf) h.took h.frame
    (by decide) (by decide)
  refine ⟨v, hv, hran,
    ⟨⟨(hwv .res0 (by decide)).trans h.results.1, (hwv .res1 (by decide)).trans h.results.2⟩, fun herror => ?_⟩,
    (hwv .outPort (by decide)).trans h.read.done.output, (hwv .bytesOut (by decide)).trans h.read.done.count,
    hwv .outCommit (by decide)⟩
  cases hc : s.inClosed with
  | true => exact (hclosed hc .fnameTrunc (by decide)).trans h.cut
  | false => exact absurd ((hran.opened hc).engine.symm.trans herror) (by decide)

/-! ### The trailer -/

/-- The registers of the trailer are none of what a decoder reads, gives or remembers. -/
theorem Read.trailer (h : Read f n out s t) (a b : Word) : Read f n out s { t with gzTrlCrc := a, gzTrlIsize := b } where
  fits := h.fits
  done := ⟨⟨h.done.read.unread, h.done.read.port, h.done.read.count, h.done.read.buffer⟩, h.done.output, h.done.count,
    h.done.room, h.done.crc, h.done.raw⟩
  window x hx := (h.window x hx).congr rfl rfl rfl rfl
  cfg := h.cfg
  seen := h.seen

/-- A reader's buffered bits are those up to the byte boundary. -/
theorem rcount_of_took (h : Took n s t) (hn : n ≤ (unreadBits s).length) : t.rcount.toNat = padBits (readerPos s + n) := by
  have hpos := readerPos_took h hn
  have hlt := t.rcount.isLt
  rw [readerPos] at hpos
  rw [padBits]
  omega

/-- The registers and the name that a header has left stay as they are while the body is read and the command ends. -/
theorem HeaderRead.of_frames (h : HeaderRead flg mtime xfl os name s t) (hf : Frames (bodyFields ++ courseFields) t u) :
    HeaderRead flg mtime xfl os name s u := by
  obtain ⟨hflg, hmtime, hxfl, hos, hlen⟩ := hf .gzHeader (by decide)
  obtain ⟨h1, h2, h3, h4⟩ := h.fixed
  refine ⟨⟨hflg.trans h1, hmtime.trans h2, hxfl.trans h3, hos.trans h4⟩, hlen.trans h.length,
    (hf .fnameTrunc (by decide)).trans h.cut, fun k => ?_, (hf .res0 (by decide)).trans h.results.1, ?_⟩
  · rw [show u.tables.fname = t.tables.fname from hf (.table .fname) (by decide)]
    exact h.name k
  · exact (hf .res1 (by decide)).trans (h.results.2.trans hlen.symm)

/-- Where the stream has been read at `u`: the body of the member goes on with `part`, the padding first. -/
structure AfterStream (flg : Byte) (name : List Byte) (head : Nat) (bits part : List Bool) (out : List Byte)
    (s t u : State) : Prop where
  steps : ∃ count, decStreamBody t = .ok count u
  past : PastHeader flg name true (head + bits.length) out s u
  frame : Frames bodyFields t u
  commit : u.outCommit = u.bytesOut
  unread : unreadBits u = part
  rcount : u.rcount.toNat = padBits (readerPos s + bits.length)

theorem AtBody.stream {count : Nat} {bits part : List Bool} (h : AtBody flg mtime xfl os name (bits ++ part) s t)
    (hs : StreamCoded (Machine.winCap s) (readerPos s) count bits [] out) (hroom : hasRoom s out.length) :
    ∃ u, AfterStream flg name (8 * (gzipHeader flg mtime xfl os name).length) bits part out s t u := by
  rw [← h.winCap, ← h.pos] at hs
  obtain ⟨u, hsteps, hread, hcommit⟩ := decStreamBody_ok (h := []) hs h.readerOk h.window h.unread (h.room hroom)
  have hframe : Frames bodyFields t u := (decStreamBody_frames hsteps).mono (by decide)
  exact ⟨u, ⟨count, hsteps⟩, h.past.trans hread hframe, hframe, hcommit, hread.unread h.unread,
    h.pos ▸ rcount_of_took hread.done.read hread.fits⟩

section
variable {head : Nat} {bits part pad : List Bool} {crc isize : Word}

/-- The trailer is read after its padding, to a state in which it is compared with the output. -/
theorem AfterStream.trailer
    (h : AfterStream flg name head bits (pad ++ bitsOf 32 crc.toNat ++ bitsOf 32 isize.toNat ++ rest) out s t u)
    (hpad : pad.length = padBits (readerPos s + bits.length)) :
    ∃ w, PastHeader flg name true (head + bits.length + pad.length + 64) out s w ∧ Frames bodyFields t w ∧
      w.outCommit = w.bytesOut ∧ w.gzTrlCrc = crc ∧ w.gzTrlIsize = isize ∧
      readTrailer u =
        if crc ≠ ~~~crcOf 0xFFFFFFFF#32 out then .error (.raise .crcMismatch) w
        else if isize ≠ BitVec.ofNat 32 out.length then .error (.raise .isizeMismatch) w
        else .ok () w := by
  have hcount : u.rcount.toNat = pad.length := h.rcount.trans hpad.symm
  obtain ⟨v, hread, hframe, hsteps⟩ := readTrailer_run (crc := crc) (isize := isize) (rest := rest) h.past.read.readerOk (by
    rw [h.unread, hcount, List.append_assoc, List.append_assoc, List.drop_left, List.append_assoc])
  have hbody : Frames bodyFields u { v with gzTrlCrc := crc, gzTrlIsize := isize } :=
    (hframe.mono (by decide)).trans ((frames_trailer crc isize v).mono (by decide))
  rw [show u.crcState = _ from h.past.read.done.crc, show u.rawCount = 0#32 + _ from h.past.read.done.raw,
    BitVec.zero_add] at hsteps
  have hpast := h.past.trans (hread.read.trailer crc isize) hbody
  rw [hcount, List.append_nil, ← Nat.add_assoc] at hpast
  exact ⟨_, hpast, h.frame.trans hbody,
    (hframe .outCommit (by decide)).trans (h.commit.trans (hframe .bytesOut (by decide)).symm), rfl, rfl, hsteps⟩

/-- The trailer runs dry after the stream. -/
theorem AfterStream.dry (h : AfterStream flg name head bits part out s t u)
    (hpart : part.length < padBits (readerPos s + bits.length) + 64) :
    ∃ w, readTrailer u = .error (dryStop w) w ∧ PastHeader flg name true (head + bits.length + part.length) out s w ∧
      w.outCommit = w.bytesOut := by
  obtain ⟨w, hsteps, hread⟩ := readTrailer_short h.past.read.readerOk (by
    rw [h.unread, List.length_drop, h.rcount]
    omega)
  have hframe := readTrailer_error_frames hsteps
  rw [h.unread] at hread
  have hpast := h.past.trans hread (hframe.mono (by decide))
  rw [List.append_nil] at hpast
  exact ⟨w, hsteps, hpast, (hframe .outCommit (by decide)).trans (h.commit.trans (hframe .bytesOut (by decide)).symm)⟩

end

end

namespace Container

/-- Settles O59: the header (`exists_atBody`), the stream (`AtBody.stream`) and the trailer (`AfterStream.trailer`) are read
one after another, and the command fails or runs dry where one of them does. -/
theorem decompresses : Obligations.Decompresses := by
  intro s flg xfl os mtime name count head bits pad rest done out hw hp hR hh hhead hroom
  subst hhead
  rw [streamBits_length]
  refine ⟨fun hcoded hpad => ⟨fun hunread => ?_, fun e crc isize hunread hdiffers => ?_, fun part hunread hshort => ?_⟩,
    fun final e hbad hunread => ?_, fun hcut hunread => ?_, fun e bytes hbad hunread => ?_, fun more hmore hunread => ?_⟩
  · simp only [List.append_assoc] at hunread
    obtain ⟨t, hbody, -, -⟩ := exists_atBody hp hR hh hunread
    obtain ⟨u, hstream⟩ := hbody.stream hcoded hroom
    simp only [← List.append_assoc] at hstream
    obtain ⟨w, hpast, hframe, hcommit, hcrc, hisize, htrailer⟩ := hstream.trailer hpad
    rw [if_neg (not_not.2 rfl), if_neg (not_not.2 rfl)] at htrailer
    obtain ⟨count', hsteps⟩ := hstream.steps
    have hmember : memberBody t = .ok () w := leaving_ok ((bind_ok hsteps).trans htrailer)
    refine ⟨complete w, runCommand_ok (i := .gzDecompress) ((gzDecompressSteps_eq hw).trans
        (leaving_ok ((bind_ok hbody.steps).trans hmember))),
      completed_of_frames hpast.frame (by decide) (by decide),
      hbody.header.of_frames ((hframe.mono (by decide)).trans ((frames_complete w).mono (by decide))),
      ?_, hpast.read.seen, ?_, ?_⟩
    · have hdone := hpast.read.done
      exact ⟨hdone.read.of_frames (frames_complete w) (by decide) (by decide) (by decide), hdone.output, hdone.count,
        hdone.room, hdone.crc, hdone.raw⟩
    · exact hcrc.trans (congrArg _ hpast.read.done.crc.symm)
    · exact hisize.trans ((BitVec.zero_add _).symm.trans hpast.read.done.raw.symm)
  · simp only [List.append_assoc] at hunread
    obtain ⟨t, hbody, -, -⟩ := exists_atBody hp hR hh hunread
    obtain ⟨u, hstream⟩ := hbody.stream hcoded hroom
    simp only [← List.append_assoc] at hstream
    obtain ⟨w, hpast, -, hcommit, -, -, htrailer⟩ := hstream.trailer hpad
    have hraise : Machine.readTrailer u = .error (.raise e) w := by
      rcases hdiffers with ⟨rfl, hcrc⟩ | ⟨rfl, hcrc, hsize⟩
      · rw [htrailer, if_pos hcrc]
      · rw [htrailer, if_neg (not_not.2 hcrc), if_pos hsize]
    obtain ⟨count', hsteps⟩ := hstream.steps
    obtain ⟨v, hv, hwv⟩ := gzDecompress_bodyStops hw hbody.steps ((bind_ok hsteps).trans hraise)
    obtain ⟨x, hx, hraised, hpassed, htook, hout, hbytes, hxcommit, hseen⟩ := gzDecompress_raised hv hwv hpast
    exact ⟨x, hx, hraised, hpassed, htook, hout, hbytes,
      hxcommit.trans (hcommit.trans (hpast.read.done.count.trans hbytes.symm)), hseen⟩
  · rw [List.append_assoc] at hunread
    obtain ⟨t, hbody, -, -⟩ := exists_atBody hp hR hh hunread
    obtain ⟨u, hstream⟩ := hbody.stream hcoded hroom
    obtain ⟨w, hdry, hpast, hcommit⟩ := hstream.dry (hpad ▸ hshort)
    obtain ⟨count', hsteps⟩ := hstream.steps
    obtain ⟨v, hv, hwv⟩ := gzDecompress_bodyStops hw hbody.steps ((bind_ok hsteps).trans hdry)
    have hlen : (unreadBits s).length = 8 * (gzipHeader flg mtime xfl os name).length + bits.length + part.length := by
      simp [hunread, Nat.add_assoc]
    obtain ⟨x, hx, hran, hpassed, hout, hbytes, hxcommit⟩ := gzDecompress_ranDry hv hwv (hlen ▸ hpast)
    exact ⟨x, hx, hran, hpassed, hout, hbytes, hxcommit.trans (hcommit.trans (hpast.read.done.count.trans hbytes.symm))⟩
  · rw [List.append_assoc] at hunread
    obtain ⟨t, hbody, htbytes, htcommit⟩ := exists_atBody hp hR hh hunread
    rw [← hbody.winCap, ← hbody.pos] at hbad
    obtain ⟨w, hsteps, hread, hcommit⟩ := decStreamBody_bad hbad hbody.readerOk hbody.window hbody.unread (hbody.room hroom)
    have hpast := hbody.past.trans hread ((decStreamBody_error_frames hsteps).mono (by decide))
    obtain ⟨v, hv, hwv⟩ := gzDecompress_bodyStops hw hbody.steps (bind_error hsteps)
    obtain ⟨x, hx, hraised, hpassed, htook, hout, hbytes, hxcommit, hseen⟩ := gzDecompress_raised hv hwv hpast
    refine ⟨x, hx, hraised, hpassed, htook, hout, hbytes, hxcommit.trans (hcommit.trans ?_), hseen⟩
    rw [commitAfter, commitAfter, htbytes, htcommit]
  · obtain ⟨t, hbody, htbytes, htcommit⟩ := exists_atBody hp hR hh hunread
    rw [← hbody.winCap, ← hbody.pos, ← hbody.unread] at hcut
    obtain ⟨f, w, hsteps, hread, hcommit⟩ := decStreamBody_cut hcut hbody.readerOk hbody.window (hbody.room hroom)
    have hpast := hbody.past.trans hread ((decStreamBody_error_frames hsteps).mono (by decide))
    obtain ⟨v, hv, hwv⟩ := gzDecompress_bodyStops hw hbody.steps (bind_error hsteps)
    have hlen : (unreadBits s).length = 8 * (gzipHeader flg mtime xfl os name).length + (unreadBits t).length := by
      simp [hunread, hbody.unread]
    obtain ⟨x, hx, hran, hpassed, hout, hbytes, hxcommit⟩ := gzDecompress_ranDry hv hwv (hlen ▸ hpast)
    refine ⟨x, hx, hran, hpassed, hout, hbytes, hxcommit.trans (hcommit.trans ?_)⟩
    rw [commitAfter, commitAfter, htbytes, htcommit]
  · obtain ⟨t, hsteps, hread⟩ := readHeader_bad (s := streamInit s) hR hbad hunread
    have hframe : Frames (.draws :: streamFields ++ nameFields) s t :=
      ((frames_streamInit s).mono (by decide)).trans ((readHeader_error_frames hsteps).mono (by decide))
    obtain ⟨u, hu, htu⟩ := gzDecompress_headerStops hw hsteps
    have hall : Frames (unreadFields ++ streamFields ++ nameFields) s u :=
      (hframe.mono (by decide)).trans (htu.mono (by decide))
    have htook := hread.done.read.of_streamInit
    exact ⟨_, runCommand_raise (i := .gzDecompress) hu, raised_of_frames hall (by decide),
      ⟨hall .gzHeader (by decide), hall .fnameTrunc (by decide), hall .res0 (by decide), hall .res1 (by decide)⟩,
      (htook.unspecified htu (by decide)).of_frames (error_frames e u) (by decide) (by decide) (by decide),
      hall .outPort (by decide), hall .outCommit (by decide)⟩
  · obtain ⟨t, hsteps, hread⟩ := readHeader_cut (s := streamInit s) hR hh hunread hmore
    have hframe : Frames (.draws :: streamFields ++ nameFields) s t :=
      ((frames_streamInit s).mono (by decide)).trans ((readHeader_error_frames hsteps).mono (by decide))
    obtain ⟨u, hu, htu⟩ := gzDecompress_headerStops hw hsteps
    rw [dryStop, show t.inClosed = s.inClosed from hframe .inClosed (by decide)] at hu
    obtain ⟨v, hv, hran, hvt, hclosed⟩ := runCommand_ranDry (i := .gzDecompress) hu htu (by decide)
      hread.done.read.of_streamInit hframe (by decide) (by decide)
    exact ⟨v, hv, hran, headerUnread_of_ranDry hran hframe hvt fun hc => hclosed hc .fnameTrunc (by decide),
      (hvt .outPort (by decide)).trans (hframe .outPort (by decide)),
      (hvt .outCommit (by decide)).trans (hframe .outCommit (by decide))⟩

end Container

end Sys2Proof.Machine
end

section
/-! Members from a byte boundary (46_container.md R304, R314, R315): the bytes GZ_COMPRESS gives are a member, which
GZ_DECOMPRESS takes, and no more, to give the input and the name back. -/

namespace Sys2Proof.Machine

/-! ### The name a header carries -/

/-- The name in the header of GZ_COMPRESS: the first ARG0 bytes of FNAME with FN, none without. -/
def carriedName (fn : Bool) (s : State) : List Byte := if fn then s.tables.fname.toList s.arg0.toNat else []

theorem gzipHeader_carriedName (fn : Bool) (s : State) :
    gzipHeader (if fn then 0x08#8 else 0x00#8) 0 0 0 (s.tables.fname.toList s.arg0.toNat) =
      gzipHeader (if fn then 0x08#8 else 0x00#8) 0 0 0 (carriedName fn s) := by
  cases fn <;> rfl

theorem carriedName_length (fn : Bool) (s : State) : (carriedName fn s).length = if fn then s.arg0.toNat else 0 := by
  cases fn <;> simp [carriedName, Memory.toList]

/-- The reader accepts a carried name that holds no NUL. -/
theorem headerOk_carriedName {fn : Bool} {s : State} (h : fn = true → ∀ k, k < s.arg0.toNat → s.tables.fname.read k ≠ 0) :
    HeaderOk (if fn then 0x08#8 else 0x00#8) (carriedName fn s) := by
  cases fn with
  | false => exact ⟨by decide, nofun, fun _ => rfl⟩
  | true =>
    refine ⟨by decide, fun b hb => ?_, fun h => absurd h (by decide)⟩
    obtain ⟨k, hk, rfl⟩ : ∃ k, k < s.arg0.toNat ∧ s.tables.fname.read k = b := by
      simpa [carriedName, Memory.toList] using hb
    exact h rfl k hk

/-! ### Members as bytes -/

/-- The bytes of a member whose stream has the given bits (30_encoding.md R116). -/
def memberBits (fn : Bool) (s : State) (bits : List Bool) : List Bool :=
  streamBits (gzipHeader (if fn then 0x08#8 else 0x00#8) 0 0 0 (carriedName fn s)) ++ bits
    ++ List.replicate (padBits bits.length) true ++ bitsOf 32 (~~~(crcOf 0xFFFFFFFF#32 s.inPort)).toNat
    ++ bitsOf 32 (BitVec.ofNat 32 s.inPort.length).toNat

theorem memberBits_eights (fn : Bool) (s : State) (bits : List Bool) : 8 ∣ (memberBits fn s bits).length := by
  simp only [memberBits, List.length_append, streamBits_length, List.length_replicate, bitsOf_length, padBits]
  omega

/-- From a byte boundary GZ_COMPRESS gives a member. -/
theorem exec_gzCompress_aligned {fn : Bool} {s : State} (hop : ¬ badOperand s (.gzCompress fn)) (hb : btypeSel s ≠ 3)
    (hwin : winLog2 s ≠ 0) (hp : s.params.wf) (h0 : s.wcount = 0) (hbuf : s.wbuf = 0) (hclosed : s.inClosed = true)
    (hroom : s.outRoom = none) :
    ∃ t y count bits, exec (.gzCompress fn) s = .next t ∧ Completed s t ∧ t.outPort = s.outPort ++ y ∧
      StreamCoded (winCap s) 0 count bits [] s.inPort ∧ streamBits y = memberBits fn s bits ∧
      t.crcState = crcOf 0xFFFFFFFF#32 s.inPort ∧ t.rawCount = BitVec.ofNat 32 s.inPort.length := by
  have hw : WriterOk s.toEngine := by simp [WriterOk, h0, hbuf]
  obtain ⟨t, bits, hexec, hcompleted, hcoded, -, -, hwrote, -, hcrc, hraw⟩ :=
    Container.compresses fn s hop (not_or.2 ⟨hb, hwin⟩) hp hw hroom hclosed
  have hpos : s.wcount.toNat = 0 := congrArg BitVec.toNat h0
  rw [hpos] at hcoded
  rw [hpos, Nat.zero_add, gzipHeader_carriedName] at hwrote
  obtain ⟨y, hy⟩ := exists_streamBits_eq (memberBits_eights fn s bits)
  rw [memberBits] at hy
  rw [← hy] at hwrote
  exact ⟨t, y, _, bits, hexec, hcompleted, hwrote.outPort_of_aligned h0, hcoded, hy, hcrc, hraw⟩

/-- A reader at a byte boundary that has taken the bits of whole bytes has taken those bytes. -/
theorem Took.inPort_of_aligned {y rest : List Byte} {s t : State} (h : Took (streamBits y).length s t) (h0 : s.rcount = 0)
    (hin : s.inPort = y ++ rest) : t.inPort = rest := by
  have htaken : bytesFor s (streamBits y).length = y.length := by
    simp only [bytesFor, h0, streamBits_length]
    omega
  rw [h.port, htaken, hin, List.drop_left]

namespace Container

/-- Settles O60: the compressor's bytes are a member (`exec_gzCompress_aligned`), which the decompressor takes back
(`decompresses`). -/
theorem memberRoundTrip : Obligations.MemberRoundTrip := by
  intro fn s u hop hb hwin hps hpu hle hname hwc hwb hclosed hsroom hrc hrb huroom
  obtain ⟨t, y, count, bits, he, hcompleted, hout, hcoded, hy, hcrc, hraw⟩ :=
    exec_gzCompress_aligned hop hb hwin hps hwc hwb hclosed hsroom
  refine ⟨t, y, he, hcompleted, hout, fun rest hin => ?_⟩
  have hR : ReaderOk u.toEngine := by simp [ReaderOk, hrc, hrb]
  have hpos : readerPos u = 0 := by simp [readerPos, hrc]
  have hcap : winCap s ≤ winCap u := Nat.pow_le_pow_right (by decide) hle
  have hunread : unreadBits u = memberBits fn s bits ++ streamBits rest := by simp [unreadBits, hrc, hin, hy]
  obtain ⟨v, hd, hv, hheader, hread, -, -, -⟩ :=
    (decompresses u _ 0 0 0 _ count _ bits (List.replicate (padBits bits.length) true) (streamBits rest) [] s.inPort
      (by omega) hpu hR (headerOk_carriedName fun h => (hname h).2) rfl (hasRoom_of_none huroom)).1
      (hpos.symm ▸ streamCoded_mono hcap hcoded) (by rw [hpos, Nat.zero_add, List.length_replicate]) |>.1 hunread
  have hlen : (streamBits y).length = (streamBits (gzipHeader (if fn then 0x08#8 else 0x00#8) 0 0 0
      (carriedName fn s))).length + bits.length + (List.replicate (padBits bits.length) true).length + 64 := by
    rw [hy, memberBits]
    simp only [List.length_append, bitsOf_length]
  have htook := hread.read.of_streamInit
  rw [← hlen] at htook
  refine ⟨v, hd, hv, hread.output, htook.inPort_of_aligned hrc hin, hread.crc.trans hcrc.symm,
    hread.raw.trans ((BitVec.zero_add _).trans hraw.symm), ?_, ?_⟩
  · rw [hheader.results.2, hheader.length, carriedName_length]
    cases fn with
    | false => rfl
    | true =>
      have hlt := s.arg0.isLt
      refine BitVec.eq_of_toNat_eq ?_
      simp only [if_true, BitVec.toNat_ofNat]
      omega
  · intro k hfn hk
    subst hfn
    have hmax : s.arg0.toNat ≤ u.params.fnameMax := le_trans (not_lt.1 fun h => hop ⟨rfl, h⟩) (hname rfl).1
    rw [hheader.name, carriedName_length, if_pos rfl, if_pos (by omega)]
    simp [carriedName, Memory.toList, hk]

end Container

end Sys2Proof.Machine
end

section
/-! The checks before any effect (30_encoding.md R94, 60_exceptions.md R333, R334): the steps of a command that is refused
raise in the accepted state. -/

namespace Sys2Proof.Machine

/-! ### BAD_COMMAND (R94) -/

/-- The steps of a command with a field or operand out of range raise BAD_COMMAND, before any effect. -/
theorem stepsOf_badOperand {i : Instr} {s : State} (h : badOperand s i) :
    stepsOf i s = .error (.raise .badCommand) s := by
  cases i with
  | tblRead tbl | defEncChunk final | gzCompress fn => exact (raiseIf_bind _ _ _ s).trans (if_pos h)
  | tblWrite tbl => exact tblWriteSteps_refused h
  | bwBits n => exact bwBitsSteps_refused h s
  | bwBitsR n => exact bwBitsRSteps_refused h s
  | brBits n => exact brBitsSteps_refused h s
  | winFind => exact winFindSteps_refused h
  | hufBuild sel limit =>
    cases sel with
    | illegal => rfl
    | ll | d | cl => exact (raiseIf_bind _ _ _ s).trans (if_pos (h.resolve_left nofun))
  | hufCanon sel | hufDecode sel =>
    obtain rfl : sel = .illegal := h
    rfl
  | clPack => exact clPackSteps_refused h
  | clUnpack => exact (raiseIf_bind _ _ _ s).trans (if_pos ((badOperand_clUnpack_iff s).1 h))
  | gzWrHeader fn => exact gzWrHeaderSteps_refused h
  | nop | reset | clearErr | streamInit | bwFlush | bwByte | bwShort | bwInt => exact h.elim
  | brByte | brShort | brInt | brAlign | crcInit | crcUpdate | winReset | winAdd => exact h.elim
  | hufFixed | defEncStream | defDecBlock | defDecStream | gzRdHeader | gzWrTrailer | gzRdTrailer | gzDecompress =>
    exact h.elim

/-! ### BAD_CONFIG (R333) -/

theorem checkEncoder_bad {s : State} (h : btypeSel s = 3 ∨ winLog2 s = 0) :
    checkEncoderConfig s = .error (.raise .badConfig) s := by
  rw [checkEncoderConfig, getState_bind, raiseIf_run, if_pos h]

/-- With legal operands, the steps of a command that reads an illegal configuration raise BAD_CONFIG, before any effect. -/
theorem stepsOf_badConfig {i : Instr} {s : State} (hop : ¬ badOperand s i) (h : badConfig s i) :
    stepsOf i s = .error (.raise .badConfig) s := by
  cases i with
  | winReset | winAdd | defDecBlock | defDecStream | gzDecompress => exact bind_error (checkWindow_bad h)
  | winFind => exact (raiseIf_bind _ _ _ s).trans ((if_neg hop).trans (bind_error (checkWindow_bad h)))
  | defEncStream => exact bind_error (checkEncoder_bad h)
  | defEncChunk final | gzCompress fn =>
    exact (raiseIf_bind _ _ _ s).trans ((if_neg hop).trans (bind_error (checkEncoder_bad h)))
  | nop | reset | clearErr | streamInit | tblRead _ | tblWrite _ | bwBits _ | bwBitsR _ => exact h.elim
  | bwFlush | bwByte | bwShort | bwInt | brBits _ | brByte | brShort | brInt | brAlign => exact h.elim
  | crcInit | crcUpdate | hufBuild _ _ | hufCanon _ | hufFixed | hufDecode _ => exact h.elim
  | clPack | clUnpack | gzWrHeader _ | gzRdHeader | gzWrTrailer | gzRdTrailer => exact h.elim

/-- RESET has neither operand nor configuration to check. -/
theorem exec_of_stepsRaise {i : Instr} {s : State} {e : ErrCode} (hi : i ≠ .reset)
    (h : stepsOf i s = .error (.raise e) s) : exec i s = .next (enterError e s) :=
  (exec_eq hi s).trans (runCommand_raise h)

/-- Settles O14: the checks come first in a command's steps (`stepsOf_badOperand`, `stepsOf_badConfig`). -/
theorem checks : Obligations.Checks := fun i s =>
  ⟨fun h => exec_of_stepsRaise (fun hi => by rw [hi] at h; exact h) (stepsOf_badOperand h),
    fun hop h => exec_of_stepsRaise (fun hi => by rw [hi] at h; exact h) (stepsOf_badConfig hop h)⟩

end Sys2Proof.Machine
end

section
/-! The commands of the bit writer where the host accepts no more (00_scope.md R15, 41_bitio.md R160): the bytes it accepts
are given, and the command holds before the next eighth bit. -/

namespace Sys2Proof.Machine

/-- How a writer command holds that puts `bits` where the host accepts `k` bytes more. -/
structure WriteHeld (bits : List Bool) (k : Nat) (s t : State) : Prop where
  holding : Holding s t
  room : t.outRoom = some 0
  commit : t.outCommit = s.outCommit
  given : t.outPort.length = s.outPort.length + k
  count : t.bytesOut = s.bytesOut + BitVec.ofNat 64 k
  pending : t.wcount = 7
  stream : streamBits t.outPort ++ pendingBits t =
    streamBits s.outPort ++ pendingBits s ++ bits.take (8 * k + 7 - s.wcount.toNat)

/-- The bits put before a hold are `k` bytes and seven bits. -/
theorem Full.put_length {s : State} {bits : List Bool} {k : Nat} (h : Full s bits.length k) :
    s.wcount.toNat + (bits.take (8 * k + 7 - s.wcount.toNat)).length = 8 * k + 7 := by
  obtain ⟨-, hk⟩ := h
  have hlt := s.wcount.isLt
  rw [List.length_take]
  omega

theorem exec_writeHeld {i : Instr} {bits : List Bool} {k : Nat} {s : State} (hi : i ≠ .reset) (hw : WriterOk s.toEngine)
    (hfull : Full s bits.length k)
    (h : stepsOf i s = .error .hold (putAll (bits.take (8 * k + 7 - s.wcount.toNat)) s)) :
    ∃ t, exec i s = .next t ∧ WriteHeld bits k s t := by
  have hwrote := wrote_putAll (bits.take (8 * k + 7 - s.wcount.toNat)) hw
  have hframe := frames_putAll (bits.take (8 * k + 7 - s.wcount.toNat)) s
  generalize putAll (bits.take (8 * k + 7 - s.wcount.toNat)) s = t at h hwrote hframe
  have hbytes : (s.wcount.toNat + (bits.take (8 * k + 7 - s.wcount.toNat)).length) / 8 = k := by
    rw [hfull.put_length]
    omega
  refine ⟨suspend i s t, (exec_eq hi s).trans (runCommand_hold h),
    ⟨rfl, rfl, rfl, rfl, hframe .errinfo (by decide), rfl⟩, ?_, hframe .outCommit (by decide), hwrote.given.trans (by rw [hbytes]),
    hwrote.count.trans (by rw [hbytes]), ?_, hwrote.stream⟩
  · refine hwrote.room.trans ?_
    rw [hbytes, roomAfter, hfull.1]
    simp
  · refine BitVec.eq_of_toNat_eq (hwrote.pending.1.trans ?_)
    rw [hfull.put_length]
    exact show (8 * k + 7) % 8 = 7 by omega

namespace BitFramer

/-- Settles O29: each command's steps put its bits until the host accepts no more (`writeBits_full`, `writeBitsR_full`,
`putOnes_full`). -/
theorem writeHolds : Obligations.WriteHolds := by
  intro i bits k s hw hi hroom hk
  have hfull : Full s bits.length k := ⟨hroom, hk⟩
  suffices h : i ≠ .reset ∧ stepsOf i s = .error .hold (putAll (bits.take (8 * k + 7 - s.wcount.toNat)) s) by
    obtain ⟨t, he, hheld⟩ := exec_writeHeld h.1 hw hfull h.2
    exact ⟨t, he, hheld.holding, hheld.room, hheld.commit, hheld.given, hheld.count, hheld.pending, hheld.stream⟩
  rcases hi with ⟨n, hn, ⟨rfl, rfl⟩ | ⟨rfl, rfl⟩⟩ | ⟨rfl, rfl⟩ | ⟨rfl, rfl⟩ | ⟨rfl, rfl⟩ | ⟨rfl, rfl⟩
  · rw [bitsOf_length] at hfull
    exact ⟨nofun, ((raiseIf_bind _ _ _ s).trans (if_neg (not_lt.2 hn))).trans (writeBits_full hfull)⟩
  · rw [bitsRev_length] at hfull
    exact ⟨nofun, ((raiseIf_bind _ _ _ s).trans (if_neg (not_lt.2 hn))).trans (writeBitsR_full hfull)⟩
  · rw [List.length_replicate] at hfull
    exact ⟨nofun, putOnes_full hfull⟩
  · rw [bitsOf_length] at hfull
    exact ⟨nofun, (writeBits_full hfull).trans (by rw [byteOperand, bitsOf_low 8])⟩
  · rw [bitsOf_length] at hfull
    exact ⟨nofun, (writeBits_full hfull).trans (by rw [shortOperand, bitsOf_low 16])⟩
  · rw [bitsOf_length] at hfull
    exact ⟨nofun, writeBits_full hfull⟩

end BitFramer

end Sys2Proof.Machine
end

section
/-! HUF_BUILD (44_huffman.md R221 to R225, R230): where the tree comes within the limit its depths are the lengths, and how
many leaves decide whether it does. -/

namespace Sys2Proof.Machine

/-! ### Depths as lengths (R223) -/

/-- A build's lengths are those that HUF_BUILD leaves in the table. -/
theorem lenAt_of_built {a : Alphabet} {limit : Nat} {lens : List Nat} {t : Tables} (hpos : 1 ≤ limit)
    (hlimit : limit ≤ 15)
    (hb : hufBuild (freqsOf t a) limit = .ok lens) {x : Nat} (hx : x < alphabetSize a) :
    lenAt (setLens t a lens) a x = lens.getD x 0 := by
  have built := hufBuild_built (two_le_freqsOf_length t a) hpos hlimit hb
  rw [← lensOf_getD hx, lensOf_setLens (built.length.trans (freqsOf_length _ _))
    fun l hl => (built.bounded l hl).trans hlimit]

/-- Each leaf's depth is the length of its symbol. -/
theorem treeLens_of_depth {n : Nat} {t : HufTree} (hn : t.syms.Nodup) {x : Nat × Nat} (hx : x ∈ t.depths 0)
    (hlt : x.1 < n) : (treeLens n t).getD x.1 0 = x.2 := by
  rw [treeLens_getD t hlt]
  exact depthOf_of_mem (by rw [depths_syms]; exact hn) hx

/-! ### How many leaves a limited tree has (R225) -/

/-- A tree within a limit has at most 2^limit leaves. -/
theorem syms_length_le {t : HufTree} {limit : Nat} (h : t.maxDepth ≤ limit) : t.syms.length ≤ 2 ^ limit := by
  have hkraft := depths_kraft t 0 limit fun x hx => ((maxDepth_spec t).1 x hx).trans h
  have hcount := List.length_le_sum_of_one_le ((t.depths 0).map fun x => 2 ^ (limit - x.2)) (by
    intro y hy
    obtain ⟨x, -, rfl⟩ := List.mem_map.1 hy
    exact Nat.one_le_two_pow)
  rw [hkraft, List.length_map, Nat.sub_zero] at hcount
  rw [← depths_syms t 0, List.length_map]
  exact hcount

/-- A build of more than 2^limit leaves raises. -/
theorem hufBuild_of_many {freq : List Nat} {limit : Nat} (hf : 2 ≤ freq.length) (hpos : 1 ≤ limit)
    (h : 2 ^ limit < (hufLeaves freq).length) : hufBuild freq limit = .error (.raise .hufConstruct) := by
  rcases hufBuild_cases hf hpos with ⟨t, -, hperm, hdepth⟩ | ⟨hb, -⟩
  · have hlen := hperm.length_eq
    rw [List.length_map] at hlen
    have hle := syms_length_le hdepth
    omega
  · exact hb

/-! ### The statement -/

section
variable {sel : Sel} {a : Alphabet} {limit : Nat} {s : State} (ha : selAlphabet sel = some a)
include ha

theorem hufBuild_completes {lens : List Nat} (hl : limit ≠ 0) (hb : hufBuild (freqsOf s.tables a) limit = .ok lens) :
    ∃ t, exec (.hufBuild sel limit) s = .next t ∧ Completed s t :=
  ⟨_, exec_hufBuild_built ha hl hb,
    completed_of_frames (setLens_frames a lens s) (by cases a <;> decide) (by cases a <;> decide)⟩

theorem hufBuild_raises (hl : limit ≠ 0) (hb : hufBuild (freqsOf s.tables a) limit = .error (.raise .hufConstruct)) :
    ∃ t, exec (.hufBuild sel limit) s = .next t ∧ Raised .hufConstruct s t :=
  ⟨_, exec_hufBuild_raises ha hl hb, raised_of_frames (scrambleLens_frames a s) (by cases a <;> decide)⟩

end

namespace HuffmanUnit

/-- Settles O36: the build relates its leaves, merges and turns (`hufBuild_relates`), and the number of leaves bounds both
ends (`hufBuild_ok`, `hufBuild_of_many`). -/
theorem hufBuild : Obligations.HufBuild := by
  intro sel limit s hlimit
  refine ⟨fun hbad => exec_of_stepsRaise nofun (stepsOf_badOperand (i := .hufBuild sel limit) hbad), fun hl a ha => ?_⟩
  have hfreq := two_le_freqsOf_length s.tables a
  have hpos : 1 ≤ limit := Nat.one_le_iff_ne_zero.2 hl
  have hleaves : (hufLeaves (freqsOf s.tables a)).length =
      max 2 ((freqsOf s.tables a).filter (fun f => f > 0)).length := by
    rw [← (hufLeaves_length _ hfreq).2, List.length_map]
  refine ⟨?_, fun hfew => ?_, fun hmany => ?_⟩
  · obtain ⟨queue, tree, tree', hqueue, hmerged, hturns, hend⟩ := hufBuild_relates hfreq hpos
    rw [freqsOf_length] at hmerged
    rcases hend with ⟨hb, hn, hdepth, hsyms⟩ | ⟨hb, hstuck⟩
    · have hlens := fun {x} => lenAt_of_built (x := x) hpos (Nat.le_of_lt_succ hlimit) hb
      refine ⟨queue, tree, tree', _, hqueue, hmerged, hturns, exec_hufBuild_built ha hl hb,
        .inl ⟨completed_of_frames (setLens_frames a _ s) (by cases a <;> decide) (by cases a <;> decide),
          fun x hx => ⟨((maxDepth_spec tree').1 x hx).trans hdepth, ?_⟩, fun x hx hleaf => ?_⟩⟩
      · have hlt := ((hsyms x.1).1 (mem_syms_of_mem_depths hx)).1
        exact (hlens (by rwa [← freqsOf_length s.tables a])).trans (treeLens_of_depth hn hx hlt)
      · exact (hlens hx).trans ((treeLens_spec hn x (by rwa [freqsOf_length])).2 fun h => hleaf ((hsyms x).1 h))
    · obtain ⟨t, ht, hraised⟩ := hufBuild_raises ha hl hb
      exact ⟨queue, tree, tree', t, hqueue, hmerged, hturns, ht, .inr ⟨hraised, hstuck⟩⟩
  · obtain ⟨t, hb, -⟩ := hufBuild_ok hfreq hpos (by rw [hleaves]; exact hfew)
    exact hufBuild_completes ha hl hb
  · exact hufBuild_raises ha hl (hufBuild_of_many hfreq hpos (by rw [hleaves]; exact hmany))

end HuffmanUnit

end Sys2Proof.Machine
end

section
/-! CL_UNPACK (44_huffman.md R235): the entries are expanded one by one, and the length tables written only where they expand
to the announced number of lengths. -/

namespace Sys2Proof.Machine

/-! ### Entries (R235) -/

section
variable {total sym x rep v : Nat} {seq : List Nat} {e : BitVec 16} {rest : List (BitVec 16)}

/-- What an expansion goes on with after a run of `rep` lengths `v`. -/
def unpackRun (total : Nat) (seq : List Nat) (rest : List (BitVec 16)) (rep v : Nat) : Except ErrCode (List Nat) :=
  if total < seq.length + rep then .error .badCodelengths else clUnpack total (seq ++ List.replicate rep v) rest

/-- An entry whose symbol stands for a run goes on with it, where the run fits. -/
theorem clUnpack_run
    (h : expandSymbol total seq (packedSym e) (packedExtra e % 2 ^ extraBits (packedSym e)) =
      if seq.length + rep > total then .error .badCodelengths else .ok (seq ++ List.replicate rep v)) :
    clUnpack total seq (e :: rest) = unpackRun total seq rest rep v := by
  rw [clUnpack, h, unpackRun]
  by_cases hover : total < seq.length + rep
  · rw [if_pos hover, if_pos hover]
  · rw [if_neg hover, if_neg hover]

/-- An entry whose symbol is an error ends the expansion. -/
theorem clUnpack_stop {c : ErrCode}
    (h : expandSymbol total seq (packedSym e) (packedExtra e % 2 ^ extraBits (packedSym e)) = .error c) :
    clUnpack total seq (e :: rest) = .error c := by
  rw [clUnpack, h]

theorem expandSymbol_run_length (h : sym ≤ 15) :
    expandSymbol total seq sym x =
      if seq.length + 1 > total then .error .badCodelengths else .ok (seq ++ List.replicate 1 sym) := by
  simp only [expandSymbol, if_pos h]

theorem expandSymbol_run_last (h : seq.getLast? = some v) :
    expandSymbol total seq 16 x =
      if seq.length + (3 + x) > total then .error .badCodelengths else .ok (seq ++ List.replicate (3 + x) v) := by
  simp [expandSymbol, h]

theorem expandSymbol_no_last : expandSymbol total [] 16 x = .error .badCodelengths := rfl

theorem expandSymbol_run_zeros :
    expandSymbol total seq 17 x =
      if seq.length + (3 + x) > total then .error .badCodelengths else .ok (seq ++ List.replicate (3 + x) 0) := rfl

theorem expandSymbol_run_long_zeros :
    expandSymbol total seq 18 x =
      if seq.length + (11 + x) > total then .error .badCodelengths else .ok (seq ++ List.replicate (11 + x) 0) := rfl

theorem expandSymbol_illegal (h : 19 ≤ sym) : expandSymbol total seq sym x = .error .badSymbol := by
  simp [expandSymbol, show ¬ sym ≤ 15 by omega, show sym ≠ 16 by omega, show sym ≠ 17 by omega, show sym ≠ 18 by omega]

/-- The lengths an expansion ends with number as announced, and each fits a LEN entry. -/
theorem clUnpack_ok {entries : List (BitVec 16)} {seq' : List Nat} (h : clUnpack total seq entries = .ok seq')
    (hle : seq.length ≤ total) (hl : ∀ l ∈ seq, l ≤ 15) : seq'.length = total ∧ ∀ l ∈ seq', l ≤ 15 := by
  induction entries generalizing seq with
  | nil =>
    rw [clUnpack] at h
    split at h
    · cases h
    · cases h
      exact ⟨by omega, hl⟩
  | cons e rest ih =>
    rw [clUnpack] at h
    split at h
    · cases h
    next seq1 hstep =>
      obtain ⟨-, hle1, -, hl1⟩ := expandSymbol_ok hstep
      exact ih h hle1 (hl1 hl)

/-- The errors of an expansion. -/
theorem clUnpack_error {entries : List (BitVec 16)} {c : ErrCode} (h : clUnpack total seq entries = .error c) :
    c = .badCodelengths ∨ c = .badSymbol := by
  induction entries generalizing seq with
  | nil =>
    rw [clUnpack] at h
    split at h
    · cases h
      exact .inl rfl
    · cases h
  | cons e rest ih =>
    rw [clUnpack] at h
    split at h
    next c' hstep =>
      cases h
      exact expandSymbol_error hstep
    · exact ih h

end

/-! ### The command -/

/-- Where the packed symbols are in error, CL_UNPACK raises and writes nothing. -/
theorem exec_clUnpack_error {s : State} {e : ErrCode} (h : ¬ badOperand s .clUnpack)
    (hseq : clUnpack (s.arg0.toNat + s.arg1.toNat) [] (s.tables.packed.toList s.arg2.toNat) = .error e) :
    exec .clUnpack s = .next (enterError e s) := by
  refine runCommand_raise (i := .clUnpack) (steps := clUnpackSteps) ?_
  refine (raiseIf_bind _ _ _ s).trans ((if_neg fun hbad => h ((badOperand_clUnpack_iff s).2 hbad)).trans ?_)
  simp only [natOperand, hseq]
  rfl

namespace HuffmanUnit

/-- Settles O44: CL_UNPACK writes what its entries expand to, and each entry expands by its symbol. -/
theorem clUnpack : Obligations.ClUnpack := by
  refine ⟨fun s => ⟨fun h => exec_of_stepsRaise nofun (stepsOf_badOperand h),
      fun h => ⟨fun seq hseq => ?_, fun e he => ?_⟩⟩,
    fun _ _ => rfl, fun total seq e rest => ?_⟩
  · obtain ⟨hlen, hle⟩ := clUnpack_ok hseq (Nat.zero_le _) (by simp)
    exact ⟨_, exec_clUnpack_ok h hseq, splitLens_completed _ _ _ s, hlen, fun _ hk => lenAt_splitLens_ll hle hk,
      fun _ hk => lenAt_splitLens_d hle hk⟩
  · exact ⟨clUnpack_error he, exec_clUnpack_error h he⟩
  · dsimp only
    rw [← packedSym_eq, ← packedExtra_eq]
    refine ⟨fun h => clUnpack_run (expandSymbol_run_length h), fun h hnil => clUnpack_stop ?_,
      fun h v hlast => clUnpack_run ?_,
      fun h => clUnpack_run ?_, fun h => ?_, fun h => clUnpack_stop (expandSymbol_illegal h)⟩
    · rw [h, hnil]
      exact expandSymbol_no_last
    · rw [h]
      exact expandSymbol_run_last hlast
    · rw [h]
      exact expandSymbol_run_zeros
    · have hx : packedExtra e % 2 ^ extraBits (packedSym e) = packedExtra e := by
        rw [h]
        exact Nat.mod_eq_of_lt (e.extractLsb' 8 7).isLt
      refine clUnpack_run ?_
      rw [hx, h]
      exact expandSymbol_run_long_zeros

end HuffmanUnit

end Sys2Proof.Machine
end

section
/-! What the commands' writes to the tables keep: every table stays in canonical form and within its entries, and the unused
bits of PACKED stay 0 (10_state.md R36, R41). -/

namespace Sys2Proof.Machine

namespace Tables.Ok

section
variable {p : Config.Params} {t : Tables} (h : Tables.Ok p t)
include h

theorem setLens (a : Alphabet) {lens : List Nat} (hl : lens.length ≤ alphabetSize a) :
    Tables.Ok p (Machine.setLens t a lens) := by
  have hfits : (Memory.ofList (lens.map (BitVec.ofNat 4))).fits (alphabetSize a) := ofList_fits (by rwa [List.length_map])
  cases a with
  | ll => exact { h with lenLL := hfits }
  | d => exact { h with lenD := hfits }
  | cl => exact { h with lenCL := hfits }

theorem canon (a : Alphabet) : Tables.Ok p (canonTables a t) := by
  have hfits : (Memory.ofList ((hufCanon (lensOf t a)).map (BitVec.ofNat 32))).fits (alphabetSize a) :=
    ofList_fits (by rw [List.length_map, (hufCanon_spec _).1, lensOf_length])
  cases a with
  | ll => exact { h with codeLL := hfits }
  | d => exact { h with codeD := hfits }
  | cl => exact { h with codeCL := hfits }

theorem fixed : Tables.Ok p (fixedTables t) :=
  (((h.setLens .ll (by simp [alphabetSize])).setLens .d (by simp [alphabetSize])).canon .ll).canon .d

theorem splitLens (nll nd : Nat) (seq : List Nat) : Tables.Ok p (Machine.splitLens nll nd seq t) :=
  (h.setLens .ll (by simp [alphabetSize])).setLens .d (by simp [alphabetSize])

theorem clearCL : Tables.Ok p { t with lenCL := .zeros 4 } := { h with lenCL := zeros_fits _ }

theorem metaLen {sym : Nat} (hs : sym < Config.clSize) (v : BitVec 4) :
    Tables.Ok p { t with lenCL := t.lenCL.write sym v } := { h with lenCL := write_fits h.lenCL hs v }

theorem nameByte {k : Nat} (hk : k < p.fnameMax) (b : Byte) : Tables.Ok p { t with fname := t.fname.write k b } :=
  { h with fname := write_fits h.fname hk b }

theorem chunkByte {k : Nat} (hk : k < p.chunkSize) (b : Byte) : Tables.Ok p { t with chunk := t.chunk.write k b } :=
  { h with chunk := write_fits h.chunk hk b }

theorem windowByte {k : Nat} (hk : k < Config.windowSize) (b : Byte) :
    Tables.Ok p { t with window := t.window.write k b } := { h with window := write_fits h.window hk b }

theorem clearFreqs : Tables.Ok p { t with freqLL := .zeros 32, freqD := .zeros 32 } :=
  { h with freqLL := zeros_fits _, freqD := zeros_fits _ }

theorem countLL {sym : Nat} (hs : sym < Config.llSize) : Tables.Ok p (Machine.countLL sym t) :=
  { h with freqLL := write_fits h.freqLL hs _ }

theorem countD {sym : Nat} (hs : sym < Config.dSize) : Tables.Ok p (Machine.countD sym t) :=
  { h with freqD := write_fits h.freqD hs _ }

/-- Entries of PACKED whose unused bits are 0 keep them 0. -/
theorem setPacked {m : Memory 16} (hfits : m.fits Config.packedMax) (hbits : ∀ k, m.read k &&& ~~~packedMask = 0) :
    Tables.Ok p { t with packed := m } := { h with packed := hfits, packedBits := hbits }

/-- TBL_WRITE of an entry that the table has (40_control.md R146). -/
theorem writeEntry {tbl : TableId} {k : Nat} (hro : readOnlyTable tbl = false) (hk : k < entries p tbl) (v : Word) :
    Tables.Ok p (Machine.writeEntry t k v tbl) := by
  cases tbl with
  | chunk => exact h.chunkByte hk _
  | freqLL => exact { h with freqLL := write_fits h.freqLL hk _ }
  | freqD => exact { h with freqD := write_fits h.freqD hk _ }
  | freqCL => exact { h with freqCL := write_fits h.freqCL hk _ }
  | lenLL => exact { h with lenLL := write_fits h.lenLL hk _ }
  | lenD => exact { h with lenD := write_fits h.lenD hk _ }
  | lenCL => exact h.metaLen hk _
  | codeLL => exact { h with codeLL := write_fits h.codeLL hk _ }
  | codeD => exact { h with codeD := write_fits h.codeD hk _ }
  | codeCL => exact { h with codeCL := write_fits h.codeCL hk _ }
  | packed =>
    refine h.setPacked (write_fits h.packed hk _) fun j => ?_
    by_cases hj : j = k
    · subst hj
      rw [read_write_same, BitVec.and_assoc, BitVec.and_not_self]
      exact BitVec.and_zero
    · rw [read_write_other _ _ hj]
      exact h.packedBits j
  | fname => exact h.nameByte hk _
  | window | crcTable | lenRange | distRange => cases hro

end

end Tables.Ok

/-! ### PACKED (44_huffman.md R234) -/

theorem packedEntry_masked {x : Nat × Nat} (h : x.1 < 19 ∧ x.2 < 2 ^ extraBits x.1) :
    packedEntry x &&& ~~~packedMask = 0 := by
  obtain ⟨h1, h2⟩ := packed_bound h
  have hsplit : packedEntry x = BitVec.ofNat 16 (2 ^ 8 * x.2) ||| BitVec.ofNat 16 x.1 := by
    rw [packedEntry, Nat.mul_comm, Nat.two_pow_add_eq_or_of_lt (by omega), BitVec.ofNat_or]
  have hsym : ∀ a : Fin 32, BitVec.ofNat 16 a.val &&& ~~~packedMask = 0 := by decide
  have hextra : ∀ b : Fin 128, BitVec.ofNat 16 (2 ^ 8 * b.val) &&& ~~~packedMask = 0 := by decide
  rw [hsplit, BitVec.and_or_distrib_right, hsym ⟨x.1, h1⟩, hextra ⟨x.2, h2⟩]
  rfl

/-- Packing as many lengths as PACKED has entries keeps the tables. -/
theorem Tables.Ok.packTables {p : Config.Params} {t : Tables} (h : Tables.Ok p t) {nll nd : Nat}
    (hn : nll + nd ≤ Config.packedMax) : Tables.Ok p (Machine.packTables nll nd t).1 := by
  have hpacks := clPack_packs (seq := (lensOf t .ll).take nll ++ (lensOf t .d).take nd) (fun l hl =>
    (List.mem_append.1 hl).elim (fun hl => lensOf_le t .ll l (List.mem_of_mem_take hl))
      fun hl => lensOf_le t .d l (List.mem_of_mem_take hl)) []
  have hlen : (clPack ((lensOf t .ll).take nll ++ (lensOf t .d).take nd)).length ≤ Config.packedMax := by
    refine hpacks.short.trans (le_trans ?_ hn)
    rw [List.length_append, List.length_take, List.length_take]
    omega
  have hpacked := h.setPacked (m := t.packed.writeList 0
      ((clPack ((lensOf t .ll).take nll ++ (lensOf t .d).take nd)).map packedEntry))
    (writeList_fits _ h.packed (by rw [List.length_map]; omega)) fun k => ?_
  · exact { hpacked with freqCL := ofList_fits (by simp) }
  · by_cases hk : k < ((clPack ((lensOf t .ll).take nll ++ (lensOf t .d).take nd)).map packedEntry).length
    · have hread := read_writeList _ t.packed (k := 0) hk
      rw [Nat.zero_add] at hread
      rw [hread, List.getD_eq_getElem _ _ hk, List.getElem_map]
      exact packedEntry_masked (hpacks.legal _ (List.getElem_mem _))
    · rw [read_writeList_other _ _ (.inr (by omega))]
      exact h.packedBits k

/-! ### Building codes (44_huffman.md R226) -/

theorem treeLens_le (freq : List Nat) (t : HufTree) : (treeLens freq.length t).length ≤ freq.length :=
  (treeLens_length _ t).le

/-- A build gives a length to each symbol of the alphabet, and raises nothing but HUF_CONSTRUCT. -/
theorem buildLens_cases {a : Alphabet} {limit : Nat} (hl : limit ≠ 0) (s : State) :
    (∃ lens, buildLens a limit s = .ok () { s with tables := setLens s.tables a lens } ∧
      lens.length ≤ alphabetSize a) ∨
      buildLens a limit s = .error (.raise .hufConstruct) s := by
  rcases hufBuild_cases (two_le_freqsOf_length s.tables a) (Nat.one_le_iff_ne_zero.2 hl) with ⟨t, hb, -⟩ | ⟨hb, -⟩
  · exact .inl ⟨treeLens _ t, by rw [buildLens, hb], (treeLens_le _ t).trans (freqsOf_length _ _).le⟩
  · exact .inr (by rw [buildLens, hb])

end Sys2Proof.Machine
end

section
/-! What every command's steps keep, said once for all commands: a property that is kept by what the steps are made of
(`Keeps`) holds where the steps end or hold, and a weaker one where they raise; what they raise is what 60_exceptions.md R331
lists. -/

namespace Sys2Proof.Machine

/-! ### How steps end -/

/-- From a state with `I`, the steps end or hold in one with `I`, raise in one with `J`, and stop only with `E`. -/
structure Ends {α : Type} (I J : State → Prop) (E : Stop → Prop) (x : Exec α) : Prop where
  ok : ∀ {s a t}, I s → x s = .ok a t → I t
  raise : ∀ {s e t}, I s → x s = .error (.raise e) t → J t
  hold : ∀ {s t}, I s → x s = .error .hold t → I t
  stop : ∀ {s e t}, I s → x s = .error e t → E e

section
variable {α β : Type} {I J : State → Prop} {E : Stop → Prop}

theorem Good.ends {x : Exec α} (h : Good I E x) (hIJ : ∀ {s}, I s → J s) : Ends I J E x where
  ok hs hx := h.ok hs hx
  raise hs hx := hIJ (h.error hs hx).1
  hold hs hx := (h.error hs hx).1
  stop hs hx := (h.error hs hx).2

theorem Ends.bind {x : Exec α} {f : α → Exec β} (hx : Ends I J E x) (hf : ∀ a, Ends I J E (f a)) :
    Ends I J E (x >>= f) := by
  constructor <;> intro s
  · intro b t hs h
    rcases bind_cases x f s with ⟨a, u, hu, hrun⟩ | ⟨e, u, hu, hrun⟩ <;> rw [hrun] at h
    · exact (hf a).ok (hx.ok hs hu) h
    · cases h
  all_goals
    intros
    rename_i hs h
    rcases bind_cases x f s with ⟨a, u, hu, hrun⟩ | ⟨e, u, hu, hrun⟩ <;> rw [hrun] at h
  · exact (hf a).raise (hx.ok hs hu) h
  · cases h
    exact hx.raise hs hu
  · exact (hf a).hold (hx.ok hs hu) h
  · cases h
    exact hx.hold hs hu
  · exact (hf a).stop (hx.ok hs hu) h
  · cases h
    exact hx.stop hs hu

/-- What a failing command leaves unspecified is put into effect only where its steps raise. -/
theorem Ends.leaving {x : Exec α} {f : State → State} (h : Ends I J E x) (hf : ∀ {s}, J s → J (f s)) :
    Ends I J E (leavingUnspecified f x) := by
  constructor <;> intros <;> rename_i hs hrun <;> unfold leavingUnspecified at hrun <;> split at hrun
  · cases hrun
  · exact h.ok hs hrun
  · cases hrun
    exact hf (h.raise hs ‹_›)
  · rename_i hne
    exact absurd hrun (hne _ _)
  · cases hrun
  · exact h.hold hs hrun
  · cases hrun
    exact h.stop hs ‹_›
  · exact h.stop hs hrun

/-- Steps whose stops are known keep what they keep, with those stops. -/
theorem Good.stopping {x : Exec α} (h : Good I anyStop x) (hE : ∀ {s e t}, x s = .error e t → E e) : Good I E x := by
  refine ⟨fun s hs => ?_⟩
  have hrun := h.run s hs
  cases hx : x s with
  | ok a t =>
    rw [hx] at hrun
    exact hrun
  | error e t =>
    rw [hx] at hrun
    exact ⟨hrun.1, hE hx⟩

/-- A look at the state, and a change of that state. -/
theorem Good.lookChange {f : State → State → State} {g : State → Unit → Exec β} (hf : ∀ {s}, I s → I (f s s))
    (hg : ∀ s, Good I E (g s ())) : Good I E (getState >>= fun s => Machine.change (f s) >>= g s) :=
  ⟨fun s hs => (hg s).run (f s s) (hf hs)⟩

/-- What follows a check may use that it has passed. -/
theorem Good.guarded {c : Prop} [Decidable c] {e : ErrCode} {f : Unit → Exec β} (he : E (.raise e))
    (hf : ¬ c → Good I E (f ())) : Good I E (Machine.raiseIf c e >>= f) := by
  by_cases hc : c
  · rw [Machine.raiseIf, if_pos hc]
    exact raise_bind_good f he
  · rw [Machine.raiseIf, if_neg hc]
    exact (Good.pure ()).bind fun _ => hf hc

/-- What follows a check of the state may use that it has passed. -/
theorem Good.checked {c : State → Prop} [∀ s, Decidable (c s)] {e : ErrCode} {f : State → Unit → Exec β}
    (he : E (.raise e)) (hf : ∀ {s}, I s → ¬ c s → Good I E (f s ())) :
    Good I E (getState >>= fun s => Machine.raiseIf (c s) e >>= f s) :=
  ⟨fun s hs => (Good.guarded he (hf hs)).run s hs⟩

/-- A change after a check of the state it changes. -/
theorem Good.checkedChange {c : State → Prop} [∀ s, Decidable (c s)] {e : ErrCode} {f : State → State → State}
    {g : State → Unit → Exec β} (he : E (.raise e)) (hf : ∀ {s}, I s → ¬ c s → I (f s s))
    (hg : ∀ s, Good I E (g s ())) :
    Good I E (getState >>= fun s => Machine.raiseIf (c s) e >>= fun _ => Machine.change (f s) >>= g s) := by
  refine ⟨fun s hs => ?_⟩
  rw [getState_bind, raiseIf_bind]
  by_cases hc : c s
  · rw [if_pos hc]
    exact ⟨hs, he⟩
  · rw [if_neg hc]
    exact (hg s).run (f s s) (hf hs hc)

theorem Ends.guarded {c : Prop} [Decidable c] {e : ErrCode} {f : Unit → Exec β} (hIJ : ∀ {s}, I s → J s)
    (he : E (.raise e)) (hf : ¬ c → Ends I J E (f ())) : Ends I J E (Machine.raiseIf c e >>= f) := by
  by_cases hc : c
  · rw [Machine.raiseIf, if_pos hc]
    exact (raise_bind_good f he).ends hIJ
  · rw [Machine.raiseIf, if_neg hc]
    exact ((Good.pure ()).ends hIJ).bind fun _ => hf hc

/-- A property that steps change only within a frame is kept. -/
theorem Good.of_frames {F : List Field} {x : Exec α} (hI : ∀ {s t}, I s → Frames F s t → I t)
    (h : ∀ s, Frames F s (after (x s))) : Good I anyStop x := by
  refine ⟨fun s hs => ?_⟩
  have hrun := hI hs (h s)
  cases hx : x s with
  | ok a t =>
    rw [hx] at hrun
    exact hrun
  | error e t =>
    rw [hx] at hrun
    exact ⟨hrun, trivial⟩

end

/-! ### What may stop the steps -/

/-- A stop that raises, if any, one of the errors listed. -/
def stopIn (l : List ErrCode) (e : Stop) : Prop := ∀ c, e = .raise c → c ∈ l

theorem stopIn_raise {l : List ErrCode} {c : ErrCode} (h : c ∈ l) : stopIn l (.raise c) := fun _ he => by
  cases he
  exact h

theorem stopIn_hold (l : List ErrCode) : stopIn l .hold := nofun

theorem stopIn_bound (l : List ErrCode) : stopIn l .bound := nofun

section
variable {s t : State} {e : Stop} {l : List ErrCode}

theorem outWrite_stop {b : Byte} (h : outWrite b s = .error e t) : stopIn l e := by
  unfold outWrite at h
  split at h <;> cases h
  exact stopIn_hold l

theorem inRead_stop (hl : .ioEof ∈ l) (h : inRead s = .error e t) : stopIn l e := by
  unfold inRead at h
  split at h
  · cases h
  · split at h <;> cases h
    · exact stopIn_raise hl
    · exact stopIn_hold l

theorem inAtEnd_stop (h : inAtEnd s = .error e t) : stopIn l e := by
  unfold inAtEnd at h
  split at h
  · cases h
  · split at h <;> cases h
    exact stopIn_hold l

/-- Filling CHUNK reads where there is a byte, so it stops on an open port alone. -/
theorem fillChunk_stop {room n : Nat} (h : fillChunk room n s = .error e t) : stopIn l e := by
  induction room generalizing n s with
  | zero => cases h
  | succ room ih =>
    unfold fillChunk at h
    cases hp : s.inPort with
    | nil =>
      rcases bind_cases inAtEnd _ s with ⟨b, u, hu, hrun⟩ | ⟨e', u, hu, hrun⟩ <;> rw [hrun] at h
      · have hb : b = true := by
          unfold inAtEnd at hu
          rw [hp] at hu
          dsimp only at hu
          split at hu <;> cases hu
          rfl
        subst hb
        cases h
      · cases h
        exact inAtEnd_stop hu
    | cons b rest =>
      rw [bind_ok (inAtEnd_more hp), if_neg (by decide), bind_ok (show inRead s = .ok b _ by rw [inRead, hp])] at h
      exact ih h

theorem getBit_stop (hl : .ioEof ∈ l) (h : getBit s = .error e t) : stopIn l e := by
  cases hu : unreadBits s with
  | nil =>
    rw [getBit_dry hu] at h
    cases h
    unfold dryStop
    split
    · exact stopIn_raise hl
    · exact stopIn_hold l
  | cons b rest =>
    rw [getBit_ok hu] at h
    cases h

theorem putBit_stop {b : Bool} (h : putBit b s = .error e t) : stopIn l e := by
  unfold putBit at h
  rw [getState_bind] at h
  split at h
  · rcases bind_cases (outWrite (pushBit s.wbuf s.wcount b)) _ s with ⟨a, u, -, hrun⟩ | ⟨e', u, hu, hrun⟩
    · rw [hrun] at h
      cases h
    · rw [hrun] at h
      cases h
      exact outWrite_stop hu
  · cases h

theorem emitByte_stop {b : Byte} (h : emitByte b s = .error e t) : stopIn l e := by
  unfold emitByte at h
  rcases bind_cases (outWrite b) _ s with ⟨a, u, -, hrun⟩ | ⟨e', u, hu, hrun⟩
  · rw [hrun] at h
    cases h
  · rw [hrun] at h
    cases h
    exact outWrite_stop hu

theorem buildDynamic_stop (h : buildDynamic s = .error e t) : stopIn l e := by
  obtain ⟨ll, d, cl, p, u, hu, -⟩ := buildDynamic_ok s
  rw [hu] at h
  cases h

end

/-! ### What the steps are made of -/

/-- What none of the properties below speaks of: results, flags of STATUS, registers, the CRC and the count of bytes. -/
def quietFields : List Field :=
  [.bfinalSeen, .fnameTrunc, .res0, .res1, .crcState, .rawCount, .gzHeader, .gzTrailer]

/-- A property `I` that everything a command's steps are made of keeps, and the weaker `J` of a state with what a failing
command leaves unspecified. `p` and `b` are the parameters and BTYPE_SEL of the states; output is committed only by a command
that may (`commits`). -/
structure Keeps (p : Config.Params) (b : Nat) (commits : Prop) (I J : State → Prop) : Prop where
  params : ∀ {s}, I s → s.params = p
  btype : ∀ {s}, I s → btypeSel s = b
  quiet : ∀ {s t}, I s → Frames quietFields s t → I t
  bit : Good I anyStop getBit
  align : Good I anyStop alignIn
  put : ∀ b, Good I anyStop (putBit b)
  give : ∀ b, Good I anyStop (outWrite b)
  take : Good I anyStop inRead
  atEnd : Good I anyStop inAtEnd
  commit : commits → ∀ {s}, I s → I (commitOutput s)
  winReset : ∀ {s}, I s → I { s with wcur := 0, wvalid := 0 }
  winAdd : ∀ {s}, I s → ∀ b, I (winAdd b s)
  tokenize : ∀ {s n}, I s → n ≤ p.chunkSize → I (tokenize n s)
  tables : ∀ {s t}, I s → (Tables.Ok p s.tables → Tables.Ok p t) → I { s with tables := t }
  fails : ∀ {s}, I s → J s
  unspecified : ∀ {s}, J s → J (scrambleDecoder s) ∧ J (scrambleName s) ∧ J (scrambleHeader s) ∧
    J (scrambleTrailer s) ∧
    ∀ a, J (scrambleLens a s)

namespace Keeps

section
variable {p : Config.Params} {b : Nat} {commits : Prop} {I J : State → Prop} {l : List ErrCode}
  (h : Keeps p b commits I J)
include h

theorem changes {f : State → State} (hf : ∀ s, Frames quietFields s (f s)) : Good I (stopIn l) (Machine.change f) :=
  Good.change fun s hs => h.quiet hs (hf s)

theorem res0 {s : State} (hs : I s) (v : Word) : I (setRes0 v s) := h.quiet hs ((frames_res0 v s).mono (by decide))

theorem res1 {s : State} (hs : I s) (v : Word) : I (setRes1 v s) := h.quiet hs ((frames_res1 v s).mono (by decide))

theorem streamInit {s : State} (hs : I s) : I (Machine.streamInit s) :=
  h.quiet (h.winReset hs) (t := Machine.streamInit s) (((frames_crc 0xFFFFFFFF#32 _).mono (by decide)).trans
    (((frames_raw 0 _).mono (by decide)).trans ((frames_bfinal false _).mono (by decide))))

theorem winAddAll {s : State} (hs : I s) (bytes : List Byte) : I (Machine.winAddAll bytes s) := by
  induction bytes generalizing s with
  | nil => exact hs
  | cons b bytes ih => exact ih (h.winAdd hs b)

theorem writer : WriterGood I (stopIn l) := fun b => (h.put b).stopping putBit_stop

/-- The aligner stops on nothing. -/
theorem aligner : Good I (stopIn l) alignIn := h.align.stopping fun hx => by cases hx

theorem reader (hl : .ioEof ∈ l) : ReaderGood I (stopIn l) where
  bit := h.bit.stopping (getBit_stop hl)
  align := h.aligner

theorem emit (v : Byte) : Good I (stopIn l) (emitByte v) :=
  ((h.give v).stopping outWrite_stop).bind fun _ => Good.change fun s hs =>
    h.quiet (h.winAdd hs v) (((frames_crc _ _).mono (by decide)).trans ((frames_raw _ _).mono (by decide)))

theorem decoder (hc : commits) (hl : ∀ c ∈ decoderErrors, c ∈ l) : DecoderGood I (stopIn l) where
  toReaderGood := h.reader (hl _ (by decide))
  emit := h.emit
  bfinal v s hs := h.quiet hs ((frames_bfinal v s).mono (by decide))
  fixed s hs := h.tables hs Tables.Ok.fixed
  clearCL s hs := h.tables hs Tables.Ok.clearCL
  metaLen sym v s hsym hs := h.tables hs fun ht => ht.metaLen hsym v
  canon a s hs := h.tables hs fun ht => ht.canon a
  splitLens nll nd seq s hs := h.tables hs fun ht => ht.splitLens nll nd seq
  bound := stopIn_bound l
  storedLen := stopIn_raise (hl _ (by decide))
  badSymbol := stopIn_raise (hl _ (by decide))
  badCodelengths := stopIn_raise (hl _ (by decide))
  badDistance := stopIn_raise (hl _ (by decide))
  badBtype := stopIn_raise (hl _ (by decide))
  commit s hs := h.commit hc hs

theorem header (hl : ∀ c ∈ headerErrors, c ∈ l) : HeaderGood I (stopIn l) where
  toReaderGood := h.reader (hl _ (by decide))
  name k v s hk hs := h.tables hs fun ht => ht.nameByte (h.params hs ▸ hk) v
  bound := stopIn_bound l
  badMagic := stopIn_raise (hl _ (by decide))
  badMethod := stopIn_raise (hl _ (by decide))
  unsupportedFlags := stopIn_raise (hl _ (by decide))
  header flg mtime xfl os len trunc s hs := h.quiet hs ((frames_header flg mtime xfl os len trunc s).mono (by decide))

theorem trailer (hl : ∀ c ∈ trailerErrors, c ∈ l) : Good I (stopIn l) readTrailer :=
  readTrailer_good (h.reader (hl _ (by decide)))
    (fun crc isize s hs => h.quiet hs ((frames_trailer crc isize s).mono (by decide)))
    (stopIn_raise (hl _ (by decide))) (stopIn_raise (hl _ (by decide)))

/-- A build of a length table: it changes no other, and raises HUF_CONSTRUCT at most. -/
theorem buildLens {E : Stop → Prop} (hE : E (.raise .hufConstruct)) (a : Alphabet) {limit : Nat} (hlimit : limit ≠ 0) :
    Good I E (buildLens a limit) := by
  refine ⟨fun s hs => ?_⟩
  rcases buildLens_cases (a := a) hlimit s with ⟨lens, hrun, hlen⟩ | hrun
  · rw [hrun]
    exact h.tables hs fun ht => ht.setLens a hlen
  · rw [hrun]
    exact ⟨hs, hE⟩

theorem buildCodes (a : Alphabet) {limit : Nat} (hlimit : limit ≠ 0) : Good I anyStop (buildCodes a limit) :=
  (h.buildLens trivial a hlimit).bind fun _ => Good.tables fun _ hs => h.tables hs fun ht => ht.canon a

theorem buildDynamic : Good I (stopIn l) buildDynamic := by
  refine Good.stopping ?_ buildDynamic_stop
  have hpack : ∀ {s}, I s → I { s with tables := (packTables 286 30 s.tables).1 } := fun hs =>
    h.tables hs fun ht => ht.packTables (by decide)
  unfold Machine.buildDynamic
  exact (h.buildCodes .ll (by decide)).bind fun _ => (h.buildCodes .d (by decide)).bind fun _ =>
    Good.lookChange (f := fun s t => { t with tables := (packTables 286 30 s.tables).1 }) hpack fun _ =>
      (h.buildCodes .cl (by decide)).bind fun _ => Good.pure _

theorem encoder : EncoderGood p b I (stopIn l) where
  params s hs := h.params hs
  btype s hs := h.btype hs
  put := h.writer
  count bytes n s hs := h.quiet hs ((frames_count bytes n s).mono (by decide))
  window bytes s hs := h.winAddAll hs bytes
  tokenize _ n s hn hs := h.tokenize hs hn
  fixed _ s hs := h.tables hs Tables.Ok.fixed
  build _ _ := h.buildDynamic

theorem stream : StreamGood p b I (stopIn [.ioEof]) where
  toEncoderGood := h.encoder
  atEnd := h.atEnd.stopping inAtEnd_stop
  take := h.take.stopping (inRead_stop (by decide))
  fill k v s hk hs := h.tables hs fun ht => ht.chunkByte hk v
  bound := stopIn_bound _

theorem fillChunk {room n : Nat} (hn : n + room ≤ p.chunkSize) : Good I (stopIn l) (fillChunk room n) :=
  ((fillChunk_good h.stream room n hn).weaken fun _ _ => trivial).stopping fillChunk_stop

theorem encChunks (turns : Nat) : Good I (stopIn l) (encChunks turns) := by
  induction turns with
  | zero => exact Good.outOfBound (stopIn_bound l)
  | succ turns ih =>
    refine Good.look fun s hs => ?_
    rw [h.params hs]
    refine ((h.fillChunk (by omega)).bindOf fun s1 n t _ hx => ?_).run s hs
    have hn : n ≤ p.chunkSize := by
      have hcount := fillChunk_count hx
      omega
    exact (h.atEnd.stopping inAtEnd_stop).bind fun final => (encChunk_good h.encoder n final hn).bind fun _ =>
      Good.ite (fun _ => Good.pure ()) fun _ => ih

theorem encStreamBody : Good I (stopIn l) encStreamBody :=
  Good.look' fun _ => (h.encChunks _).bind fun _ => flush_good h.writer

end

end Keeps

/-! ### All commands -/

theorem alphabetOf_good {I : State → Prop} {E : Stop → Prop} (sel : Sel) (he : E (.raise .badCommand)) :
    Good I E (alphabetOf sel) := by
  cases sel with
  | illegal => exact Good.raise he
  | ll => exact Good.pure Alphabet.ll
  | d => exact Good.pure Alphabet.d
  | cl => exact Good.pure Alphabet.cl

namespace Keeps

section
variable {p : Config.Params} {b : Nat} {I J : State → Prop} {l : List ErrCode} {commits : Prop}
  (h : Keeps p b commits I J)
include h

theorem toRes0 (hl : .ioEof ∈ l) (n : Nat) : Good I (stopIn l) (readBitsToRes0 n) :=
  (readBits_good (h.reader hl) n).bind fun _ => Good.change fun _ hs => h.res0 hs _

theorem headerToRes (hl : ∀ c ∈ headerErrors, c ∈ l) : Ends I J (stopIn l) headerToRes :=
  (((readHeader_good (h.header hl)).bind fun _ => Good.change fun _ hs => h.res1 (h.res0 hs _) _).ends h.fails).leaving
    fun hs => (h.unspecified hs).2.1

end

/-- The steps of a command but CLEAR_ERR, which leaves ERROR, keep what everything they are made of keeps, and raise what
R331 lists for it. -/
theorem steps {p : Config.Params} {b : Nat} {I J : State → Prop} {i : Instr} (hi : i ≠ .reset) (hi' : i ≠ .clearErr)
    (h : Keeps p b (decodesBlocks i = true) I J) : Ends I J (stopIn (raises i)) (stepsOf i) := by
  have hIJ := fun {s} => h.fails (s := s)
  have raising := fun {c} => stopIn_raise (l := raises i) (c := c)
  cases i with
  | nop => exact (Good.pure ()).ends hIJ
  | reset => exact absurd rfl hi
  | clearErr => exact absurd rfl hi'
  | streamInit => exact (Good.change fun _ hs => h.streamInit hs).ends hIJ
  | tblRead tbl =>
    exact (Good.checked (raising (by simp [raises])) fun _ _ => Good.change (by exact fun _ hs => h.res0 hs _)).ends hIJ
  | tblWrite tbl =>
    refine Good.ends ⟨fun s hs => ?_⟩ hIJ
    rw [stepsOf, tblWriteSteps, getState_bind, raiseIf_bind]
    by_cases hro : readOnlyTable tbl
    · rw [if_pos hro]
      exact ⟨hs, raising (by simp [raises])⟩
    · rw [if_neg hro, raiseIf_bind]
      by_cases hk : entries s.params tbl ≤ natOperand s.arg0
      · rw [if_pos hk]
        exact ⟨hs, raising (by simp [raises])⟩
      · rw [if_neg hk, h.params hs] at *
        exact h.tables hs fun ht => ht.writeEntry (by simpa using hro) (not_le.1 hk) _
  | bwBits n =>
    exact (Good.guarded (raising (by simp [raises])) fun _ => Good.look' fun _ => writeBits_good h.writer _ _).ends hIJ
  | bwBitsR n =>
    exact (Good.guarded (raising (by simp [raises])) fun _ => Good.look' fun _ => writeBitsR_good h.writer _ _).ends hIJ
  | bwFlush => exact (flush_good h.writer).ends hIJ
  | bwByte | bwShort | bwInt => exact (Good.look' fun _ => writeBits_good h.writer _ _).ends hIJ
  | brBits n => exact (Good.guarded (raising (by simp [raises])) fun _ => h.toRes0 (by simp [raises]) n).ends hIJ
  | brByte | brShort | brInt => exact (h.toRes0 (by decide) _).ends hIJ
  | brAlign =>
    exact (h.aligner.bind fun _ =>
      Good.change fun _ hs => h.res0 hs _).ends hIJ
  | crcInit => exact (h.changes fun s => (frames_crc _ s).mono (by decide)).ends hIJ
  | crcUpdate => exact (h.changes fun s => (frames_crc _ s).mono (by decide)).ends hIJ
  | winReset =>
    exact ((checkWindow_good (raising (by simp [raises]))).bind fun _ =>
      Good.change fun _ hs => h.winReset hs).ends hIJ
  | winAdd =>
    exact ((checkWindow_good (raising (by simp [raises]))).bind fun _ =>
      Good.change (by exact fun _ hs => h.winAdd hs _)).ends hIJ
  | winFind =>
    exact (Good.checked (raising (by simp [raises])) fun _ _ => (checkWindow_good (raising (by simp [raises]))).bind fun _ =>
      Good.change (by exact fun _ hs => h.res1 (h.res0 hs _) _)).ends hIJ
  | hufBuild sel limit =>
    exact ((alphabetOf_good sel (raising (by simp [raises]))).ends hIJ).bind fun a =>
      Ends.guarded hIJ (raising (by simp [raises])) fun hlimit =>
        ((h.buildLens (raising (by simp [raises])) a hlimit).ends hIJ).leaving fun hs => (h.unspecified hs).2.2.2.2 a
  | hufCanon sel =>
    exact ((alphabetOf_good sel (raising (by simp [raises]))).bind fun a =>
      Good.tables fun _ hs => h.tables hs fun ht => ht.canon a).ends hIJ
  | hufFixed => exact (Good.tables fun _ hs => h.tables hs Tables.Ok.fixed).ends hIJ
  | hufDecode sel =>
    exact ((alphabetOf_good sel (raising (by simp [raises]))).bind fun a =>
      (hufDecode_good (h.reader (by simp [raises])) (raising (by simp [raises])) a).bind fun _ =>
        Good.change fun _ hs => h.res0 hs _).ends hIJ
  | clPack =>
    refine (Good.checkedChange (f := fun s t => { t with tables := (packTables (natOperand s.arg0) (natOperand s.arg1)
      s.tables).1 }) (raising (by simp [raises])) (fun hs hc => h.tables hs fun ht => ht.packTables ?_) fun _ =>
        Good.change (by exact fun _ hs => h.res0 hs _)).ends hIJ
    obtain ⟨⟨-, hnll⟩, -, hnd⟩ := not_not.1 hc
    exact Nat.add_le_add hnll hnd
  | clUnpack =>
    refine (Good.checked (raising (by simp [raises])) fun {s} _ _ => ?_).ends hIJ
    cases hseq : clUnpack (natOperand s.arg0 + natOperand s.arg1) [] (s.tables.packed.toList (natOperand s.arg2)) with
    | error e =>
      simp only [hseq]
      refine Good.raise (raising ?_)
      rcases clUnpack_error hseq with rfl | rfl <;> simp [raises]
    | ok seq =>
      simp only [hseq]
      exact Good.tables fun _ hs => h.tables hs fun ht => ht.splitLens _ _ seq
  | defEncChunk final =>
    exact (Good.checked (raising (by simp [raises])) fun hs hlen =>
      (checkEncoder_good (raising (by simp [raises]))).bind fun _ =>
      encChunk_good h.encoder _ final (by rw [← h.params hs]; exact not_lt.1 hlen)).ends hIJ
  | defEncStream =>
    exact ((checkEncoder_good (raising (by simp [raises]))).bind fun _ =>
      (Good.change fun _ hs => h.streamInit hs).bind fun _ =>
      h.encStreamBody).ends hIJ
  | defDecBlock =>
    exact ((checkWindow_good (raising (by decide))).ends hIJ).bind fun _ =>
      (((decBlock_good (h.decoder rfl fun _ hc => hc)).bind fun _ =>
      Good.change fun _ hs => h.res1 (h.res0 hs _) _).ends hIJ).leaving fun hs => (h.unspecified hs).1
  | defDecStream =>
    exact ((checkWindow_good (raising (by decide))).ends hIJ).bind fun _ =>
      (((Good.change fun _ hs => h.streamInit hs).bind fun _ =>
      (decStreamBody_good (h.decoder rfl fun _ hc => hc)).bind fun _ => Good.change fun _ hs => h.res0 hs _).ends
        hIJ).leaving fun hs => (h.unspecified hs).1
  | gzWrHeader fn => exact (Good.checked (raising (by simp [raises])) fun _ _ => writeHeader_good h.writer _ _).ends hIJ
  | gzRdHeader => exact h.headerToRes fun _ hc => hc
  | gzWrTrailer => exact (writeTrailer_good h.writer).ends hIJ
  | gzRdTrailer => exact ((h.trailer fun _ hc => hc).ends hIJ).leaving fun hs => (h.unspecified hs).2.2.2.1
  | gzCompress fn =>
    exact (Good.checked (raising (by simp [raises])) fun _ _ => (checkEncoder_good (raising (by simp [raises]))).bind fun _ =>
      (Good.change fun _ hs => h.streamInit hs).bind fun _ => (writeHeader_good h.writer _ _).bind fun _ =>
        h.encStreamBody.bind fun _ => writeTrailer_good h.writer).ends hIJ
  | gzDecompress =>
    have hdec := h.decoder (l := raises .gzDecompress) rfl (by decide)
    have hbody : Ends I J (stopIn (raises .gzDecompress)) memberBody :=
      (((decStreamBody_good hdec).bind fun _ => h.trailer (by decide)).ends hIJ).leaving fun hs =>
        (h.unspecified (h.unspecified hs).2.1).2.2.1
    exact ((checkWindow_good (raising (by decide))).ends hIJ).bind fun _ =>
      (((Good.change fun _ hs => h.streamInit hs).ends hIJ).bind fun _ =>
      (h.headerToRes (by decide)).bind fun _ => hbody).leaving fun hs => (h.unspecified (h.unspecified hs).1).2.2.2.1

end Keeps

end Sys2Proof.Machine
end

section
/-! The ports in a command's steps (20_memory.md R61, 10_state.md R30): bytes are taken from the head of the input and given
to the end of the output, and the counters count them; and how a command ends (60_exceptions.md R331 to R336). -/

namespace Sys2Proof.Machine

/-! ### Reading and writing bits from the ports -/

section
variable {I : State → Prop} {E : Stop → Prop}

/-- A property is kept by GetBit where it is by reading a byte and by the reader's cursor. -/
theorem getBit_good_of_take (take : Good I E inRead)
    (cursor : ∀ {s}, I s → ∀ b n, I { s with rbuf := b, rcount := n }) :
    Good I E getBit := by
  unfold getBit bitSource
  exact (Good.look' fun _ => Good.ite (fun _ => take) fun _ => Good.pure _).bind fun _ =>
    (Good.change fun _ hs => cursor hs _ _).bind fun _ => Good.pure _

/-- A property is kept by PutBit where it is by giving a byte and by the writer's cursor. -/
theorem putBit_good_of_give (give : ∀ b, Good I E (outWrite b))
    (cursor : ∀ {s}, I s → ∀ b n, I { s with wbuf := b, wcount := n }) (b : Bool) : Good I E (putBit b) := by
  unfold putBit
  exact Good.look' fun _ => Good.ite (fun _ => (give _).bind fun _ => Good.change fun _ hs => cursor hs _ _) fun _ =>
    Good.change fun _ hs => cursor hs _ _

theorem inRead_good (take : ∀ {s b rest}, I s → s.inPort = b :: rest →
    I { s with inPort := rest, bytesIn := s.bytesIn + 1 }) :
    Good I anyStop inRead := by
  refine ⟨fun s hs => ?_⟩
  cases hp : s.inPort with
  | nil =>
    rw [inRead_none hp]
    cases s.inClosed <;> exact ⟨hs, trivial⟩
  | cons b rest =>
    rw [inRead_more hp]
    exact take hs hp

theorem inAtEnd_good (ended : ∀ {s}, I s → s.inClosed = true → I { s with sawEnd := true }) :
    Good I anyStop inAtEnd := by
  refine ⟨fun s hs => ?_⟩
  cases hp : s.inPort with
  | nil =>
    cases hc : s.inClosed with
    | true =>
      rw [inAtEnd_end hp hc]
      exact ended hs hc
    | false =>
      rw [inAtEnd_open hp hc]
      exact ⟨hs, trivial⟩
  | cons b rest =>
    rw [inAtEnd_more hp]
    exact hs

theorem outWrite_good (give : ∀ {s}, I s → ∀ b room,
    I { s with outPort := s.outPort ++ [b], bytesOut := s.bytesOut + 1, outRoom := room }) (b : Byte) :
    Good I anyStop (outWrite b) := by
  refine ⟨fun s hs => ?_⟩
  cases hr : s.outRoom with
  | none =>
    rw [show outWrite b s = .ok () { s with outPort := s.outPort ++ [b], bytesOut := s.bytesOut + 1, outRoom := s.outRoom } by
      rw [outWrite, hr]]
    exact give hs b _
  | some k =>
    cases k with
    | zero =>
      rw [show outWrite b s = .error .hold s by rw [outWrite, hr]]
      exact ⟨hs, trivial⟩
    | succ k =>
      rw [show outWrite b s = .ok () { s with outPort := s.outPort ++ [b], bytesOut := s.bytesOut + 1, outRoom := some k } by
        rw [outWrite, hr]]
      exact give hs b _

end

/-! ### What the steps have taken and given -/

/-- From `s` to `t` bytes have been taken and given, and what no step writes is as before; OUT_COMMIT is too, unless output is
committed (`commits`): then it may count some of the bytes given. -/
structure Ported (commits : Prop) (s t : State) : Prop where
  cmd : t.cmd = s.cmd
  errinfo : t.errinfo = s.errinfo
  inClosed : t.inClosed = s.inClosed
  params : t.params = s.params
  cfg : t.cfg = s.cfg
  args : t.arg0 = s.arg0 ∧ t.arg1 = s.arg1 ∧ t.arg2 = s.arg2
  host : t.cmdDropped = s.cmdDropped ∧ t.hostRead = s.hostRead ∧ t.host = s.host
  taken : ∃ taken, s.inPort = taken ++ t.inPort ∧ t.bytesIn = s.bytesIn + BitVec.ofNat 64 taken.length
  ended : t.sawEnd = true → s.sawEnd = true ∨ s.inClosed = true
  given : ∃ given, t.outPort = s.outPort ++ given ∧ t.bytesOut = s.bytesOut + BitVec.ofNat 64 given.length ∧
    (t.outCommit = s.outCommit ∨ commits ∧ ∃ k ≤ given.length, t.outCommit = s.bytesOut + BitVec.ofNat 64 k)

namespace Ported

section
variable {commits : Prop} {s t u : State}

theorem refl (commits : Prop) (s : State) : Ported commits s s :=
  ⟨rfl, rfl, rfl, rfl, rfl, ⟨rfl, rfl, rfl⟩, ⟨rfl, rfl, rfl⟩, ⟨[], rfl, (BitVec.add_zero _).symm⟩, .inl,
    [], (List.append_nil _).symm, (BitVec.add_zero _).symm, .inl rfl⟩

/-- What `Ported` speaks of. -/
def fields : List Field :=
  [.cmd, .errinfo, .inClosed, .params, .cfg, .arg0, .arg1, .arg2, .cmdDropped, .hostRead, .host,
    .inPort, .bytesIn, .sawEnd, .outPort, .bytesOut, .outCommit]

theorem of_frames {F : List Field} (h : Ported commits s t) (hf : Frames F t u) (hF : ∀ f ∈ fields, f ∉ F) :
    Ported commits s u := by
  have hin : u.inPort = t.inPort := hf .inPort (hF _ (by decide))
  have hbi : u.bytesIn = t.bytesIn := hf .bytesIn (hF _ (by decide))
  have hout : u.outPort = t.outPort := hf .outPort (hF _ (by decide))
  have hbo : u.bytesOut = t.bytesOut := hf .bytesOut (hF _ (by decide))
  have hcm : u.outCommit = t.outCommit := hf .outCommit (hF _ (by decide))
  exact ⟨(hf .cmd (hF _ (by decide))).trans h.cmd, (hf .errinfo (hF _ (by decide))).trans h.errinfo,
    (hf .inClosed (hF _ (by decide))).trans h.inClosed, (hf .params (hF _ (by decide))).trans h.params,
    (hf .cfg (hF _ (by decide))).trans h.cfg,
    ⟨(hf .arg0 (hF _ (by decide))).trans h.args.1, (hf .arg1 (hF _ (by decide))).trans h.args.2.1,
      (hf .arg2 (hF _ (by decide))).trans h.args.2.2⟩,
    ⟨(hf .cmdDropped (hF _ (by decide))).trans h.host.1, (hf .hostRead (hF _ (by decide))).trans h.host.2.1,
      (hf .host (hF _ (by decide))).trans h.host.2.2⟩, by rw [hin, hbi]; exact h.taken,
    fun he => h.ended ((hf .sawEnd (hF _ (by decide))).symm.trans he), by rw [hout, hbo, hcm]; exact h.given⟩

/-- A 64-bit counter of `n` bytes more, then of one more. -/
theorem count_succ (x : BitVec 64) (n : Nat) : x + BitVec.ofNat 64 n + 1 = x + BitVec.ofNat 64 (n + 1) := by
  rw [BitVec.ofNat_add, BitVec.add_assoc]
  rfl

theorem take {b : Byte} {rest : List Byte} (h : Ported commits s t) (hp : t.inPort = b :: rest) :
    Ported commits s { t with inPort := rest, bytesIn := t.bytesIn + 1 } := by
  obtain ⟨taken, hin, hcount⟩ := h.taken
  refine { h with taken := ⟨taken ++ [b], ?_, ?_⟩ }
  · rw [hin, hp, List.append_assoc]
    rfl
  · show t.bytesIn + 1 = _
    rw [hcount, count_succ, List.length_append]
    rfl

theorem give (h : Ported commits s t) (b : Byte) (room : Option Nat) :
    Ported commits s { t with outPort := t.outPort ++ [b], bytesOut := t.bytesOut + 1, outRoom := room } := by
  obtain ⟨given, hout, hcount, hcommit⟩ := h.given
  refine { h with given := ⟨given ++ [b], ?_, ?_, hcommit.imp_right fun ⟨hc, k, hk, hv⟩ => ⟨hc, k, ?_, hv⟩⟩ }
  · show t.outPort ++ [b] = _
    rw [hout, List.append_assoc]
  · show t.bytesOut + 1 = _
    rw [hcount, count_succ, List.length_append]
    rfl
  · exact hk.trans (by simp)

theorem commit (h : Ported commits s t) (hc : commits) : Ported commits s (commitOutput t) := by
  obtain ⟨given, hout, hcount, -⟩ := h.given
  exact { h with given := ⟨given, hout, hcount, .inr ⟨hc, given.length, le_refl _, hcount⟩⟩ }

end

end Ported

/-- The steps of a command keep what the ports and the counters are related by, and draw nothing while they do not fail. -/
theorem ported_keeps (commits : Prop) (s : State) :
    Keeps s.params (btypeSel s) commits (fun t => Ported commits s t ∧ t.draws = s.draws) (Ported commits s) where
  params h := h.1.params
  btype h := by rw [btypeSel, h.1.cfg]; rfl
  quiet h hf := ⟨h.1.of_frames hf (by decide), (hf .draws (by decide)).trans h.2⟩
  bit := getBit_good_of_take (inRead_good fun h hp => ⟨h.1.take hp, h.2⟩) fun h _ _ => ⟨{ h.1 with }, h.2⟩
  align := Good.of_frames (F := [.reader]) (fun h hf => ⟨h.1.of_frames hf (by decide), (hf .draws (by decide)).trans h.2⟩)
    alignIn_frames
  put := putBit_good_of_give (outWrite_good fun h b room => ⟨h.1.give b room, h.2⟩) fun h _ _ => ⟨{ h.1 with }, h.2⟩
  give := outWrite_good fun h b room => ⟨h.1.give b room, h.2⟩
  take := inRead_good fun h hp => ⟨h.1.take hp, h.2⟩
  atEnd := inAtEnd_good fun h hc => ⟨{ h.1 with ended := fun _ => .inr (h.1.inClosed.symm.trans hc) }, h.2⟩
  commit hc _ h := ⟨h.1.commit hc, h.2⟩
  winReset h := ⟨{ h.1 with }, h.2⟩
  winAdd h _ := ⟨{ h.1 with }, h.2⟩
  tokenize h _ := ⟨h.1.of_frames (tokenize_frames _ _) (by decide), (tokenize_frames _ _ .draws (by decide)).trans h.2⟩
  tables h _ := ⟨{ h.1 with }, h.2⟩
  fails h := h.1
  unspecified h := ⟨{ h with }, { h with }, { h with }, { h with }, fun _ => { h with }⟩

theorem steps_ported {i : Instr} (hi : i ≠ .reset) (hi' : i ≠ .clearErr) (s : State) :
    Ends (fun t => Ported (decodesBlocks i = true) s t ∧ t.draws = s.draws) (Ported (decodesBlocks i = true) s)
      (stopIn (raises i)) (stepsOf i) := (ported_keeps _ s).steps hi hi'

/-! ### RES0 and RES1 of a command that has not ended (60_exceptions.md R336) -/

/-- Where the steps stop, `I` holds still. -/
structure Stops {α : Type} (I : State → Prop) (x : Exec α) : Prop where
  at_stop : ∀ {s e t}, I s → x s = .error e t → I t

namespace Stops

section
variable {α β : Type} {I : State → Prop} {x : Exec α}

theorem of_good (h : Good I anyStop x) : Stops I x := ⟨fun hs hx => (h.error hs hx).1⟩

theorem bind {f : α → Exec β} (hx : Good I anyStop x) (hf : ∀ a, Stops I (f a)) : Stops I (x >>= f) := by
  refine ⟨fun {s _ _} hs h => ?_⟩
  rcases bind_cases x f s with ⟨a, u, hu, hrun⟩ | ⟨e', u, hu, hrun⟩ <;> rw [hrun] at h
  · exact (hf a).at_stop (hx.ok hs hu) h
  · cases h
    exact (hx.error hs hu).1

/-- A change stops on nothing. -/
theorem thenChange (hx : Stops I x) (f : α → State → State) : Stops I (x >>= fun a => Machine.change (f a)) := by
  refine ⟨fun {s _ _} hs h => ?_⟩
  rcases bind_cases x (fun a => Machine.change (f a)) s with ⟨a, u, hu, hrun⟩ | ⟨e', u, hu, hrun⟩ <;> rw [hrun] at h
  · cases h
  · cases h
    exact hx.at_stop hs hu

theorem look {f : State → Exec β} (hf : ∀ a, Stops I (f a)) : Stops I (getState >>= f) :=
  ⟨fun {s _ _} hs h => (hf s).at_stop hs h⟩

theorem leaving {f : State → State} (h : Stops I x) (hf : ∀ {s}, I s → I (f s)) : Stops I (leavingUnspecified f x) := by
  refine ⟨fun hs hx => ?_⟩
  unfold leavingUnspecified at hx
  split at hx
  · cases hx
    exact hf (h.at_stop hs ‹_›)
  · exact h.at_stop hs hx

end

end Stops

/-- The commands that leave results in RES0 or RES1. -/
def leavesResults : Instr → Bool
  | .tblRead _ | .brBits _ | .brByte | .brShort | .brInt | .brAlign | .winFind | .hufDecode _ | .clPack => true
  | .defDecBlock | .defDecStream | .gzRdHeader | .gzDecompress => true
  | _ => false

theorem chunkFields_noResults (b : Nat) : Field.res0 ∉ chunkFields b ∧ Field.res1 ∉ chunkFields b := by
  unfold chunkFields
  split <;> decide

/-- The others write neither. -/
theorem writes_noResults {i : Instr} (h : leavesResults i = false) (b : Nat) :
    Field.res0 ∉ writes b i ∧ Field.res1 ∉ writes b i := by
  cases i with
  | tblRead | brBits | brByte | brShort | brInt | brAlign | winFind | hufDecode | clPack | defDecBlock | defDecStream
  | gzRdHeader | gzDecompress => cases h
  | defEncChunk final => exact chunkFields_noResults b
  | defEncStream | gzCompress fn =>
    have hfill : Field.res0 ∉ fillFields ∧ Field.res1 ∉ fillFields := by decide
    exact ⟨fun hmem => (List.mem_append.1 hmem).elim hfill.1 (chunkFields_noResults b).1,
      fun hmem => (List.mem_append.1 hmem).elim hfill.2 (chunkFields_noResults b).2⟩
  | hufBuild sel limit => cases sel <;> simp [writes, lenField]
  | hufCanon sel => cases sel <;> simp [writes, codeField]
  | tblWrite tbl => simp [writes]
  | _ => simp [writes, writerFields, outputFields, streamFields, readerFields]

/-- What the commands that leave results may have written before they do. -/
def beforeResults : List Field :=
  .draws :: .outCommit :: .table .fname :: decodeFields

section
variable {i : Instr} {e : Stop} {s t : State}

/-- The commands that leave results write them last: where their steps stop there are none. -/
theorem beforeResults_of_stop (hl : leavesResults i = true) (hi : i ≠ .gzDecompress) (h : stepsOf i s = .error e t) :
    Frames beforeResults s t := by
  have reader : ReaderGood (Frames beforeResults s) anyStop := frames_readerGood (by decide) s
  have decoder : DecoderGood (Frames beforeResults s) anyStop := frames_decoderGood (by decide) s
  have window : Good (Frames beforeResults s) anyStop checkWindowConfig := checkWindow_good trivial
  have scrambled := fun {t : State} (ht : Frames beforeResults s t) =>
    ht.trans ((frames_decoder t).mono (G := beforeResults) (by decide))
  refine (?_ : Stops (Frames beforeResults s) (stepsOf i)).at_stop (Frames.refl _ s) h
  cases i with
  | tblRead tbl => exact .look fun _ => (Stops.of_good (Good.raiseIf fun _ => trivial)).thenChange _
  | brBits n => exact .bind (Good.raiseIf fun _ => trivial) fun _ => (Stops.of_good (readBits_good reader n)).thenChange _
  | brByte | brShort | brInt => exact (Stops.of_good (readBits_good reader _)).thenChange _
  | brAlign => exact (Stops.of_good reader.align).thenChange _
  | winFind => exact .look fun _ => .bind (Good.raiseIf fun _ => trivial) fun _ => (Stops.of_good window).thenChange _
  | hufDecode sel =>
    exact .bind (alphabetOf_good sel trivial) fun a => (Stops.of_good (hufDecode_good reader trivial a)).thenChange _
  | clPack =>
    refine ⟨fun {s _ _} hs hx => ?_⟩
    rw [stepsOf, clPackSteps, getState_bind, raiseIf_bind] at hx
    split at hx
    · cases hx
      exact hs
    · cases hx
  | defDecBlock => exact .bind window fun _ => ((Stops.of_good (decBlock_good decoder)).thenChange _).leaving scrambled
  | defDecStream =>
    exact .bind window fun _ => Stops.leaving (.bind (Good.change fun t ht =>
      ht.trans ((frames_streamInit t).mono (by decide))) fun _ => (Stops.of_good (decStreamBody_good decoder)).thenChange _)
        scrambled
  | gzRdHeader =>
    have header : Stops (Frames beforeResults s) readHeader :=
      ⟨fun hs hx => (readHeader_error (frames_nameGood (by decide) s) hs hx).1⟩
    exact (header.thenChange _).leaving fun ht => ht.trans ((frames_name _).mono (by decide))
  | gzDecompress => exact absurd rfl hi
  | _ => cases hl

/-- A command that has not ended keeps RES0 and RES1. -/
theorem results_of_stop (hr : i ≠ .reset) (hi : i ≠ .gzDecompress) (h : stepsOf i s = .error e t) :
    t.res0 = s.res0 ∧ t.res1 = s.res1 := by
  cases hl : leavesResults i with
  | true =>
    have hframe := beforeResults_of_stop hl hi h
    exact ⟨hframe .res0 (by decide), hframe .res1 (by decide)⟩
  | false =>
    obtain ⟨h0, h1⟩ := writes_noResults hl (btypeSel s)
    have hframe := ((steps_frames i hr s).error (Frames.refl _ s) h).1
    exact ⟨hframe .res0 (by simpa using h0), hframe .res1 (by simpa using h1)⟩

end

/-! ### How a command ends -/

section
variable {i : Instr} {s t : State}

/-- A command's outcome that is a state is that of its steps: completed, raised or held. -/
theorem exec_ends (hi : i ≠ .reset) (h : exec i s = .next t) :
    (∃ u, stepsOf i s = .ok () u ∧ t = complete u) ∨
      (∃ e u, stepsOf i s = .error (.raise e) u ∧ t = enterError e u) ∨
      ∃ u, stepsOf i s = .error .hold u ∧ t = suspend i s u := by
  rw [exec_eq hi] at h
  rcases runCommand_cases i (stepsOf i) s with ⟨u, hu, hrun⟩ | ⟨e, u, hu, hrun⟩ | ⟨u, hu, hrun⟩ | ⟨u, -, hrun⟩ <;>
    rw [hrun] at h <;> cases h
  · exact .inl ⟨u, hu, rfl⟩
  · exact .inr (.inl ⟨e, u, hu, rfl⟩)
  · exact .inr (.inr ⟨u, hu, rfl⟩)

/-- What a command has taken and given, however it ends. -/
theorem exec_ported (hi : i ≠ .reset) (h : exec i s = .next t) :
    ∃ taken given, s.inPort = taken ++ t.inPort ∧ t.outPort = s.outPort ++ given ∧
      t.bytesIn = s.bytesIn + BitVec.ofNat 64 taken.length ∧
      t.bytesOut = s.bytesOut + BitVec.ofNat 64 given.length ∧ t.inClosed = s.inClosed := by
  by_cases hc : i = .clearErr
  · subst hc
    cases h
    exact ⟨[], [], rfl, (List.append_nil _).symm, (BitVec.add_zero _).symm, (BitVec.add_zero _).symm, rfl⟩
  · have hports : ∃ u, Ported (decodesBlocks i = true) s u ∧ t.inPort = u.inPort ∧ t.outPort = u.outPort ∧
        t.bytesIn = u.bytesIn ∧ t.bytesOut = u.bytesOut ∧ t.inClosed = u.inClosed := by
      have hsteps := steps_ported hi hc s
      have hs := And.intro (Ported.refl (decodesBlocks i = true) s) (Eq.refl s.draws)
      rcases exec_ends hi h with ⟨u, hu, rfl⟩ | ⟨e, u, hu, rfl⟩ | ⟨u, hu, rfl⟩
      · exact ⟨u, (hsteps.ok hs hu).1, rfl, rfl, rfl, rfl, rfl⟩
      · exact ⟨u, hsteps.raise hs hu, rfl, rfl, rfl, rfl, rfl⟩
      · exact ⟨u, (hsteps.hold hs hu).1, rfl, rfl, rfl, rfl, rfl⟩
    obtain ⟨u, hu, hin, hout, hbi, hbo, hcl⟩ := hports
    obtain ⟨taken, htaken, hcount⟩ := hu.taken
    obtain ⟨given, hgiven, hcount', -⟩ := hu.given
    rw [hin, hout, hbi, hbo, hcl]
    exact ⟨taken, given, htaken, hgiven, hcount, hcount', hu.inClosed⟩

/-- OUT_COMMIT of a command that has not completed (R336, 45_deflate.md R281). -/
theorem Ported.commit_of_stop {commits : Prop} (h : Ported commits s t) :
    (¬ commits → t.outCommit = s.outCommit) ∧ (t.outCommit = s.outCommit ∨
      ∃ k, k ≤ t.outPort.length - s.outPort.length ∧ t.outCommit = s.bytesOut + BitVec.ofNat 64 k) := by
  obtain ⟨given, hout, -, hcommit⟩ := h.given
  refine ⟨fun hc => hcommit.resolve_right fun hk => hc hk.1, hcommit.imp_right fun ⟨_, k, hk, hv⟩ => ⟨k, ?_, hv⟩⟩
  rw [hout, List.length_append]
  omega

end

/-- Two bytes in the low half of a word. -/
theorem append_bytes_eq (a b : Byte) :
    (0#16 ++ a ++ b : BitVec (16 + 8 + 8)) = (zext32 a <<< 8 ||| zext32 b : BitVec 32) := by
  apply BitVec.eq_of_getLsbD_eq
  intro k hk
  have hlow : 8 ≤ k → b.getLsbD k = false := BitVec.getLsbD_of_ge b k
  rw [BitVec.getLsbD_append, BitVec.getLsbD_append]
  by_cases h1 : k < 8
  · simp [zext32, h1, show k < 32 from hk]
  · simpa [zext32, h1, show k < 32 from hk, hlow (not_lt.1 h1)] using BitVec.lt_of_getLsbD

/-- ERRINFO's layout (10_state.md R26): the opcode over the code. -/
theorem errorInfo_eq (cmd : Word) (e : ErrCode) : errorInfo cmd e = 0#16 ++ opcField cmd ++ e.code :=
  (append_bytes_eq (opcField cmd) e.code).symm

/-- Settles O10: the host's turns by their definitions, and a command by what its steps take and give. -/
theorem portDiscipline : Obligations.PortDiscipline := by
  intro s t
  have hidle : s.engine ≠ .busy → ¬ busy s = true := by
    intro h hb
    exact h (by simpa [busy] using hb)
  refine ⟨fun _ => rfl, fun _ => rfl, rfl, fun h => ⟨?_, ?_⟩, fun i hi h => exec_ported hi h⟩
  · exact if_neg (hidle h)
  · exact if_neg (hidle h)

/-- Settles O13: by the end of the steps, which raise what R331 lists and keep ERRINFO, and RES0 and RES1 where they stop. -/
theorem commandEnds : Obligations.CommandEnds := by
  refine ⟨fun i s t hi h => ?_, fun cmd e => ?_, by decide⟩
  · by_cases hc : i = .clearErr
    · subst hc
      cases h
      exact ⟨fun _ => ⟨rfl, rfl, rfl, fun hne => absurd rfl hne⟩, (fun he => nomatch he), (fun he => nomatch he),
        fun hne => absurd rfl hne⟩
    · have hsteps := steps_ported hi hc s
      have hs := And.intro (Ported.refl (decodesBlocks i = true) s) (Eq.refl s.draws)
      have hstop := fun {u : State} (hu : Ported (decodesBlocks i = true) s u) =>
        And.intro (fun hd : decodesBlocks i = false => hu.commit_of_stop.1 (by simp [hd])) hu.commit_of_stop.2
      rcases exec_ends hi h with ⟨u, hu, rfl⟩ | ⟨e, u, hu, rfl⟩ | ⟨u, hu, rfl⟩
      · obtain ⟨hports, hdraws⟩ := hsteps.ok hs hu
        exact ⟨fun _ => ⟨rfl, rfl, rfl, fun _ => ⟨rfl, rfl, rfl, hports.errinfo, rfl, hdraws⟩⟩,
          (fun he => nomatch he),
          (fun he => nomatch he), fun hne => absurd rfl hne⟩
      · have hports := hsteps.raise hs hu
        obtain ⟨hkept, hcommit⟩ := hstop hports
        have hres := fun hg => results_of_stop hi hg hu
        exact ⟨(fun he => nomatch he), fun _ => ⟨e, hsteps.stop hs hu e rfl, rfl, rfl, by
          show errorInfo u.cmd e = _
          rw [hports.cmd], rfl⟩, (fun he => nomatch he), fun _ => ⟨hkept, hcommit, hres⟩⟩
      · obtain ⟨hports, -⟩ := hsteps.hold hs hu
        obtain ⟨hkept, hcommit⟩ := hstop hports
        have hres := fun hg => results_of_stop hi hg hu
        exact ⟨(fun he => nomatch he), (fun he => nomatch he), fun _ => ⟨rfl, rfl, rfl, rfl, hports.errinfo, rfl⟩,
          fun _ => ⟨hkept, hcommit, hres⟩⟩
  · exact errorInfo_eq cmd e

end Sys2Proof.Machine
end

section
/-! The window clauses of 10_state.md R48 in a command's steps: its cursor moves by WIN_RESET and WinAdd alone
(43_window.md R200). -/

namespace Sys2Proof.Machine

/-- The window clauses hold, under the configuration and the parameters of the start. -/
structure Windowed (s t : State) : Prop where
  params : t.params = s.params
  cfg : t.cfg = s.cfg
  window : WindowOk t

namespace Windowed

section
variable {s t u : State}

theorem of_frames {F : List Field} (h : Windowed s t) (hf : Frames F t u) (h1 : Field.params ∉ F) (h2 : Field.cfg ∉ F)
    (h3 : Field.winCursor ∉ F) : Windowed s u := by
  obtain ⟨hcur, hvalid⟩ := hf .winCursor h3
  have hcap : winCap u = winCap t := by rw [winCap, winLog2, show u.cfg = t.cfg from hf .cfg h2]; rfl
  exact ⟨(hf .params h1).trans h.params, (hf .cfg h2).trans h.cfg, by rw [WindowOk, hcur, hvalid, hcap]; exact h.window⟩

theorem winAdd (h : Windowed s t) (b : Byte) : Windowed s (Machine.winAdd b t) :=
  ⟨h.params, h.cfg, winAdd_windowOk h.window⟩

theorem winAddAll (h : Windowed s t) (bytes : List Byte) : Windowed s (Machine.winAddAll bytes t) := by
  induction bytes generalizing t with
  | nil => exact h
  | cons b bytes ih => exact ih (h.winAdd b)

theorem winReset (h : Windowed s t) : Windowed s { t with wcur := 0, wvalid := 0 } :=
  ⟨h.params, h.cfg, Nat.zero_le _, winCap_pos t, fun _ => rfl⟩

theorem counted (h : Windowed s t) (tokens : List Token) (tables : Tables) :
    Windowed s { t with tokens := tokens, tables := tables } := { h with }

theorem tokenizeFrom (h : Windowed s t) (n turns i : Nat) : Windowed s (Machine.tokenizeFrom n turns i t) := by
  induction turns generalizing i t with
  | zero => exact h
  | succ turns ih =>
    unfold Machine.tokenizeFrom
    split
    · dsimp only
      split
      · exact ih ((h.counted _ _).winAddAll _) _
      · exact ih ((h.counted _ _).winAdd _) _
    · exact h

theorem tokenize (h : Windowed s t) (n : Nat) : Windowed s (Machine.tokenize n t) :=
  { (h.counted [] { t.tables with freqLL := .zeros 32, freqD := .zeros 32 }).tokenizeFrom n n 0 with }

end

end Windowed

/-- Every command's steps keep the window clauses where they do not fail. -/
theorem windowed_keeps (commits : Prop) (s : State) : Keeps s.params (btypeSel s) commits (Windowed s) fun _ => True where
  params h := h.params
  btype h := by rw [btypeSel, h.cfg]; rfl
  quiet h hf := h.of_frames hf (by decide) (by decide) (by decide)
  bit := Good.of_frames (fun h hf => h.of_frames hf (by decide) (by decide) (by decide)) getBit_frames
  align := Good.of_frames (fun h hf => h.of_frames hf (by decide) (by decide) (by decide)) alignIn_frames
  put b := Good.of_frames (fun h hf => h.of_frames hf (by decide) (by decide) (by decide)) (putBit_frames b)
  give b := Good.of_frames (fun h hf => h.of_frames hf (by decide) (by decide) (by decide)) (outWrite_frames b)
  take := Good.of_frames (fun h hf => h.of_frames hf (by decide) (by decide) (by decide)) inRead_frames
  atEnd := Good.of_frames (fun h hf => h.of_frames hf (by decide) (by decide) (by decide)) inAtEnd_frames
  commit _ _ h := { h with }
  winReset h := h.winReset
  winAdd h b := h.winAdd b
  tokenize h _ := h.tokenize _
  tables h _ := { h with }
  fails _ := trivial
  unspecified _ := ⟨trivial, trivial, trivial, trivial, fun _ => trivial⟩

/-- Settles O23: the steps of a command that completes keep the window clauses (`windowed_keeps`). -/
theorem windowInv : Obligations.WindowInv := by
  intro i s t hi h hidle hs
  by_cases hc : i = .clearErr
  · subst hc
    cases h
    exact hs
  · rcases exec_ends hi h with ⟨u, hu, rfl⟩ | ⟨e, u, -, rfl⟩ | ⟨u, -, rfl⟩
    · exact (((windowed_keeps _ s).steps hi hc).ok ⟨rfl, rfl, hs⟩ hu).window
    · cases hidle
    · cases hidle

end Sys2Proof.Machine
end

section
/-! The block in a command's steps (10_state.md R36, R44, R48): the cursors hold no bit but those that count, the tables are
in canonical form and within their entries, and TOKENS within its capacity. -/

namespace Sys2Proof.Machine

/-! ### Symbols of lengths and distances (30_encoding.md R110, R111) -/

theorem lastRange_lt {ranges : List Range} (h : ranges ≠ []) (x : Nat) : lastRange ranges x < ranges.length := by
  have hpos := List.length_pos_of_ne_nil h
  have hle : (ranges.takeWhile fun r => decide (r.base ≤ x)).length ≤ ranges.length := (List.takeWhile_prefix _).length_le
  unfold lastRange
  omega

theorem lenSym_lt (l : Nat) : lenSym l < Config.llSize := by
  have h := lastRange_lt (ranges := lenRanges.take 28) (by decide) l
  have hlen : (lenRanges.take 28).length = 28 := rfl
  unfold lenSym
  rw [Config.llSize]
  split <;> omega

theorem distSym_lt (d : Nat) : distSym d < Config.dSize :=
  (lastRange_lt (ranges := distRanges) (by decide) d).trans (by decide)

/-- A host that does not accept a byte. -/
theorem outWrite_full {s : State} {b : Byte} (h : ¬ hasRoom s 1) : outWrite b s = .error .hold s := by
  obtain ⟨k, hk, hlt⟩ : ∃ k, s.outRoom = some k ∧ ¬ 1 ≤ k := by simpa [hasRoom] using h
  rw [outWrite, hk, Nat.eq_zero_of_not_pos hlt]

/-! ### The block -/

/-- The block is as it must be, under the configuration and the parameters of the start. -/
structure Legal (s t : State) : Prop where
  params : t.params = s.params
  cfg : t.cfg = s.cfg
  block : Engine.Ok s.params t.toEngine

/-- The tables a command may write. -/
def tableFields : List Field :=
  [.table .chunk, .table .window, .table .freqLL, .table .freqD, .table .freqCL, .table .lenLL, .table .lenD, .table .lenCL,
    .table .codeLL, .table .codeD, .table .codeCL, .table .packed, .table .fname]

theorem tables_of_frames {F : List Field} {s t : State} (h : Frames F s t) (hF : ∀ f ∈ tableFields, f ∉ F) :
    t.tables = s.tables := by
  have h1 : t.tables.chunk = s.tables.chunk := h (.table .chunk) (hF _ (by decide))
  have h2 : t.tables.window = s.tables.window := h (.table .window) (hF _ (by decide))
  have h3 : t.tables.freqLL = s.tables.freqLL := h (.table .freqLL) (hF _ (by decide))
  have h4 : t.tables.freqD = s.tables.freqD := h (.table .freqD) (hF _ (by decide))
  have h5 : t.tables.freqCL = s.tables.freqCL := h (.table .freqCL) (hF _ (by decide))
  have h6 : t.tables.lenLL = s.tables.lenLL := h (.table .lenLL) (hF _ (by decide))
  have h7 : t.tables.lenD = s.tables.lenD := h (.table .lenD) (hF _ (by decide))
  have h8 : t.tables.lenCL = s.tables.lenCL := h (.table .lenCL) (hF _ (by decide))
  have h9 : t.tables.codeLL = s.tables.codeLL := h (.table .codeLL) (hF _ (by decide))
  have h10 : t.tables.codeD = s.tables.codeD := h (.table .codeD) (hF _ (by decide))
  have h11 : t.tables.codeCL = s.tables.codeCL := h (.table .codeCL) (hF _ (by decide))
  have h12 : t.tables.packed = s.tables.packed := h (.table .packed) (hF _ (by decide))
  have h13 : t.tables.fname = s.tables.fname := h (.table .fname) (hF _ (by decide))
  show (⟨_, _, _, _, _, _, _, _, _, _, _, _, _⟩ : Tables) = ⟨_, _, _, _, _, _, _, _, _, _, _, _, _⟩
  rw [h1, h2, h3, h4, h5, h6, h7, h8, h9, h10, h11, h12, h13]

namespace Legal

section
variable {s t u : State}

/-- What `Legal` speaks of besides the cursors. -/
def fields : List Field := .params :: .cfg :: .tokens :: tableFields

theorem of_cursors {F : List Field} (h : Legal s t) (hf : Frames F t u) (hF : ∀ f ∈ fields, f ∉ F)
    (hw : WriterOk u.toEngine) (hr : ReaderOk u.toEngine) : Legal s u := by
  have hcfg : u.cfg = t.cfg := hf .cfg (hF _ (by decide))
  have htok : u.tokens = t.tokens := hf .tokens (hF _ (by decide))
  have htab : u.tables = t.tables :=
    tables_of_frames hf fun f hmem => hF f ((by decide : ∀ f ∈ tableFields, f ∈ fields) f hmem)
  exact ⟨(hf .params (hF _ (by decide))).trans h.params, hcfg.trans h.cfg, hw, hr, by rw [hcfg]; exact h.block.cfg,
    by rw [htab]; exact h.block.tables, by rw [htok]; exact h.block.tokens⟩

theorem writer_of_frames {F : List Field} (h : Legal s t) (hf : Frames F t u) (hF : Field.writer ∉ F) :
    WriterOk u.toEngine := by
  obtain ⟨hcount, hbuf⟩ := hf .writer hF
  rw [WriterOk, hcount, hbuf]
  exact h.block.writer

theorem reader_of_frames {F : List Field} (h : Legal s t) (hf : Frames F t u) (hF : Field.reader ∉ F) :
    ReaderOk u.toEngine := by
  obtain ⟨hcount, hbuf⟩ := hf .reader hF
  rw [ReaderOk, hcount, hbuf]
  exact h.block.reader

theorem of_frames {F : List Field} (h : Legal s t) (hf : Frames F t u)
    (hF : ∀ f ∈ .writer :: .reader :: fields, f ∉ F) : Legal s u :=
  h.of_cursors hf (fun f hmem => hF f (List.mem_cons_of_mem _ (List.mem_cons_of_mem _ hmem)))
    (h.writer_of_frames hf (hF _ (by decide))) (h.reader_of_frames hf (hF _ (by decide)))

theorem tables (h : Legal s t) {tables : Tables} (ht : Tables.Ok s.params t.tables → Tables.Ok s.params tables) :
    Legal s { t with tables := tables } := { h with block := { h.block with tables := ht h.block.tables } }

theorem getBit : Good (Legal s) anyStop Machine.getBit := by
  refine ⟨fun t h => ?_⟩
  cases hu : unreadBits t with
  | nil =>
    rw [getBit_dry hu]
    exact ⟨h, trivial⟩
  | cons b rest =>
    rw [getBit_ok hu]
    have hf := getBit_frames t
    rw [getBit_ok hu] at hf
    exact h.of_cursors hf (by decide) (h.writer_of_frames hf (by decide)) (takeOne_readerOk h.block.reader)

theorem putBit (b : Bool) : Good (Legal s) anyStop (Machine.putBit b) := by
  refine ⟨fun t h => ?_⟩
  by_cases hroom : t.wcount = 7 → hasRoom t 1
  · have hf := putBit_frames b t
    rw [putBit_ok hroom] at hf ⊢
    exact h.of_cursors hf (by decide) (putOne_writerOk b h.block.writer) (h.reader_of_frames hf (by decide))
  · obtain ⟨h7, hfull⟩ := Classical.not_imp.1 hroom
    rw [Machine.putBit, getState_bind, if_pos h7, bind_error (outWrite_full hfull)]
    exact ⟨h, trivial⟩

theorem winAdd (h : Legal s t) (b : Byte) : Legal s (Machine.winAdd b t) := by
  have hk : t.wcur.toNat < Config.windowSize := t.wcur.isLt
  exact { h with block := { h.block with tables := h.block.tables.windowByte hk b } }

theorem winAddAll (h : Legal s t) (bytes : List Byte) : Legal s (Machine.winAddAll bytes t) := by
  induction bytes generalizing t with
  | nil => exact h
  | cons b bytes ih => exact ih (h.winAdd b)

/-- One more token, counted. -/
theorem counted (h : Legal s t) (x : Token) {tables : Tables} (hroom : t.tokens.length < s.params.chunkSize)
    (ht : Tables.Ok s.params t.tables → Tables.Ok s.params tables) :
    Legal s { t with tokens := t.tokens ++ [x], tables := tables } :=
  { h with
    block :=
      { h.block with
        tables := ht h.block.tables
        tokens := by
          show (t.tokens ++ [x]).length ≤ _
          rw [List.length_append]
          exact hroom } }

theorem addLiteral (h : Legal s t) (hroom : t.tokens.length < s.params.chunkSize) (i : Nat) :
    Legal s (Machine.addLiteral i t) :=
  (h.counted _ hroom fun ht => ht.countLL ((t.tables.chunk.read i).isLt.trans (by decide))).winAdd _

theorem addMatch (h : Legal s t) (hroom : t.tokens.length < s.params.chunkSize) (i l d : Nat) :
    Legal s (Machine.addMatch i l d t) :=
  (h.counted _ hroom fun ht => (ht.countLL (lenSym_lt l)).countD (distSym_lt d)).winAddAll _

theorem addLiteral_tokens (i : Nat) (t : State) :
    (Machine.addLiteral i t).tokens.length = t.tokens.length + 1 := List.length_append

theorem addMatch_tokens (i l d : Nat) (t : State) :
    (Machine.addMatch i l d t).tokens.length = t.tokens.length + 1 := by
  rw [Machine.addMatch, (winAddAll_keeps _ _).2.1]
  exact List.length_append

theorem tokenizeFrom (h : Legal s t) {n turns i : Nat} (hroom : t.tokens.length + turns ≤ s.params.chunkSize) :
    Legal s (Machine.tokenizeFrom n turns i t) := by
  induction turns generalizing i t with
  | zero => exact h
  | succ turns ih =>
    have hroom' : t.tokens.length < s.params.chunkSize := by omega
    unfold Machine.tokenizeFrom
    split
    · dsimp only
      split
      · refine ih (h.addMatch hroom' _ _ _) ?_
        rw [(addMatch_tokens _ _ _ t)]
        omega
      · refine ih (h.addLiteral hroom' _) ?_
        rw [addLiteral_tokens]
        omega
    · exact h

theorem tokenize (h : Legal s t) {n : Nat} (hn : n ≤ s.params.chunkSize) : Legal s (Machine.tokenize n t) := by
  have h0 : Legal s { t with tokens := [], tables := { t.tables with freqLL := .zeros 32, freqD := .zeros 32 } } :=
    { h with block := { h.block with tables := h.block.tables.clearFreqs, tokens := Nat.zero_le _ } }
  exact (h0.tokenizeFrom ((Nat.zero_add n).trans_le hn)).tables fun ht => ht.countLL (by decide)

end

end Legal

/-- Every command's steps keep the block as it must be, however they end. -/
theorem legal_keeps (commits : Prop) (s : State) : Keeps s.params (btypeSel s) commits (Legal s) (Legal s) where
  params h := h.params
  btype h := by rw [btypeSel, h.cfg]; rfl
  quiet h hf := h.of_frames hf (by decide)
  bit := Legal.getBit
  align := ⟨fun _ h =>
    { h with block := { h.block with reader := (by decide : (0 : Byte) >>> (0 : BitVec 3).toNat = 0) } }⟩
  put := Legal.putBit
  give b := Good.of_frames (fun h hf => h.of_frames hf (by decide)) (outWrite_frames b)
  take := Good.of_frames (fun h hf => h.of_frames hf (by decide)) inRead_frames
  atEnd := Good.of_frames (fun h hf => h.of_frames hf (by decide)) inAtEnd_frames
  commit _ _ h := { h with block := { h.block with } }
  winReset h := { h with block := { h.block with } }
  winAdd h b := h.winAdd b
  tokenize h hn := h.tokenize hn
  tables h ht := h.tables ht
  fails h := h
  unspecified {t} h := by
    have ht := h.block.tables
    refine ⟨{ h with block := { h.block with tables := ?_ } },
      { h with block := { h.block with tables := { ht with fname := unknown_fits _ _ } } },
      { h with block := { h.block with } }, { h with block := { h.block with } }, fun a => ?_⟩
    · exact { ht with
        window := unknown_fits _ _, lenLL := unknown_fits _ _, lenD := unknown_fits _ _, lenCL := unknown_fits _ _
        codeLL := unknown_fits _ _, codeD := unknown_fits _ _, codeCL := unknown_fits _ _ }
    · cases a with
      | ll => exact { h with block := { h.block with tables := { ht with lenLL := unknown_fits _ _ } } }
      | d => exact { h with block := { h.block with tables := { ht with lenD := unknown_fits _ _ } } }
      | cl => exact { h with block := { h.block with tables := { ht with lenCL := unknown_fits _ _ } } }

end Sys2Proof.Machine
end

section
/-! The invariant of the machine (10_state.md R48): a command keeps it from the state in which it has been accepted, a
held one is accepted again where it goes on, and the host's turns change nothing it speaks of but by a command. -/

namespace Sys2Proof.Machine

/-! ### A command -/

/-- A command has been accepted, or goes on from where it was (60_exceptions.md R330; log 3). -/
structure Accepted (i : Instr) (s : State) : Prop where
  params : s.params.wf
  block : Engine.Ok s.params s.toEngine
  busy : s.engine = .busy
  done : s.done = false
  errinfo : i ≠ .clearErr → s.errinfo = 0
  sawEnd : s.sawEnd = false
  decoded : decode s.cmd = .ok i

section
variable {i : Instr} {s t u : State}

/-- A completed command leaves the invariant. -/
theorem Legal.complete (h : Legal s t) (hp : s.params.wf) (he : t.errinfo = 0) : Inv (complete t) where
  params := by
    show t.params.wf
    rw [h.params]
    exact hp
  block := by
    show Engine.Ok t.params _
    rw [h.params]
    exact { h.block with }
  status := ⟨fun _ => rfl, fun _ => he, fun _ => rfl, (fun he => nomatch he)⟩
  hold := ⟨⟨(fun he => nomatch he), (fun he => nomatch he)⟩, (fun _ he => nomatch he)⟩

/-- So does one that raises. -/
theorem Legal.enterError (h : Legal s t) (hp : s.params.wf) (e : ErrCode) : Inv (enterError e t) where
  params := by
    show t.params.wf
    rw [h.params]
    exact hp
  block := by
    show Engine.Ok t.params _
    rw [h.params]
    exact { h.block with }
  status := ⟨(fun he => nomatch he), (fun he => nomatch he), (fun he => nomatch he), fun _ => ⟨e, rfl⟩⟩
  hold := ⟨⟨(fun he => nomatch he), (fun he => nomatch he)⟩, (fun _ he => nomatch he)⟩

/-- And one that holds. -/
theorem Accepted.suspend {commits : Prop} (ha : Accepted i s) (hi : i ≠ .reset) (hc : i ≠ .clearErr) (h : Legal s t)
    (hports : Ported commits s t) : Inv (suspend i s t) where
  params := by
    show t.params.wf
    rw [h.params]
    exact ha.params
  block := by
    show Engine.Ok t.params _
    rw [h.params]
    exact { h.block with }
  status := ⟨(fun he => nomatch he), (fun he => nomatch he), (fun he => nomatch he), (fun he => nomatch he)⟩
  hold := by
    refine ⟨⟨fun _ => rfl, fun _ => rfl⟩, fun h' hheld => ?_⟩
    cases hheld
    obtain ⟨h0, h1, h2⟩ := hports.args
    have hzero := ha.errinfo hc
    refine ⟨?_, ha.busy, ha.done, hzero, ⟨hports.cmd.symm, hports.cfg.symm, h0.symm, h1.symm, h2.symm⟩, ⟨rfl, rfl⟩,
      ?_, hi, hports.errinfo.trans hzero, fun hend => ?_⟩
    · show Engine.Ok t.params _
      rw [h.params]
      exact ha.block
    · show decode t.cmd = _
      rw [hports.cmd]
      exact ha.decoded
    · have hclosed := (hports.ended hend).resolve_left (by rw [ha.sawEnd]; decide)
      exact hports.inClosed.trans hclosed

/-- A command keeps the invariant. -/
theorem Accepted.inv (ha : Accepted i s) (hi : i ≠ .reset) (h : exec i s = .next t) : Inv t := by
  have hstart : Legal s s := ⟨rfl, rfl, ha.block⟩
  by_cases hc : i = .clearErr
  · subst hc
    cases h
    exact Legal.complete (s := s) (t := leaveError s) { hstart with block := { ha.block with } } ha.params rfl
  · have hlegal := (legal_keeps (decodesBlocks i = true) s).steps hi hc
    have hports := steps_ported hi hc s
    have hs := And.intro (Ported.refl (decodesBlocks i = true) s) (Eq.refl s.draws)
    rcases exec_ends hi h with ⟨u, hu, rfl⟩ | ⟨e, u, hu, rfl⟩ | ⟨u, hu, rfl⟩
    · exact (hlegal.ok hstart hu).complete ha.params ((hports.ok hs hu).1.errinfo.trans (ha.errinfo hc))
    · exact (hlegal.raise hstart hu).enterError ha.params e
    · exact ha.suspend hi hc (hlegal.hold hstart hu) (hports.hold hs hu).1

end

/-! ### The host's turns -/

/-- The commands that are accepted in ERROR (60_exceptions.md R330). -/
theorem decode_of_leavesError {w : Word} {i : Instr} (hi : decode w = .ok i)
    (hw : opcField w = 0x01#8 ∨ opcField w = 0x02#8) : i = .reset ∨ i = .clearErr := by
  have hop : i.opcode = 1 ∨ i.opcode = 2 := by
    rw [← ((decode_eq_ok_iff w i).1 hi).1]
    exact hw.imp (fun h => by rw [h]; rfl) fun h => by rw [h]; rfl
  cases i with
  | reset => exact .inl rfl
  | clearErr => exact .inr rfl
  | _ => exact absurd hop (by simp [Instr.opcode])

section
variable {i : Instr} {s t u : State} {w : Word}

/-- An accepted word's command. -/
theorem Inv.accept (h : Inv s) (hw : Accepts s w) (hi : decode w = .ok i) (hr : i ≠ .reset) : Accepted i (accept w s) where
  params := h.params
  block := { h.block with }
  busy := rfl
  done := rfl
  errinfo hc := by
    rcases hw with hidle | ⟨-, hw⟩
    · exact h.status.idle hidle
    · exact absurd ((decode_of_leavesError hi hw).resolve_left hr) hc
  sawEnd := rfl
  decoded := hi

/-- Reset leaves the invariant, from any state of legal parameters. -/
theorem inv_resetBlock (h : s.params.wf) : Inv (resetBlock s) where
  params := h
  block := engine_reset_ok _ _
  status := ⟨(fun h => nomatch h), fun _ => rfl, fun _ => rfl, (fun h => nomatch h)⟩
  hold := ⟨⟨(fun h => nomatch h), (fun h => nomatch h)⟩, (fun _ h => nomatch h)⟩

/-- A dropped word sets a flag that the invariant does not speak of. -/
theorem Inv.drop (h : Inv s) (dropped : Bool) : Inv { s with cmdDropped := dropped } :=
  ⟨h.params, { h.block with }, { h.status with }, ⟨h.hold.busy, h.hold.held⟩⟩

theorem Inv.submit (h : Inv s) (hs : submit w s = .next t) : Inv t := by
  by_cases hb : s.engine = .busy
  · rw [submit_dropped_of_busy hb] at hs
    cases hs
    exact h.drop true
  by_cases hw : Accepts s w
  · cases hd : decode w with
    | ok i =>
      rw [submit_of_decode_ok hw hd] at hs
      by_cases hr : i = .reset
      · subst hr
        cases hs
        exact inv_resetBlock (s := Machine.accept w s) h.params
      · exact (h.accept hw hd hr).inv hr hs
    | error e =>
      rw [submit_of_decode_error hw hd] at hs
      cases hs
      exact Legal.enterError (s := s) (t := Machine.accept w s) ⟨rfl, rfl, { h.block with }⟩ h.params .badCommand
  · have he : s.engine = .error := by
      cases he : s.engine with
      | idle => exact absurd (.inl he) hw
      | busy => exact absurd he hb
      | error => rfl
    rw [submit_dropped_of_error he fun h => hw (.inr ⟨he, h⟩)] at hs
    cases hs
    exact h.drop true

/-- CFG and the arguments are written only while no command holds. -/
theorem Inv.whileFree {f : State → State} (h : Inv s)
    (hf : s.engine ≠ .busy → Engine.Ok s.params (f s).toEngine ∧ StatusOk (f s) ∧ (f s).params = s.params ∧
      (f s).engine = s.engine ∧ (f s).held = s.held) : Inv (if busy s then s else f s) := by
  by_cases hb : s.engine = .busy
  · rw [if_pos (show busy s = true from beq_iff_eq.2 hb)]
    exact h
  · obtain ⟨hblock, hstatus, hp, he, hheld⟩ := hf hb
    have hnone : (f s).held = none := hheld.trans (held_eq_none_of_not_busy h hb)
    rw [if_neg fun h : busy s = true => hb (beq_iff_eq.1 h)]
    exact ⟨by rw [hp]; exact h.params, by rw [hp]; exact hblock, hstatus,
      ⟨by rw [he, hnone]; exact iff_of_false hb (by decide), fun c hc => by rw [hnone] at hc; cases hc⟩⟩

theorem Inv.writeRegister (h : Inv s) (r : Reg) (v : Word) : Inv (writeRegister r v s) := by
  cases r with
  | cfg =>
    refine h.whileFree (f := fun s => { s with cfg := v &&& cfgMask }) fun _ =>
      ⟨{ h.block with cfg := ?_ }, { h.status with }, rfl, rfl, rfl⟩
    rw [BitVec.and_assoc, BitVec.and_not_self]
    exact BitVec.and_zero
  | arg0 =>
    exact h.whileFree (f := fun s => { s with arg0 := v }) fun _ =>
      ⟨{ h.block with }, { h.status with }, rfl, rfl, rfl⟩
  | arg1 =>
    exact h.whileFree (f := fun s => { s with arg1 := v }) fun _ =>
      ⟨{ h.block with }, { h.status with }, rfl, rfl, rfl⟩
  | arg2 =>
    exact h.whileFree (f := fun s => { s with arg2 := v }) fun _ =>
      ⟨{ h.block with }, { h.status with }, rfl, rfl, rfl⟩
  | status =>
    simp only [Machine.writeRegister]
    split
    · exact h.drop false
    · exact h
  | _ => exact h

theorem Inv.writeOffset (h : Inv s) {off : Nat} {v : Word} (hs : writeOffset off v s = .next t) : Inv t := by
  unfold Machine.writeOffset at hs
  split at hs
  · cases hs
    exact h
  · exact h.submit hs
  · cases hs
    exact h.writeRegister _ _

/-- A held command is accepted again where it goes on. -/
theorem Inv.rewind (h : Inv s) {c : Held} (hc : s.held = some c) : Accepted c.instr (rewind c s) ∧ c.instr ≠ .reset := by
  obtain ⟨hblock, hbusy, hdone, hzero, ⟨hcmd, -⟩, -, hdec, hr, -⟩ := h.hold.held c hc
  exact ⟨⟨h.params, { hblock with }, hbusy, hdone, fun _ => hzero, rfl, by rw [← hdec, ← hcmd]; rfl⟩, hr⟩

/-- The invariant does not speak of what stands beside the block, but for a closed port, which a held command may have
seen. -/
theorem Inv.beside (h : Inv s) {inPort outPort : List Byte} {closed : Bool} {room : Option Nat} {draws : Nat} {value : Word}
    {host : List HostEvent} (hclosed : s.engine = .busy → s.inClosed = true → closed = true) :
    Inv { s with
      inPort := inPort, inClosed := closed, outPort := outPort, outRoom := room, draws := draws, hostRead := value
      host := host } := by
  refine ⟨h.params, h.block, { h.status with }, ⟨h.hold.busy, fun c hc => ?_⟩⟩
  obtain ⟨hblock, hbusy, hdone, hzero, hcmd, hflags, hdec, hr, herr, hended⟩ := h.hold.held c hc
  have hs : s.engine = .busy := h.hold.busy.2 (by rw [show s.held = some c from hc]; rfl)
  exact ⟨hblock, hbusy, hdone, hzero, hcmd, hflags, hdec, hr, herr, fun he => hclosed hs (hended he)⟩

theorem Inv.engineTurn (h : Inv s) (hs : engineTurn s = .next t) : Inv t := by
  cases hc : s.held with
  | none =>
    rw [engineTurn_of_held_none hc] at hs
    cases hs
    exact h
  | some c =>
    obtain ⟨haccepted, hr⟩ := h.rewind hc
    simp only [Machine.engineTurn, hc, resume] at hs
    cases hrun : exec c.instr (Machine.rewind c s) with
    | next u =>
      rw [hrun] at hs
      cases hs
      exact (haccepted.inv hr hrun).beside fun _ hc => hc
    | fault f =>
      rw [hrun] at hs
      cases hs
    | refused r =>
      rw [hrun] at hs
      cases hs

theorem Inv.hostTurn (h : Inv s) {e : HostEvent} (hs : hostTurn e s = .next t) : Inv t := by
  have hbusy : ¬ busy s = true → s.engine ≠ .busy := fun hb he => hb (beq_iff_eq.2 he)
  cases e with
  | write bits off v =>
    simp only [Machine.hostTurn] at hs
    split at hs
    · exact h.writeOffset hs
    · cases hs
  | read bits off =>
    simp only [Machine.hostTurn] at hs
    split at hs
    · obtain ⟨value, draws, hread⟩ := readOffset_frame off s
      rw [hread] at hs
      cases hs
      exact h.beside fun _ hc => hc
    · cases hs
  | openInput | emptyInput =>
    simp only [Machine.hostTurn] at hs
    split at hs
    · cases hs
    · cases hs
      exact h.beside fun hb _ => absurd hb (hbusy ‹_›)
  | resetInput =>
    cases hs
    exact inv_resetBlock h.params
  | closeInput =>
    cases hs
    exact h.beside fun _ _ => rfl
  | input bytes | takeOutput n | acceptOutput room | pass | wait =>
    cases hs
    exact h.beside fun _ hc => hc

end

/-- Settles O22: the engine's turn runs an accepted command, and the host's turn changes what stands beside the block or
submits a word. -/
theorem stepInv : Obligations.StepInv := by
  intro s t h hs
  have hpop : ∀ rest, Inv { s with host := rest } := fun _ => h.beside fun _ hc => hc
  unfold step at hs
  split at hs
  · exact h.engineTurn hs
  · split at hs
    · exact h.engineTurn hs
    · cases hs
      exact hpop _
  · exact (hpop _).engineTurn hs
  · exact (hpop _).hostTurn hs

end Sys2Proof.Machine
end

section
/-! A held command goes on (00_scope.md R15; log 3): it runs again from the rewound ports, which is the run from the ports as
they were with the output left out (`exec_withoutOutput`), and that run passes the point where it held (`exec_passes`). -/

namespace Sys2Proof.Machine

section
variable {i : Instr} {s t u v : State}

/-! ### The run without the output of before -/

/-- A command that finds no output in the port gives what it gives behind other output. -/
theorem exec_withoutOutput (hi : i ≠ .reset) (h : exec i u = .next v) :
    exec i { u with outPort := [] } = .next { v with outPort := v.outPort.drop u.outPort.length } := by
  have hrel : (moved [] u.outPort.length).rel u { u with outPort := [] } :=
    ⟨by rw [List.drop_length, List.append_nil]; rfl, le_refl _⟩
  have hsame := (steps_twin moved_atEnd i).same hrel trivial
  rw [exec_eq hi, runCommand]
  rcases exec_ends hi h with ⟨a, ha, rfl⟩ | ⟨e, a, ha, rfl⟩ | ⟨a, ha, rfl⟩ <;> rw [ha] at hsame
  · obtain ⟨w, hw, rfl, -⟩ := hsame
    rw [hw]
    rfl
  · obtain ⟨w, hw, rfl, -⟩ := hsame.resolve_right id
    rw [hw]
    rfl
  · obtain ⟨w, hw, rfl, -⟩ := hsame.resolve_right id
    rw [hw]
    simp [suspend, withPorts]

/-! ### A command that holds -/

/-- A command that has been accepted in `s` holds in `t`. -/
structure Pauses (i : Instr) (s t : State) : Prop where
  reset : i ≠ .reset
  busy : s.engine = .busy
  done : s.done = false
  held : s.held = none
  sawEnd : s.sawEnd = false
  hold : stepsOf i s = .error .hold t

/-- What the block keeps of it. -/
def heldBy (i : Instr) (s t : State) : Held :=
  { instr := i
    start := s.toEngine
    taken := s.inPort.take (s.inPort.length - t.inPort.length)
    given := t.outPort.length - s.outPort.length
    ended := t.sawEnd }

theorem suspend_held : (suspend i s t).held = some (heldBy i s t) := rfl

/-- A command that leaves something held has held. -/
theorem pauses_of_held {h : Held} (hi : i ≠ .reset) (hb : s.engine = .busy) (hd : s.done = false) (hn : s.held = none)
    (he : s.sawEnd = false) (hexec : exec i s = .next t) (hheld : t.held = some h) :
    ∃ u, Pauses i s u ∧ t = suspend i s u ∧ h = heldBy i s u := by
  rcases exec_ends hi hexec with ⟨u, hu, rfl⟩ | ⟨e, u, hu, rfl⟩ | ⟨u, hu, rfl⟩
  · cases hheld
  · cases hheld
  · cases hheld
    exact ⟨u, ⟨hi, hb, hd, hn, he, hu⟩, rfl, rfl⟩

namespace Pauses

theorem went (h : Pauses i s t) : Went s t := by
  have hleft := (steps_twin (T := moved [] 0) moved_atEnd i).left s
  rw [h.hold] at hleft
  exact hleft

/-- Where the command has seen the end of the input it has taken all of it. -/
theorem ended (h : Pauses i s t) (hend : t.sawEnd = true) : t.inPort = [] :=
  (h.went.ended hend).resolve_left (by rw [h.sawEnd]; decide)

theorem taken (h : Pauses i s t) : (heldBy i s t).taken ++ t.inPort = s.inPort := by
  obtain ⟨p, hp⟩ := h.went.input
  simp [heldBy, hp]

/-- CLEAR_ERR never holds. -/
theorem not_clearErr (h : Pauses i s t) : i ≠ .clearErr := by
  rintro rfl
  exact nomatch (show EStateM.Result.ok () (leaveError s) = _ from h.hold)

/-- What no step writes is as it was accepted, and nothing has been drawn. -/
theorem ported (h : Pauses i s t) : Ported (decodesBlocks i = true) s t ∧ t.draws = s.draws :=
  (steps_ported h.reset h.not_clearErr s).hold ⟨.refl _ s, rfl⟩ h.hold

/-- The input that a held command goes on with: none behind an end it has seen. -/
def newInput (t : State) (more : List Byte) : List Byte := if t.sawEnd then [] else more

variable {more : List Byte} {closed : Bool} {room : Option Nat}

/-- The ports it goes on with. -/
def goesOn (s t : State) (more : List Byte) (closed : Bool) (room : Option Nat) : State :=
  { s with
    inPort := s.inPort ++ newInput t more, inClosed := closed
    outRoom := room.map (· + (t.outPort.length - s.outPort.length)) }

theorem goesOn_of_open (h : t.sawEnd = false) : goesOn s t more closed room =
    { s with
      inPort := s.inPort ++ more, inClosed := closed
      outRoom := room.map (· + (t.outPort.length - s.outPort.length)) } := by
  simp only [goesOn, newInput, h, Bool.false_eq_true, if_false]

theorem goesOn_of_ended (h : t.sawEnd = true) : goesOn s t more closed room =
    { s with inClosed := closed, outRoom := room.map (· + (t.outPort.length - s.outPort.length)) } := by
  simp only [goesOn, newInput, h, if_true, List.append_nil]

/-- It is rewound to where it was accepted, with what the host has added since. -/
theorem rewind_eq (h : Pauses i s t) :
    rewind (heldBy i s t) { suspend i s t with inPort := t.inPort ++ more, inClosed := closed, outRoom := room } =
      { goesOn s t more closed room with outPort := [] } := by
  obtain ⟨hports, hdraws⟩ := h.ported
  obtain ⟨hdropped, hread, hhost⟩ := hports.host
  have hinput : (heldBy i s t).taken ++ (if t.sawEnd then [] else t.inPort ++ more) = s.inPort ++ newInput t more := by
    rw [newInput, ← h.taken]
    cases hend : t.sawEnd with
    | true => simp [h.ended hend]
    | false => simp
  have hengine : ({ s.toEngine with cmdDropped := t.cmdDropped } : Engine) = s.toEngine := by rw [hdropped]
  show ({ toEngine := { s.toEngine with cmdDropped := t.cmdDropped }, params := t.params
          inPort := (heldBy i s t).taken ++ (if t.sawEnd then [] else t.inPort ++ more), inClosed := closed, outPort := []
          outRoom := room.map (· + (t.outPort.length - s.outPort.length)), held := none, sawEnd := false, draws := t.draws
          hostRead := t.hostRead, host := t.host } : State) = _
  rw [hengine, hinput, hports.params, hdraws, hread, hhost, ← h.held, ← h.sawEnd]
  rfl

/-- The run with what the host has added passes the point where the command held. -/
theorem passes (h : Pauses i s t) (hclosed : s.inClosed = true → closed = true)
    (hv : exec i (goesOn s t more closed room) = .next v) : ∃ g, v.outPort = t.outPort ++ g := by
  have hwithin : (withMore True (newInput t more) closed room t.outPort.length).within (after (stepsOf i s)) := by
    rw [h.hold]
    exact ⟨le_refl _, fun _ hend => if_pos hend⟩
  have hrel : (withMore True (newInput t more) closed room t.outPort.length).rel s (goesOn s t more closed room) :=
    ⟨rfl, hclosed⟩
  have hsame := (steps_twin withMore_atEnd i).same hrel hwithin
  rw [h.hold] at hsame
  have hgrown : ∃ g, (after (stepsOf i (goesOn s t more closed room))).outPort = t.outPort ++ g := by
    rcases hsame with ⟨w, hw, rfl, -⟩ | hwait
    · rw [hw]
      exact ⟨[], (List.append_nil _).symm⟩
    · exact hwait.1.1
  rcases exec_ends h.reset hv with ⟨a, ha, rfl⟩ | ⟨e, a, ha, rfl⟩ | ⟨a, ha, rfl⟩ <;> rw [ha] at hgrown <;> exact hgrown

/-- The engine's turn: the run with what the host has added, and what came behind an end already seen left in the port. -/
theorem engineTurn_eq (h : Pauses i s t) (hclosed : s.inClosed = true → closed = true)
    (hv : exec i (goesOn s t more closed room) = .next v) :
    engineTurn { suspend i s t with inPort := t.inPort ++ more, inClosed := closed, outRoom := room } =
      .next { v with inPort := v.inPort ++ if t.sawEnd then more else [] } := by
  obtain ⟨g0, hg0⟩ := h.went.grown.1
  obtain ⟨g, hg⟩ := h.passes hclosed hv
  have hrun := exec_withoutOutput h.reset hv
  rw [← h.rewind_eq] at hrun
  show resume (heldBy i s t) _ = _
  rw [resume, show (heldBy i s t).instr = i from rfl, hrun]
  have hout : t.outPort ++ (v.outPort.drop s.outPort.length).drop (t.outPort.length - s.outPort.length) = v.outPort := by
    rw [List.drop_drop, hg, List.drop_append_of_le_length (by rw [hg0]; simp), hg0]
    simp
  have hlate : (if t.sawEnd then t.inPort ++ more else []) = if t.sawEnd then more else [] := by
    cases hend : t.sawEnd with
    | true => simp [h.ended hend]
    | false => rfl
  show Host.Outcome.next { v with
    inPort := v.inPort ++ if t.sawEnd then t.inPort ++ more else []
    outPort := t.outPort ++ (v.outPort.drop s.outPort.length).drop (t.outPort.length - s.outPort.length) } = _
  rw [hout, hlate]

end Pauses

/-- Settles O20: the engine's turn is the run from the accepted state with what the host has added (`engineTurn_eq`). -/
theorem holdIsTransparent : Obligations.HoldIsTransparent := by
  intro i s t c more closed room hp hb hd hn he hi hexec hheld hclosed
  obtain ⟨u, hpause, rfl, rfl⟩ := pauses_of_held hi hb hd hn he hexec hheld
  refine ⟨fun hend => ?_, fun hend v hv => ?_⟩
  · have hopen : u.sawEnd = false := hend
    obtain ⟨v, hv⟩ := neverStops i (Pauses.goesOn s u more closed room) hp
    have hturn := hpause.engineTurn_eq hclosed hv
    rw [hopen, if_neg Bool.false_ne_true, List.append_nil] at hturn
    exact hturn.trans (Pauses.goesOn_of_open hopen ▸ hv.symm)
  · have hended : u.sawEnd = true := hend
    have hturn := hpause.engineTurn_eq (more := more) hclosed (Pauses.goesOn_of_ended hended ▸ hv)
    rw [hended, if_pos rfl] at hturn
    exact hturn

end

end Sys2Proof.Machine
end
